-- ==== Sys2Proof/Word.lean ====
section
/-! DEFINITION. The words of the station: bytes and 16-bit words of frames and port records, node addresses, tags, and coil
identifiers (00_scope.md, Conventions; 11_frame_record_and_command_layouts.md, R213). -/

namespace Sys2Proof

/-- One byte of a frame, a stream record or a port record (R213). -/
abbrev Byte := BitVec 8

/-- A two-byte CRC or field (R181, R164). -/
abbrev Word16 := BitVec 16

/-- A node address 0 to 31; 0 is the broadcast destination (R179). -/
abbrev Node := BitVec 5

/-- A tag, 0 to 65,535 (R132, R180). -/
abbrev Tag := BitVec 16

/-- A coil identifier: its characters, 1 to 16 of them; the empty list is the absent identifier (00_scope.md, Coil identifiers). -/
abbrev CoilId := List Byte

end Sys2Proof
end

