-- ==== Sys2Proof/Config.lean ====
section
/-! DEFINITION. The free values: constants without a body for what the spec leaves open. Nothing can evaluate them, so a claim
holds whatever they are. State.free counts the fresh ones taken. -/

namespace Sys2Proof.Config

/-- Which of the station's own events due at one moment is taken first: the spec lets "either" be taken first (R5, R12, R208).
Applied to the counter of free values; taken modulo the number of events due. Log entry 3. -/
opaque arrivalOrder : Nat → Nat

/-- How long after its order a suspension completes, in microseconds: R75 bounds it by 0.2 ms and leaves the rest open.
Applied to the counter of free values; taken modulo 201. Log entry 9. -/
opaque suspendDelay : Nat → Nat

/-- Which of several segments that wait for erase is erased first: R74 orders keep segments before data segments and no more.
Applied to the counter of free values; taken modulo their number. Log entry 32. -/
opaque eraseOrder : Nat → Nat

/-- The exit pulse total after a pulse counted at 2^48 − 1: R11 gives the width and no result there. Log entry 8. -/
opaque exitTotalBeyond : Nat → BitVec 48

/-- Byte i of the coil ID field of the KEPT that answers a KEEP or UNKEEP with a malformed ID: R214 gives its status only.
Applied to the field received. Log entry 23. -/
opaque malformedIdEcho : List Byte → Nat → Byte

end Sys2Proof.Config
end

