-- ==== Sys2Proof/Syntax.lean ====
section
/-! DEFINITION. The commands: one constructor of Instr per row of spec/opcode_table.json. A command of the process port carries the
field bytes that follow its code and length (R219, R220); a received frame carries its header fields, payload and CRC bytes (R215). -/

namespace Sys2Proof

/-- A frame as it stands on the pair between its delimiters, less its kind byte (the row names the kind) and its length byte (the
length of the payload) (R215). -/
structure Frame where
  /-- Destination byte. -/
  dest : Byte
  /-- Source byte. -/
  src : Byte
  /-- Tag. -/
  tag : Tag
  /-- Payload bytes. -/
  payload : List Byte
  /-- The two CRC bytes received. -/
  crc : Word16
deriving DecidableEq, Repr

/-- Who holds a locate: a fetch slot or the retention unit's head task (07_pulls.md, section 7.3). -/
inductive LocateHolder where
  /-- Fetch slot k. -/
  | slot (k : Fin 8)
  /-- The head propagation task. -/
  | task
deriving DecidableEq, Repr

/-- The commands of the block: spec/opcode_table.json, row by row. -/
inductive Instr where
  /-- RESET (R200): the strap pins and the raw input levels at the reset. -/
  | reset (strap : BitVec 5) (raw : BitVec 12)
  /-- RAW_INPUT_CHANGE (R1): input TIk's raw level becomes the level given (true is HIGH). -/
  | rawInputChange (input : Fin 12) (level : Bool)
  /-- FILTERED_CHANGE (R1): the filter time of input TIk's pending change has run. -/
  | filteredChange (input : Fin 12)
  /-- EXIT_PULSE (R9): the direction input is HIGH (forward) or not. -/
  | exitPulse (forward : Bool)
  /-- ENTRY_PULSE (R9): the direction input is HIGH (forward) or not. -/
  | entryPulse (forward : Bool)
  /-- READ_EVENTS (R208). -/
  | readEvents (fields : List Byte)
  /-- PEEK_EVENTS (R209). -/
  | peekEvents (fields : List Byte)
  /-- SET_ENABLES (R207). -/
  | setEnables (fields : List Byte)
  /-- READ_STATE (R210). -/
  | readState (fields : List Byte)
  /-- CONFIGURE (R202). -/
  | configure (fields : List Byte)
  /-- START (R204). -/
  | start (fields : List Byte)
  /-- RESTART (R205). -/
  | restart (fields : List Byte)
  /-- READ_LAST_COIL (R211). -/
  | readLastCoil (fields : List Byte)
  /-- ANNOUNCE (R19). -/
  | announce (fields : List Byte)
  /-- NAME_EXIT (R28). -/
  | nameExit (fields : List Byte)
  /-- SAMPLE (R46). -/
  | sample (fields : List Byte)
  /-- FREEZE (R100). -/
  | freeze (fields : List Byte)
  /-- AMEND_OPEN (R103). -/
  | amendOpen (fields : List Byte)
  /-- AMEND_RENAME (R105). -/
  | amendRename (fields : List Byte)
  /-- AMEND_COMMIT (R106). -/
  | amendCommit (fields : List Byte)
  /-- AMEND_CANCEL (R109). -/
  | amendCancel (fields : List Byte)
  /-- AMEND_CLEAR (R109). -/
  | amendClear (fields : List Byte)
  /-- UNKNOWN_COMMAND (R198): a code outside 01H to 11H. -/
  | unknownCommand (code : Byte) (fields : List Byte)
  /-- TRANSACTION_ABORT (R198): the bytes clocked in before chip-select was released. -/
  | transactionAbort (bytes : List Byte)
  /-- SCAN_PAGE_READ (R87): the page read at the scan's position completes; failed says that the page as read fails its check value. -/
  | scanPageRead (failed : Bool)
  /-- SCAN_END (R89). -/
  | scanEnd
  /-- DATA_PAGE_WRITE (R67). -/
  | dataPageWrite
  /-- PAGE_WRITE_COMPLETE (R68). -/
  | pageWriteComplete
  /-- PAGE_READ_START (R74). -/
  | pageReadStart
  /-- RECORD_READ_COMPLETE (R141); failed says that the page as read fails its check value. -/
  | recordReadComplete (failed : Bool)
  /-- CELL_PAGE_READ_COMPLETE (R144); failed as above. -/
  | cellPageReadComplete (failed : Bool)
  /-- AMEND_READ_COMPLETE (R103); failed as above. -/
  | amendReadComplete (failed : Bool)
  /-- KEEP_IMAGE_WRITE (R85). -/
  | keepImageWrite
  /-- KEEP_IMAGE_WRITE_COMPLETE (R86). -/
  | keepImageWriteComplete
  /-- ERASE_BEGIN (R74). -/
  | eraseBegin
  /-- ERASE_SUSPEND_ORDER (R75). -/
  | eraseSuspendOrder
  /-- ERASE_SUSPEND_COMPLETE (R75). -/
  | eraseSuspendComplete
  /-- ERASE_RESUME (R76). -/
  | eraseResume
  /-- ERASE_COMPLETE (R76). -/
  | eraseComplete
  /-- SEEK (R133), a frame received on the pair, as the eleven rows after it. -/
  | seek (frame : Frame)
  /-- OWN (R135). -/
  | own (frame : Frame)
  /-- PULL (R138). -/
  | pull (frame : Frame)
  /-- BINS (R149). -/
  | bins (frame : Frame)
  /-- MARK (R167). -/
  | mark (frame : Frame)
  /-- DONE (R151). -/
  | done (frame : Frame)
  /-- WAIT (R169). -/
  | wait (frame : Frame)
  /-- GO (R170). -/
  | go (frame : Frame)
  /-- STOP (R155). -/
  | stop (frame : Frame)
  /-- KEEP (R93). -/
  | keep (frame : Frame)
  /-- UNKEEP (R95). -/
  | unkeep (frame : Frame)
  /-- KEPT (R97). -/
  | kept (frame : Frame)
  /-- FRAME_DISCARDED (R182): the bytes between the delimiters, CRC bytes among them; delimited says that an end delimiter was taken. -/
  | frameDiscarded (delimited : Bool) (bytes : List Byte)
  /-- LOCATE_WINDOW_EXPIRY (R136). -/
  | locateWindowExpiry (holder : LocateHolder)
  /-- REPLY_WINDOW_EXPIRY (R97). -/
  | replyWindowExpiry
  /-- SILENCE_TIMEOUT (R176) of a fetch slot. -/
  | silenceTimeout (slot : Fin 8)
  /-- DRAIN_TIMEOUT (R152) of a fetch slot. -/
  | drainTimeout (slot : Fin 8)
  /-- PAUSE_LIMIT (R171) of a pull context. -/
  | pauseLimit (context : Fin 6)
  /-- STAGING_AGE_EXPIRY (R67). -/
  | stagingAgeExpiry
  /-- RELAY_ROOM_RESUME (R172) of a pull context. -/
  | relayRoomResume (context : Fin 6)
  /-- ACCESS_WON (R188). -/
  | accessWon
  /-- LOOPBACK_DATA_FRAME (R185) of a pull context. -/
  | loopbackDataFrame (context : Fin 6)
  /-- FRAME_SENT (R190). -/
  | frameSent
  /-- READBACK_MISMATCH (R189). -/
  | readbackMismatch
  /-- CARRIER_SEEN (R188). -/
  | carrierSeen
deriving DecidableEq, Repr

end Sys2Proof
end

