-- ==== Sys2Proof/WellFormed.lean ====
section
/-! DEFINITION. Which commands are well formed as syntax: what the port's length field, the frame's length byte and the rows
themselves bound. The machine does not consult it: every command has a meaning; a statement may take it as a premise. -/

namespace Sys2Proof

/-- The field length of a port command is an unsigned two-byte number (R219). -/
def fieldsWellFormed (fields : List Byte) : Bool := fields.length < 65536

/-- The payload length of a frame is 0 to 240 (R180). -/
def Frame.wellFormed (f : Frame) : Bool := f.payload.length ≤ 240

/-- The codes 01H to 11H name a command (R220). -/
def namesCommand (code : Byte) : Bool := 1 ≤ code.toNat && code.toNat ≤ 17

/-- A record is incomplete while fewer than 3 + ℓ bytes of it were received, ℓ from its bytes 1 and 2 (R220). -/
def incompleteRecord (bytes : List Byte) : Bool :=
  match bytes with
  | _ :: hi :: lo :: rest => rest.length < hi.toNat * 256 + lo.toNat
  | _ => true

/-- Well-formedness of a command. -/
def Instr.wellFormed (i : Instr) : Bool :=
  match i with
  | .readEvents fs | .peekEvents fs | .setEnables fs | .readState fs | .configure fs | .start fs | .restart fs
  | .readLastCoil fs | .announce fs | .nameExit fs | .sample fs | .freeze fs | .amendOpen fs | .amendRename fs
  | .amendCommit fs | .amendCancel fs | .amendClear fs => fieldsWellFormed fs
  | .unknownCommand code fs => !namesCommand code && fieldsWellFormed fs
  | .transactionAbort bytes => incompleteRecord bytes
  | .seek f | .own f | .pull f | .bins f | .mark f | .done f | .wait f | .go f | .stop f | .keep f | .unkeep f
  | .kept f => f.wellFormed
  | .reset _ _ | .rawInputChange _ _ | .filteredChange _ | .exitPulse _ | .entryPulse _ | .scanPageRead _ | .scanEnd
  | .dataPageWrite | .pageWriteComplete | .pageReadStart | .recordReadComplete _ | .cellPageReadComplete _
  | .amendReadComplete _ | .keepImageWrite | .keepImageWriteComplete | .eraseBegin | .eraseSuspendOrder
  | .eraseSuspendComplete | .eraseResume | .eraseComplete | .frameDiscarded _ _ | .locateWindowExpiry _
  | .replyWindowExpiry | .silenceTimeout _ | .drainTimeout _ | .pauseLimit _ | .stagingAgeExpiry | .relayRoomResume _
  | .accessWon | .loopbackDataFrame _ | .frameSent | .readbackMismatch | .carrierSeen => true

end Sys2Proof
end

