-- ==== Sys2Proof/Decode.lean ====
section
/-! DEFINITION. The decoder over the rows of the table that give bits. No row of this block's table gives any: a command is a whole
operation or event, not a word. -/

namespace Sys2Proof

/-- The command that a word spells by the table's bits: none, since no row of spec/opcode_table.json gives bits. Log entry 35. -/
def decodeTableWord (_nbits _w : Nat) : Option Instr := none

end Sys2Proof
end

