-- ==== Sys2Proof/Machine/State.lean ====
section
/-! DEFINITION. The state of the station as plain data, block by block as 00_scope.md lists the blocks, and State.reset. Moments are
microseconds of State.now; lengths are whole centimetres; where the spec bounds a count, the operations keep the bound. -/

namespace Sys2Proof.Machine

/-- A condition that would stop the machine. The spec names none: every command has an effect, is refused with a result code that
the response carries, or is ignored. No meaning raises one, so there is no constructor. Safe. -/
inductive Fault : Type

/-- A command without a meaning. -/
inductive Refusal where
  /-- Raised by exec's arm of a command that has no meaning yet, by its mnemonic; no arm raises it now. Safe. -/
  | notModelled (mnemonic : String)
deriving DecidableEq, Repr

/-! ### Tracking input unit (01_line_inputs_and_the_run_coordinate.md) -/

/-- The match pattern and mask of one event kind; bit k stands for TIk (R3, R221). -/
structure MatchPair where
  pattern : BitVec 12
  mask : BitVec 12
deriving DecidableEq, Repr

/-- The five pattern and mask pairs (R3, R202). -/
structure MatchPairs where
  entryWeld : MatchPair
  exitWeld : MatchPair
  exitCut : MatchPair
  stripBreak : MatchPair
  lineHalt : MatchPair
deriving DecidableEq, Repr

/-- The previous-match states of the four edge kinds; true is MATCHING (R4). -/
structure PrevMatch where
  entryWeld : Bool
  exitWeld : Bool
  exitCut : Bool
  stripBreak : Bool
deriving DecidableEq, Repr

/-- A pending change: when it began and the filter time in force then (R1, R2). -/
structure PendingChange where
  began : Nat
  filterMs : Nat
deriving DecidableEq, Repr

/-- The tracking input unit (R15). -/
structure Tiu where
  raw : BitVec 12
  filtered : BitVec 12
  changes : Vector (Option PendingChange) 12
  filterMs : Nat
  pairs : MatchPairs
  prev : PrevMatch
  halted : Bool
  exitWeight : Nat
  entryWeight : Nat
  exitTotal : BitVec 48
  /-- The exit pulse total has gone past its width: the run coordinate holds at its greatest (R11; log entry 8). -/
  exitOver : Bool
  entryCount : Nat
  runOrigin : Nat
deriving DecidableEq, Repr

/-! ### Coil assembler (02_coil_assembly.md) -/

/-- An entry of the input coil table (R18). -/
structure InputCoil where
  seq : Nat
  id : CoilId
  lin : Option Nat
  long : Bool
  w0 : Option Nat
  estimated : Bool
deriving DecidableEq, Repr

/-- A weld in transit: the ending coil (none is the unknown coil) and the starting coil's sequence (R22). -/
structure Weld where
  ending : Option Nat
  starting : Nat
deriving DecidableEq, Repr

/-- A pending exit boundary (R23). -/
structure Boundary where
  w : Nat
  starting : Nat
  estimated : Bool
deriving DecidableEq, Repr

/-- The flags of an output coil and its record (R40, R217). -/
structure CoilFlags where
  incomplete : Bool
  broken : Bool
  forced : Bool
  noTrend : Bool
  stationNamed : Bool
  frozen : Bool
  amended : Bool
  overflow : Bool
deriving DecidableEq, Repr

/-- All flags clear (R27). -/
def CoilFlags.clear : CoilFlags := ⟨false, false, false, false, false, false, false, false⟩

/-- A parent segment of a closed coil: the input sequence, absent for an untracked stretch, over [t0, t1) (R40). -/
structure ParentSegment where
  ref : Option Nat
  t0 : Nat
  t1 : Nat
deriving DecidableEq, Repr

/-- A segment of an open coil: it ends where the next begins (R26, R27). -/
structure OpenSegment where
  ref : Option Nat
  t0 : Nat
deriving DecidableEq, Repr

/-- The open output coil of a lane (R27). -/
structure OpenCoil where
  lane : Nat
  seq : Nat
  c0 : Nat
  segments : List OpenSegment
  further : Nat
  flags : CoilFlags
deriving DecidableEq, Repr

/-- An output record (R40). The pitch is the one the coil's cells have (R58, R59); the table of R40 does not list it: log entry 14. -/
structure OutputRecord where
  seq : Nat
  id : CoilId
  lane : Option Nat
  c0 : Nat
  c1 : Nat
  segments : List ParentSegment
  further : Nat
  flags : CoilFlags
  revision : Nat
  pitch : Nat
deriving DecidableEq, Repr

/-- An input record (R39). -/
structure InputRecord where
  seq : Nat
  id : CoilId
  lin : Nat
  w0 : Nat
  w1 : Nat
  estimated : Bool
  long : Bool
  amended : Bool
  revision : Nat
deriving DecidableEq, Repr

/-- The coil assembler (R17 to R43). Role none is the unknown coil. -/
structure Ca where
  inSeq : Nat
  outSeq : Nat
  entryQueue : List CoilId
  table : List InputCoil
  entryCoil : Option Nat
  exitCoil : Option Nat
  welds : List Weld
  boundaries : List Boundary
  openCoils : List OpenCoil
  names : Vector CoilId 8
  closing : List OutputRecord
  lastCoil : Option OutputRecord
  laneCount : Nat
  dw : Nat
deriving DecidableEq, Repr

/-! ### Cell accumulator (03_trend_channels_and_cells.md) -/

/-- A channel descriptor (R44); the unit is its code (R217). -/
structure Channel where
  name : List Byte
  unit : Byte
  scale : Int
  lag : Nat
deriving DecidableEq, Repr

/-- One channel's entry of a cell (R49 to R51). -/
structure CellEntry where
  count : Nat
  sum : Int
  least : Option Int
  greatest : Option Int
  sat : Bool
deriving DecidableEq, Repr

/-- An entry as a cell comes into the window (R49). -/
def CellEntry.empty : CellEntry := ⟨0, 0, none, none, false⟩

/-- A retired cell in the staging buffer (R54); current says that it retired since the last START or RESTART (R57). -/
structure StagedCell where
  index : Nat
  pitch : Nat
  entries : List CellEntry
  retired : Nat
  current : Bool
deriving DecidableEq, Repr

/-- The cell accumulator (R61). The window lists only the cells that are not empty, by index. -/
structure Cx where
  channels : List Channel
  pitch : Nat
  allowance : Nat
  front : Option Nat
  window : List (Nat × List CellEntry)
  staging : List StagedCell
deriving DecidableEq, Repr

/-! ### Retention unit (05_keeps_freezes_and_amendments.md) -/

/-- A keep list entry (R92); keptPartial is the state PARTIAL. -/
structure KeepEntry where
  id : CoilId
  node : Node
  number : Nat
  keptPartial : Bool
deriving DecidableEq, Repr

/-- The kind of a propagation task (R94, R95). -/
inductive TaskKind where
  | keep
  | unkeep
deriving DecidableEq, Repr

/-- A propagation task (R94). -/
structure Task where
  parent : CoilId
  node : Node
  number : Nat
  kind : TaskKind
  source : CoilId
deriving DecidableEq, Repr

/-- The status of an OWN (R133). -/
inductive OwnStatus where
  | stored
  | closing
  | opened
  | expired
deriving DecidableEq, Repr

/-- One answer in a locate collection (R135). -/
structure OwnAnswer where
  node : Node
  status : OwnStatus
  length : Nat
deriving DecidableEq, Repr

/-- A locate: the moment its window began, none before the SEEK is finished, and its collection (R134, R135). -/
structure Locate where
  began : Option Nat
  answers : List OwnAnswer
deriving DecidableEq, Repr

/-- The phase of the head task (R96, R97); began is the moment the reply window began. -/
inductive TaskPhase where
  | locating (locate : Locate)
  | awaiting (owner : Node) (began : Option Nat)
deriving DecidableEq, Repr

/-- The head task's tag and phase. -/
structure TaskHead where
  tag : Tag
  phase : TaskPhase
deriving DecidableEq, Repr

/-- The lock causes (section 5.5). -/
inductive LockCause where
  | mismatch
  | frozen
  | kept
  | writeFailed
  | expired
  | readFailed
deriving DecidableEq, Repr

/-- The kind of an amendment (R103). -/
inductive AmendKind where
  | output
  | input
deriving DecidableEq, Repr

/-- A stored genealogy record, of either kind. -/
inductive StoredRecord where
  | output (r : OutputRecord)
  | input (r : InputRecord)
deriving DecidableEq, Repr

/-- The record under amendment with its ID at opening, and the working copy: its ID and, once read, the stored record (R103). -/
structure Amending where
  kind : AmendKind
  seq : Nat
  openedId : CoilId
  newId : CoilId
  copy : Option StoredRecord
deriving DecidableEq, Repr

/-- The amendment state (section 5.5). -/
inductive AmendState where
  | closed
  | opened (a : Amending)
  | committing (a : Amending)
  | locked (cause : LockCause)
deriving DecidableEq, Repr

/-- The retention unit. -/
structure Ru where
  keeps : List KeepEntry
  tasks : List Task
  head : Option TaskHead
  freezes : List Nat
  amend : AmendState
deriving DecidableEq, Repr

/-! ### Archive controller and the attached flash (04_the_coil_archive.md) -/

/-- An item of the write queue (R66). An amended output record carries the ID it had before (R108). -/
inductive WriteItem where
  | input (r : InputRecord)
  | output (r : OutputRecord)
  | freezeMark (seq : Nat) (id : CoilId)
  | amendedInput (r : InputRecord)
  | amendedOutput (r : OutputRecord) (oldId : CoilId)
deriving DecidableEq, Repr

/-- A thing placed in a data page: a cell block (pitch, first index, cells) or an item (R65). -/
inductive PageItem where
  | cells (pitch : Nat) (first : Nat) (block : List (List CellEntry))
  | item (w : WriteItem)
deriving DecidableEq, Repr

/-- A page that is not erased (R65): the header's sequence and the contents. Its numbers are its key. -/
inductive Page where
  | data (segSeq : Nat) (items : List PageItem)
  | keep (imageSeq : Nat) (entries : List KeepEntry)
  | torn
deriving DecidableEq, Repr

/-- The attached flash: the pages that are not erased, by segment × 256 + page, keys strictly rising; and the segments whose erase
was cut off (R64, R65, R76). -/
structure Flash where
  pages : List (Nat × Page)
  partlyErased : List Nat
deriving DecidableEq, Repr

/-- The states of a data segment other than FREE (R64). -/
inductive SegState where
  | active
  | used
  | chosen
  | erasing
deriving DecidableEq, Repr

/-- A cell by index and pitch (R58). -/
structure CellName where
  index : Nat
  pitch : Nat
deriving DecidableEq, Repr

/-- The lowest and the highest index of a segment's cells of one pitch (R64; log entry 15). -/
structure CellRange where
  pitch : Nat
  lowest : Nat
  highest : Nat
deriving DecidableEq, Repr

/-- A segment table entry of a data segment that is not FREE (R64); its cell range is kept for each pitch (log entry 15). -/
structure SegEntry where
  num : Nat
  state : SegState
  seq : Nat
  written : Nat
  cells : List CellRange
deriving DecidableEq, Repr

/-- The states of a keep segment (R64). -/
inductive KeepSegState where
  | current
  | spare
  | stale
  | erasing
deriving DecidableEq, Repr

/-- A keep segment (R64, R86). -/
structure KeepSeg where
  state : KeepSegState
  written : Nat
deriving DecidableEq, Repr

/-- A place in the archive: segment, page, and place in the page (R69). -/
structure Loc where
  seg : Nat
  page : Nat
  place : Nat
deriving DecidableEq, Repr

/-- An output entry of the directory (R69), with the pitch of its cells (log entry 14) and its freeze marks' segments. -/
structure OutEntry where
  id : CoilId
  seq : Nat
  loc : Loc
  revision : Nat
  c0 : Nat
  c1 : Nat
  lane : Option Nat
  flags : CoilFlags
  firstBlock : Option Loc
  refs : List (Option Nat)
  segSet : List Nat
  freezeSegs : List Nat
  pitch : Nat
deriving DecidableEq, Repr

/-- An input entry of the directory (R69); its segment set is the segment of its record. -/
structure InEntry where
  seq : Nat
  loc : Loc
  revision : Nat
  id : CoilId
  lin : Nat
  w0 : Nat
  w1 : Nat
  estimated : Bool
  long : Bool
deriving DecidableEq, Repr

/-- Who asked for a page read, and for what (R73, R103, R141, R144). -/
inductive Reader where
  | record (context : Fin 6)
  | cells (context : Fin 6)
  | amend
deriving DecidableEq, Repr

/-- A page read (R73). -/
structure ReadRequest where
  seg : Nat
  page : Nat
  reader : Reader
deriving DecidableEq, Repr

/-- The page read in progress; discarded says that its asker is gone (R73). -/
structure Reading where
  request : ReadRequest
  began : Nat
  discarded : Bool
deriving DecidableEq, Repr

/-- The data page being written: where, its contents, how many staged cells it holds, since when (R67). -/
structure PageWrite where
  seg : Nat
  page : Nat
  items : List PageItem
  cells : Nat
  began : Nat
deriving DecidableEq, Repr

/-- The keep image being written (R85, R86). -/
structure KeepWrite where
  seg : Fin 2
  page : Nat
  imageSeq : Nat
  entries : List KeepEntry
  began : Nat
deriving DecidableEq, Repr

/-- Whether an erase runs, has its suspension ordered, or is suspended (R75): the moment of the order, and the moment the
suspension completes if left to itself. -/
inductive ErasePhase where
  | running
  | suspending (ordered complete : Nat)
  | suspended
deriving DecidableEq, Repr

/-- The erase: its total up to since, and since, the moment it began or last resumed (R75). -/
structure Erase where
  seg : Nat
  phase : ErasePhase
  total : Nat
  since : Nat
deriving DecidableEq, Repr

/-- The storage stages (section 4.6). -/
inductive Stage where
  | normal
  | recordOnly
  | full
deriving DecidableEq, Repr

/-- The kind of the last read or data write granted (R74). -/
inductive Served where
  | none
  | read
  | write
deriving DecidableEq, Repr

/-- The start-up scan: the page it reads, since when, the pages (by key) whose read failed, and whether every page is read (R87). -/
structure Scan where
  seg : Nat
  page : Nat
  began : Nat
  failed : List Nat
  done : Bool
deriving DecidableEq, Repr

/-- The archive controller. -/
structure Ar where
  segs : List SegEntry
  keepSegs : Vector KeepSeg 2
  segSeq : Nat
  imageSeq : Nat
  outs : List OutEntry
  ins : List InEntry
  expired : List CoilId
  writeQueue : List WriteItem
  readQueue : List ReadRequest
  pageWrite : Option PageWrite
  reading : Option Reading
  keepReady : Bool
  keepWrite : Option KeepWrite
  erase : Option Erase
  lastServed : Served
  stage : Stage
  activationWaits : Bool
  scan : Option Scan
deriving DecidableEq, Repr

/-! ### Pull engine and burst unit (06_grid_arithmetic.md, 07_pulls.md, 08_bursts_and_flow_control.md) -/

/-- A grid, in fine units: origin, step, first bin, bin count, clip (R117). -/
structure Grid where
  o : Int
  s : Int
  f : Nat
  n : Nat
  u0 : Int
  u1 : Int
deriving DecidableEq, Repr

/-- A bin accumulator (R128). -/
structure Accum where
  cells : Nat
  count : Nat
  least : Option Int
  greatest : Option Int
  sum : Int
  saturated : Bool
  /-- A cell was refused at step 3 of R129, so that count and sum stand (R130; log entry 50). -/
  refused : Bool
deriving DecidableEq, Repr

/-- The starting values of R128. -/
def Accum.zero : Accum := ⟨0, 0, none, none, 0, false, false⟩

/-- The two forms of a PULL (R137). -/
inductive PullForm where
  | origin (a b n : Nat)
  | mapped (lin : Nat) (grid : Grid)
deriving DecidableEq, Repr

/-- The segment statuses in the order of a DONE's counts (R153). -/
inductive SegStatus where
  | ok
  | estimated
  | pending
  | untraced
  | notFound
  | expired
  | ambiguous
  | busy
  | timeout
  | depth
  | closing
  | opened
deriving DecidableEq, Repr

/-- The statuses of a DONE (R215). -/
inductive DoneStatus where
  | complete
  | stopped
  | abandoned
  | busy
  | notReady
  | notFound
  | expired
  | closing
  | opened
  | badRequest
deriving DecidableEq, Repr

/-- The kinds of a first error (R154). -/
inductive ErrorKind where
  | none
  | burstCrc
  | burstSeq
  | burstCount
deriving DecidableEq, Repr

/-- A first error: kind, station, level (R154). -/
structure FirstError where
  kind : ErrorKind
  station : Byte
  level : Byte
deriving DecidableEq, Repr

/-- No first error: sent with station and level 0 (R215). -/
def FirstError.clear : FirstError := ⟨.none, 0, 0⟩

/-- A stream record of 28 bytes, as it is sent (R217, R218). -/
abbrev RecordBytes := List Byte

/-- An open outgoing burst (R159). -/
structure OpenBurst where
  frames : Nat
  records : Nat
  crc : Word16
deriving DecidableEq, Repr

/-- What a context has read of an input entry for a fetch: its ID, Lin and flags, and the hopped grid (R145, R146, R147). -/
structure FetchPlan where
  parent : CoilId
  lin : Nat
  grid : Grid
  estimated : Bool
  long : Bool
deriving DecidableEq, Repr

/-- The states of a context other than FREE (R139). -/
inductive CtxPhase where
  | resolve
  | localRecords
  | segments
  | closing
deriving DecidableEq, Repr

/-- A pull context that is not FREE (R139, R159). -/
structure PullContext where
  requester : Node
  tag : Tag
  coil : CoilId
  form : PullForm
  level : Nat
  depth : Nat
  phase : CtxPhase
  /-- The result its DONE carries (R153). -/
  result : DoneStatus
  /-- The copy of the directory entry taken at RESOLVE (R140). -/
  entry : Option OutEntry
  /-- The copy of the output record (R141). -/
  record : Option OutputRecord
  grid : Option Grid
  clamped : Bool
  /-- Accumulators: for each bin of the grid, one per channel (R128). -/
  accums : List (List Accum)
  /-- The pin: the segment set as it stood when it was placed (R141). -/
  pin : Option (List Nat)
  /-- The cell page asked for last (R144). -/
  readAt : Option (Nat × Nat)
  /-- The reading of cells has ended (R144). -/
  cellsRead : Bool
  /-- How many of its own records are in or past the relay buffer (R142 to R144, R172). -/
  placed : Nat
  relay : List RecordBytes
  /-- The segment cursor: how many parent segments are begun (R145). -/
  cursor : Nat
  /-- The fetch begun, its hopped grid held until the fetch ends (R146 against R124, log entry 52). -/
  fetch : Option FetchPlan
  slot : Option (Fin 8)
  counts : Vector Nat 12
  firstError : FirstError
  /-- The paused mark with the moment its pause limit began (R169). -/
  paused : Option Nat
  burstSeq : BitVec 8
  burst : Option OpenBurst
deriving DecidableEq, Repr

/-- The flow state towards the owner (R173). -/
inductive Flow where
  | running
  | waitOwed
  | waited
  | releasing
deriving DecidableEq, Repr

/-- What a PULLING slot holds (R149, R165, R173, R176): silence is the moment its timer began, none while it stands. -/
structure Pulling where
  expected : BitVec 8
  received : Nat
  crc : Word16
  flow : Flow
  silence : Option Nat
  relayOpen : Bool
deriving DecidableEq, Repr

/-- The states of a slot other than FREE (R146). A SEEKING slot has no locate once the owner is found; a DRAINING slot holds the
moment its STOP left, none before. -/
inductive SlotPhase where
  | seeking (locate : Option Locate)
  | pulling (p : Pulling)
  | draining (left : Option Nat)
deriving DecidableEq, Repr

/-- A fetch slot that is not FREE (R146). It holds the hopped grid until it is FREE again, as R146 lists it, against R124 (log entry 52). -/
structure FetchSlot where
  context : Option (Fin 6)
  tag : Tag
  parent : CoilId
  grid : Grid
  lin : Nat
  estimated : Bool
  long : Bool
  owner : Option Node
  phase : SlotPhase
deriving DecidableEq, Repr

/-- The pull engine; none is FREE. -/
structure Pe where
  contexts : Vector (Option PullContext) 6
  slots : Vector (Option FetchSlot) 8
  waiting : List (Fin 6)
  tagCounter : Tag
deriving DecidableEq, Repr

/-! ### Bus interface (09_the_trend_bus.md) -/

/-- The twelve frame kinds (R180). -/
inductive FrameKind where
  | seek
  | own
  | pull
  | bins
  | mark
  | done
  | wait
  | go
  | stop
  | keep
  | unkeep
  | kept
deriving DecidableEq, Repr

/-- The two classes of frames of the control queue (R191). -/
inductive FrameClass where
  | context
  | general
deriving DecidableEq, Repr

/-- The block that a finished frame is reported to (R190). -/
inductive FrameOwner where
  | nobody
  | slot (k : Fin 8)
  | task
  | context (c : Fin 6)
deriving DecidableEq, Repr

/-- A frame offered to the bus interface (R180, R191). -/
structure OutFrame where
  dest : Node
  kind : FrameKind
  tag : Tag
  payload : List Byte
  cls : FrameClass
  owner : FrameOwner
deriving DecidableEq, Repr

/-- The transmit path (R193): control says that the frame holds the head of the control queue. -/
structure Transmit where
  frame : OutFrame
  bytes : List Byte
  control : Bool
  began : Nat
deriving DecidableEq, Repr

/-- The bus interface (R195). Silence none is carrier on the pair; looped holds the frames of the loopback not yet handed over. -/
structure Bi where
  node : Node
  lastSource : Node
  silence : Option Nat
  pointer : Fin 6
  queue : List OutFrame
  offers : List OutFrame
  tx : Option Transmit
  looped : List OutFrame
deriving DecidableEq, Repr

/-! ### Process port (10_process_port_configuration_and_start_up.md) -/

/-- The station states (R200). -/
inductive Station where
  | scan
  | config
  | run
deriving DecidableEq, Repr

/-- The configuration record as clamped (R202). -/
structure Configuration where
  lineName : CoilId
  pitch : Nat
  exitWeight : Nat
  entryWeight : Nat
  dw : Nat
  filterMs : Nat
  pairs : MatchPairs
  laneCount : Nat
  allowance : Nat
  channels : List Channel
deriving DecidableEq, Repr

/-- The command and response buffer: one record and one response (R197). -/
structure Exchange where
  code : Byte
  fields : List Byte
  response : List Byte
deriving DecidableEq, Repr

/-- The process port (R212). Bit k of flags and enables is the flag of R219's order. -/
structure Pp where
  station : Station
  config : Option Configuration
  lock : Bool
  flags : BitVec 10
  enables : BitVec 10
  buffer : Option Exchange
deriving DecidableEq, Repr

/-! ### The machine -/

/-- The station: its nine blocks, the attached flash, the clock in microseconds (log entry 1), the counter of free values (log
entry 3), and the commands that wait. -/
structure State where
  now : Nat
  free : Nat
  tiu : Tiu
  ca : Ca
  cx : Cx
  ar : Ar
  flash : Flash
  ru : Ru
  pe : Pe
  bi : Bi
  pp : Pp
  pending : List Instr
deriving DecidableEq, Repr

/-- All patterns and masks zero (R15). -/
def MatchPairs.zero : MatchPairs := ⟨⟨0, 0⟩, ⟨0, 0⟩, ⟨0, 0⟩, ⟨0, 0⟩, ⟨0, 0⟩⟩

/-- The TIU after reset, with the raw levels it met (R15). -/
def Tiu.atReset (raw : BitVec 12) : Tiu where
  raw := raw
  filtered := raw
  changes := Vector.replicate 12 none
  filterMs := 0
  pairs := .zero
  prev := ⟨false, false, false, false⟩
  halted := false
  exitWeight := 0
  entryWeight := 0
  exitTotal := 0
  exitOver := false
  entryCount := 0
  runOrigin := 0

/-- The CA after reset (R43). -/
def Ca.atReset : Ca where
  inSeq := 1
  outSeq := 1
  entryQueue := []
  table := []
  entryCoil := none
  exitCoil := none
  welds := []
  boundaries := []
  openCoils := []
  names := Vector.replicate 8 []
  closing := []
  lastCoil := none
  laneCount := 0
  dw := 0

/-- The CX after reset (R61). -/
def Cx.atReset : Cx := ⟨[], 0, 0, none, [], []⟩

/-- The AR after reset at a moment, the scan at its beginning (R90, R200). -/
def Ar.atReset (now : Nat) : Ar where
  segs := []
  keepSegs := Vector.replicate 2 ⟨.spare, 0⟩
  segSeq := 1
  imageSeq := 1
  outs := []
  ins := []
  expired := []
  writeQueue := []
  readQueue := []
  pageWrite := none
  reading := none
  keepReady := false
  keepWrite := none
  erase := none
  lastServed := .none
  stage := .normal
  activationWaits := false
  scan := some ⟨2, 0, now, [], false⟩

/-- The RU after reset (R92, R99, R102). -/
def Ru.atReset : Ru := ⟨[], [], none, [], .closed⟩

/-- The PE after reset (R158). -/
def Pe.atReset : Pe := ⟨Vector.replicate 6 none, Vector.replicate 8 none, [], 0⟩

/-- The BI after reset, at the moment given (R195). -/
def Bi.atReset (strap : BitVec 5) (now : Nat) : Bi where
  node := strap
  lastSource := 0
  silence := some now
  pointer := 5
  queue := []
  offers := []
  tx := none
  looped := []

/-- The PP after reset (R212): every enable set but that of LATE-SAMPLE, bit 3 (R219). -/
def Pp.atReset : Pp := ⟨.scan, none, false, 0, 0b1111110111, none⟩

/-- The station right after reset with the flash, strap pins, raw levels, moment and queue given (R212 and the rules it names). -/
def State.afterReset (strap : BitVec 5) (raw : BitVec 12) (flash : Flash) (now free : Nat) (pending : List Instr) : State where
  now := now
  free := free
  tiu := .atReset raw
  ca := .atReset
  cx := .atReset
  ar := .atReset now
  flash := flash
  ru := .atReset
  pe := .atReset
  bi := .atReset strap now
  pp := .atReset
  pending := pending

/-- The machine right after reset. The strap pins 0, the raw levels LOW, the flash erased throughout and the moment 0 are the
model's choices: log entry 6. -/
def State.reset : State := .afterReset 0 0 ⟨[], []⟩ 0 0 []

end Sys2Proof.Machine
end

