-- ==== Sys2Proof/Machine/Operands.lean ====
section
/-! DEFINITION. The field forms of frames and port records (11_frame_record_and_command_layouts.md): big-endian numbers, two's
complement, counted and filled identifiers, and the codes of the named values. -/

namespace Sys2Proof.Machine

/-! ### Numbers (most significant byte first) -/

/-- The unsigned number that the bytes spell. -/
def beNat (bs : List Byte) : Nat := bs.foldl (fun v b => v * 256 + b.toNat) 0

/-- The n bytes of v, modulo 2^(8n). -/
def beBytes : Nat → Nat → List Byte
  | 0, _ => []
  | n + 1, v => beBytes n (v / 256) ++ [BitVec.ofNat 8 v]

/-- The signed number that n bytes spell in two's complement (R213). -/
def beInt (bs : List Byte) : Int :=
  let v := beNat bs
  if 2 * v < 256 ^ bs.length then (v : Int) else (v : Int) - (256 ^ bs.length : Nat)

/-- The n bytes of v in two's complement. -/
def intBytes (n : Nat) (v : Int) : List Byte := beBytes n (v % (256 ^ n : Nat)).toNat

/-- The n bytes from byte i on. -/
def slice (bs : List Byte) (i n : Nat) : List Byte := (bs.drop i).take n

/-- Unsigned n at byte i (R213). -/
def natAt (bs : List Byte) (i n : Nat) : Nat := beNat (slice bs i n)

/-- Signed n at byte i (R213). -/
def intAt (bs : List Byte) (i n : Nat) : Int := beInt (slice bs i n)

/-- The byte at i, 0 beyond the end. -/
def byteAt (bs : List Byte) (i : Nat) : Byte := bs.getD i 0

/-- A Boolean as a bit of a byte. -/
def bitIf (b : Bool) (k : Nat) : Byte := if b then BitVec.ofNat 8 (2 ^ k) else 0

/-! ### Identifiers (R213, R214) -/

/-- A to Z, 0 to 9 and the hyphen (R213). -/
def idChar (b : Byte) : Bool :=
  let v := b.toNat
  (0x41 ≤ v && v ≤ 0x5A) || (0x30 ≤ v && v ≤ 0x39) || v == 0x2D

/-- A counted ID: none when it is malformed (R214); the empty list is the absent identifier. -/
def countedId (bs : List Byte) : Option CoilId :=
  match bs with
  | [] => none
  | len :: chars =>
    let id := chars.take len.toNat
    if len.toNat ≤ 16 && id.length == len.toNat && id.all idChar then some id else none

/-- The 17 bytes of a counted ID (R213). -/
def countedBytes (id : CoilId) : List Byte :=
  BitVec.ofNat 8 id.length :: (id ++ List.replicate (16 - id.length) 0)

/-- A filled ID or name: none when it is malformed (R214). -/
def filledId (bs : List Byte) : Option (List Byte) :=
  let id := bs.takeWhile (fun b => b != 0)
  if id.all idChar && (bs.dropWhile (fun b => b != 0)).all (fun b => b == 0) then some id else none

/-- A filled field of n bytes (R213). -/
def filledBytes (n : Nat) (id : List Byte) : List Byte := id ++ List.replicate (n - id.length) 0

/-! ### Codes -/

/-- The codes of the frame kinds (R215). -/
def FrameKind.code : FrameKind → Byte
  | .seek => 0x01
  | .own => 0x02
  | .pull => 0x03
  | .bins => 0x04
  | .mark => 0x05
  | .done => 0x06
  | .wait => 0x07
  | .go => 0x08
  | .stop => 0x09
  | .keep => 0x0A
  | .unkeep => 0x0B
  | .kept => 0x0C

/-- The codes of an OWN's status (R215). -/
def OwnStatus.code : OwnStatus → Byte
  | .stored => 1
  | .closing => 2
  | .opened => 3
  | .expired => 4

/-- An OWN's status from its code; none is not in the list (R216). -/
def OwnStatus.ofCode (b : Byte) : Option OwnStatus :=
  if b = 1 then some .stored else if b = 2 then some .closing else if b = 3 then some .opened
  else if b = 4 then some .expired else none

/-- The codes of a DONE's status (R215). -/
def DoneStatus.code : DoneStatus → Byte
  | .complete => 0
  | .stopped => 1
  | .abandoned => 2
  | .busy => 3
  | .notReady => 4
  | .notFound => 5
  | .expired => 6
  | .closing => 7
  | .opened => 8
  | .badRequest => 9

/-- A DONE's status from its code; one not in the list is taken as BAD-REQUEST (R216). -/
def DoneStatus.ofCode (b : Byte) : DoneStatus :=
  if b = 0 then .complete else if b = 1 then .stopped else if b = 2 then .abandoned else if b = 3 then .busy
  else if b = 4 then .notReady else if b = 5 then .notFound else if b = 6 then .expired
  else if b = 7 then .closing else if b = 8 then .opened else .badRequest

/-- The codes of a first error's kind (R215). -/
def ErrorKind.code : ErrorKind → Byte
  | .none => 0
  | .burstCrc => 1
  | .burstSeq => 2
  | .burstCount => 3

/-- A first error as a DONE carries it: a kind not in the list is taken as NONE, its station and level not read (R216). -/
def FirstError.ofBytes (kind station level : Byte) : FirstError :=
  if kind = 1 then ⟨.burstCrc, station, level⟩ else if kind = 2 then ⟨.burstSeq, station, level⟩
  else if kind = 3 then ⟨.burstCount, station, level⟩ else .clear

/-- The place of a segment status among a DONE's twelve counts (R153). -/
def SegStatus.place : SegStatus → Fin 12
  | .ok => 0
  | .estimated => 1
  | .pending => 2
  | .untraced => 3
  | .notFound => 4
  | .expired => 5
  | .ambiguous => 6
  | .busy => 7
  | .timeout => 8
  | .depth => 9
  | .closing => 10
  | .opened => 11

/-- The statuses of a KEPT (section 5.2). -/
inductive KeptStatus where
  | ok
  | notFound
  | expired
  | full
  | notKept
  | notReady
deriving DecidableEq, Repr

/-- The codes of a KEPT's status (R215). -/
def KeptStatus.code : KeptStatus → Byte
  | .ok => 0
  | .notFound => 1
  | .expired => 2
  | .full => 3
  | .notKept => 4
  | .notReady => 5

/-- The codes of the storage stage in READ-STATE (R219). -/
def Stage.code : Stage → Byte
  | .normal => 0
  | .recordOnly => 1
  | .full => 2

/-- The codes of the station state in READ-STATE (R219). -/
def Station.code : Station → Byte
  | .scan => 0
  | .config => 1
  | .run => 2

/-- The codes of the lock cause in READ-STATE (R219). -/
def LockCause.code : LockCause → Byte
  | .mismatch => 1
  | .frozen => 2
  | .kept => 3
  | .writeFailed => 4
  | .expired => 5
  | .readFailed => 6

/-- The codes of the amendment state in READ-STATE (R219). -/
def AmendState.code : AmendState → Byte
  | .closed => 0
  | .opened _ => 1
  | .committing _ => 2
  | .locked _ => 3

/-- The lock cause byte of READ-STATE: 0 outside LOCKED (R219). -/
def AmendState.causeCode : AmendState → Byte
  | .locked c => c.code
  | .closed | .opened _ | .committing _ => 0

end Sys2Proof.Machine
end

