-- ==== Sys2Proof/Machine/Crc.lean ====
section
/-! DEFINITION. The two remainders: the frame CRC (R181) and the burst CRC (R164). -/

namespace Sys2Proof.Machine

/-- One message bit: the register's most significant bit is compared with it, the register is shifted one place with a 0 entering,
and combined with the generator when the two were unequal (R164, R181). -/
def crcBit (generator : Word16) (reg : Word16) (bit : Bool) : Word16 :=
  if reg.msb == bit then reg <<< 1 else (reg <<< 1) ^^^ generator

/-- One byte, most significant bit first. -/
def crcByte (generator : Word16) (reg : Word16) (b : Byte) : Word16 :=
  [7, 6, 5, 4, 3, 2, 1, 0].foldl (fun r k => crcBit generator r (b.getLsbD k)) reg

/-- The remainder over bytes from a register value. -/
def crcBytes (generator : Word16) (reg : Word16) (bs : List Byte) : Word16 := bs.foldl (crcByte generator) reg

/-- The frame CRC: generator 1021H, seed FFFFH (R181). -/
def frameCrc (bs : List Byte) : Word16 := crcBytes 0x1021 0xFFFF bs

/-- The seed of the burst CRC (R164). -/
def burstSeed : Word16 := 0x3A5C

/-- The burst CRC run on over one record: generator 8005H (R164). -/
def burstCrcRecord (reg : Word16) (r : RecordBytes) : Word16 := crcBytes 0x8005 reg r

/-- The burst CRC run on over records in order. -/
def burstCrc (reg : Word16) (rs : List RecordBytes) : Word16 := rs.foldl burstCrcRecord reg

end Sys2Proof.Machine
end

