-- ==== Sys2Proof/Machine/Flags.lean ====
section
/-! DEFINITION. Flags: the attention flags and the attention line (R206, R207, R219), the coil flags' byte (R217), and the result of
a port command (R199, R219). -/

namespace Sys2Proof.Machine

/-- The ten attention flags (R206). -/
inductive Attention where
  | ready
  | coilClosed
  | trackingFault
  | lateSample
  | archiveLow
  | archiveFull
  | amendDone
  | amendLock
  | busFault
  | inputClosed
deriving DecidableEq, Repr

/-- The bit of a flag in the flags and enables words (R219). -/
def Attention.bit : Attention → Nat
  | .ready => 0
  | .coilClosed => 1
  | .trackingFault => 2
  | .lateSample => 3
  | .archiveLow => 4
  | .archiveFull => 5
  | .amendDone => 6
  | .amendLock => 7
  | .busFault => 8
  | .inputClosed => 9

/-- The word with the flag's bit alone. -/
def Attention.word (a : Attention) : BitVec 10 := BitVec.ofNat 10 (2 ^ a.bit)

/-- Raising a flag sets it, in every station state and whether or not its enable is set (R206). -/
def raise (a : Attention) (s : State) : State := { s with pp.flags := s.pp.flags ||| a.word }

/-- Whether a flag is set. -/
def flagSet (a : Attention) (s : State) : Bool := s.pp.flags.getLsbD a.bit

/-- The attention line: asserted while a flag is set with its enable set (R207). -/
def attentionLine (s : State) : Bool := s.pp.flags &&& s.pp.enables != 0

/-- The flags byte of LEVEL and READ-LAST-COIL (R217, R219). -/
def CoilFlags.byte (f : CoilFlags) : Byte :=
  bitIf f.incomplete 7 ||| bitIf f.broken 6 ||| bitIf f.forced 5 ||| bitIf f.noTrend 4 ||| bitIf f.stationNamed 3
    ||| bitIf f.frozen 2 ||| bitIf f.amended 1 ||| bitIf f.overflow 0

/-- The reasons of a refusal (R199). -/
inductive Reason where
  | wrongState
  | locked
  | full
  | duplicate
  | notFound
  | busy
  | mismatch
  | badOrdinal
deriving DecidableEq, Repr

/-- The result of a port command (R199). -/
inductive PortResult where
  | accepted
  | refused (r : Reason)
deriving DecidableEq, Repr

/-- The result codes (R219). -/
def PortResult.code : PortResult → Byte
  | .accepted => 0x00
  | .refused .wrongState => 0x81
  | .refused .locked => 0x82
  | .refused .full => 0x83
  | .refused .duplicate => 0x84
  | .refused .notFound => 0x85
  | .refused .busy => 0x86
  | .refused .mismatch => 0x87
  | .refused .badOrdinal => 0x88

end Sys2Proof.Machine
end

