-- ==== Sys2Proof/Machine/Grids.lean ====
section
/-! DEFINITION. Grid arithmetic (06_grid_arithmetic.md): rounding, the origin grid, the bin of a position, the hop inside a station
and the hop across stations; cell ownership and centres (R59, R60). All in exact integers. -/

namespace Sys2Proof.Machine

/-! ### Rounding and ranges -/

/-- R(p / q) for a positive q: the nearest integer, halves away from zero (R113). -/
def roundDiv (p : Int) (q : Nat) : Int :=
  let m : Int := ((2 * p.natAbs + q) / (2 * q) : Nat)
  if p < 0 then -m else m

/-- A value held in the signed 48-bit range (R114). -/
def hold48 (v : Int) : Int := max (-(2 ^ 47)) (min (2 ^ 47 - 1) v)

/-- A hop step: a rounded value of 0 becomes 1 or −1 with the sign of the unrounded value p / q, and the step is held to range
(R114). p is not 0 for a well-formed grid; 1 is taken for p = 0 (log entry 36). -/
def hopStep (p : Int) (q : Nat) : Int :=
  let r := roundDiv p q
  if r = 0 then (if p < 0 then -1 else 1) else hold48 r

/-! ### Origin request (R115, R116) -/

/-- The normalised request: b', N' and the CLAMPED mark; none is BAD-REQUEST (R115). -/
def normalise (a b n len : Nat) : Option (Nat × Nat × Bool) :=
  if n = 0 ∨ 256 < n then none
  else
    let b' := min b len
    if b' ≤ a then none else some (b', min n (b' - a), decide (len < b))

/-- The origin grid (R116). -/
def originGrid (a b' n' : Nat) : Grid :=
  ⟨256 * a, ((256 * (b' - a) + n' / 2) / n' : Nat), 0, n', 256 * a, 256 * b'⟩

/-! ### Bins (R117, R118) -/

/-- The bin of a position (R117). -/
def Grid.binOf (g : Grid) (x : Int) : Nat :=
  (max (g.f : Int) (min ((g.f : Int) + g.n - 1) (Int.fdiv (x - g.o) g.s))).toNat

/-- Well-formedness of a received grid (R118). -/
def Grid.wellFormed (g : Grid) : Bool :=
  decide (g.s ≠ 0 ∧ 1 ≤ g.n ∧ g.n ≤ 256 ∧ g.f + g.n ≤ 256 ∧ g.u0 < g.u1)

/-! ### The hop inside a station (R121 to R123) -/

/-- What the hop takes from the holding coil, the parent segment and the input entry, in cm (R121). -/
structure HopData where
  c0 : Nat
  t0 : Nat
  /-- t1, cut at w1 − c0 for the eighth segment of an OVERFLOW coil. -/
  t1 : Int
  w0 : Nat
  w1 : Nat
  lin : Nat
deriving DecidableEq, Repr

/-- The clipped part [x0, x1) of a segment (R122). -/
def clippedPart (g : Grid) (t0 : Nat) (t1 : Int) : Int × Int :=
  (max g.u0 (256 * t0), min g.u1 (256 * t1))

/-- A position carried into the entry coordinate: R((x + 256D) × Lin / W), held to range (R121, R122). -/
def HopData.map (h : HopData) (x : Int) : Int :=
  hold48 (roundDiv ((x + 256 * ((h.c0 : Int) - h.w0)) * h.lin) (h.w1 - h.w0))

/-- The hopped grid of a segment, whose clip may be empty (R121 to R123). -/
def HopData.hop (h : HopData) (g : Grid) : Grid :=
  let x := clippedPart g h.t0 h.t1
  let j0 := g.binOf x.1
  let j1 := g.binOf (x.2 - 1)
  ⟨h.map g.o, hopStep (g.s * h.lin) (h.w1 - h.w0), min j0 j1, max j0 j1 - min j0 j1 + 1, h.map x.1, h.map x.2⟩

/-! ### The hop across stations (R125) -/

/-- The owner's grid for its coil of length lp (R125). -/
def ownerGrid (g : Grid) (lin lp : Nat) : Grid :=
  let top : Int := 256 * lp
  ⟨hold48 (top - roundDiv (g.o * lp) lin), hopStep (-(g.s * lp)) lin, g.f, g.n,
    hold48 (top - roundDiv (g.u1 * lp) lin), hold48 (top - roundDiv (g.u0 * lp) lin)⟩

/-! ### Cells and coils (R59, R60, R119) -/

/-- The lowest cell of pitch p whose run midpoint is at or above x (R59). -/
def cellFrom (x p : Nat) : Nat := (2 * x + p - 1) / (2 * p)

/-- Whether a coil over [c0, c1) owns cell c of its own pitch p (R59). -/
def ownsCell (c0 c1 p c : Nat) : Bool := 2 * c0 ≤ (2 * c + 1) * p && (2 * c + 1) * p < 2 * c1

/-- Whether an open coil from c0 owns cell c (R59). -/
def openOwnsCell (c0 p c : Nat) : Bool := 2 * c0 ≤ (2 * c + 1) * p

/-- The centre of an owned cell in fine units: 128 × (e0 + e1) (R60, R119). -/
def cellCentre (c0 c1 p c : Nat) : Int :=
  128 * (((max (c * p) c0 - c0 : Nat) : Int) + (min ((c + 1) * p) c1 - c0 : Nat))

/-- Whether a centre lies in the clip (R119). -/
def Grid.includes (g : Grid) (x : Int) : Bool := decide (g.u0 ≤ x ∧ x < g.u1)

/-- Whether a segment's cell range of a coil's pitch p holds one of the cells from first up to past: two cells of different pitches
are different cells, and a coil owns cells of its own pitch alone (R58, R59, R64, R69; log entry 15). -/
def CellRange.meets (r : CellRange) (p first past : Nat) : Bool :=
  decide (r.pitch = p ∧ max r.lowest first ≤ r.highest ∧ max r.lowest first < past)

/-- The ranges taking in a cell (R68): the range of its pitch widens to its index, or begins with it. -/
def takeInCell : List CellRange → CellName → List CellRange
  | [], c => [⟨c.pitch, c.index, c.index⟩]
  | r :: rest, c =>
    if r.pitch = c.pitch then { r with lowest := min r.lowest c.index, highest := max r.highest c.index } :: rest
    else r :: takeInCell rest c

/-! ### Bin statistics (R129, R131) -/

/-- The lesser of two readings, the first absent (R50, R129). -/
def lesser (a : Option Int) (v : Int) : Option Int :=
  match a with
  | none => some v
  | some a => some (min a v)

/-- The greater of two readings, the first absent (R50, R129). -/
def greater (a : Option Int) (v : Int) : Option Int :=
  match a with
  | none => some v
  | some a => some (max a v)

/-- An included cell's entry added to an accumulator (R129). Once a cell has been refused at step 3, every later one is refused as well,
so that count and sum describe the cells before it: R130 against the letter of step 3 (log entry 50). -/
def Accum.addEntry (a : Accum) (e : CellEntry) : Accum :=
  let excess := a.refused || decide (4294967295 < a.count + e.count)
  { cells := a.cells + 1
    count := if excess then a.count else a.count + e.count
    sum := if excess then a.sum else a.sum + e.sum
    least := if e.count = 0 then a.least else lesser a.least (e.least.getD 0)
    greatest := if e.count = 0 then a.greatest else greater a.greatest (e.greatest.getD 0)
    saturated := a.saturated || excess || e.sat
    refused := excess }

end Sys2Proof.Machine
end

