-- ==== Sys2Proof/Machine/Ops.lean ====
section
/-! DEFINITION. The named operations shared by the blocks: the clock, sorted stores, flash pages, segment table, directory look-ups,
pull contexts and slots, and the values the spec computes from state (run coordinate, entry length, written-cell mark, coil status). -/

namespace Sys2Proof.Machine

/-! ### Clock -/

/-- The clock put forward to a moment, if it is not past it (log entry 2). -/
def advanceTo (t : Nat) (s : State) : State := { s with now := max s.now t }

/-- Times of the spec in microseconds: page write and read (R67, R73), erase (R76) and its 5 ms rule (R75), locate window (R134),
reply window (R97), silence and draining (R176, R152), pause limit (R171), staging age (R67). -/
def pageWriteTime : Nat := 1000
def pageReadTime : Nat := 100
def eraseTime : Nat := 400000
def eraseRunTime : Nat := 5000
def locateWindow : Nat := 40000
def replyWindow : Nat := 200000
def silenceTime : Nat := 1500000
def drainTime : Nat := 1500000
def pauseTime : Nat := 5000000
def stagingAge : Nat := 1000000

/-! ### Sorted stores -/

/-- Put a value under a key, keys rising. -/
def putKey {α : Type} (k : Nat) (v : α) : List (Nat × α) → List (Nat × α)
  | [] => [(k, v)]
  | (k', v') :: rest =>
    if k < k' then (k, v) :: (k', v') :: rest
    else if k = k' then (k, v) :: rest
    else (k', v') :: putKey k v rest

/-- The value under a key. -/
def getKey {α : Type} (k : Nat) : List (Nat × α) → Option α
  | [] => none
  | (k', v) :: rest => if k = k' then some v else getKey k rest

/-- Put a number into a strictly rising list. -/
def putNat (n : Nat) : List Nat → List Nat
  | [] => [n]
  | m :: rest => if n < m then n :: m :: rest else if n = m then m :: rest else m :: putNat n rest

/-- The first some of a function over a list, with the element. -/
def firstSome {α β : Type} (f : α → Option β) : List α → Option β
  | [] => none
  | a :: rest =>
    match f a with
    | some b => some b
    | none => firstSome f rest

/-- The list without its first element that satisfies p. -/
def dropFirst {α : Type} (p : α → Bool) : List α → List α
  | [] => []
  | a :: rest => if p a then rest else a :: dropFirst p rest

/-- Apply f to the first element that satisfies p. -/
def mapFirst {α : Type} (p : α → Bool) (f : α → α) : List α → List α
  | [] => []
  | a :: rest => if p a then f a :: rest else a :: mapFirst p f rest

/-- Apply f to the last element that satisfies p. -/
def mapLast {α : Type} (p : α → Bool) (f : α → α) (l : List α) : List α := (mapFirst p f l.reverse).reverse

/-! ### Flash (R65) -/

/-- The key of a page. -/
def pageKey (seg page : Nat) : Nat := seg * 256 + page

/-- The page at a place; none is erased. -/
def Flash.at (f : Flash) (seg page : Nat) : Option Page := getKey (pageKey seg page) f.pages

/-- A page written. -/
def Flash.put (f : Flash) (seg page : Nat) (p : Page) : Flash := { f with pages := putKey (pageKey seg page) p f.pages }

/-- A segment erased whole (R76). -/
def Flash.eraseSeg (f : Flash) (seg : Nat) : Flash :=
  ⟨f.pages.filter (fun e => e.1 / 256 != seg), f.partlyErased.filter (fun n => n != seg)⟩

/-- A segment whose erase was cut off (R76). -/
def Flash.cutErase (f : Flash) (seg : Nat) : Flash :=
  ⟨f.pages.filter (fun e => e.1 / 256 != seg), putNat seg f.partlyErased⟩

/-- The canonical form: page keys and partly erased segments strictly rising. -/
def Flash.wf (f : Flash) : Bool :=
  decide (f.pages.Pairwise (fun a b => a.1 < b.1)) && decide (f.partlyErased.Pairwise (· < ·))

/-- A page as a read meets it: torn when its check value fails, here or as the read found it. -/
def Flash.read (f : Flash) (seg page : Nat) (failed : Bool) : Option Page :=
  if failed then some .torn else f.at seg page

/-- The items of a page as read; none when the page is torn, erased or a keep page. -/
def dataItems (p : Option Page) : Option (List PageItem) :=
  match p with
  | some (.data _ items) => some items
  | some (.keep _ _) => none
  | some .torn => none
  | none => none

/-! ### Segment table (R64) -/

/-- The entry of a data segment; none is FREE. -/
def segEntry (s : State) (n : Nat) : Option SegEntry := s.ar.segs.find? (fun e => e.num == n)

/-- Put an entry into the table, numbers rising. -/
def putSeg (e : SegEntry) : List SegEntry → List SegEntry
  | [] => [e]
  | e' :: rest =>
    if e.num < e'.num then e :: e' :: rest
    else if e.num = e'.num then e :: rest
    else e' :: putSeg e rest

/-- The ACTIVE segment, one at most. -/
def activeSeg (s : State) : Option SegEntry := s.ar.segs.find? (fun e => e.state == .active)

/-- The free data segment count: 4,094 less the segments listed (R64). -/
def freeCount (s : State) : Nat := 4094 - s.ar.segs.length

/-- The lowest number from n on that no entry of a rising list has. -/
def lowestFree (n : Nat) : List SegEntry → Nat
  | [] => n
  | e :: rest => if e.num = n then lowestFree (n + 1) rest else lowestFree n rest

/-- A reclaim is in hand from its choice until its erase completes (R77). -/
def reclaimInHand (s : State) : Bool := s.ar.segs.any (fun e => e.state == .chosen || e.state == .erasing)

/-- Insert an entry by rising segment sequence. -/
def insertBySeq (e : SegEntry) : List SegEntry → List SegEntry
  | [] => [e]
  | e' :: rest => if e.seq < e'.seq then e :: e' :: rest else e' :: insertBySeq e rest

/-- Entries in ascending segment sequence; of equal sequences the higher-numbered stands first (log entry 54). -/
def bySeq (es : List SegEntry) : List SegEntry := es.foldr insertBySeq []

/-! ### Directory look-ups (R69, R72) -/

/-- The output entry filed under an ID. -/
def outById (s : State) (id : CoilId) : Option OutEntry := s.ar.outs.find? (fun e => e.id == id)

/-- The output entry with an output sequence. -/
def outBySeq (s : State) (seq : Nat) : Option OutEntry := s.ar.outs.find? (fun e => e.seq == seq)

/-- The input entry with an input sequence. -/
def inBySeq (s : State) (seq : Nat) : Option InEntry := s.ar.ins.find? (fun e => e.seq == seq)

/-- The items awaiting write: the write queue and the page being written (R66). -/
def awaiting (s : State) : List WriteItem :=
  s.ar.writeQueue ++
    (match s.ar.pageWrite with
     | none => []
     | some pw => pw.items.filterMap (fun i =>
        match i with
        | .item w => some w
        | .cells _ _ _ => none))

/-- The output records awaiting write, not the amended ones (R66, R133). -/
def awaitingOutputs (s : State) : List OutputRecord :=
  (awaiting s).filterMap (fun w =>
    match w with
    | .output r => some r
    | .input _ | .freezeMark _ _ | .amendedInput _ | .amendedOutput _ _ => none)

/-- The coil's keep list marks (R92). -/
def isKept (s : State) (id : CoilId) : Bool := s.ru.keeps.any (fun k => k.id == id)
def isKeptPartial (s : State) (id : CoilId) : Bool := s.ru.keeps.any (fun k => k.id == id && k.keptPartial)

/-! ### Tracking values (R11, R13) -/

/-- The run coordinate for an exit pulse total (R11). -/
def runCoordOf (t : Tiu) (total : Nat) : Nat := min (2 ^ 40 - 1) (t.runOrigin + total * 100 / t.exitWeight)

/-- The run coordinate (R11); it holds at its greatest once the exit pulse total has gone past its width (log entry 8). -/
def runCoord (s : State) : Nat := if s.tiu.exitOver then 2 ^ 40 - 1 else runCoordOf s.tiu s.tiu.exitTotal.toNat

/-- The entry length and its saturation mark (R13). -/
def entryLength (t : Tiu) : Nat × Bool :=
  let q := t.entryCount * 100 / t.entryWeight
  (min q 4000000, decide (4000000 < q))

/-! ### The written-cell mark (R57) -/

/-- The index of the first staged cell that retired since the last START or RESTART, else the window front. Before START there is no
front and the mark is not held (R61); it reads 0 there (log entry 7). -/
def writtenMark (s : State) : Nat :=
  match s.cx.staging.find? (fun c => c.current) with
  | some c => c.index
  | none => s.cx.front.getD 0

/-! ### Coil status (R38, R72, R133) -/

/-- A closing coil: on the closing list or awaiting write, by ID (R38). -/
def closingById (s : State) (id : CoilId) : Option OutputRecord :=
  (s.ca.closing ++ awaitingOutputs s).find? (fun r => r.id == id)

/-- An open coil by its lane's pending name (R38). -/
def openByName (s : State) (id : CoilId) : Option OpenCoil :=
  s.ca.openCoils.find? (fun c => (s.ca.names.toList.getD (c.lane - 1) []) == id)

/-- The station's status for an ID with the length, by the first row of R133's table that applies; none is "no answer". -/
def ownStatus (s : State) (id : CoilId) : Option (OwnStatus × Nat) :=
  if id = [] then none
  else
    match outById s id with
    | some e => some (.stored, e.c1 - e.c0)
    | none =>
      match closingById s id with
      | some r => some (.closing, r.c1 - r.c0)
      | none =>
        match openByName s id with
        | some c => some (.opened, runCoord s - c.c0)
        | none => if s.ar.expired.contains id then some (.expired, 0) else none

/-! ### Contexts and slots -/

/-- All contexts and all slots in number order. -/
def allContexts : List (Fin 6) := [0, 1, 2, 3, 4, 5]
def allSlots : List (Fin 8) := [0, 1, 2, 3, 4, 5, 6, 7]

/-- Context c; none is FREE. -/
def ctxAt (s : State) (c : Fin 6) : Option PullContext := s.pe.contexts.get c

/-- Slot k; none is FREE. -/
def slotAt (s : State) (k : Fin 8) : Option FetchSlot := s.pe.slots.get k

/-- Put a context. -/
def setCtx (c : Fin 6) (x : Option PullContext) (s : State) : State :=
  { s with pe.contexts := s.pe.contexts.set c x }

/-- Put a slot. -/
def setSlot (k : Fin 8) (x : Option FetchSlot) (s : State) : State :=
  { s with pe.slots := s.pe.slots.set k x }

/-- Change a context that is not FREE. -/
def onCtx (c : Fin 6) (f : PullContext → PullContext) (s : State) : State :=
  match ctxAt s c with
  | none => s
  | some x => setCtx c (some (f x)) s

/-- Change a slot that is not FREE. -/
def onSlot (k : Fin 8) (f : FetchSlot → FetchSlot) (s : State) : State :=
  match slotAt s k with
  | none => s
  | some x => setSlot k (some (f x)) s

/-- Change what a PULLING slot holds. -/
def onPulling (k : Fin 8) (f : Pulling → Pulling) (s : State) : State :=
  onSlot k (fun x =>
    match x.phase with
    | .pulling p => { x with phase := .pulling (f p) }
    | .seeking _ => x
    | .draining _ => x) s

/-- The lowest-numbered FREE context (R138). -/
def freeCtx (s : State) : Option (Fin 6) := allContexts.find? (fun c => (ctxAt s c).isNone)

/-- The lowest-numbered FREE slot (R146). -/
def freeSlotNum (s : State) : Option (Fin 8) := allSlots.find? (fun k => (slotAt s k).isNone)

/-- Add 1 to a segment count, saturating at 255 (R145, R151). -/
def addCount (st : SegStatus) (x : PullContext) : PullContext :=
  { x with counts := x.counts.set st.place (min 255 (x.counts.get st.place + 1)) }

/-! ### Responses (R197, R199) -/

/-- The byte that the station drives n bytes after the last byte of the command record: two turnaround bytes of 00H, then the response,
and 00H after its last byte (R197). -/
def drivenByte (x : Exchange) (n : Nat) : Byte := if n < 2 then 0 else x.response.getD (n - 2) 0

/-- Chip-select is released: the record and the response are discarded (R197, R198). -/
def releaseSelect (s : State) : State := { s with pp.buffer := none }

/-- The response of a port command: the result, then data; the data of a refused response read 0, at the length its table gives. -/
def respond (code : Byte) (fields : List Byte) (result : PortResult) (dataLen : Nat) (data : List Byte) (s : State) : State :=
  { s with pp.buffer := some ⟨code, fields.take 257, result.code ::
      (match result with
       | .accepted => data
       | .refused _ => List.replicate dataLen 0)⟩ }

end Sys2Proof.Machine
end

