-- ==== Sys2Proof/Machine/Bus.lean ====
section
/-! DEFINITION. The bus interface's outgoing side (09_the_trend_bus.md): frame bytes, the control queue and its waiting offers,
loopback, and the report of a finished frame. -/

namespace Sys2Proof.Machine

/-- Header and payload of a frame as the BI forms them (R180, R215). -/
def headerAndPayload (node : Node) (f : OutFrame) : List Byte :=
  [BitVec.ofNat 8 f.dest.toNat, BitVec.ofNat 8 node.toNat, f.kind.code] ++ beBytes 2 f.tag.toNat
    ++ [BitVec.ofNat 8 f.payload.length] ++ f.payload

/-- The bytes between the delimiters: header, payload, frame CRC (R181). -/
def frameBytes (node : Node) (f : OutFrame) : List Byte :=
  headerAndPayload node f ++ beBytes 2 (frameCrc (headerAndPayload node f)).toNat

/-- How long a frame occupies the pair: its bytes and two delimiters of one byte time, 0.5 µs a bit (R215, section 9.2). -/
def frameTime (bytes : List Byte) : Nat := (bytes.length + 2) * 4

/-! ### Reports (R190) -/

/-- What a PULLING slot holds when it becomes PULLING (R149, R165, R173, R176). -/
def Pulling.start (now : Nat) : Pulling := ⟨0, 0, burstSeed, .running, some now, false⟩

/-- The report of a finished frame to a fetch slot that still carries the frame's tag (R190). -/
def reportToSlot (kind : FrameKind) (tag : Tag) (now : Nat) (x : FetchSlot) : FetchSlot :=
  if x.tag ≠ tag then x
  else
    match kind, x.phase with
    | .seek, .seeking (some ⟨none, answers⟩) => { x with phase := .seeking (some ⟨some now, answers⟩) }
    | .pull, .seeking none => { x with phase := .pulling (.start now) }
    | .stop, .draining none => { x with phase := .draining (some now) }
    | .go, .pulling p =>
      if p.flow = .releasing then { x with phase := .pulling { p with flow := .running, silence := some now } } else x
    | _, _ => x

/-- The report of a finished frame to the head task that still carries the frame's tag (R190). -/
def reportToTask (kind : FrameKind) (tag : Tag) (now : Nat) (h : TaskHead) : TaskHead :=
  if h.tag ≠ tag then h
  else
    match kind, h.phase with
    | .seek, .locating ⟨none, answers⟩ => { h with phase := .locating ⟨some now, answers⟩ }
    | .keep, .awaiting owner none => { h with phase := .awaiting owner (some now) }
    | .unkeep, .awaiting owner none => { h with phase := .awaiting owner (some now) }
    | _, _ => h

/-- The report of a finished frame, sent or abandoned alike (R190). -/
def report (f : OutFrame) (s : State) : State :=
  match f.owner with
  | .nobody => s
  | .slot k => onSlot k (reportToSlot f.kind f.tag s.now) s
  | .task => { s with ru.head := s.ru.head.map (reportToTask f.kind f.tag s.now) }
  | .context c => if f.kind = .done then setCtx c none s else s

/-! ### Control queue (R191, R192) -/

/-- Free places of the control queue: 32 less the frames it holds (R191). -/
def freePlaces (s : State) : Nat := 32 - s.bi.queue.length

/-- Whether a frame of a class is accepted on the free places alone (R191). -/
def acceptsClass (cls : FrameClass) (s : State) : Bool :=
  match cls with
  | .context => 1 ≤ freePlaces s
  | .general => 12 < freePlaces s

/-- A refused OWN, KEPT or DONE is dropped; the others wait (R191). -/
def FrameKind.waits : FrameKind → Bool
  | .own | .kept | .done => false
  | .seek | .pull | .bins | .mark | .wait | .go | .stop | .keep | .unkeep => true

/-- What became of an offer. -/
inductive Offered where
  | finished
  | accepted
  | refused
deriving DecidableEq, Repr

/-- A frame enters the control queue at the tail. -/
def enterQueue (f : OutFrame) (s : State) : State := { s with bi.queue := s.bi.queue ++ [f] }

/-- A frame offered to the BI: at a station strapped 0 it is finished at once as abandoned (R179); a frame for the own node is
reported as sent and looped back (R185); otherwise it is accepted or refused by its class, and waits or is dropped (R191, R192). -/
def offer (f : OutFrame) (s : State) : State × Offered :=
  if s.bi.node = 0 then (report f s, .finished)
  else if f.dest = s.bi.node then
    let s := report f s
    ({ s with bi.looped := s.bi.looped ++ [f] }, .finished)
  else if acceptsClass f.cls s then (enterQueue f s, .accepted)
  else if f.kind.waits then ({ s with bi.offers := s.bi.offers ++ [f] }, .refused)
  else (s, .refused)

/-- An offer whose fate its block does not ask for. -/
def send (f : OutFrame) (s : State) : State := (offer f s).1

/-- The block of a waiting offer is told that it was accepted: an owed WAIT makes the flow state WAITED, and the silence timer
stands (R173, R176). -/
def acceptedLater (f : OutFrame) (s : State) : State :=
  match f.owner, f.kind with
  | .slot k, .wait => onPulling k (fun p => if p.flow = .waitOwed then { p with flow := .waited, silence := none } else p) s
  | _, _ => s

/-- A freed place admits the oldest waiting offer whose class is accepted (R192). -/
def admitOffer (s : State) : State :=
  match s.bi.offers.find? (fun f => acceptsClass f.cls s) with
  | none => s
  | some f => acceptedLater f (enterQueue f { s with bi.offers := dropFirst (fun g => acceptsClass g.cls s) s.bi.offers })

/-- Offers withdrawn by their block (R192). -/
def withdraw (p : OutFrame → Bool) (s : State) : State :=
  { s with bi.offers := s.bi.offers.filter (fun f => !p f) }

/-- Frames already accepted whose block is gone are reported to nobody (R190). -/
def orphan (o : FrameOwner) (s : State) : State :=
  let f (g : OutFrame) : OutFrame := if g.owner = o then { g with owner := .nobody } else g
  { s with bi.queue := s.bi.queue.map f
           bi.tx := s.bi.tx.map (fun t => { t with frame := f t.frame }) }

/-- The transmission's frame is finished: it is reported, and a control frame's place is freed (R190, R192, R193). -/
def finishTransmit (s : State) : State :=
  match s.bi.tx with
  | none => s
  | some t =>
    let s := report t.frame { s with bi.tx := none }
    if t.control then admitOffer { s with bi.queue := s.bi.queue.drop 1 } else s

/-! ### Frames the blocks offer -/

/-- An answer to a node: OWN and KEPT (R191: general). -/
def answerFrame (dest : Node) (kind : FrameKind) (tag : Tag) (payload : List Byte) : OutFrame :=
  ⟨dest, kind, tag, payload, .general, .nobody⟩

/-- The payload of a DONE (R215). -/
def donePayload (status : DoneStatus) (level : Nat) (counts : Vector Nat 12) (e : FirstError) : List Byte :=
  [status.code, BitVec.ofNat 8 level] ++ counts.toList.map (BitVec.ofNat 8) ++ [e.kind.code, e.station, e.level]

/-- The DONE that refuses admission: twelve counts at 0, first error NONE (R138). -/
def refusalDone (dest : Node) (tag : Tag) (status : DoneStatus) (level : Nat) : OutFrame :=
  ⟨dest, .done, tag, donePayload status level (Vector.replicate 12 0) .clear, .context, .nobody⟩

/-- The payload of a KEEP and an UNKEEP (R215). -/
def keepPayload (id : CoilId) (node : Node) (number : Nat) : List Byte :=
  countedBytes id ++ [BitVec.ofNat 8 node.toNat] ++ beBytes 2 number

/-- The payload of a MAPPED PULL (R215). -/
def mappedPayload (id : CoilId) (level depth lin : Nat) (g : Grid) : List Byte :=
  [0x02] ++ countedBytes id ++ [BitVec.ofNat 8 level, BitVec.ofNat 8 depth] ++ beBytes 4 lin ++ intBytes 6 g.o
    ++ intBytes 6 g.s ++ beBytes 2 g.f ++ beBytes 2 g.n ++ intBytes 6 g.u0 ++ intBytes 6 g.u1

end Sys2Proof.Machine
end

