-- ==== Sys2Proof/Machine/Archive.lean ====
section
/-! DEFINITION. The archive controller's shared operations (04_the_coil_archive.md): segment sets, eligibility and reclaim choice, the
write queue, the handing over of closing coils (R35, R36), the storage stages and activation, the archive conditions. -/

namespace Sys2Proof.Machine

/-! ### Amendment lock and failed writes (R66, R101, R107) -/

/-- Every entry to LOCKED raises AMEND-LOCK (R103, R106, R107). -/
def lockAmend (c : LockCause) (s : State) : State := raise .amendLock { s with ru.amend := .locked c }

/-- Whether the amendment in COMMITTING is of the record of a kind and sequence. -/
def isCommitting (s : State) (kind : AmendKind) (seq : Nat) : Bool :=
  match s.ru.amend with
  | .committing a => a.kind == kind && a.seq == seq
  | .closed | .opened _ | .locked _ => false

/-- An item dropped: ARCHIVE-FULL is raised (R206); the retention unit is told of a failed write (R66, R82, R101, R107). -/
def dropItem (w : WriteItem) (s : State) : State :=
  let s := raise .archiveFull s
  match w with
  | .input _ => s
  | .output _ => s
  | .freezeMark seq _ => { s with ru.freezes := s.ru.freezes.erase seq }
  | .amendedInput r => if isCommitting s .input r.seq then lockAmend .writeFailed s else s
  | .amendedOutput r _ => if isCommitting s .output r.seq then lockAmend .writeFailed s else s

/-! ### Segment sets (R69) -/

/-- The segment set of an output entry from the segment table and the input entries (R69). -/
def segSetOf (segs : List SegEntry) (ins : List InEntry) (e : OutEntry) : List Nat :=
  let first := cellFrom e.c0 e.pitch
  let past := cellFrom e.c1 e.pitch
  let cellSegs := (segs.filter (fun g => g.cells.any (fun r => r.meets e.pitch first past))).map (fun g => g.num)
  let inputSegs := (ins.filter (fun i => e.refs.contains (some i.seq))).map (fun i => i.loc.seg)
  (e.loc.seg :: (cellSegs ++ e.freezeSegs ++ inputSegs)).foldr putNat []

/-- Every output entry's segment set brought up to the table and the input entries (R69, R70). -/
def refreshSets (s : State) : State :=
  { s with ar.outs := s.ar.outs.map (fun e => { e with segSet := segSetOf s.ar.segs s.ar.ins e }) }

/-! ### Directory room (R71) -/

/-- A record that needs a new directory entry (R70, R71). -/
def needsPlace (s : State) (w : WriteItem) : Bool :=
  match w with
  | .output r => !(s.ar.outs.any (fun e => e.seq == r.seq && e.id == r.id))
  | .input r => (inBySeq s r.seq).isNone
  | .freezeMark _ _ => false
  | .amendedInput _ => false
  | .amendedOutput _ _ => false

/-- The places taken by the page being written (R71). -/
def placesTaken (s : State) : Nat :=
  match s.ar.pageWrite with
  | none => 0
  | some pw => pw.items.countP (fun i =>
      match i with
      | .item w => needsPlace s w
      | .cells _ _ _ => false)

/-- Entries of both kinds and places taken (R71). -/
def placesUsed (s : State) : Nat := s.ar.outs.length + s.ar.ins.length + placesTaken s

/-- The directory is full (R71). -/
def directoryFull (s : State) : Bool := 16384 ≤ placesUsed s

/-! ### Eligibility and reclaim choice (R77 to R79) -/

/-- The starts of the coils that are open, on the closing list, or awaiting write (R78). -/
def liveStarts (s : State) : List Nat :=
  s.ca.openCoils.map (fun c => c.c0) ++ s.ca.closing.map (fun r => r.c0) ++ (awaitingOutputs s).map (fun r => r.c0)

/-- The segments a context's pin holds: the set when it was placed and the set as it stands (R78, R141). -/
def pinnedSegs (s : State) (x : PullContext) : List Nat :=
  match x.pin with
  | none => []
  | some held =>
    held ++ (match x.entry with
      | none => []
      | some e =>
        match outBySeq s e.seq with
        | some now => now.segSet
        | none => [])

/-- Whether some context's pin holds a segment. -/
def pinHolds (s : State) (seg : Nat) : Bool :=
  allContexts.any (fun c =>
    match ctxAt s c with
    | some x => (pinnedSegs s x).contains seg
    | none => false)

/-- Whether a keep protects a segment: data of an output entry whose ID stands in the keep list (R78, R92). -/
def keepHolds (s : State) (seg : Nat) : Bool :=
  s.ar.outs.any (fun e => isKept s e.id && e.segSet.contains seg)

/-- Whether a segment holds a cell whose run midpoint is at or above the oldest live start (R78). -/
def holdsLiveCells (s : State) (g : SegEntry) : Bool :=
  g.cells.any (fun r => (liveStarts s).any (fun c0 => decide (2 * c0 ≤ (2 * r.highest + 1) * r.pitch)))

/-- Eligibility of a segment (R78). -/
def eligible (s : State) (g : SegEntry) : Bool :=
  g.state == .used && !keepHolds s g.num && !pinHolds s g.num && !holdsLiveCells s g

/-- The USED segment with the lowest sequence that is eligible (R78). -/
def lowestEligible (s : State) : Option SegEntry := (bySeq s.ar.segs).find? (eligible s)

/-- A reclaim in hand, or a segment eligible (R80, R71, R84). -/
def reclaimHope (s : State) : Bool := reclaimInHand s || (lowestEligible s).isSome

/-- The demand for a reclaim (R77). -/
def reclaimDemand (s : State) : Bool := decide (freeCount s < 4) || directoryFull s

/-- An ID enters the expired list; of 256 the oldest leaves first (R72). -/
def expireId (l : List CoilId) (id : CoilId) : List CoilId :=
  let l := l ++ [id]
  l.drop (l.length - 256)

/-- The retention unit's waiting read of a chosen segment is removed and fails (R73, R103). -/
def failAmendRead (seg : Nat) (s : State) : State :=
  if s.ar.readQueue.any (fun r => r.reader == Reader.amend && r.seg == seg) then
    let s := { s with ar.readQueue := s.ar.readQueue.filter (fun r => !(r.reader == Reader.amend && r.seg == seg)) }
    match s.ru.amend with
    | .opened _ => lockAmend .readFailed s
    | .closed | .committing _ | .locked _ => s
  else s

/-- A segment is chosen: every coil with data in it expires, and it becomes CHOSEN (R79). Of several coils that expire at one choice
the IDs enter the expired list in the order in which the directory lists them, a choice of the model's (log entry 47). -/
def chooseSegment (g : SegEntry) (s : State) : State :=
  let gone := s.ar.outs.filter (fun e => e.segSet.contains g.num)
  failAmendRead g.num
    { s with
      ar.outs := s.ar.outs.filter (fun e => !e.segSet.contains g.num)
      ar.ins := s.ar.ins.filter (fun e => e.loc.seg != g.num)
      ar.expired := gone.foldl (fun l e => expireId l e.id) s.ar.expired
      ar.segs := putSeg { g with state := .chosen } s.ar.segs }

/-- A moment of reclaim choice (R77): with a demand and no reclaim in hand, the lowest eligible segment is chosen, if any. -/
def reclaimMoment (s : State) : State :=
  if reclaimDemand s && !reclaimInHand s then
    match lowestEligible s with
    | some g => chooseSegment g s
    | none => s
  else s

/-- A moment of reclaim choice, if it is one. -/
def momentIf (b : Bool) (s : State) : State := if b then reclaimMoment s else s

/-! ### Write queue (R66) -/

/-- The directory is full with no reclaim chosen, erasing or eligible (R71, R84). -/
def directoryStuck (s : State) : Bool := directoryFull s && !reclaimHope s

/-- An item handed over for writing (R66): dropped in FULL (R82), when it needs a directory place and none can come (R71), or when
64 items are held; otherwise it enters the queue, and a queue of 64 raises ARCHIVE-FULL. -/
def handItem (w : WriteItem) (s : State) : State :=
  if s.ar.stage = .full then dropItem w s
  else if needsPlace s w && directoryStuck s then dropItem w s
  else if 64 ≤ s.ar.writeQueue.length then dropItem w s
  else
    let s := { s with ar.writeQueue := s.ar.writeQueue ++ [w] }
    if 64 ≤ s.ar.writeQueue.length then raise .archiveFull s else s

/-- While the directory is full with no reclaim in hand or eligible, every queued record that needs a place is dropped (R71). -/
def dropPlaceless (s : State) : State :=
  if directoryStuck s then
    let gone := s.ar.writeQueue.filter (needsPlace s)
    gone.foldl (fun s w => dropItem w s) { s with ar.writeQueue := s.ar.writeQueue.filter (fun w => !needsPlace s w) }
  else s

/-! ### Handing over closing coils (R35, R36) -/

/-- Whether a closing coil may be handed over: its last cell lies below the mark, or it owns no cell (R35). -/
def readyToHand (mark : Nat) (r : OutputRecord) : Bool :=
  let past := cellFrom r.c1 r.pitch
  decide (past ≤ mark) || decide (past ≤ cellFrom r.c0 r.pitch)

/-- A coil leaves the closing list for the write queue (R36); READ-LAST-COIL keeps its flags as handed over (R211); its handing
over is a moment of reclaim choice (R77). -/
def handCoil (r : OutputRecord) (s : State) : State :=
  let s := { s with
    ca.lastCoil := s.ca.lastCoil.map (fun l => if l.id = r.id then r else l) }
  reclaimMoment (handItem (.output r) s)

/-- Hand over coils from the head of the closing list while each is ready; at most n (R35). -/
def handReadyN : Nat → State → State
  | 0, s => s
  | n + 1, s =>
    match s.ca.closing with
    | [] => s
    | r :: rest =>
      if readyToHand (writtenMark s) r then handReadyN n (handCoil r { s with ca.closing := rest }) else s

/-- Hand over the coils that are ready (R35). -/
def handReady (s : State) : State := handReadyN s.ca.closing.length s

/-! ### Stages and activation (R80 to R83) -/

/-- NO-TREND set on a coil's flags. -/
def CoilFlags.setNoTrend (f : CoilFlags) : CoilFlags := { f with noTrend := true }

/-- How many staged cells the page being written holds (R56). -/
def cellsInPage (s : State) : Nat :=
  match s.ar.pageWrite with
  | none => 0
  | some pw => pw.cells

/-- Entering RECORD-ONLY: staged cells not in a page being written are dropped, open and closing coils get NO-TREND, ARCHIVE-LOW is
raised, and the mark's rise hands coils over (R81, R57). -/
def enterRecordOnly (s : State) : State :=
  handReady (raise .archiveLow
    { s with
      ar.stage := .recordOnly
      cx.staging := s.cx.staging.take (cellsInPage s)
      ca.openCoils := s.ca.openCoils.map (fun c => { c with flags := c.flags.setNoTrend })
      ca.closing := s.ca.closing.map (fun r => { r with flags := r.flags.setNoTrend }) })

/-- Entering FULL: every item in the write queue is dropped, and ARCHIVE-FULL is raised (R82). -/
def enterFull (s : State) : State :=
  let gone := s.ar.writeQueue
  raise .archiveFull
    (gone.foldl (fun s w => dropItem w s) { s with ar.stage := .full, ar.writeQueue := [] })

/-- The lowest-numbered FREE segment becomes ACTIVE with the sequence counter's value (R80). -/
def activateLowest (s : State) : State :=
  { s with
    ar.segs := putSeg ⟨lowestFree 2 s.ar.segs, .active, s.ar.segSeq, 0, []⟩ s.ar.segs
    ar.segSeq := s.ar.segSeq + 1
    ar.activationWaits := false }

/-- An activation, by the table of R80; it is also a moment of reclaim choice, which the model puts after the outcome (log entry 48). -/
def activate (s : State) : State :=
  let hope := reclaimHope s
  reclaimMoment
    (match freeCount s with
     | 0 =>
       let s := { s with ar.activationWaits := true }
       if hope then s
       else
         match s.ar.stage with
         | .recordOnly => enterFull s
         | .normal => s
         | .full => s
     | 1 => if hope then activateLowest s else enterRecordOnly (activateLowest s)
     | _ => activateLowest s)

/-- The activation that START and RESTART need when there is no ACTIVE segment (R80, R204). -/
def activateIfNone (s : State) : State := if (activeSeg s).isNone then activate s else s

/-- The stage after a data segment's erase (R83). -/
def stageAfterErase (s : State) : State :=
  match s.ar.stage with
  | .normal => s
  | .recordOnly => if 2 ≤ freeCount s then { s with ar.stage := .normal } else s
  | .full => if 1 ≤ freeCount s then enterRecordOnly (activateLowest s) else s

/-! ### Archive conditions (R84) -/

/-- The archive-low condition (R84). -/
def archiveLowHolds (s : State) : Bool := s.ar.stage != .normal

/-- The archive-full condition (R84). -/
def archiveFullHolds (s : State) : Bool :=
  s.ar.stage == .full || decide (64 ≤ s.ar.writeQueue.length) || directoryStuck s

/-- ARCHIVE-LOW and ARCHIVE-FULL are set while their conditions hold (R84). -/
def raiseConditions (s : State) : State :=
  let s := if archiveLowHolds s then raise .archiveLow s else s
  if archiveFullHolds s then raise .archiveFull s else s

/-- A directory place is needed and none is free: a moment of reclaim choice (R77). -/
def placeMoment (s : State) : State :=
  match s.ar.writeQueue with
  | [] => s
  | w :: _ => if needsPlace s w && directoryFull s then reclaimMoment s else s

/-- What follows every event that touches the archive: the moment of R77, the drops of R71, then the conditions of R84. -/
def settleArchive (s : State) : State := raiseConditions (dropPlaceless (placeMoment s))

end Sys2Proof.Machine
end

