-- ==== Sys2Proof/Machine/Locate.lean ====
section
/-! DEFINITION. Tags and locates (07_pulls.md, sections 7.1 and 7.3), shared by the fetch slots and the propagation tasks. -/

namespace Sys2Proof.Machine

/-! ### Tags (R132) -/

/-- A tag held by a slot that is not FREE or by the head task (R132). -/
def tagHeld (s : State) (t : Tag) : Bool :=
  allSlots.any (fun k =>
    match slotAt s k with
    | some x => x.tag == t
    | none => false)
  || (match s.ru.head with
    | some h => h.tag == t
    | none => false)

/-- The first tag from t on that is not held; at most n are passed over (R132). -/
def freshTag (s : State) : Nat → Tag → Tag
  | 0, t => t
  | n + 1, t => if tagHeld s t then freshTag s n (t + 1) else t

/-- The tag that the counter gives; at most nine are held (R132). -/
def nextTag (s : State) : Tag := freshTag s 9 s.pe.tagCounter

/-- The counter past the tag taken (R132). -/
def takeTag (s : State) : State := { s with pe.tagCounter := nextTag s + 1 }

/-! ### Locates (R134 to R136) -/

/-- The own answer of a locate, taken once at its beginning (R134). -/
def ownAnswers (s : State) (id : CoilId) : List OwnAnswer :=
  match ownStatus s id with
  | some (st, len) => [⟨s.bi.node, st, len⟩]
  | none => []

/-- The locate as it begins: the window has not begun (R134). -/
def newLocate (s : State) (id : CoilId) : Locate := ⟨none, ownAnswers s id⟩

/-- The broadcast SEEK of a locate (R134). -/
def seekFrame (tag : Tag) (id : CoilId) (cls : FrameClass) (owner : FrameOwner) : OutFrame :=
  ⟨0, .seek, tag, countedBytes id, cls, owner⟩

/-- An OWN taken while the window runs; one answer per node (R135). -/
def Locate.add (l : Locate) (a : OwnAnswer) : Locate :=
  if l.began.isSome && !(l.answers.any (fun b => b.node == a.node)) then { l with answers := l.answers ++ [a] } else l

/-- The outcome of a locate: the owner, or the status that ends a segment (R136, R147). -/
inductive LocateOutcome where
  | located (owner : Node)
  | failed (status : SegStatus)
deriving DecidableEq, Repr

/-- The outcome that the collection gives (R136). -/
def Locate.outcome (l : Locate) : LocateOutcome :=
  match l.answers.filter (fun a => a.status != .expired) with
  | [a] =>
    match a.status with
    | .stored => .located a.node
    | .closing => .failed .closing
    | .opened => .failed .opened
    | .expired => .failed .expired
  | _ :: _ :: _ => .failed .ambiguous
  | [] => if l.answers = [] then .failed .notFound else .failed .expired

end Sys2Proof.Machine
end

