-- ==== Sys2Proof/Machine/Retention.lean ====
section
/-! DEFINITION. The retention unit's keeps and their propagation (05_keeps_freezes_and_amendments.md, sections 5.1 to 5.3). -/

namespace Sys2Proof.Machine

/-! ### The keep list (R92) -/

/-- A change of the keep list: an image write is made ready (R85), and it is a moment of reclaim choice (R77). -/
def keepChanged (s : State) : State := reclaimMoment { s with ar.keepReady := true }

/-- The triple of a keep list entry (R92). -/
def KeepEntry.isTriple (k : KeepEntry) (id : CoilId) (node : Node) (number : Nat) : Bool :=
  k.id == id && k.node == node && k.number == number

/-- Whether the keep list holds a triple. -/
def hasKeep (s : State) (id : CoilId) (node : Node) (number : Nat) : Bool :=
  s.ru.keeps.any (fun k => k.isTriple id node number)

/-- A source entry marked PARTIAL, if it is in the list and not PARTIAL already (R94, R98). The source is found by its triple, also when
it was removed and kept again since (log entry 49). -/
def markPartial (id : CoilId) (node : Node) (number : Nat) (s : State) : State :=
  if s.ru.keeps.any (fun k => k.isTriple id node number && !k.keptPartial) then
    keepChanged { s with
      ru.keeps := s.ru.keeps.map (fun k => if k.isTriple id node number then { k with keptPartial := true } else k) }
  else s

/-! ### Propagation tasks (R94 to R98) -/

/-- The parents of an output entry that yield tasks: the present IDs of its traced input coils, in segment order, each ID once
(R94). -/
def parentIds (s : State) (e : OutEntry) : List CoilId :=
  let ids := e.refs.filterMap (fun r =>
    match r with
    | none => none
    | some seq =>
      match inBySeq s seq with
      | none => none
      | some i => if i.id = [] then none else some i.id)
  ids.foldl (fun l id => if l.contains id then l else l ++ [id]) []

/-- A task enters the queue, or is dropped when 16 are held, a KEEP task's source becoming PARTIAL (R94, R95). -/
def queueTask (t : Task) (s : State) : State :=
  if s.ru.tasks.length < 16 then { s with ru.tasks := s.ru.tasks ++ [t] }
  else
    match t.kind with
    | .keep => markPartial t.source t.node t.number s
    | .unkeep => s

/-- The task at the head of the queue, when it is not yet worked, takes a tag and begins its locate (R96). -/
def startHead (s : State) : State :=
  match s.ru.head, s.ru.tasks with
  | none, t :: _ =>
    let tag := nextTag s
    send (seekFrame tag t.parent .general .task)
      { takeTag s with ru.head := some ⟨tag, .locating (newLocate s t.parent)⟩ }
  | _, _ => s

/-- Tasks formed from a coil's parents enter the queue in segment order (R94, R95). -/
def formTasks (e : OutEntry) (node : Node) (number : Nat) (kind : TaskKind) (s : State) : State :=
  startHead ((parentIds s e).foldl (fun s id => queueTask ⟨id, node, number, kind, e.id⟩ s) s)

/-- The head task leaves the queue, its offers are withdrawn (R192), and the next task reaches the head (R98). -/
def endTask (s : State) : State :=
  let s := orphan .task (withdraw (fun f => f.owner == .task) s)
  startHead { s with ru.tasks := s.ru.tasks.drop 1, ru.head := none }

/-- A head task that failed: a KEEP task's source becomes PARTIAL, and the task ends (R98). -/
def failTask (s : State) : State :=
  match s.ru.tasks with
  | [] => s
  | t :: _ =>
    endTask
      (match t.kind with
       | .keep => markPartial t.source t.node t.number s
       | .unkeep => s)

/-- The frame that a task sends to the owner found (R97). -/
def taskFrame (t : Task) (tag : Tag) (owner : Node) : OutFrame :=
  ⟨owner, (match t.kind with
    | .keep => .keep
    | .unkeep => .unkeep), tag, keepPayload t.parent t.node t.number, .general, .task⟩

/-- The head task's locate ends with its outcome (R96). -/
def taskLocated (outcome : LocateOutcome) (s : State) : State :=
  match outcome, s.ru.tasks, s.ru.head with
  | .located owner, t :: _, some h =>
    send (taskFrame t h.tag owner) { s with ru.head := some { h with phase := .awaiting owner none } }
  | .failed _, _, _ => failTask s
  | _, _, _ => s

/-! ### KEEP, UNKEEP and KEPT (R93, R95, R97) -/

/-- Whether an output coil under a renaming commit holds an ID as its old or its new one (R93, R102, R108). -/
def underRename (s : State) (id : CoilId) : Bool :=
  (awaiting s).any (fun w =>
    match w with
    | .amendedOutput r old => r.id != old && (r.id == id || old == id)
    | .input _ | .output _ | .freezeMark _ _ | .amendedInput _ => false)

/-- The ID bytes of a KEPT: the counted ID received; for a malformed one the bytes are a free value (log entry 23). -/
def keptIdBytes (field : List Byte) : List Byte :=
  match countedId field with
  | some id => countedBytes id
  | none => (List.range 17).map (Config.malformedIdEcho field)

/-- The KEPT that answers a KEEP or UNKEEP (section 5.2). -/
def keptFrame (dest : Node) (tag : Tag) (field : List Byte) (st : KeptStatus) : OutFrame :=
  answerFrame dest .kept tag (keptIdBytes field ++ [st.code])

/-- What a KEEP comes to: its status, and the entry when it is added (R93, R214, R216). -/
def keepOutcome (s : State) (id : Option CoilId) (origin number : Nat) : KeptStatus × Option OutEntry :=
  match id with
  | none => (.notFound, none)
  | some id =>
    if 31 < origin then (.notFound, none)
    else if underRename s id then (.notFound, none)
    else
      match outById s id with
      | none => (if s.ar.expired.contains id then .expired else .notFound, none)
      | some e =>
        if hasKeep s id (BitVec.ofNat 5 origin) number then (.ok, none)
        else if 64 ≤ s.ru.keeps.length then (.full, none)
        else (.ok, some e)

/-- A KEEP taken by the retention unit (R93, R94). -/
def takeKeep (src : Node) (tag : Tag) (payload : List Byte) (s : State) : State :=
  let field := payload.take 17
  let origin := natAt payload 17 1
  let number := natAt payload 18 2
  if s.pp.station ≠ .run then send (keptFrame src tag field .notReady) s
  else
    let out := keepOutcome s (countedId field) origin number
    match out.2 with
    | none => send (keptFrame src tag field out.1) s
    | some e =>
      let node := BitVec.ofNat 5 origin
      let s := keepChanged { s with ru.keeps := s.ru.keeps ++ [⟨e.id, node, number, false⟩] }
      formTasks e node number .keep (send (keptFrame src tag field .ok) s)

/-- An UNKEEP taken by the retention unit (R95, R216). -/
def takeUnkeep (src : Node) (tag : Tag) (payload : List Byte) (s : State) : State :=
  let field := payload.take 17
  let origin := natAt payload 17 1
  let number := natAt payload 18 2
  if s.pp.station ≠ .run then send (keptFrame src tag field .notReady) s
  else
    match countedId field with
    | none => send (keptFrame src tag field .notKept) s
    | some id =>
      let node := BitVec.ofNat 5 origin
      if origin ≤ 31 && hasKeep s id node number then
        let s := keepChanged { s with ru.keeps := s.ru.keeps.filter (fun k => !k.isTriple id node number) }
        let s := send (keptFrame src tag field .ok) s
        match outById s id with
        | none => s
        | some e => formTasks e node number .unkeep s
      else send (keptFrame src tag field .notKept) s

/-- A KEPT taken for the head task: it matches by source, tag and coil ID (R97), and its status ends the task (R98). -/
def takeKept (src : Node) (tag : Tag) (payload : List Byte) (s : State) : State :=
  match s.ru.head, s.ru.tasks with
  | some h, t :: _ =>
    match h.phase with
    | .awaiting owner _ =>
      if owner = src ∧ h.tag = tag ∧ countedId (payload.take 17) = some t.parent then
        if byteAt payload 17 = KeptStatus.ok.code then endTask s else failTask s
      else s
    | .locating _ => s
  | _, _ => s

/-! ### RESTART (R99) -/

/-- The propagation queue is emptied; the sources of KEEP tasks become PARTIAL (R99). -/
def dropTasks (s : State) : State :=
  let tasks := s.ru.tasks
  tasks.foldl (fun s t =>
    match t.kind with
    | .keep => markPartial t.source t.node t.number s
    | .unkeep => s) { s with ru.tasks := [], ru.head := none }

end Sys2Proof.Machine
end

