-- ==== Sys2Proof/Machine/Pull.lean ====
section
/-! DEFINITION. The pull engine (07_pulls.md): answering SEEK, admission and RESOLVE, the own records of LOCAL, the walk over parent
segments, the fetch slots, and the ending of contexts. -/

namespace Sys2Proof.Machine

/-! ### Answering SEEK (R133) -/

/-- The OWN that answers a SEEK, with the marks FROZEN and KEPT that R215 gives its byte 22 (R133, R215; AMENDED: log entry 58). -/
def ownFrame (s : State) (dest : Node) (tag : Tag) (id : CoilId) (st : OwnStatus) (len : Nat) : OutFrame :=
  let frozen := match outById s id with
    | some e => e.flags.frozen
    | none => false
  answerFrame dest .own tag (countedBytes id ++ [st.code] ++ beBytes 4 len ++ [bitIf frozen 0 ||| bitIf (isKept s id) 1])

/-- A SEEK taken by the pull engine (R133): answered in RUN when the station knows the coil, not to the own node. -/
def takeSeek (src : Node) (tag : Tag) (payload : List Byte) (s : State) : State :=
  if s.pp.station ≠ .run ∨ src = s.bi.node then s
  else
    match countedId payload with
    | none => s
    | some id =>
      match ownStatus s id with
      | some (st, len) => send (ownFrame s src tag id st len) s
      | none => s

/-- An OWN taken for the running locate whose tag and ID it carries (R135, R216). -/
def takeOwn (src : Node) (tag : Tag) (payload : List Byte) (s : State) : State :=
  match countedId (payload.take 17), OwnStatus.ofCode (byteAt payload 17) with
  | some id, some st =>
    let a : OwnAnswer := ⟨src, st, natAt payload 18 4⟩
    let slotTakes (x : FetchSlot) : FetchSlot :=
      match x.phase with
      | .seeking (some l) => if x.tag = tag ∧ x.parent = id then { x with phase := .seeking (some (l.add a)) } else x
      | .seeking none => x
      | .pulling _ => x
      | .draining _ => x
    let taskTakes (h : TaskHead) : TaskHead :=
      match h.phase, s.ru.tasks with
      | .locating l, t :: _ => if h.tag = tag ∧ t.parent = id then { h with phase := .locating (l.add a) } else h
      | _, _ => h
    { s with
      pe.slots := s.pe.slots.map (fun x => x.map slotTakes)
      ru.head := s.ru.head.map taskTakes }
  | _, _ => s

/-! ### Stream records of the own coil (R142, R143, R131, R217) -/

/-- Bytes 0 and 1 of a stream record (R217). -/
def recordStart (kind level : Nat) (node : Node) : List Byte :=
  [BitVec.ofNat 8 (kind * 16 + level), BitVec.ofNat 8 node.toNat]

/-- The LEVEL record (R142, R217). -/
def levelRecord (s : State) (x : PullContext) (e : OutEntry) (r : OutputRecord) (g : Grid) : RecordBytes :=
  recordStart 1 x.level s.bi.node ++ filledBytes 16 r.id ++ beBytes 4 (r.c1 - r.c0)
    ++ [r.flags.byte,
        bitIf (isKept s r.id) 0 ||| bitIf (isKeptPartial s r.id) 1 ||| bitIf x.clamped 2,
        BitVec.ofNat 8 (if e.firstBlock.isSome then r.pitch else 0),
        BitVec.ofNat 8 s.cx.channels.length,
        BitVec.ofNat 8 (r.lane.getD 0 * 16 + r.segments.length),
        BitVec.ofNat 8 (g.n - 1)]

/-- The CHAN record of a channel (R143, R217). -/
def chanRecord (level : Nat) (node : Node) (number : Nat) (ch : Channel) : RecordBytes :=
  recordStart 2 level node ++ [BitVec.ofNat 8 number] ++ filledBytes 8 ch.name ++ [ch.unit] ++ intBytes 1 ch.scale
    ++ List.replicate 15 0

/-- The BIN record of a bin and channel (R131, R217). -/
def binRecord (level : Nat) (node : Node) (bin number : Nat) (a : Accum) : RecordBytes :=
  let held (v : Int) : Int := if a.count = 0 then 0 else v
  recordStart 3 level node ++ [BitVec.ofNat 8 bin, BitVec.ofNat 8 number] ++ beBytes 4 a.cells ++ beBytes 4 a.count
    ++ intBytes 2 (held (a.least.getD 0)) ++ intBytes 2 (held (a.greatest.getD 0)) ++ intBytes 6 (held a.sum)
    ++ [bitIf (decide (a.count = 0)) 0 ||| bitIf a.saturated 1] ++ List.replicate 5 0

/-- The BIN records: bin by bin, and within each bin channel by channel (R144). -/
def binRecords (s : State) (x : PullContext) (g : Grid) : List RecordBytes :=
  (List.range g.n).flatMap (fun j =>
    (List.range s.cx.channels.length).map (fun ch =>
      binRecord x.level s.bi.node (g.f + j) ch ((x.accums.getD j []).getD ch .zero)))

/-- The context's own records that can be made now, in order: LEVEL, CHAN, and once the cells are read BIN (R142 to R144). -/
def ownRecords (s : State) (x : PullContext) : List RecordBytes :=
  match x.entry, x.record, x.grid with
  | some e, some r, some g =>
    levelRecord s x e r g :: (s.cx.channels.zipIdx.map (fun p => chanRecord x.level s.bi.node p.2 p.1)
      ++ (if x.cellsRead then binRecords s x g else []))
  | _, _, _ => []

/-- The context places as many of its own records as the relay buffer has room for (R144, R172). -/
def placeOwn (c : Fin 6) (s : State) : State :=
  onCtx c (fun x =>
    let more := ((ownRecords s x).drop x.placed).take (64 - x.relay.length)
    { x with relay := x.relay ++ more, placed := x.placed + more.length }) s

/-! ### Fetch slots (R146 to R148, R152) -/

/-- A context that has taken a slot takes a tag, and its locate begins (R147); slot and context hold the plan until the fetch ends (log
entry 52). -/
def beginFetch (c : Fin 6) (k : Fin 8) (plan : FetchPlan) (s : State) : State :=
  let tag := nextTag s
  let slot : FetchSlot :=
    ⟨some c, tag, plan.parent, plan.grid, plan.lin, plan.estimated, plan.long, none, .seeking (some (newLocate s plan.parent))⟩
  send (seekFrame tag plan.parent .context (.slot k))
    (onCtx c (fun x => { x with slot := some k, fetch := some plan }) (setSlot k (some slot) (takeTag s)))

/-- A context that begins a fetch takes the lowest FREE slot, or joins the fetch-wait queue (R146). -/
def takeSlot (c : Fin 6) (plan : FetchPlan) (s : State) : State :=
  match freeSlotNum s with
  | some k => beginFetch c k plan s
  | none =>
    onCtx c (fun x => { x with fetch := some plan }) { s with pe.waiting := s.pe.waiting ++ [c] }

/-- The context at the head of the fetch-wait queue takes a slot that returned to FREE (R146). -/
def promote (k : Fin 8) (s : State) : State :=
  match s.pe.waiting with
  | [] => s
  | c :: rest =>
    let s := { s with pe.waiting := rest }
    match ctxAt s c with
    | none => s
    | some x =>
      match x.fetch with
      | none => s
      | some plan => beginFetch c k plan s

/-- A slot returns to FREE: its offers are withdrawn, frames of it already accepted report to nobody (R190, R192). -/
def freeSlot (k : Fin 8) (s : State) : State :=
  promote k (setSlot k none (orphan (.slot k) (withdraw (fun f => f.owner == .slot k) s)))

/-- A PULLING fetch is stopped: its waiting offers are withdrawn, STOP is offered to the owner, and the slot is DRAINING, without a
context (R152, R177). -/
def stopSlot (k : Fin 8) (s : State) : State :=
  match slotAt s k with
  | none => s
  | some x =>
    send ⟨x.owner.getD 0, .stop, x.tag, [], .context, .slot k⟩
      (setSlot k (some { x with context := none, phase := .draining none }) (withdraw (fun f => f.owner == .slot k) s))

/-- The MAPPED PULL of a located fetch (R148). -/
def pullFrame (k : Fin 8) (x : FetchSlot) (owner : Node) (level depth : Nat) : OutFrame :=
  ⟨owner, .pull, x.tag, mappedPayload x.parent level depth x.lin x.grid, .context, .slot k⟩

/-! ### The walk over parent segments (R145) -/

/-- How a segment is settled (R145). -/
inductive Settled where
  | skipped
  | status (st : SegStatus)
  | fetch (plan : FetchPlan)
deriving DecidableEq, Repr

/-- An input coil whose record is not written yet (R145; log entry 20). -/
def isPending (s : State) (seq : Nat) : Bool :=
  s.ca.table.any (fun e => e.seq == seq)
  || (awaiting s).any (fun w =>
    match w with
    | .input r => r.seq == seq
    | .output _ | .freezeMark _ _ | .amendedInput _ | .amendedOutput _ _ => false)

/-- A segment's t1, cut at w1 − c0 for the eighth segment of an OVERFLOW coil (R121); with no input entry in the directory there is no w1,
and t1 stays as recorded (log entry 53). -/
def segmentEnd (r : OutputRecord) (index : Nat) (p : ParentSegment) (i : Option InEntry) : Int :=
  match i with
  | some e => if index = 7 ∧ r.flags.overflow then min (p.t1 : Int) ((e.w1 : Int) - r.c0) else p.t1
  | none => p.t1

/-- A segment settled by the first row of R145 that applies. -/
def settleSegment (s : State) (depth : Nat) (g : Grid) (r : OutputRecord) (index : Nat) (p : ParentSegment) : Settled :=
  let input := p.ref.bind (inBySeq s)
  let t1 := segmentEnd r index p input
  let clip := clippedPart g p.t0 t1
  if clip.2 ≤ clip.1 then .skipped
  else
    match p.ref with
    | none => .status .untraced
    | some seq =>
      if isPending s seq then .status .pending
      else
        match input with
        | none => .status .expired
        | some e =>
          if e.id = [] then .status .untraced
          else
            let q := (HopData.mk r.c0 p.t0 t1 e.w0 e.w1 e.lin).hop g
            if q.u1 ≤ q.u0 then .skipped
            else if depth = 0 then .status .depth
            else .fetch ⟨e.id, e.lin, q, e.estimated, e.long⟩

/-- No segment remains: the further segments count as UNTRACED, and the context enters CLOSING (R145). -/
def enterClosing (x : PullContext) : PullContext :=
  { x with
    phase := .closing
    counts := x.counts.set SegStatus.untraced.place
      (min 255 (x.counts.get SegStatus.untraced.place + (x.record.elim 0 (fun r => r.further)))) }

/-- The walk over the segments given, the first of them of the index given, up to the next fetch or to CLOSING (R145). -/
def walk (c : Fin 6) (depth : Nat) (g : Grid) (r : OutputRecord) : Nat → List ParentSegment → State → State
  | _, [], s => onCtx c enterClosing s
  | index, p :: rest, s =>
    let past := onCtx c (fun x => { x with cursor := index + 1 }) s
    match settleSegment s depth g r index p with
    | .skipped => walk c depth g r (index + 1) rest past
    | .status st => walk c depth g r (index + 1) rest (onCtx c (addCount st) past)
    | .fetch plan => takeSlot c plan past

/-- The next parent segment is begun (R145). -/
def nextSegment (c : Fin 6) (s : State) : State :=
  match ctxAt s c with
  | none => s
  | some x =>
    match x.grid, x.record with
    | some g, some r => walk c x.depth g r x.cursor (r.segments.drop x.cursor) s
    | _, _ => s

/-- The context's fetch is over: it holds no slot. -/
def PullContext.dropFetch (x : PullContext) : PullContext := { x with slot := none, fetch := none }

/-- A fetch ends with a segment status: the slot returns to FREE, and the next segment is begun (R147, R151). -/
def finishFetch (c : Fin 6) (k : Fin 8) (st : SegStatus) (s : State) : State :=
  nextSegment c (freeSlot k (onCtx c (fun x => (addCount st x).dropFetch) s))

/-- A fetch's locate ends with its outcome (R147, R148). -/
def slotLocated (k : Fin 8) (outcome : LocateOutcome) (s : State) : State :=
  match slotAt s k with
  | none => s
  | some x =>
    match x.context with
    | none => s
    | some c =>
      match outcome, ctxAt s c with
      | .located owner, some y =>
        send (pullFrame k x owner (y.level + 1) (y.depth - 1))
          (setSlot k (some { x with owner := some owner, phase := .seeking none }) s)
      | .failed st, _ => finishFetch c k st s
      | .located _, none => s

/-! ### LOCAL (R142 to R144) -/

/-- The pin is released, a moment of reclaim choice (R77, R144). -/
def releasePin (c : Fin 6) (s : State) : State := reclaimMoment (onCtx c (fun x => { x with pin := none }) s)

/-- LOCAL ends: the pin is released, the accumulators discarded, and the context enters SEGMENTS (R144). -/
def leaveLocal (c : Fin 6) (s : State) : State :=
  nextSegment c (releasePin c (onCtx c (fun x => { x with phase := .segments, accums := [] }) s))

/-- Own records are placed; when the last BIN record is placed, LOCAL ends (R144). -/
def continueLocal (c : Fin 6) (s : State) : State :=
  let s := placeOwn c s
  match ctxAt s c with
  | none => s
  | some x =>
    if x.phase = .localRecords ∧ x.cellsRead ∧ (ownRecords s x).length ≤ x.placed then leaveLocal c s else s

/-- The segments in which the context reads its coil's cells, in ascending sequence (R144). -/
def cellSegments (s : State) (x : PullContext) (r : OutputRecord) : List SegEntry :=
  (bySeq s.ar.segs).filter (fun g =>
    (pinnedSegs s x).contains g.num
      && g.cells.any (fun range => range.meets r.pitch (cellFrom r.c0 r.pitch) (cellFrom r.c1 r.pitch)))

/-- The first page at or after a page of the first segment given, or page 0 of a later one. -/
def pageFrom (page : Nat) : List SegEntry → Option (Nat × Nat)
  | [] => none
  | g :: rest => if page < g.written then some (g.num, page) else pageFrom 0 rest

/-- The cell page to read next: the page of the first cell block at first, then the written pages in order (R144). -/
def nextCellPage (s : State) (x : PullContext) (e : OutEntry) (r : OutputRecord) : Option (Nat × Nat) :=
  match e.firstBlock with
  | none => none
  | some loc =>
    let segs := cellSegments s x r
    match x.readAt with
    | none => pageFrom (if segs.head?.map (fun g => g.num) = some loc.seg then loc.page else 0) segs
    | some (seg, page) => pageFrom (page + 1) (segs.dropWhile (fun g => g.num != seg))

/-- The reading of cells ends (R144). -/
def endCellReading (c : Fin 6) (s : State) : State := continueLocal c (onCtx c (fun x => { x with cellsRead := true }) s)

/-- The context asks for the next cell page, or its reading of cells ends (R144). -/
def askCells (c : Fin 6) (s : State) : State :=
  match ctxAt s c with
  | none => s
  | some x =>
    match x.entry, x.record with
    | some e, some r =>
      match nextCellPage s x e r with
      | none => endCellReading c s
      | some (seg, page) =>
        onCtx c (fun x => { x with readAt := some (seg, page) })
          { s with ar.readQueue := s.ar.readQueue ++ [⟨seg, page, .cells c⟩] }
    | _, _ => s

/-- A cell's entries added to a bin's accumulators, one per channel; an entry the cell lacks counts as empty (R129, log entry 40). -/
def addEntries : List Accum → List CellEntry → List Accum
  | [], _ => []
  | a :: as, [] => a.addEntry .empty :: addEntries as []
  | a :: as, e :: es => a.addEntry e :: addEntries as es

/-- A cell added to the bin of its centre when the coil owns it and the clip includes it (R119, R129). -/
def addCell (g : Grid) (r : OutputRecord) (accums : List (List Accum)) (cell : Nat) (entries : List CellEntry) :
    List (List Accum) :=
  let x := cellCentre r.c0 r.c1 r.pitch cell
  if ownsCell r.c0 r.c1 r.pitch cell && g.includes x then
    accums.modify (g.binOf x - g.f) (fun row => addEntries row entries)
  else accums

/-- The cells of a block from an index on. -/
def addBlock (g : Grid) (r : OutputRecord) : Nat → List (List CellEntry) → List (List Accum) → List (List Accum)
  | _, [], accums => accums
  | cell, entries :: rest, accums => addBlock g r (cell + 1) rest (addCell g r accums cell entries)

/-- The cell blocks of the coil's pitch on a page: first index and cells. -/
def blocksOf (pitch : Nat) (items : List PageItem) : List (Nat × List (List CellEntry)) :=
  items.filterMap (fun i =>
    match i with
    | .cells p first block => if p = pitch then some (first, block) else none
    | .item _ => none)

/-- A cell page read completes: its cells are added, and the reading ends with the last owned cell or goes on (R144); a page that
fails passes its cells over. -/
def takeCellPage (c : Fin 6) (page : Option Page) (s : State) : State :=
  match ctxAt s c with
  | none => s
  | some x =>
    match x.record, x.grid with
    | some r, some g =>
      let blocks := blocksOf r.pitch ((dataItems page).getD [])
      let past := cellFrom r.c1 r.pitch
      let s := setCtx c (some { x with accums := blocks.foldl (fun a b => addBlock g r b.1 b.2 a) x.accums }) s
      if blocks.any (fun b => decide (past ≤ b.1 + b.2.length)) then endCellReading c s else askCells c s
    | _, _ => s

/-! ### RESOLVE (R140, R141) -/

/-- The output record of a sequence at a place of a page as read. -/
def storedOutput (page : Option Page) (place seq : Nat) : Option OutputRecord :=
  match ((dataItems page).getD [])[place]? with
  | some (.item (.output r)) => if r.seq = seq then some r else none
  | some (.item (.amendedOutput r _)) => if r.seq = seq then some r else none
  | _ => none

/-- The context moves to CLOSING with a result and no records (R140, R141). -/
def PullContext.close (st : DoneStatus) (x : PullContext) : PullContext := { x with phase := .closing, result := st, pin := none }

/-- The grid that a PULL's form gives on a coil of length len, with the CLAMPED mark; none is BAD-REQUEST (R115, R118, R126). -/
def PullForm.gridOn (form : PullForm) (len : Nat) : Option (Grid × Bool) :=
  match form with
  | .origin a b n => (normalise a b n len).map (fun q => (originGrid a q.1 q.2.1, q.2.2))
  | .mapped lin g => if g.wellFormed && lin != 0 then some (ownerGrid g lin len, false) else none

/-- The record is read: the context copies it with the directory entry's flags, builds its grid and accumulators, enters LOCAL and
places its first records (R141 to R143). -/
def enterLocal (c : Fin 6) (x : PullContext) (e : OutEntry) (r : OutputRecord) (g : Grid) (clamped : Bool) (s : State) : State :=
  let x := { x with
    record := some { r with flags := e.flags }
    grid := some g
    clamped := clamped
    accums := List.replicate g.n (List.replicate s.cx.channels.length Accum.zero)
    phase := .localRecords }
  let s := placeOwn c (setCtx c (some x) s)
  if cellFrom r.c1 r.pitch ≤ cellFrom r.c0 r.pitch then endCellReading c s else askCells c s

/-- A record page read completes for a context in RESOLVE (R141). -/
def takeRecordPage (c : Fin 6) (page : Option Page) (s : State) : State :=
  match ctxAt s c with
  | none => s
  | some x =>
    match x.entry with
    | none => s
    | some e =>
      match storedOutput page e.loc.place e.seq with
      | none => reclaimMoment (setCtx c (some (x.close .notFound)) s)
      | some r =>
        match x.form.gridOn (r.c1 - r.c0) with
        | none => reclaimMoment (setCtx c (some (x.close .badRequest)) s)
        | some (g, clamped) => enterLocal c x e r g clamped s

/-- A context as it is admitted (R138, R139, R159). -/
def PullContext.admitted (requester : Node) (tag : Tag) (coil : CoilId) (form : PullForm) (level depth : Nat) : PullContext where
  requester := requester
  tag := tag
  coil := coil
  form := form
  level := level
  depth := min depth (7 - level)
  phase := .resolve
  result := .complete
  entry := none
  record := none
  grid := none
  clamped := false
  accums := []
  pin := none
  readAt := none
  cellsRead := false
  placed := 0
  relay := []
  cursor := 0
  fetch := none
  slot := none
  counts := Vector.replicate 12 0
  firstError := .clear
  paused := none
  burstSeq := 0
  burst := none

/-- The result of RESOLVE for a coil that is not STORED (R140). -/
def OwnStatus.asResult (st : OwnStatus) : DoneStatus :=
  match st with
  | .stored => .complete
  | .closing => .closing
  | .opened => .opened
  | .expired => .expired

/-- The look-up at admission: a STORED coil is pinned and its record page asked for, once the form's checks pass (R140, R141). -/
def resolve (c : Fin 6) (x : PullContext) (s : State) : State :=
  match outById s x.coil, ownStatus s x.coil with
  | some e, some (.stored, len) =>
    match x.form.gridOn len with
    | none => reclaimMoment (setCtx c (some (x.close .badRequest)) s)
    | some _ =>
      setCtx c (some { x with entry := some e, pin := some e.segSet })
        { s with ar.readQueue := s.ar.readQueue ++ [⟨e.loc.seg, e.loc.page, .record c⟩] }
  | _, some (st, _) => setCtx c (some (x.close st.asResult)) s
  | _, none => setCtx c (some (x.close .notFound)) s

/-- The form and fields of a PULL's payload (R137, R215). -/
def pullForm (payload : List Byte) : PullForm :=
  if byteAt payload 0 = 1 then .origin (natAt payload 20 4) (natAt payload 24 4) (natAt payload 28 2)
  else
    .mapped (natAt payload 20 4)
      ⟨intAt payload 24 6, intAt payload 30 6, natAt payload 36 2, natAt payload 38 2, intAt payload 40 6, intAt payload 46 6⟩

/-- Whether an active context holds a requester and tag (R138, R155). -/
def PullContext.isFor (x : PullContext) (requester : Node) (tag : Tag) : Bool := x.requester == requester && x.tag == tag

/-- The active context that holds a requester and tag (R138, R155, R169). -/
def ctxFor (s : State) (requester : Node) (tag : Tag) : Option (Fin 6) :=
  allContexts.find? (fun c =>
    match ctxAt s c with
    | some x => x.isFor requester tag
    | none => false)

/-- A PULL taken by the pull engine: its admission by the first row of R138 that applies. A malformed coil ID is held as the absent
ID, which is no coil's (R214). -/
def takePull (src : Node) (tag : Tag) (payload : List Byte) (s : State) : State :=
  let level := natAt payload 18 1
  let depth := natAt payload 19 1
  if s.pp.station ≠ .run then send (refusalDone src tag .notReady (min 7 level)) s
  else if 7 < level then send (refusalDone src tag .badRequest 7) s
  else if (ctxFor s src tag).isSome then s
  else
    match freeCtx s with
    | none => send (refusalDone src tag .busy level) s
    | some c =>
      resolve c (.admitted src tag ((countedId (slice payload 1 17)).getD []) (pullForm payload) level depth) s

/-! ### The ending of contexts (R155, R156) -/

/-- A context's reads: one not begun leaves the queue, one in progress has its page discarded (R73, R155). -/
def dropReads (c : Fin 6) (s : State) : State :=
  let isOf (r : ReadRequest) : Bool := r.reader == .record c || r.reader == .cells c
  { s with
    ar.readQueue := s.ar.readQueue.filter (fun r => !isOf r)
    ar.reading := s.ar.reading.map (fun r => if isOf r.request then { r with discarded := true } else r) }

/-- A context's fetch is stopped: a SEEKING slot returns to FREE, a PULLING one drains (R152, R155). -/
def stopFetch (c : Fin 6) (s : State) : State :=
  match ctxAt s c with
  | none => s
  | some x =>
    match x.slot with
    | none => s
    | some k =>
      match slotAt s k with
      | none => s
      | some y =>
        match y.phase with
        | .seeking _ => freeSlot k s
        | .pulling _ => stopSlot k s
        | .draining _ => s

/-- A context is freed: a frame of its own in the transmit path reports to nobody (R190). -/
def freeCtxNow (c : Fin 6) (s : State) : State := setCtx c none (orphan (.context c) s)

/-- A context ends by STOP or by the pause limit (R155, R156): its reads, pin, place in the fetch-wait queue and fetch are let go,
the DONE is offered, and the context is freed. -/
def endContext (c : Fin 6) (st : DoneStatus) (s : State) : State :=
  match ctxAt s c with
  | none => s
  | some x =>
    let s := dropReads c { s with pe.waiting := s.pe.waiting.filter (fun d => d != c) }
    let s := stopFetch c s
    let s := send ⟨x.requester, .done, x.tag, donePayload st x.level x.counts x.firstError, .context, .nobody⟩ s
    let s := freeCtxNow c s
    if x.pin.isSome then reclaimMoment s else s

/-- A STOP taken by the pull engine (R155). -/
def takeStop (src : Node) (tag : Tag) (s : State) : State :=
  match ctxFor s src tag with
  | none => s
  | some c => endContext c .stopped s

end Sys2Proof.Machine
end

