-- ==== Sys2Proof/Machine/Burst.lean ====
section
/-! DEFINITION. The burst unit (08_bursts_and_flow_control.md): the outgoing frames of a context's stream, the incoming burst check,
relaying, WAIT and GO, and the watermarks. -/

namespace Sys2Proof.Machine

/-! ### The outgoing stream (R159 to R163) -/

/-- A context has a frame ready (R160). -/
def PullContext.frameReady (x : PullContext) : Bool :=
  x.paused.isNone && (x.burst.isSome || !x.relay.isEmpty || x.phase == .closing)

/-- After records left the relay buffer: at 16 or fewer an owed WAIT is withdrawn, or GO is offered (R174). -/
def drainWatermark (c : Fin 6) (s : State) : State :=
  match ctxAt s c with
  | none => s
  | some x =>
    match x.slot with
    | none => s
    | some k =>
      match slotAt s k with
      | none => s
      | some y =>
        match y.phase with
        | .seeking _ => s
        | .draining _ => s
        | .pulling p =>
          if 16 < x.relay.length then s
          else
            match p.flow with
            | .waitOwed =>
              onPulling k (fun p => { p with flow := .running })
                (withdraw (fun f => f.owner == .slot k && f.kind == .wait) s)
            | .waited =>
              send ⟨y.owner.getD 0, .go, y.tag, [], .context, .slot k⟩ (onPulling k (fun p => { p with flow := .releasing }) s)
            | .running => s
            | .releasing => s

/-- A data frame of a context, to its requester with its tag. -/
def dataFrame (c : Fin 6) (x : PullContext) (kind : FrameKind) (payload : List Byte) : OutFrame :=
  ⟨x.requester, kind, x.tag, payload, .context, .context c⟩

/-- A burst as it opens (R160). -/
def OpenBurst.empty : OpenBurst := ⟨0, 0, burstSeed⟩

/-- A BINS frame formed in a burst: up to 8 records leave the head of the relay buffer (R161). -/
def formBins (c : Fin 6) (x : PullContext) (b : OpenBurst) (s : State) : OutFrame × State :=
  let records := x.relay.take 8
  let b := { b with frames := b.frames + 1, records := b.records + records.length, crc := burstCrc b.crc records }
  (dataFrame c x .bins records.flatten,
    drainWatermark c (setCtx c (some { x with relay := x.relay.drop 8, burst := some b }) s))

/-- The MARK that closes the open burst (R162). -/
def formMark (c : Fin 6) (x : PullContext) (b : OpenBurst) (s : State) : OutFrame × State :=
  (dataFrame c x .mark ([x.burstSeq, BitVec.ofNat 8 b.records] ++ beBytes 2 b.crc.toNat),
    setCtx c (some { x with burst := none, burstSeq := x.burstSeq + 1 }) s)

/-- The DONE formed at CLOSING (R163, R153). -/
def formDone (c : Fin 6) (x : PullContext) (s : State) : OutFrame × State :=
  (dataFrame c x .done (donePayload x.result x.level x.counts x.firstError), s)

/-- The frame formed when it is taken from a context with a frame ready, by the first row of R160 that applies. -/
def formFrame (c : Fin 6) (x : PullContext) (s : State) : OutFrame × State :=
  match x.burst with
  | some b => if b.frames = 16 ∨ x.relay = [] then formMark c x b s else formBins c x b s
  | none => if x.relay = [] then formDone c x s else formBins c x .empty s

/-! ### Incoming bursts (R148, R149, R166 to R168) -/

/-- The slot that holds a tag and waits for frames of an owner (R148, R152). -/
def slotFor (s : State) (src : Node) (tag : Tag) : Option (Fin 8) :=
  allSlots.find? (fun k =>
    match slotAt s k with
    | some x => x.tag == tag && x.owner == some src
    | none => false)

/-- The silence timer restarts at 0 if it is running (R176). -/
def restartSilence (now : Nat) (p : Pulling) : Pulling := { p with silence := p.silence.map (fun _ => now) }

/-- What relaying changes: the buffer, the relay mark, the received count and the running CRC (R149, R166). -/
structure Relaying where
  relay : List RecordBytes
  relayOpen : Bool
  received : Nat
  crc : Word16
deriving DecidableEq, Repr

/-- A record counted as received (R166). -/
def Relaying.count (r : RecordBytes) (w : Relaying) : Relaying :=
  { w with received := w.received + 1, crc := burstCrcRecord w.crc r }

/-- One record of a BINS frame: placed, discarded or dropped (R149, R218). -/
def relayRecord (level : Nat) (w : Relaying) (r : RecordBytes) : Relaying :=
  let kind := (byteAt r 0).toNat / 16
  let lvl := (byteAt r 0).toNat % 16
  let room := decide (w.relay.length < 64)
  if lvl ≤ level ∨ 7 < lvl then w.count r
  else if kind = 1 then
    if room then { w.count r with relay := w.relay ++ [r], relayOpen := true } else { w with relayOpen := false }
  else if kind = 2 ∨ kind = 3 then
    if !w.relayOpen then w.count r
    else if room then { w.count r with relay := w.relay ++ [r] } else w
  else w.count r

/-- The 28-byte records of a BINS payload; at most n. -/
def splitRecords : Nat → List Byte → List RecordBytes
  | 0, _ => []
  | n + 1, bs => if bs = [] then [] else bs.take 28 :: splitRecords n (bs.drop 28)

/-- The watermark test after a BINS frame: at 48 records or more in RUNNING, WAIT is offered (R173). -/
def raiseWatermark (k : Fin 8) (x : FetchSlot) (c : Fin 6) (s : State) : State :=
  match ctxAt s c, slotAt s k with
  | some y, some ⟨_, _, _, _, _, _, _, _, .pulling p⟩ =>
    if p.flow = .running ∧ 48 ≤ y.relay.length then
      let o := offer ⟨x.owner.getD 0, .wait, x.tag, [], .context, .slot k⟩ s
      match o.2 with
      | .accepted => onPulling k (fun p => { p with flow := .waited, silence := none }) o.1
      | .finished => onPulling k (fun p => { p with flow := .waited, silence := none }) o.1
      | .refused => onPulling k (fun p => { p with flow := .waitOwed }) o.1
    else s
  | _, _ => s

/-- The records of a BINS frame relayed to the context of a PULLING fetch (R149, R166). -/
def relayFrame (k : Fin 8) (x : FetchSlot) (p : Pulling) (c : Fin 6) (y : PullContext) (payload : List Byte) (s : State) : State :=
  let w := (splitRecords 8 payload).foldl (relayRecord y.level) ⟨y.relay, p.relayOpen, p.received, p.crc⟩
  let p := restartSilence s.now { p with relayOpen := w.relayOpen, received := w.received, crc := w.crc }
  raiseWatermark k x c (setCtx c (some { y with relay := w.relay }) (setSlot k (some { x with phase := .pulling p }) s))

/-- A BINS taken: for a PULLING fetch it is relayed; otherwise it is discarded (R148, R149, R152). -/
def takeBins (src : Node) (tag : Tag) (payload : List Byte) (s : State) : State :=
  match slotFor s src tag with
  | none => s
  | some k =>
    match slotAt s k with
    | some x =>
      match x.phase, x.context with
      | .pulling p, some c =>
        match ctxAt s c with
        | some y => relayFrame k x p c y payload s
        | none => s
      | _, _ => s
    | none => s

/-- A context's first error set once, by an error that is not NONE (R154). -/
def PullContext.takeError (e : FirstError) (x : PullContext) : PullContext :=
  if x.firstError.kind = .none ∧ e.kind ≠ .none then { x with firstError := e } else x

/-- A fault that a context's own fetch detects (R154, R167). -/
def ownFault (s : State) (kind : ErrorKind) (x : PullContext) : PullContext :=
  x.takeError ⟨kind, BitVec.ofNat 8 s.bi.node.toNat, BitVec.ofNat 8 x.level⟩

/-- The fault of a MARK, by the first check that fails (R167); a record count of 0 or above 128 fails the count check (R216). -/
def markFault (p : Pulling) (seq count : Byte) (crc : Nat) : ErrorKind :=
  if seq ≠ p.expected then .burstSeq
  else if count.toNat = 0 ∨ 128 < count.toNat ∨ count.toNat ≠ p.received then .burstCount
  else if crc ≠ p.crc.toNat then .burstCrc
  else .none

/-- A MARK taken: for a PULLING fetch it is checked, its fault is handed to the context, and the check resets (R167). -/
def takeMark (src : Node) (tag : Tag) (payload : List Byte) (s : State) : State :=
  match slotFor s src tag with
  | none => s
  | some k =>
    match slotAt s k with
    | some x =>
      match x.phase, x.context with
      | .pulling p, some c =>
        let seq := byteAt payload 0
        let fault := markFault p seq (byteAt payload 1) (natAt payload 2 2)
        let p := restartSilence s.now { p with expected := seq + 1, received := 0, crc := burstSeed }
        onCtx c (ownFault s fault) (setSlot k (some { x with phase := .pulling p }) s)
      | _, _ => s
    | none => s

/-- The segment status that an upstream DONE gives (R151). -/
def DoneStatus.asSegment (st : DoneStatus) (estimated : Bool) : SegStatus :=
  match st with
  | .complete => if estimated then .estimated else .ok
  | .busy => .busy
  | .notReady => .busy
  | .notFound => .notFound
  | .badRequest => .notFound
  | .expired => .expired
  | .closing => .closing
  | .opened => .opened
  | .abandoned => .timeout
  | .stopped => .timeout

/-- The twelve counts of a DONE added to a context's, each saturating at 255 (R151). -/
def PullContext.addCounts (payload : List Byte) (x : PullContext) : PullContext :=
  { x with counts := Vector.ofFn (fun i : Fin 12 => min 255 (x.counts.get i + natAt payload (2 + i.val) 1)) }

/-- What a DONE brings to the context of its fetch: a BURST-COUNT fault for records after the last MARK, the counts, and its first
error (R168, R151, R154). -/
def PullContext.takeDone (s : State) (p : Pulling) (payload : List Byte) (x : PullContext) : PullContext :=
  let x := if DoneStatus.ofCode (byteAt payload 0) = .complete ∧ p.received ≠ 0 then ownFault s .burstCount x else x
  (x.addCounts payload).takeError (.ofBytes (byteAt payload 14) (byteAt payload 15) (byteAt payload 16))

/-- A DONE taken: it ends a PULLING fetch's segment (R151, R168), or a DRAINING slot (R152). -/
def takeDone (src : Node) (tag : Tag) (payload : List Byte) (s : State) : State :=
  match slotFor s src tag with
  | none => s
  | some k =>
    match slotAt s k with
    | some x =>
      match x.phase, x.context with
      | .pulling p, some c =>
        finishFetch c k ((DoneStatus.ofCode (byteAt payload 0)).asSegment (x.estimated || x.long))
          (onCtx c (PullContext.takeDone s p payload) s)
      | .draining _, _ => freeSlot k s
      | _, _ => s
    | none => s

/-! ### WAIT and GO at the sender (R169, R170) -/

/-- A WAIT taken (R169). -/
def takeWait (src : Node) (tag : Tag) (s : State) : State :=
  match ctxFor s src tag with
  | none => s
  | some c => onCtx c (fun x => if x.paused.isNone then { x with paused := some s.now } else x) s

/-- A GO taken (R170). -/
def takeGo (src : Node) (tag : Tag) (s : State) : State :=
  match ctxFor s src tag with
  | none => s
  | some c => onCtx c (fun x => { x with paused := none }) s

end Sys2Proof.Machine
end

