-- ==== Sys2Proof/Machine/Receive.lean ====
section
/-! DEFINITION. The bus interface's incoming side (09_the_trend_bus.md, sections 9.3 and 9.4): the receive tests, the handing over of
frames, the loopback; and the meanings of the twelve received frames and of FRAME_DISCARDED. -/

namespace Sys2Proof.Machine

/-! ### Handing over (R184) -/

/-- A frame that passed the tests is handed to the block that takes its kind (R184). -/
def handOver (kind : FrameKind) (src : Node) (tag : Tag) (payload : List Byte) (s : State) : State :=
  match kind with
  | .seek => takeSeek src tag payload s
  | .own => takeOwn src tag payload s
  | .pull => takePull src tag payload s
  | .bins => takeBins src tag payload s
  | .mark => takeMark src tag payload s
  | .done => takeDone src tag payload s
  | .wait => takeWait src tag s
  | .go => takeGo src tag s
  | .stop => takeStop src tag s
  | .keep => takeKeep src tag payload s
  | .unkeep => takeUnkeep src tag payload s
  | .kept => takeKept src tag payload s

/-- Looped frames are handed over one after another, each as a frame from the own node; at most n (R185; log entry 29). -/
def drainLooped : Nat → State → State
  | 0, s => s
  | n + 1, s =>
    match s.bi.looped with
    | [] => s
    | f :: rest => drainLooped n (handOver f.kind s.bi.node f.tag f.payload { s with bi.looped := rest })

/-- What follows every command that may send frames or touch the archive: looped frames are handed over, and the archive's
conditions hold again. -/
def settle (s : State) : State := settleArchive (drainLooped 64 s)

/-! ### The receive tests (R182, R183) -/

/-- The bytes of a received frame before its CRC (R215). -/
def receivedBytes (kind : FrameKind) (f : Frame) : List Byte :=
  [f.dest, f.src, kind.code] ++ beBytes 2 f.tag.toNat ++ [BitVec.ofNat 8 f.payload.length] ++ f.payload

/-- The received CRC equals the CRC of what was received (R181, R182). -/
def crcMatches (kind : FrameKind) (f : Frame) : Bool := frameCrc (receivedBytes kind f) == f.crc

/-- The payload length is consistent with the kind (R183). -/
def lengthConsistent (kind : FrameKind) (payload : List Byte) : Bool :=
  let n := payload.length
  match kind with
  | .seek => n == 17
  | .own => n == 23
  | .pull => (n == 30 && byteAt payload 0 == 1) || (n == 52 && byteAt payload 0 == 2)
  | .bins => n % 28 == 0 && 28 ≤ n && n ≤ 224
  | .mark => n == 4
  | .done => n == 17
  | .wait => n == 0
  | .go => n == 0
  | .stop => n == 0
  | .keep => n == 20
  | .unkeep => n == 20
  | .kept => n == 18

/-- The tests of R182 beyond the CRC, and the discarding of broadcast frames other than SEEK (R184). -/
def isForUs (node : Node) (kind : FrameKind) (f : Frame) : Bool :=
  1 ≤ f.src.toNat && f.src.toNat ≤ 31
    && ((f.dest.toNat == 0 && kind == .seek) || (f.dest.toNat == node.toNat && f.dest.toNat != 0))
    && lengthConsistent kind f.payload

/-- The last-source register set to the source of a frame whose CRC matches (R186); one above 31 leaves it (log entry 25). -/
def hearSource (src : Byte) (s : State) : State :=
  if src.toNat ≤ 31 then { s with bi.lastSource := BitVec.ofNat 5 src.toNat } else s

/-- Carrier on the pair ends: the silence is counted from now, unless the station is itself transmitting (R187). -/
def endCarrier (s : State) : State := if s.bi.tx.isNone then { s with bi.silence := some s.now } else s

/-- A frame heard to its end on the pair (R182, R184, R186). -/
def receive (kind : FrameKind) (f : Frame) (s : State) : State :=
  let s := endCarrier s
  if crcMatches kind f then
    let s := hearSource f.src s
    if isForUs s.bi.node kind f then settle (handOver kind (BitVec.ofNat 5 f.src.toNat) f.tag f.payload s) else s
  else s

/-! ### Meanings -/

/-- SEEK received (R133, R184). -/
def execSeek (f : Frame) (s : State) : Host.Outcome State Fault Refusal := .next (receive .seek f s)

/-- OWN received (R135, R184). -/
def execOwn (f : Frame) (s : State) : Host.Outcome State Fault Refusal := .next (receive .own f s)

/-- PULL received (R138, R184). -/
def execPull (f : Frame) (s : State) : Host.Outcome State Fault Refusal := .next (receive .pull f s)

/-- BINS received (R149, R166, R184). -/
def execBins (f : Frame) (s : State) : Host.Outcome State Fault Refusal := .next (receive .bins f s)

/-- MARK received (R167, R184). -/
def execMark (f : Frame) (s : State) : Host.Outcome State Fault Refusal := .next (receive .mark f s)

/-- DONE received (R151, R152, R168, R184). -/
def execDone (f : Frame) (s : State) : Host.Outcome State Fault Refusal := .next (receive .done f s)

/-- WAIT received (R169, R184). -/
def execWait (f : Frame) (s : State) : Host.Outcome State Fault Refusal := .next (receive .wait f s)

/-- GO received (R170, R184). -/
def execGo (f : Frame) (s : State) : Host.Outcome State Fault Refusal := .next (receive .go f s)

/-- STOP received (R155, R184). -/
def execStop (f : Frame) (s : State) : Host.Outcome State Fault Refusal := .next (receive .stop f s)

/-- KEEP received (R93, R184). -/
def execKeep (f : Frame) (s : State) : Host.Outcome State Fault Refusal := .next (receive .keep f s)

/-- UNKEEP received (R95, R184). -/
def execUnkeep (f : Frame) (s : State) : Host.Outcome State Fault Refusal := .next (receive .unkeep f s)

/-- KEPT received (R97, R184). -/
def execKept (f : Frame) (s : State) : Host.Outcome State Fault Refusal := .next (receive .kept f s)

/-- FRAME_DISCARDED (R182, R186): nothing is handed over; a complete frame whose CRC matches sets the last-source register. -/
def execFrameDiscarded (delimited : Bool) (bytes : List Byte) (s : State) : Host.Outcome State Fault Refusal :=
  let t := endCarrier s
  .next
    (if delimited && 8 ≤ bytes.length && (frameCrc (bytes.take (bytes.length - 2))).toNat == beNat (bytes.drop (bytes.length - 2)) then
      hearSource (byteAt bytes 1) t
    else t)

end Sys2Proof.Machine
end

