-- ==== Sys2Proof/Machine/Coil.lean ====
section
/-! DEFINITION. The coil assembler (02_coil_assembly.md): entry welds, exit welds and boundaries, names, cuts and the closing list, and
the beginning of tracking at START and RESTART. -/

namespace Sys2Proof.Machine

/-- The value of a sequence counter after one is taken: it holds at 2^32 − 1 (R17). -/
def nextSeq (n : Nat) : Nat := min (2 ^ 32 - 1) (n + 1)

/-- The table entry of an input coil (R18). -/
def tableEntry (s : State) (seq : Nat) : Option InputCoil := s.ca.table.find? (fun e => e.seq == seq)

/-- The reference to the exit coil: its sequence, absent when its ID is absent or it is the unknown coil (R26). -/
def exitRef (s : State) : Option Nat :=
  match s.ca.exitCoil with
  | none => none
  | some seq =>
    match tableEntry s seq with
    | none => none
    | some e => if e.id = [] then none else some seq

/-! ### Passage of a boundary (R25, R26) -/

/-- The exit coil ends at w: its record is handed over when its ID is present, and it leaves the table (R25, R39). -/
def endExitCoil (b : Boundary) (s : State) : State :=
  match s.ca.exitCoil with
  | none => s
  | some seq =>
    match tableEntry s seq with
    | none => s
    | some e =>
      let s := { s with ca.table := dropFirst (fun x => x.seq == seq) s.ca.table }
      if e.id = [] then s
      else
        raise .inputClosed
          (handItem (.input ⟨seq, e.id, e.lin.getD 1, e.w0.getD b.w, b.w, e.estimated || b.estimated, e.long, false, 0⟩) s)

/-- The boundary's starting coil becomes the exit coil (R25). -/
def beginExitCoil (b : Boundary) (s : State) : State :=
  { s with
    ca.exitCoil := some b.starting
    ca.table := mapFirst (fun x => x.seq == b.starting)
      (fun e => { e with w0 := some b.w, estimated := e.estimated || b.estimated }) s.ca.table }

/-- The effect of a passage at w on an open coil (R26). -/
def OpenCoil.pass (w : Nat) (ref : Option Nat) (c : OpenCoil) : OpenCoil :=
  match c.segments.getLast? with
  | none => c
  | some last =>
    if w - c.c0 = last.t0 then { c with segments := c.segments.dropLast ++ [⟨ref, w - c.c0⟩] }
    else if c.segments.length < 8 then { c with segments := c.segments ++ [⟨ref, w - c.c0⟩] }
    else { c with flags.overflow := true, further := min 255 (c.further + 1) }

/-- The passage of a boundary (R25, R26). -/
def passBoundary (b : Boundary) (s : State) : State :=
  let s := beginExitCoil b (endExitCoil b s)
  { s with ca.openCoils := s.ca.openCoils.map (OpenCoil.pass b.w (exitRef s)) }

/-- Boundaries at the head of the list pass in order and leave the list (R24). -/
def passAll : List Boundary → State → State
  | [], s => s
  | b :: rest, s => passAll rest (passBoundary b { s with ca.boundaries := s.ca.boundaries.drop 1 })

/-- Every boundary with w not above r passes (R24). -/
def passDue (r : Nat) (s : State) : State := passAll (s.ca.boundaries.takeWhile (fun b => decide (b.w ≤ r))) s

/-- A boundary put after every boundary with an equal or smaller w (R24). -/
def insertBoundary (b : Boundary) : List Boundary → List Boundary
  | [] => [b]
  | a :: rest => if a.w ≤ b.w then a :: insertBoundary b rest else b :: a :: rest

/-- With 4 boundaries held, the oldest is taken as passed at the present run coordinate (R24). -/
def forceOldestBoundary (s : State) : State :=
  if 4 ≤ s.ca.boundaries.length then
    match s.ca.boundaries with
    | [] => s
    | o :: rest =>
      raise .trackingFault
        (passBoundary { o with w := runCoord s, estimated := true } { s with ca.boundaries := rest })
  else s

/-- A boundary enters the pending exit boundaries, and passes at once if its w is not above the run coordinate (R23, R24). -/
def enterBoundary (b : Boundary) (s : State) : State :=
  let s := forceOldestBoundary s
  passDue (runCoord s) { s with ca.boundaries := insertBoundary b s.ca.boundaries }

/-! ### Entry and exit welds (R20 to R23) -/

/-- The entry coil ends with the carried length and saturation mark; the unknown coil's length is discarded, with no TRACKING-FAULT for a
length of 0 (R20; log entry 56). -/
def endEntryCoil (len : Nat) (saturated : Bool) (s : State) : State :=
  match s.ca.entryCoil with
  | none => s
  | some seq =>
    let s := { s with
      ca.table := mapLast (fun x => x.seq == seq)
        (fun e => { e with lin := some (max 1 len), long := saturated, estimated := e.estimated || decide (len = 0) }) s.ca.table }
    if len = 0 then raise .trackingFault s else s

/-- A new input coil begins with the head of the entry queue (R21). -/
def beginEntryCoil (s : State) : State :=
  let seq := s.ca.inSeq
  let id := s.ca.entryQueue.headD []
  let t := { s with
    ca.inSeq := nextSeq seq
    ca.entryQueue := s.ca.entryQueue.drop 1
    ca.table := s.ca.table ++ [⟨seq, id, none, false, none, false⟩]
    ca.entryCoil := some seq }
  if s.ca.entryQueue = [] then raise .trackingFault t else t

/-- With 8 welds in transit, the oldest is forced through the exit (R22). -/
def forceOldestWeld (s : State) : State :=
  if 8 ≤ s.ca.welds.length then
    match s.ca.welds with
    | [] => s
    | o :: rest =>
      let w := s.ca.boundaries.foldl (fun m b => max m b.w) (runCoord s)
      raise .trackingFault (enterBoundary ⟨w, o.starting, true⟩ { s with ca.welds := rest })
  else s

/-- An ENTRY-WELD with the entry length and mark it carries (R20 to R22). -/
def entryWeld (len : Nat) (saturated : Bool) (s : State) : State :=
  let ending := s.ca.entryCoil
  let starting := s.ca.inSeq
  let s := forceOldestWeld (beginEntryCoil (endEntryCoil len saturated s))
  { s with ca.welds := s.ca.welds ++ [⟨ending, starting⟩] }

/-- An EXIT-WELD at the run coordinate it carries (R23). -/
def exitWeld (s : State) : State :=
  match s.ca.welds with
  | [] => raise .trackingFault s
  | o :: rest => enterBoundary ⟨runCoord s + s.ca.dw, o.starting, false⟩ { s with ca.welds := rest }

/-! ### Names (R30, R31) -/

/-- n decimal digits of v, zero-filled. -/
def decimalDigits : Nat → Nat → List Byte
  | 0, _ => []
  | n + 1, v => decimalDigits n (v / 10) ++ [BitVec.ofNat 8 (0x30 + v % 10)]

/-- A station-made name from a number (R31). -/
def stationName (node : Node) (n : Nat) : CoilId :=
  [0x53] ++ decimalDigits 2 node.toNat ++ [0x2D] ++ decimalDigits 7 (n % 10000000)

/-- The first name from n on that is not taken; at most fuel names are passed over (R31). -/
def searchName (node : Node) (taken : List CoilId) : Nat → Nat → CoilId
  | 0, n => stationName node n
  | fuel + 1, n =>
    if taken.contains (stationName node n) then searchName node taken fuel (n + 1) else stationName node n

/-- The IDs of output records awaiting write, renamed ones by their new ID (R30, R66, R108). -/
def awaitingNames (s : State) : List CoilId :=
  (awaiting s).filterMap (fun w =>
    match w with
    | .output r => some r.id
    | .amendedOutput r _ => some r.id
    | .input _ | .freezeMark _ _ | .amendedInput _ => none)

/-- The names on the closing list and awaiting write (R30). -/
def heldNames (s : State) : List CoilId := s.ca.closing.map (fun r => r.id) ++ awaitingNames s

/-- The output IDs of the directory (R30). -/
def directoryNames (s : State) : List CoilId := s.ar.outs.map (fun e => e.id)

/-- A duplicate name (R30, R105). -/
def isDuplicate (s : State) (id : CoilId) : Bool := (directoryNames s ++ heldNames s).contains id

/-- The pending name of a lane; the empty list is none (R28). -/
def laneName (s : State) (lane : Nat) : CoilId := s.ca.names.toList.getD (lane - 1) []

/-! ### Cuts (R27, R29, R32 to R34, R37) -/

/-- A new open coil of a lane (R27); in RECORD-ONLY and FULL it has NO-TREND (R81). -/
def openLane (c : Nat) (s : State) (lane : Nat) : State :=
  { s with
    ca.openCoils := s.ca.openCoils ++
      [⟨lane, s.ca.outSeq, c, [⟨exitRef s, 0⟩], 0, { CoilFlags.clear with noTrend := s.ar.stage != .normal }⟩]
    ca.outSeq := nextSeq s.ca.outSeq }

/-- Open coils opened at c, in lane order (R27). -/
def openCoilsAt (c : Nat) (s : State) : State :=
  ((List.range s.ca.laneCount).map (· + 1)).foldl (openLane c) { s with ca.openCoils := [] }

/-- The parent segments of a coil that closes with length len; a last segment that begins at len is removed (R29). -/
def boundSegments (len : Nat) : List OpenSegment → List ParentSegment
  | [] => []
  | [x] => if x.t0 = len then [] else [⟨x.ref, x.t0, len⟩]
  | x :: y :: rest => ⟨x.ref, x.t0, y.t0⟩ :: boundSegments len (y :: rest)

/-- With 32 coils on the closing list, the oldest is finalised: INCOMPLETE, and handed over (R37). -/
def finaliseOldest (s : State) : State :=
  if 32 ≤ s.ca.closing.length then
    match s.ca.closing with
    | [] => s
    | r :: rest => handCoil { r with flags.incomplete := true } { s with ca.closing := rest }
  else s

/-- The record of a coil that closes at c under a name (R29, R40). -/
def closedRecord (s : State) (c : Nat) (mark : CoilFlags → CoilFlags) (id : CoilId) (made : Bool) (o : OpenCoil) : OutputRecord where
  seq := o.seq
  id := id
  lane := if 1 < s.ca.laneCount then some o.lane else none
  c0 := o.c0
  c1 := c
  segments := boundSegments (c - o.c0) o.segments
  further := o.further
  flags := mark { o.flags with noTrend := o.flags.noTrend || s.ar.stage != .normal, stationNamed := made }
  revision := 0
  pitch := s.cx.pitch

/-- One lane's coil closes at c (R29). The second component lists the IDs given in this cut (R30). -/
def closeLane (c : Nat) (mark : CoilFlags → CoilFlags) (directory : List CoilId) (p : State × List CoilId) (o : OpenCoil) :
    State × List CoilId :=
  let s := p.1
  let taken := directory ++ heldNames s ++ p.2
  let name := laneName s o.lane
  let made := name == [] || taken.contains name
  let id := if made then searchName s.bi.node taken (taken.length + 1) o.seq else name
  let r := closedRecord s c mark id made o
  let s := finaliseOldest { s with
    ca.names := s.ca.names.setIfInBounds (o.lane - 1) []
    ca.openCoils := s.ca.openCoils.drop 1 }
  (handReady { s with ca.closing := s.ca.closing ++ [r], ca.lastCoil := some r }, p.2 ++ [id])

/-- A cut at c that closes the open coils, each with the mark given (R29). -/
def cutCoils (c : Nat) (mark : CoilFlags → CoilFlags) (s : State) : State :=
  raise .coilClosed (openCoilsAt c (s.ca.openCoils.foldl (closeLane c mark (directoryNames s)) (s, [])).1)

/-- The start that all open coils share; none before START. -/
def openStart (s : State) : Option Nat := s.ca.openCoils.head?.map (fun c => c.c0)

/-- Whether the open coils have length at the run coordinate, so that a cut closes them (R29, R34). -/
def cutCloses (s : State) : Bool :=
  match openStart s with
  | none => false
  | some c0 => decide (c0 < runCoord s)

/-- An EXIT-CUT at the run coordinate it carries (R29, R34). -/
def exitCut (s : State) : State := if cutCloses s then cutCoils (runCoord s) id s else s

/-- BROKEN set. -/
def CoilFlags.setBroken (f : CoilFlags) : CoilFlags := { f with broken := true }

/-- FORCED set. -/
def CoilFlags.setForced (f : CoilFlags) : CoilFlags := { f with forced := true }

/-- A STRIP-BREAK at the run coordinate it carries (R33, R34). -/
def stripBreak (s : State) : State :=
  if cutCloses s then cutCoils (runCoord s) CoilFlags.setBroken s
  else { s with ca.openCoils := s.ca.openCoils.map (fun c => { c with flags := c.flags.setBroken }) }

/-- The length limit of a coil (R32). -/
def lengthLimit : Nat := 4000000

/-- The coil assembler's handling of an advance to r: the boundaries due, then the forced cut (R24, R32). -/
def advanceCoils (r : Nat) (s : State) : State :=
  let s := passDue r s
  match openStart s with
  | none => s
  | some c0 => if lengthLimit ≤ r - c0 then cutCoils r CoilFlags.setForced s else s

/-! ### START and RESTART (R41, R42) -/

/-- Tracking begins with the unknown coil and one open coil per lane at the run coordinate; the sequence counters stand. -/
def beginTracking (laneCount dw : Nat) (s : State) : State :=
  openCoilsAt (runCoord s)
    { s with ca := { Ca.atReset with inSeq := s.ca.inSeq, outSeq := s.ca.outSeq, laneCount := laneCount, dw := dw } }

end Sys2Proof.Machine
end

