-- ==== Sys2Proof/Machine/Cells.lean ====
section
/-! DEFINITION. The cell accumulator (03_trend_channels_and_cells.md): samples into the window, late samples, retirement and staging. -/

namespace Sys2Proof.Machine

/-! ### Samples (R46 to R52) -/

/-- A sample entering an entry (R50, R51). -/
def CellEntry.addSample (e : CellEntry) (v : Int) : CellEntry where
  count := if e.count < 65535 then e.count + 1 else e.count
  sum := if e.count < 65535 then e.sum + v else e.sum
  least := if e.count = 0 then some v else lesser e.least v
  greatest := if e.count = 0 then some v else greater e.greatest v
  sat := e.sat || decide (65535 ≤ e.count)

/-- The entries of an empty cell (R49). -/
def emptyCell (s : State) : List CellEntry := List.replicate s.cx.channels.length CellEntry.empty

/-- The entries of a window cell (R49). -/
def windowCell (s : State) (c : Nat) : List CellEntry := (getKey c s.cx.window).getD (emptyCell s)

/-- INCOMPLETE set. -/
def CoilFlags.setIncomplete (f : CoilFlags) : CoilFlags := { f with incomplete := true }

/-- INCOMPLETE set on the open and closing coils that own cell c (R52, R54). -/
def markIncomplete (c : Nat) (s : State) : State :=
  { s with
    ca.openCoils := s.ca.openCoils.map (fun o =>
      if openOwnsCell o.c0 s.cx.pitch c then { o with flags := o.flags.setIncomplete } else o)
    ca.closing := s.ca.closing.map (fun r =>
      if ownsCell r.c0 r.c1 r.pitch c then { r with flags := r.flags.setIncomplete } else r) }

/-- The position of a pair's reading (R48). -/
def samplePosition (r lag delay : Nat) : Int := (r : Int) + lag - delay

/-- One pair of a set: ignored (R47), late (R52), or entered in its cell (R50, R51). The second component counts the pairs entered.
Late is decided by the index alone: a position below the front that START or RESTART set is late whatever the delay (log entry 45), and
a position below r in the front cell is entered (log entry 46). -/
def takePair (delay : Nat) (p : State × Nat) (pair : Nat × Int) : State × Nat :=
  let s := p.1
  match s.cx.channels[pair.1]?, s.cx.front with
  | some ch, some front =>
    if pair.2 = -32768 then p
    else
      let cell := Int.fdiv (samplePosition (runCoord s) ch.lag delay) s.cx.pitch
      if cell < front then
        (raise .lateSample (if cell < 0 then s else markIncomplete cell.toNat s), p.2)
      else
        let entries := (windowCell s cell.toNat).modify pair.1 (fun e => e.addSample pair.2)
        ({ s with cx.window := putKey cell.toNat entries s.cx.window }, p.2 + 1)
  | _, _ => p

/-- A set of pairs taken in RUN, and the number of pairs that entered a cell (R46, R47). -/
def takeSet (pairs : List (Nat × Int)) (delay : Nat) (s : State) : State × Nat :=
  if s.tiu.halted then (s, 0) else pairs.foldl (takePair delay) (s, 0)

/-! ### Retirement (R53 to R57) -/

/-- The front cell leaves the window, and is staged or dropped (R53 to R55); the mark may have risen (R57). -/
def retireFront (front : Nat) (s : State) : State :=
  let cell : StagedCell := ⟨front, s.cx.pitch, windowCell s front, s.now, true⟩
  let s := { s with
    cx.front := some (front + 1)
    cx.window := s.cx.window.filter (fun e => e.1 != front) }
  handReady
    (if s.ar.stage = .normal then
      if s.cx.staging.length < 512 then { s with cx.staging := s.cx.staging ++ [cell] } else markIncomplete front s
    else s)

/-- The cell accumulator's handling of an advance to r (R53). -/
def advanceCells (r : Nat) (s : State) : State :=
  match s.cx.front with
  | none => s
  | some front => if (front + 1) * s.cx.pitch + s.cx.allowance ≤ r then retireFront front s else s

/-! ### START and RESTART (R62, R63) -/

/-- The window opened at the run coordinate (R62). -/
def openWindow (s : State) : State := { s with cx.front := some (runCoord s / s.cx.pitch), cx.window := [] }

/-- At START the table, P and A are taken and the window opens (R44, R62). -/
def startCells (channels : List Channel) (pitch allowance : Nat) (s : State) : State :=
  openWindow { s with cx := ⟨channels, pitch, allowance, none, [], []⟩ }

/-- At RESTART the window and the staged cells are discarded, but for the cells of the page being written (R63). -/
def restartCells (s : State) : State :=
  openWindow { s with cx.staging := (s.cx.staging.take (cellsInPage s)).map (fun c => { c with current := false }) }

end Sys2Proof.Machine
end

