-- ==== Sys2Proof/Machine/Tracking.lean ====
section
/-! DEFINITION. The tracking input unit (01_line_inputs_and_the_run_coordinate.md): filters, matches and events, the baseline, the
encoders; and the meanings of RAW_INPUT_CHANGE, FILTERED_CHANGE, EXIT_PULSE and ENTRY_PULSE. -/

namespace Sys2Proof.Machine

/-! ### Matches (R3) -/

/-- A kind matches: its mask is not zero and every selected input has the pattern's level (R3). -/
def MatchPair.isMatch (p : MatchPair) (levels : BitVec 12) : Bool :=
  p.mask != 0 && (levels ^^^ p.pattern) &&& p.mask == 0

/-- The present matches of the four edge kinds (R4, R7). -/
def MatchPairs.edges (ps : MatchPairs) (levels : BitVec 12) : PrevMatch :=
  ⟨ps.entryWeld.isMatch levels, ps.exitWeld.isMatch levels, ps.exitCut.isMatch levels, ps.stripBreak.isMatch levels⟩

/-- Bit k of a word of inputs put to a level. -/
def setInput (k : Fin 12) (level : Bool) (v : BitVec 12) : BitVec 12 :=
  if level then v ||| BitVec.ofNat 12 (2 ^ k.val) else v &&& ~~~(BitVec.ofNat 12 (2 ^ k.val))

/-! ### Events (R4 to R8, R14) -/

/-- The ENTRY-WELD event: the entry length and its mark go into the event, and the entry pulse count becomes 0 (R8, R14). -/
def fireEntryWeld (s : State) : State :=
  let carried := entryLength s.tiu
  entryWeld carried.1 carried.2 { s with tiu.entryCount := 0 }

/-- The five kinds evaluated after a filtered change in RUN: the kinds that begin to match fire in the order of R5, and the halt
state is recomputed (R4 to R6). -/
def evaluateKinds (s : State) : State :=
  let before := s.tiu.prev
  let after := s.tiu.pairs.edges s.tiu.filtered
  let s := { s with tiu.prev := after, tiu.halted := s.tiu.pairs.lineHalt.isMatch s.tiu.filtered }
  let s := if after.exitWeld && !before.exitWeld then exitWeld s else s
  let s := if after.exitCut && !before.exitCut then exitCut s else s
  let s := if after.stripBreak && !before.stripBreak then stripBreak s else s
  if after.entryWeld && !before.entryWeld then fireEntryWeld s else s

/-- A filtered change taken: the filtered level takes the raw level, the pending change ends, and in RUN the kinds are evaluated
(R1, R3). -/
def takeChange (k : Fin 12) (s : State) : State :=
  let s := { s with
    tiu.filtered := setInput k (s.tiu.raw.getLsbD k.val) s.tiu.filtered
    tiu.changes := s.tiu.changes.set k none }
  if s.pp.station = .run then settleArchive (evaluateKinds s) else s

/-- The baseline of START and RESTART: no event fires (R7); the entry pulse count becomes 0 (R14). -/
def takeBaseline (s : State) : State :=
  { s with
    tiu.prev := s.tiu.pairs.edges s.tiu.filtered
    tiu.halted := s.tiu.pairs.lineHalt.isMatch s.tiu.filtered
    tiu.entryCount := 0 }

/-- The moment a pending change is taken (R1, R2). -/
def PendingChange.due (c : PendingChange) : Nat := c.began + c.filterMs * 1000

/-! ### Encoders (R9, R11, R12) -/

/-- The exit pulse total after one more pulse; past its width it is a free value, and the run coordinate holds, since it was above
2^40 − 1 before (R11, log entry 8). -/
def countExitPulse (s : State) : State :=
  if s.tiu.exitTotal = BitVec.allOnes 48 then
    { s with tiu.exitTotal := Config.exitTotalBeyond s.free, tiu.exitOver := true, free := s.free + 1 }
  else { s with tiu.exitTotal := s.tiu.exitTotal + 1 }

/-- An advance to r is handed to the coil assembler and to the cell accumulator (R12; their order is log entry 18). -/
def advanceTrack (r : Nat) (s : State) : State := settleArchive (advanceCells r (advanceCoils r s))

/-! ### Meanings -/

/-- RAW_INPUT_CHANGE (R1, R2): a pending change begins or is abandoned; with a filter time of 0 the change is taken when it occurs.
A level that the raw input already has is no change. -/
def execRawInputChange (k : Fin 12) (level : Bool) (s : State) : Host.Outcome State Fault Refusal :=
  let t := { s with tiu.raw := setInput k level s.tiu.raw }
  .next
    (if level = s.tiu.raw.getLsbD k.val then s
    else if level = s.tiu.filtered.getLsbD k.val then { t with tiu.changes := t.tiu.changes.set k none }
    else if s.tiu.filterMs = 0 then takeChange k t
    else { t with tiu.changes := t.tiu.changes.set k (some ⟨s.now, s.tiu.filterMs⟩) })

/-- FILTERED_CHANGE (R1, R3 to R8). Without a pending change of the input nothing happens (log entry 4). -/
def execFilteredChange (k : Fin 12) (s : State) : Host.Outcome State Fault Refusal :=
  .next
    (match s.tiu.changes.get k with
     | none => s
     | some c => takeChange k (advanceTo c.due s))

/-- EXIT_PULSE (R9, R11, R12). -/
def execExitPulse (forward : Bool) (s : State) : Host.Outcome State Fault Refusal :=
  let t := countExitPulse s
  .next
    (if forward && s.pp.station == .run then
      if runCoord s < runCoord t then advanceTrack (runCoord t) t else t
    else s)

/-- ENTRY_PULSE (R9, R13). -/
def execEntryPulse (forward : Bool) (s : State) : Host.Outcome State Fault Refusal :=
  .next
    (if forward && s.pp.station == .run then { s with tiu.entryCount := min (2 ^ 32 - 1) (s.tiu.entryCount + 1) } else s)

end Sys2Proof.Machine
end

