-- ==== Sys2Proof/Machine/Port.lean ====
section
/-! DEFINITION. The process port (10_process_port_configuration_and_start_up.md): responses, reads of the station's state, the
configuration, START and RESTART, names and samples; and the meanings of these commands. Amendments and freezes are in Amend.lean. -/

namespace Sys2Proof.Machine

/-! ### Responses (R199, R219, R220) -/

/-- A refused command: the reason, and data fields of 0 at the length of the command's table (R199, R220). -/
def refuse (code : Byte) (fields : List Byte) (dataLen : Nat) (r : Reason) (s : State) : State :=
  respond code fields (.refused r) dataLen [] s

/-- An accepted command with its data. -/
def accept (code : Byte) (fields : List Byte) (data : List Byte) (s : State) : State :=
  respond code fields .accepted data.length data s

/-! ### Attention (R207 to R209) -/

/-- The flags and enables words (R219). -/
def eventWords (s : State) : List Byte := beBytes 2 s.pp.flags.toNat ++ beBytes 2 s.pp.enables.toNat

/-- READ_EVENTS (R208): returns and clears; a flag whose condition holds is set again at once (R84). -/
def execReadEvents (fields : List Byte) (s : State) : Host.Outcome State Fault Refusal :=
  .next
    (if fields.length = 0 then raiseConditions { accept 0x01 fields (eventWords s) s with pp.flags := 0 }
    else refuse 0x01 fields 4 .badOrdinal s)

/-- PEEK_EVENTS (R209). -/
def execPeekEvents (fields : List Byte) (s : State) : Host.Outcome State Fault Refusal :=
  .next (if fields.length = 0 then accept 0x02 fields (eventWords s) s else refuse 0x02 fields 4 .badOrdinal s)

/-- SET_ENABLES (R207, R219). -/
def execSetEnables (fields : List Byte) (s : State) : Host.Outcome State Fault Refusal :=
  .next
    (if fields.length = 2 then accept 0x03 fields [] { s with pp.enables := BitVec.ofNat 10 (natAt fields 0 2) }
    else refuse 0x03 fields 0 .badOrdinal s)

/-! ### READ-STATE (R210, R219) -/

/-- The summary of the configuration held: line name, lane count, channel count; absent and 0 when none is held. -/
def configSummary (s : State) : CoilId × Nat × Nat :=
  match s.pp.config with
  | none => ([], 0, 0)
  | some c => (c.lineName, c.laneCount, c.channels.length)

/-- The 44 data bytes of READ-STATE (R219). -/
def stateBytes (s : State) : List Byte :=
  let inScan := s.pp.station == .scan
  let summary := configSummary s
  [s.pp.station.code, bitIf s.pp.config.isSome 0 ||| bitIf s.pp.lock 1] ++ countedBytes summary.1
    ++ [BitVec.ofNat 8 summary.2.1, BitVec.ofNat 8 summary.2.2, s.ar.stage.code]
    ++ beBytes 2 (if inScan then 0 else freeCount s) ++ beBytes 5 (runCoord s)
    ++ [BitVec.ofNat 8 s.ca.entryQueue.length, BitVec.ofNat 8 s.ca.welds.length, BitVec.ofNat 8 s.ca.boundaries.length,
        BitVec.ofNat 8 s.ca.closing.length]
    ++ beBytes 2 s.cx.staging.length
    ++ [BitVec.ofNat 8 s.ar.writeQueue.length, BitVec.ofNat 8 (if inScan then 0 else s.ru.keeps.length),
        BitVec.ofNat 8 s.ru.tasks.length, BitVec.ofNat 8 (s.pe.contexts.toList.countP Option.isSome),
        BitVec.ofNat 8 (s.pe.slots.toList.countP Option.isSome), BitVec.ofNat 8 s.bi.queue.length,
        s.ru.amend.code, s.ru.amend.causeCode, BitVec.ofNat 8 s.bi.node.toNat]

/-- READ_STATE (R210). -/
def execReadState (fields : List Byte) (s : State) : Host.Outcome State Fault Refusal :=
  .next (if fields.length = 0 then accept 0x04 fields (stateBytes s) s else refuse 0x04 fields 44 .badOrdinal s)

/-! ### CONFIGURE (R202, R221) -/

/-- The nearest pitch of the set; the larger of two equally near (R45). -/
def nearestPitch (p : Nat) : Nat :=
  if p ≤ 17 then 10 else if p ≤ 37 then 25 else if p < 75 then 50 else if p < 150 then 100 else 200

/-- A value clamped between two limits. -/
def clampNat (lo hi v : Nat) : Nat := max lo (min hi v)

/-- One channel descriptor as it is held, and how many of its fields were clamped; none when its name is absent or malformed (R45,
R221). -/
def channelOf (pitch : Nat) (d : List Byte) : Option (Channel × Nat) :=
  match filledId (slice d 0 8) with
  | none => none
  | some name =>
    if name = [] then none
    else
      let unit := byteAt d 8
      let scale := intAt d 9 1
      let lag := natAt d 10 3
      let u : Byte := if 8 < unit.toNat then 0 else unit
      let sc := max (-3) (min 3 scale)
      let l := min lag (2000 * pitch)
      some (⟨name, u, sc, l⟩, (if u = unit then 0 else 1) + (if sc = scale then 0 else 1) + (if l = lag then 0 else 1))

/-- The match pair at byte i; bits 12 to 15 are not read (R221). -/
def pairAt (fields : List Byte) (i : Nat) : MatchPair :=
  ⟨BitVec.ofNat 12 (natAt fields i 2), BitVec.ofNat 12 (natAt fields (i + 2) 2)⟩

/-- The configuration that CONFIGURE's fields give, clamped, and the number of clamped fields; none is a refusal BAD-ORDINAL (R202,
R221). -/
def configOf (fields : List Byte) : Option (Configuration × Nat) :=
  let m := natAt fields 48 1
  if 16 < m ∨ fields.length ≠ 49 + 13 * m then none
  else
    match countedId (slice fields 0 17) with
    | none => none
    | some lineName =>
      let pitch := nearestPitch (natAt fields 17 1)
      let exitWeight := clampNat 100 6400 (natAt fields 18 2)
      let entryWeight := clampNat 100 6400 (natAt fields 20 2)
      let dw := min 20000 (natAt fields 22 2)
      let filter := min 20 (natAt fields 24 1)
      let lanes := clampNat 1 8 (natAt fields 45 1)
      let allowance := min (30 * pitch) (natAt fields 46 2)
      match (List.range m).mapM (fun i => channelOf pitch (slice fields (49 + 13 * i) 13)) with
      | none => none
      | some channels =>
        if lineName = [] then none
        else
          let clamped (held carried : Nat) : Nat := if held = carried then 0 else 1
          some
            (⟨lineName, pitch, exitWeight, entryWeight, dw, filter,
              ⟨pairAt fields 25, pairAt fields 29, pairAt fields 33, pairAt fields 37, pairAt fields 41⟩,
              lanes, allowance, channels.map (fun c => c.1)⟩,
            clamped pitch (natAt fields 17 1) + clamped exitWeight (natAt fields 18 2)
              + clamped entryWeight (natAt fields 20 2) + clamped dw (natAt fields 22 2) + clamped filter (natAt fields 24 1)
              + clamped lanes (natAt fields 45 1) + clamped allowance (natAt fields 46 2) + (channels.map (fun c => c.2)).sum)

/-- CONFIGURE (R2, R202, R203, R221). -/
def execConfigure (fields : List Byte) (s : State) : Host.Outcome State Fault Refusal :=
  .next
    (match s.pp.station with
     | .scan => refuse 0x05 fields 1 .wrongState s
     | .run => refuse 0x05 fields 1 .locked s
     | .config =>
       match configOf fields with
       | none => refuse 0x05 fields 1 .badOrdinal s
       | some (c, n) =>
         accept 0x05 fields [BitVec.ofNat 8 n] { s with pp.config := some c, tiu.filterMs := c.filterMs })

/-! ### START and RESTART (R204, R205) -/

/-- START's effect with the configuration held: the lock, RUN, and the blocks' taking of it (R204; their order is log entry 18). It
raises no flag of its own; an activation in it that ends in RECORD-ONLY sets ARCHIVE-LOW (R81, R84; log entry 59). -/
def startStation (c : Configuration) (s : State) : State :=
  let s := takeBaseline { s with
    pp.lock := true
    pp.station := .run
    tiu.pairs := c.pairs
    tiu.exitWeight := c.exitWeight
    tiu.entryWeight := c.entryWeight }
  activateIfNone (beginTracking c.laneCount c.dw (startCells c.channels c.pitch c.allowance s))

/-- START (R204). -/
def execStart (fields : List Byte) (s : State) : Host.Outcome State Fault Refusal :=
  .next
    (if s.pp.station ≠ .config then refuse 0x06 fields 0 .wrongState s
    else if fields.length ≠ 0 then refuse 0x06 fields 0 .badOrdinal s
    else
      match s.pp.config with
      | none => refuse 0x06 fields 0 .wrongState s
      | some c => accept 0x06 fields [] (settle (startStation c s)))

/-- RESTART frees every context and slot without a frame; the read queue is emptied, a page being read is discarded, the amendment is
closed (R73, R102, R157). -/
def restartPulls (s : State) : State :=
  { s with
    pe := { Pe.atReset with tagCounter := s.pe.tagCounter }
    ru.amend := .closed
    ar.readQueue := []
    ar.reading := s.ar.reading.map (fun r => { r with discarded := true }) }

/-- RESTART empties the control queue and the waiting offers, but for the frame in the transmit path, which reports to nobody (R196). -/
def restartBus (s : State) : State :=
  { s with
    bi.queue :=
      match s.bi.tx with
      | some t => if t.control then [{ t.frame with owner := .nobody }] else []
      | none => []
    bi.tx := s.bi.tx.map (fun t => { t with frame := { t.frame with owner := .nobody } })
    bi.offers := []
    bi.looped := [] }

/-- RESTART's effect (R205): the blocks in turn, a moment of reclaim choice, and READY. -/
def restartStation (s : State) : State :=
  let s := takeBaseline (restartBus (restartPulls s))
  let s := beginTracking s.ca.laneCount s.ca.dw (restartCells s)
  raise .ready (reclaimMoment (activateIfNone (dropTasks s)))

/-- RESTART (R205). -/
def execRestart (fields : List Byte) (s : State) : Host.Outcome State Fault Refusal :=
  .next
    (if s.pp.station ≠ .run then refuse 0x07 fields 0 .wrongState s
    else if fields.length ≠ 0 then refuse 0x07 fields 0 .badOrdinal s
    else accept 0x07 fields [] (settle (restartStation s)))

/-! ### Coils (R19, R28, R211) -/

/-- The last coil to have closed, with its flags as they stand (R38, R211). -/
def lastCoilNow (s : State) : Option OutputRecord :=
  s.ca.lastCoil.map (fun l => (s.ca.closing.find? (fun r => r.id == l.id)).getD l)

/-- The 26 data bytes of READ-LAST-COIL (R211, R219). -/
def lastCoilBytes (s : State) : List Byte :=
  match lastCoilNow s with
  | none => countedBytes [] ++ List.replicate 9 0
  | some r => countedBytes r.id ++ beBytes 4 r.seq ++ beBytes 4 (r.c1 - r.c0) ++ [r.flags.byte]

/-- READ_LAST_COIL (R211). -/
def execReadLastCoil (fields : List Byte) (s : State) : Host.Outcome State Fault Refusal :=
  .next
    (if s.pp.station ≠ .run then refuse 0x08 fields 26 .wrongState s
    else if fields.length ≠ 0 then refuse 0x08 fields 26 .badOrdinal s
    else accept 0x08 fields (lastCoilBytes s) s)

/-- ANNOUNCE's own conditions on a well-formed ID (R19). -/
def announce (id : CoilId) (s : State) : PortResult × State :=
  if s.ca.entryQueue.contains id then (.refused .duplicate, s)
  else if 4 ≤ s.ca.entryQueue.length then (.refused .full, s)
  else (.accepted, { s with ca.entryQueue := s.ca.entryQueue ++ [id] })

/-- ANNOUNCE (R19, R214, R220). -/
def execAnnounce (fields : List Byte) (s : State) : Host.Outcome State Fault Refusal :=
  .next
    (if s.pp.station ≠ .run then refuse 0x09 fields 0 .wrongState s
    else if fields.length ≠ 17 then refuse 0x09 fields 0 .badOrdinal s
    else
      match countedId fields with
      | none => refuse 0x09 fields 0 .badOrdinal s
      | some id =>
        if id = [] then refuse 0x09 fields 0 .badOrdinal s
        else
          let out := announce id s
          respond 0x09 fields out.1 0 [] out.2)

/-- NAME_EXIT (R28, R214, R220). -/
def execNameExit (fields : List Byte) (s : State) : Host.Outcome State Fault Refusal :=
  .next
    (if s.pp.station ≠ .run then refuse 0x0A fields 0 .wrongState s
    else if fields.length ≠ 18 then refuse 0x0A fields 0 .badOrdinal s
    else
      let lane := natAt fields 0 1
      match countedId (fields.drop 1) with
      | none => refuse 0x0A fields 0 .badOrdinal s
      | some id =>
        if lane = 0 ∨ s.ca.laneCount < lane then refuse 0x0A fields 0 .badOrdinal s
        else accept 0x0A fields [] { s with ca.names := s.ca.names.setIfInBounds (lane - 1) id })

/-! ### Samples (R46, R220) -/

/-- The pairs of a SAMPLE: channel and value. -/
def samplePairs (k : Nat) (fields : List Byte) : List (Nat × Int) :=
  (List.range k).map (fun i => (natAt fields (1 + 3 * i) 1, intAt fields (2 + 3 * i) 2))

/-- SAMPLE (R46, R47, R220). -/
def execSample (fields : List Byte) (s : State) : Host.Outcome State Fault Refusal :=
  .next
    (if s.pp.station ≠ .run then refuse 0x0B fields 1 .wrongState s
    else
      let k := natAt fields 0 1
      if k = 0 ∨ 16 < k ∨ (fields.length ≠ 1 + 3 * k ∧ fields.length ≠ 3 + 3 * k) then refuse 0x0B fields 1 .badOrdinal s
      else
        let out := takeSet (samplePairs k fields) (natAt fields (1 + 3 * k) 2) s
        accept 0x0B fields [BitVec.ofNat 8 out.2] out.1)

/-! ### Records that are not commands (R198, R220) -/

/-- UNKNOWN_COMMAND (R198): a code outside 01H to 11H is refused WRONG-STATE. A code that names a command is not this event (log
entry 4). -/
def execUnknownCommand (code : Byte) (fields : List Byte) (s : State) : Host.Outcome State Fault Refusal :=
  .next (if namesCommand code then s else refuse code fields 0 .wrongState s)

/-- TRANSACTION_ABORT (R198): the partial record is discarded and gives no response. -/
def execTransactionAbort (_bytes : List Byte) (s : State) : Host.Outcome State Fault Refusal := .next (releaseSelect s)

end Sys2Proof.Machine
end

