-- ==== Sys2Proof/Machine/Amend.lean ====
section
/-! DEFINITION. Freezing and amendments (05_keeps_freezes_and_amendments.md, sections 5.4 and 5.5): the meanings of FREEZE, AMEND_OPEN,
AMEND_RENAME, AMEND_COMMIT, AMEND_CANCEL and AMEND_CLEAR. -/

namespace Sys2Proof.Machine

/-! ### FREEZE (R100) -/

/-- Whether an output coil is under commit under an ID, old or new (R100, R102, R108). -/
def underCommit (s : State) (id : CoilId) : Bool :=
  (awaiting s).any (fun w =>
    match w with
    | .amendedOutput r old => r.id == id || old == id
    | .input _ | .output _ | .freezeMark _ _ | .amendedInput _ => false)

/-- An output entry frozen, or with a freeze pending (R100). -/
def isFrozen (s : State) (e : OutEntry) : Bool := e.flags.frozen || s.ru.freezes.contains e.seq

/-- FREEZE's own conditions (R100). -/
def freeze (id : CoilId) (s : State) : PortResult × State :=
  if underCommit s id then (.refused .busy, s)
  else
    match outById s id with
    | none => (.refused .notFound, s)
    | some e =>
      if isFrozen s e then (.accepted, s)
      else if 64 ≤ s.ru.freezes.length then (.refused .full, s)
      else (.accepted, settle (handItem (.freezeMark e.seq e.id) { s with ru.freezes := s.ru.freezes ++ [e.seq] }))

/-- FREEZE (R100, R220). -/
def execFreeze (fields : List Byte) (s : State) : Host.Outcome State Fault Refusal :=
  .next
    (if s.pp.station ≠ .run then refuse 0x0C fields 0 .wrongState s
    else if fields.length ≠ 17 then refuse 0x0C fields 0 .badOrdinal s
    else
      match countedId fields with
      | none => refuse 0x0C fields 0 .badOrdinal s
      | some id =>
        let out := freeze id s
        respond 0x0C fields out.1 0 [] out.2)

/-! ### AMEND-OPEN (R103, R104) -/

/-- An ID and a sequence name an output whose amended record is still awaiting write: by the ID it was filed under, with its sequence or
while its entry is filed under that ID (R102, R103; log entry 41). -/
def outUnderCommit (s : State) (id : CoilId) (seq : Nat) : Bool :=
  (awaiting s).any (fun w =>
    match w with
    | .amendedOutput r old => old == id && (r.seq == seq || (outById s id).any (fun e => e.seq == r.seq))
    | .input _ | .output _ | .freezeMark _ _ | .amendedInput _ => false)

/-- The amended record of an input is still awaiting write, its entry present or expired (R102, R103). -/
def inUnderCommit (s : State) (seq : Nat) : Bool :=
  (awaiting s).any (fun w =>
    match w with
    | .amendedInput r => r.seq == seq
    | .input _ | .output _ | .freezeMark _ _ | .amendedOutput _ _ => false)

/-- The output entries that name an input sequence (R103). -/
def namingOuts (s : State) (seq : Nat) : List OutEntry := s.ar.outs.filter (fun e => e.refs.contains (some seq))

/-- The amendment opens: the working copy's ID is the entry's, and the record's page is asked for (R103). -/
def openAmend (a : Amending) (loc : Loc) (s : State) : State :=
  { s with ru.amend := .opened a, ar.readQueue := s.ar.readQueue ++ [⟨loc.seg, loc.page, .amend⟩] }

/-- An OUTPUT amendment in CLOSED (R103). -/
def openOutput (id : CoilId) (seq : Nat) (s : State) : PortResult × State :=
  if outUnderCommit s id seq then (.refused .busy, s)
  else
    match outById s id with
    | none => (.refused .notFound, s)
    | some e =>
      if e.seq ≠ seq then (.refused .mismatch, lockAmend .mismatch s)
      else if isFrozen s e then (.refused .locked, lockAmend .frozen s)
      else if isKept s e.id then (.refused .locked, lockAmend .kept s)
      else (.accepted, openAmend ⟨.output, seq, e.id, e.id, none⟩ e.loc s)

/-- An INPUT amendment in CLOSED (R103). -/
def openInput (id : CoilId) (seq : Nat) (s : State) : PortResult × State :=
  if inUnderCommit s seq then (.refused .busy, s)
  else
    match inBySeq s seq with
    | none => (.refused .notFound, s)
    | some e =>
      if e.id ≠ id then (.refused .mismatch, lockAmend .mismatch s)
      else if (namingOuts s seq).any (isFrozen s) then (.refused .locked, lockAmend .frozen s)
      else if (namingOuts s seq).any (fun o => isKept s o.id) then (.refused .locked, lockAmend .kept s)
      else (.accepted, openAmend ⟨.input, seq, e.id, e.id, none⟩ e.loc s)

/-- AMEND-OPEN by amendment state (R104). -/
def amendOpen (kind : AmendKind) (id : CoilId) (seq : Nat) (s : State) : PortResult × State :=
  match s.ru.amend with
  | .closed =>
    match kind with
    | .output => openOutput id seq s
    | .input => openInput id seq s
  | .opened _ => (.refused .busy, s)
  | .committing _ => (.refused .busy, s)
  | .locked _ => (.refused .locked, s)

/-- The kind of an amendment from its code (R219). -/
def AmendKind.ofCode (b : Byte) : Option AmendKind := if b = 1 then some .output else if b = 2 then some .input else none

/-- AMEND_OPEN (R103, R104, R220). -/
def execAmendOpen (fields : List Byte) (s : State) : Host.Outcome State Fault Refusal :=
  .next
    (if s.pp.station ≠ .run then refuse 0x0D fields 0 .wrongState s
    else if fields.length ≠ 22 then refuse 0x0D fields 0 .badOrdinal s
    else
      match AmendKind.ofCode (byteAt fields 0), countedId (slice fields 1 17) with
      | some kind, some id =>
        let out := amendOpen kind id (natAt fields 18 4) s
        respond 0x0D fields out.1 0 [] out.2
      | _, _ => refuse 0x0D fields 0 .badOrdinal s)

/-! ### AMEND-RENAME (R104, R105) -/

/-- AMEND-RENAME in OPEN (R105). -/
def renameOpen (a : Amending) (id : CoilId) (s : State) : PortResult × State :=
  let taken := { s with ru.amend := .opened { a with newId := id } }
  match a.kind with
  | .input => (.accepted, taken)
  | .output =>
    if id = [] then (.refused .mismatch, s)
    else if id = a.newId then (.accepted, s)
    else if id = a.openedId then (.accepted, taken)
    else if isDuplicate s id then (.refused .duplicate, s)
    else (.accepted, taken)

/-- AMEND-RENAME by amendment state (R104). -/
def amendRename (id : CoilId) (s : State) : PortResult × State :=
  match s.ru.amend with
  | .closed => (.refused .wrongState, s)
  | .opened a => renameOpen a id s
  | .committing _ => (.refused .busy, s)
  | .locked _ => (.refused .locked, s)

/-- AMEND_RENAME (R104, R105, R220). -/
def execAmendRename (fields : List Byte) (s : State) : Host.Outcome State Fault Refusal :=
  .next
    (if s.pp.station ≠ .run then refuse 0x0E fields 0 .wrongState s
    else if fields.length ≠ 17 then refuse 0x0E fields 0 .badOrdinal s
    else
      match countedId fields with
      | none => refuse 0x0E fields 0 .badOrdinal s
      | some id =>
        let out := amendRename id s
        respond 0x0E fields out.1 0 [] out.2)

/-! ### AMEND-COMMIT (R104, R106) -/

/-- The amendment is closed, the working copy discarded, and its read with it (R106, R109; log entry 22). -/
def closeAmend (s : State) : State :=
  { s with
    ru.amend := .closed
    ar.readQueue := s.ar.readQueue.filter (fun r => r.reader != Reader.amend)
    ar.reading := s.ar.reading.map (fun r => if r.request.reader = Reader.amend then { r with discarded := true } else r) }

/-- The output entry under an OUTPUT amendment, if it is still in the directory. -/
def amendedEntry (s : State) (a : Amending) : Option OutEntry := s.ar.outs.find? (fun e => e.seq == a.seq && e.id == a.openedId)

/-- The record of the amendment has its entry in the directory (R106). -/
def amendPresent (s : State) (a : Amending) : Bool :=
  match a.kind with
  | .output => (amendedEntry s a).isSome
  | .input => (inBySeq s a.seq).isSome

/-- The output entries whose freeze or keep forbids the amendment: the coil's own, or those that name the input (R103, R106). -/
def guardOuts (s : State) (a : Amending) : List OutEntry :=
  match a.kind with
  | .output => (amendedEntry s a).toList
  | .input => namingOuts s a.seq

/-- The amended record that a commit hands over: the new ID, the revision one higher, AMENDED set (R106). -/
def amendedItem (a : Amending) (r : StoredRecord) : WriteItem :=
  match r with
  | .output r => .amendedOutput { r with id := a.newId, revision := r.revision + 1, flags := { r.flags with amended := true } } a.openedId
  | .input r => .amendedInput { r with id := a.newId, revision := r.revision + 1, amended := true }

/-- AMEND-COMMIT in OPEN (R106). -/
def commitOpen (a : Amending) (s : State) : PortResult × State :=
  if !amendPresent s a then (.refused .notFound, closeAmend s)
  else
    match a.copy with
    | none => (.refused .busy, s)
    | some r =>
      if (guardOuts s a).any (isFrozen s) then (.refused .locked, lockAmend .frozen s)
      else if (guardOuts s a).any (fun e => isKept s e.id) then (.refused .locked, lockAmend .kept s)
      else if a.kind = .output ∧ a.newId ≠ a.openedId ∧ isDuplicate s a.newId then (.refused .duplicate, s)
      else (.accepted, settle (handItem (amendedItem a r) { s with ru.amend := .committing a }))

/-- AMEND-COMMIT by amendment state (R104). -/
def amendCommit (s : State) : PortResult × State :=
  match s.ru.amend with
  | .closed => (.refused .wrongState, s)
  | .opened a => commitOpen a s
  | .committing _ => (.refused .busy, s)
  | .locked _ => (.refused .locked, s)

/-- AMEND_COMMIT (R104, R106, R220). -/
def execAmendCommit (fields : List Byte) (s : State) : Host.Outcome State Fault Refusal :=
  .next
    (if s.pp.station ≠ .run then refuse 0x0F fields 0 .wrongState s
    else if fields.length ≠ 0 then refuse 0x0F fields 0 .badOrdinal s
    else
      let out := amendCommit s
      respond 0x0F fields out.1 0 [] out.2)

/-! ### AMEND-CANCEL and AMEND-CLEAR (R104, R109) -/

/-- AMEND-CANCEL by amendment state (R104, R109). -/
def amendCancel (s : State) : PortResult × State :=
  match s.ru.amend with
  | .closed => (.refused .wrongState, s)
  | .opened _ => (.accepted, closeAmend s)
  | .committing _ => (.refused .busy, s)
  | .locked _ => (.refused .locked, s)

/-- AMEND_CANCEL (R104, R109, R220). -/
def execAmendCancel (fields : List Byte) (s : State) : Host.Outcome State Fault Refusal :=
  .next
    (if s.pp.station ≠ .run then refuse 0x10 fields 0 .wrongState s
    else if fields.length ≠ 0 then refuse 0x10 fields 0 .badOrdinal s
    else
      let out := amendCancel s
      respond 0x10 fields out.1 0 [] out.2)

/-- AMEND-CLEAR by amendment state (R104, R109). -/
def amendClear (s : State) : PortResult × State :=
  match s.ru.amend with
  | .closed => (.refused .wrongState, s)
  | .opened _ => (.refused .wrongState, s)
  | .committing _ => (.refused .wrongState, s)
  | .locked _ => (.accepted, { s with ru.amend := .closed })

/-- AMEND_CLEAR (R104, R109, R220). -/
def execAmendClear (fields : List Byte) (s : State) : Host.Outcome State Fault Refusal :=
  .next
    (if s.pp.station ≠ .run then refuse 0x11 fields 0 .wrongState s
    else if fields.length ≠ 0 then refuse 0x11 fields 0 .badOrdinal s
    else
      let out := amendClear s
      respond 0x11 fields out.1 0 [] out.2)

end Sys2Proof.Machine
end

