-- ==== Sys2Proof/Machine/Arbiter.lean ====
section
/-! DEFINITION. Access and transmission (09_the_trend_bus.md, sections 9.5 to 9.8): the meanings of ACCESS_WON, LOOPBACK_DATA_FRAME,
FRAME_SENT, READBACK_MISMATCH and CARRIER_SEEN. -/

namespace Sys2Proof.Machine

/-- A context whose requester is another node has a frame ready (R187, R193). -/
def hasDataFor (s : State) (c : Fin 6) : Bool :=
  match ctxAt s c with
  | some x => x.frameReady && x.requester != s.bi.node
  | none => false

/-- The contexts in round-robin order, from the one after the pointer (R194). -/
def roundRobin (pointer : Fin 6) : List (Fin 6) := [1, 2, 3, 4, 5, 0].map (fun d => pointer + d)

/-- The context that the arbiter takes a data frame from (R194). -/
def nextDataCtx (s : State) : Option (Fin 6) := (roundRobin s.bi.pointer).find? (hasDataFor s)

/-- The station wants the bus (R187). -/
def wantsBus (s : State) : Bool := !s.bi.queue.isEmpty || (nextDataCtx s).isSome

/-- The number of the station's own slot (R187). -/
def ownSlot (s : State) : Nat := (s.bi.node - s.bi.lastSource - 1).toNat

/-- The beginning of the first own slot at or after a moment, in a silence that began at t: 10 µs of gap, slots of 10 µs, each own
slot 320 µs after the one before (R187). -/
def ownSlotStart (s : State) (t moment : Nat) : Nat :=
  let first := t + 10 + 10 * ownSlot s
  if moment ≤ first then first else first + 320 * ((moment - first + 319) / 320)

/-- A frame put into the transmit path; the station's own transmission is carrier (R188, R193). -/
def startTransmit (f : OutFrame) (control : Bool) (s : State) : State :=
  { s with bi.tx := some ⟨f, frameBytes s.bi.node f, control, s.now⟩, bi.silence := none }

/-- The frame selected at access won, by the first row of R193 that applies. -/
def selectFrame (s : State) : State :=
  match s.bi.queue with
  | f :: _ => startTransmit f true s
  | [] =>
    match nextDataCtx s with
    | none => s
    | some c =>
      match ctxAt s c with
      | none => s
      | some x =>
        let formed := formFrame c x s
        startTransmit formed.1 false { formed.2 with bi.pointer := c }

/-- ACCESS_WON (R188, R193, R194): at the beginning of the next own slot of the silence. A station strapped 0 does not transmit
(R179); without silence, or while a frame is in the transmit path, nothing happens (log entry 4). -/
def execAccessWon (s : State) : Host.Outcome State Fault Refusal :=
  .next
    (match s.bi.silence with
     | none => s
     | some t =>
       if s.bi.node = 0 ∨ s.bi.tx.isSome then s
       else settle (selectFrame (advanceTo (ownSlotStart s t s.now) s)))

/-- A context whose requester is this station has a frame ready for the loopback (R185). -/
def hasLoopFor (s : State) (c : Fin 6) : Bool :=
  match ctxAt s c with
  | some x => x.frameReady && x.requester == s.bi.node && s.bi.node != 0
  | none => false

/-- LOOPBACK_DATA_FRAME (R185): the frame is formed, reported as sent, and handed over as a looped frame. -/
def execLoopbackDataFrame (c : Fin 6) (s : State) : Host.Outcome State Fault Refusal :=
  .next
    (if hasLoopFor s c then
      match ctxAt s c with
      | none => s
      | some x =>
        let formed := formFrame c x s
        let t := report formed.1 formed.2
        settle { t with bi.looped := t.bi.looped ++ [formed.1] }
    else s)

/-- FRAME_SENT (R189, R190): the transmission ends with its read-back matched; the last-source register takes the own address (R186). -/
def execFrameSent (s : State) : Host.Outcome State Fault Refusal :=
  .next
    (match s.bi.tx with
     | none => s
     | some t =>
       let s := advanceTo (t.began + frameTime t.bytes) s
       settle (finishTransmit { s with bi.lastSource := s.bi.node, bi.silence := some s.now }))

/-- READBACK_MISMATCH (R189, R190): the frame is abandoned and BUS-FAULT is raised. -/
def execReadbackMismatch (s : State) : Host.Outcome State Fault Refusal :=
  .next
    (match s.bi.tx with
     | none => s
     | some _ => settle (finishTransmit (raise .busFault { s with bi.silence := some s.now })))

/-- CARRIER_SEEN (R188): the silence count ends. -/
def execCarrierSeen (s : State) : Host.Outcome State Fault Refusal := .next { s with bi.silence := none }

end Sys2Proof.Machine
end

