-- ==== Sys2Proof/Machine/Page.lean ====
section
/-! DEFINITION. The flash interface's grants (04_the_coil_archive.md, section 4.4), data pages and page reads: the meanings of
DATA_PAGE_WRITE, PAGE_WRITE_COMPLETE, PAGE_READ_START, RECORD_READ_COMPLETE, CELL_PAGE_READ_COMPLETE and AMEND_READ_COMPLETE. -/

namespace Sys2Proof.Machine

/-! ### Forming a data page (R65, R67) -/

/-- The room for items in a data page (R65). -/
def pageRoom : Nat := 4064

/-- The room an item takes (R65). -/
def WriteItem.room (w : WriteItem) : Nat :=
  match w with
  | .input _ => 48
  | .output _ => 144
  | .freezeMark _ _ => 24
  | .amendedInput _ => 48
  | .amendedOutput _ _ => 144

/-- The room a cell takes (R65). -/
def StagedCell.room (c : StagedCell) : Nat := 8 + 12 * c.entries.length

/-- Step 1 of R67: items from the head of the queue, as many as fit, those that need a directory place only while one is free. -/
def takeItems (s : State) : Nat → Nat → List WriteItem → List WriteItem
  | _, _, [] => []
  | room, used, w :: rest =>
    let need := needsPlace s w
    if room < w.room ∨ (need ∧ 16384 ≤ used) then []
    else w :: takeItems s (room - w.room) (if need then used + 1 else used) rest

/-- Step 2 of R67: how many staged cells fit, with the room then left; a block begins at the first cell, at a gap and at a change of
pitch. -/
def fitCells : Nat → Option (Nat × Nat) → List StagedCell → Nat × Nat
  | room, _, [] => (0, room)
  | room, next, c :: rest =>
    let size := c.room + (if next = some (c.index, c.pitch) then 0 else 16)
    if room < size then (0, room)
    else
      let more := fitCells (room - size) (some (c.index + 1, c.pitch)) rest
      (more.1 + 1, more.2)

/-- Cells grouped in blocks of one pitch with consecutive indices (R65). -/
def blockCells : List StagedCell → List PageItem
  | [] => []
  | c :: rest =>
    match blockCells rest with
    | .cells p first block :: more =>
      if p = c.pitch ∧ first = c.index + 1 then .cells p c.index (c.entries :: block) :: more
      else .cells c.pitch c.index [c.entries] :: .cells p first block :: more
    | items => .cells c.pitch c.index [c.entries] :: items

/-- What a data page would hold: how many items and how many cells, and whether cells fill it. -/
structure PagePlan where
  items : List WriteItem
  cells : Nat
  full : Bool
deriving DecidableEq, Repr

/-- The page as R67 forms it from the write queue and the staging buffer. -/
def planPage (s : State) : PagePlan :=
  let items := takeItems s pageRoom (placesUsed s) s.ar.writeQueue
  let room := pageRoom - (items.map WriteItem.room).sum
  let staged := if s.ar.stage = .normal then s.cx.staging else []
  let fit := fitCells room none staged
  ⟨items, fit.1, decide (fit.1 < staged.length) || staged.any (fun c => decide (fit.2 < c.room))⟩

/-- The head of staging retired 1,000 ms ago or more (R67). -/
def stagingAged (s : State) : Bool :=
  match s.cx.staging with
  | [] => false
  | c :: _ => decide (c.retired + stagingAge ≤ s.now)

/-- There is material for a page: an item, or cells that fill it, or 256 staged, or the head aged (R67). -/
def PagePlan.due (p : PagePlan) (s : State) : Bool :=
  !p.items.isEmpty || (decide (1 ≤ p.cells) && (p.full || decide (256 ≤ s.cx.staging.length) || stagingAged s))

/-- A data page is ready: every condition of R67 but the grant. -/
def dataPageReady (s : State) : Bool :=
  s.ar.pageWrite.isNone && s.ar.scan.isNone
    && (match activeSeg s with
      | some g => decide (g.written < 256)
      | none => false)
    && (planPage s).due s

/-! ### Grants (R74) -/

/-- The interface carries nothing: no read, no write, no running erase; the scan has it while it lasts (R74, R87). -/
def interfaceFree (s : State) : Bool :=
  s.ar.pageWrite.isNone && s.ar.reading.isNone && s.ar.keepWrite.isNone && s.ar.scan.isNone
    && (match s.ar.erase with
      | none => true
      | some e => e.phase == .suspended)

/-- Where the next keep image goes: the next page of the CURRENT segment, page 0 of a SPARE one, or nowhere yet (R86, R87). -/
def keepTarget (s : State) : Option (Fin 2 × Nat) :=
  let spare (k : Fin 2) : Option (Fin 2 × Nat) := if (s.ar.keepSegs.get k).state = .spare then some (k, 0) else none
  let both : List (Fin 2) := [0, 1]
  match both.find? (fun k => (s.ar.keepSegs.get k).state == .current) with
  | some k => if (s.ar.keepSegs.get k).written < 256 then some (k, (s.ar.keepSegs.get k).written) else spare (1 - k)
  | none => firstSome spare both

/-- A keep image write is ready and does not wait under R86. -/
def keepImageReady (s : State) : Bool := s.ar.keepReady && s.ar.keepWrite.isNone && (keepTarget s).isSome

/-- The segments that wait for erase: STALE keep segments first, then CHOSEN data segments (R74). -/
def eraseCandidates (s : State) : List Nat :=
  let both : List (Fin 2) := [0, 1]
  let stale := both.filter (fun k => (s.ar.keepSegs.get k).state == .stale)
  if stale = [] then (s.ar.segs.filter (fun g => g.state == .chosen)).map (fun g => g.num) else stale.map (fun k => k.val)

/-- An erase can begin: the interface is free, no keep image goes first, no erase exists, and a segment waits (R74). -/
def canEraseBegin (s : State) : Bool :=
  interfaceFree s && !keepImageReady s && s.ar.erase.isNone && !(eraseCandidates s).isEmpty

/-- A read is granted: after keep images and erases, and in alternation with data writes (R74). -/
def canReadStart (s : State) : Bool :=
  interfaceFree s && !keepImageReady s && !canEraseBegin s && !s.ar.readQueue.isEmpty
    && (s.ar.lastServed != .read || !dataPageReady s)

/-- A data write is granted (R67, R74). -/
def canWriteData (s : State) : Bool :=
  interfaceFree s && !keepImageReady s && !canEraseBegin s && dataPageReady s
    && (s.ar.lastServed == .read || s.ar.readQueue.isEmpty)

/-! ### The data page write (R67) -/

/-- DATA_PAGE_WRITE (R67): when granted, the page is formed and its write issued. -/
def execDataPageWrite (s : State) : Host.Outcome State Fault Refusal :=
  .next
    (match canWriteData s, activeSeg s with
     | true, some g =>
       let p := planPage s
       let items := p.items.map PageItem.item ++ blockCells (s.cx.staging.take p.cells)
       settle { s with
         ar.pageWrite := some ⟨g.num, g.written, items, p.cells, s.now⟩
         ar.writeQueue := s.ar.writeQueue.drop p.items.length
         ar.lastServed := .write }
     | _, _ => s)

/-! ### The completion of a data page write (R68, R70, R101, R107) -/

/-- The cells of a block, by index and pitch. -/
def blockNames (pitch first : Nat) (block : List (List CellEntry)) : List CellName :=
  (List.range block.length).map (fun k => ⟨first + k, pitch⟩)

/-- A segment's cell ranges take in the cells of a page (R68). -/
def rangeWith (r : List CellRange) (items : List PageItem) : List CellRange :=
  items.foldl (fun r i =>
    match i with
    | .cells pitch first block => (blockNames pitch first block).foldl takeInCell r
    | .item _ => r) r

/-- A new output entry (R69, R70). -/
def newOutEntry (r : OutputRecord) (loc : Loc) : OutEntry where
  id := r.id
  seq := r.seq
  loc := loc
  revision := r.revision
  c0 := r.c0
  c1 := r.c1
  lane := r.lane
  flags := r.flags
  firstBlock := none
  refs := r.segments.map (fun p => p.ref)
  segSet := []
  freezeSegs := []
  pitch := r.pitch

/-- A new input entry (R69, R70). -/
def newInEntry (r : InputRecord) (loc : Loc) : InEntry :=
  ⟨r.seq, loc, r.revision, r.id, r.lin, r.w0, r.w1, r.estimated, r.long⟩

/-- An output entry pointed to an amended record: its location, revision, flags and ID; FROZEN is never lost (R70, R101). -/
def OutEntry.amend (r : OutputRecord) (loc : Loc) (e : OutEntry) : OutEntry :=
  { e with
    loc := loc, revision := r.revision, id := r.id
    flags := { r.flags with frozen := r.flags.frozen || e.flags.frozen } }

/-- An input entry pointed to an amended record (R70). -/
def InEntry.amend (r : InputRecord) (loc : Loc) (e : InEntry) : InEntry :=
  { e with loc := loc, revision := r.revision, id := r.id, estimated := r.estimated, long := r.long }

/-- The end of the amended record's write for the amendment in COMMITTING (R107). -/
def endCommit (kind : AmendKind) (seq : Nat) (present : Bool) (s : State) : State :=
  if isCommitting s kind seq then
    if present then raise .amendDone { s with ru.amend := .closed } else lockAmend .expired s
  else s

/-- The directory change of one item of a written page, and the report to the block that queued it (R68, R70, R101, R107). -/
def fileItem (seg page : Nat) (s : State) (p : PageItem × Nat) : State :=
  let loc : Loc := ⟨seg, page, p.2⟩
  match p.1 with
  | .cells _ _ _ => s
  | .item (.output r) =>
    if needsPlace s (.output r) then
      { s with ar.outs := s.ar.outs.filter (fun e => e.id != r.id) ++ [newOutEntry r loc] }
    else s
  | .item (.input r) =>
    if needsPlace s (.input r) then { s with ar.ins := s.ar.ins ++ [newInEntry r loc] } else s
  | .item (.freezeMark seq _) =>
    { s with
      ar.outs := s.ar.outs.map (fun e =>
        if e.seq = seq then { e with freezeSegs := putNat seg e.freezeSegs, flags := { e.flags with frozen := true } } else e)
      ru.freezes := s.ru.freezes.erase seq }
  | .item (.amendedOutput r old) =>
    let isIt (e : OutEntry) : Bool := e.seq == r.seq && e.id == old
    endCommit .output r.seq (s.ar.outs.any isIt)
      { s with ar.outs := s.ar.outs.map (fun e => if isIt e then e.amend r loc else e) }
  | .item (.amendedInput r) =>
    endCommit .input r.seq (inBySeq s r.seq).isSome
      { s with ar.ins := s.ar.ins.map (fun e => if e.seq = r.seq then e.amend r loc else e) }

/-- The first cell of a block that an entry's coil owns, if any: the cell and the block's place. -/
def ownedInBlock (e : OutEntry) (seg page : Nat) (p : PageItem × Nat) : Option (Nat × Loc) :=
  match p.1 with
  | .cells pitch first block =>
    let lo := max first (cellFrom e.c0 e.pitch)
    if pitch = e.pitch ∧ lo < min (first + block.length) (cellFrom e.c1 e.pitch) then some (lo, ⟨seg, page, p.2⟩) else none
  | .item _ => none

/-- The cell block of the coil's first owned cell that the archive holds, in the segments of its set (R69). -/
def findFirstBlock (f : Flash) (e : OutEntry) : Option Loc :=
  let found := f.pages.flatMap (fun q =>
    if e.segSet.contains (q.1 / 256) then
      ((dataItems (some q.2)).getD []).zipIdx.filterMap (ownedInBlock e (q.1 / 256) (q.1 % 256))
    else [])
  (found.foldl (fun (best : Option (Nat × Loc)) b =>
    match best with
    | none => some b
    | some a => if b.1 < a.1 then some b else some a) none).map (fun b => b.2)

/-- Entries without a first cell block take one if the archive holds one (R70). -/
def fillFirstBlocks (s : State) : State :=
  { s with ar.outs := s.ar.outs.map (fun e =>
      if e.firstBlock.isNone then { e with firstBlock := findFirstBlock s.flash e } else e) }

/-- A full segment becomes USED and an activation is needed (R68, R80). -/
def fullSegment (seg : Nat) (s : State) : State :=
  match segEntry s seg with
  | none => s
  | some g => if 256 ≤ g.written then activate { s with ar.segs := putSeg { g with state := .used } s.ar.segs } else s

/-- The page holds an output record whose directory entry appears with it (R70, R77). -/
def outputAppears (s : State) (items : List PageItem) : Bool :=
  items.any (fun i =>
    match i with
    | .item (.output r) => needsPlace s (.output r)
    | _ => false)

/-- What a completed data page does, in order: it stands in the flash, its segment counts it and takes in its cells, its cells leave
staging, its items are filed, the segment sets follow, the closing coils that are ready are handed over, a full segment makes way, and
the appearance of a coil's directory entry is a moment of reclaim choice (R68, R70, R77). -/
def completePage (w : PageWrite) (s : State) : State :=
  match segEntry s w.seg with
  | none => { s with ar.pageWrite := none }
  | some g =>
    let appears := outputAppears s w.items
    let s := { s with
      flash := s.flash.put w.seg w.page (.data g.seq w.items)
      ar.segs := putSeg { g with written := w.page + 1, cells := rangeWith g.cells w.items } s.ar.segs
      ar.pageWrite := none
      cx.staging := s.cx.staging.drop w.cells }
    let s := w.items.zipIdx.foldl (fileItem w.seg w.page) s
    let s := fillFirstBlocks (refreshSets s)
    momentIf appears (fullSegment w.seg (handReady s))

/-- PAGE_WRITE_COMPLETE (R68): 1 ms after its issue. -/
def execPageWriteComplete (s : State) : Host.Outcome State Fault Refusal :=
  .next
    (match s.ar.pageWrite with
     | none => s
     | some w => settle (completePage w (advanceTo (w.began + pageWriteTime) s)))

/-! ### Page reads (R73, R74) -/

/-- PAGE_READ_START (R73, R74): when granted, the read at the head of the read queue begins. -/
def execPageReadStart (s : State) : Host.Outcome State Fault Refusal :=
  .next
    (match canReadStart s, s.ar.readQueue with
     | true, r :: rest =>
       { s with ar.reading := some ⟨r, s.now, false⟩, ar.readQueue := rest, ar.lastServed := .read }
     | _, _ => s)

/-- A page read in progress completes, 0.1 ms after it began: the interface is free, and unless the page is discarded the asker takes
it (R73). -/
def completeRead (r : Reading) (failed : Bool) (take : Option Page → State → State) (s : State) : State :=
  let s := advanceTo (r.began + pageReadTime) { s with ar.reading := none }
  if r.discarded then s else settle (take (s.flash.read r.request.seg r.request.page failed) s)

/-- RECORD_READ_COMPLETE (R141). -/
def execRecordReadComplete (failed : Bool) (s : State) : Host.Outcome State Fault Refusal :=
  .next
    (match s.ar.reading with
     | some r =>
       match r.request.reader with
       | .record c => completeRead r failed (takeRecordPage c) s
       | .cells _ => s
       | .amend => s
     | none => s)

/-- CELL_PAGE_READ_COMPLETE (R144). -/
def execCellPageReadComplete (failed : Bool) (s : State) : Host.Outcome State Fault Refusal :=
  .next
    (match s.ar.reading with
     | some r =>
       match r.request.reader with
       | .cells c => completeRead r failed (takeCellPage c) s
       | .record _ => s
       | .amend => s
     | none => s)

/-- The stored record of an amendment's kind and sequence at a place of a page as read (R103). -/
def storedRecord (page : Option Page) (place : Nat) (kind : AmendKind) (seq : Nat) : Option StoredRecord :=
  match kind, ((dataItems page).getD [])[place]? with
  | .output, _ => (storedOutput page place seq).map StoredRecord.output
  | .input, some (.item (.input r)) => if r.seq = seq then some (.input r) else none
  | .input, some (.item (.amendedInput r)) => if r.seq = seq then some (.input r) else none
  | .input, _ => none

/-- Where the newest revision of the record under amendment lies; none when its entry is gone (R103). -/
def amendLoc (s : State) (a : Amending) : Option Loc :=
  match a.kind with
  | .output => (s.ar.outs.find? (fun e => e.seq == a.seq && e.id == a.openedId)).map (fun e => e.loc)
  | .input => (inBySeq s a.seq).map (fun e => e.loc)

/-- A data segment chosen for reclaim, its erase begun or not. -/
def chosenForReclaim (s : State) (seg : Nat) : Bool :=
  match segEntry s seg with
  | none => false
  | some g => g.state == .chosen || g.state == .erasing

/-- The retention unit takes its page: the working copy is complete, or the read has failed, the page being torn or its segment chosen
for reclaim (R103). When the entry alone is gone, the copy stays as it is, and the commit finds the entry gone (R106; log entry 12). -/
def takeAmendPage (seg : Nat) (page : Option Page) (s : State) : State :=
  match s.ru.amend with
  | .opened a =>
    match page, amendLoc s a with
    | some .torn, _ => lockAmend .readFailed s
    | _, none => if chosenForReclaim s seg then lockAmend .readFailed s else s
    | _, some loc =>
      match storedRecord page loc.place a.kind a.seq with
      | none => lockAmend .readFailed s
      | some r => { s with ru.amend := .opened { a with copy := some r } }
  | .closed => s
  | .committing _ => s
  | .locked _ => s

/-- AMEND_READ_COMPLETE (R103). -/
def execAmendReadComplete (failed : Bool) (s : State) : Host.Outcome State Fault Refusal :=
  .next
    (match s.ar.reading with
     | some r =>
       match r.request.reader with
       | .amend => completeRead r failed (takeAmendPage r.request.seg) s
       | .record _ => s
       | .cells _ => s
     | none => s)

end Sys2Proof.Machine
end

