-- ==== Sys2Proof/Machine/EraseKeep.lean ====
section
/-! DEFINITION. The segment erase and the keep area (04_the_coil_archive.md, sections 4.4 and 4.7): the meanings of ERASE_BEGIN,
ERASE_SUSPEND_ORDER, ERASE_SUSPEND_COMPLETE, ERASE_RESUME, ERASE_COMPLETE, KEEP_IMAGE_WRITE and KEEP_IMAGE_WRITE_COMPLETE. -/

namespace Sys2Proof.Machine

/-! ### Erase (R74 to R76) -/

/-- The segment whose erase begins, among those that wait; which of several is a free value (R74, log entry 32). -/
def eraseTarget (s : State) : Option Nat :=
  match eraseCandidates s with
  | [] => none
  | [n] => some n
  | l => l[Config.eraseOrder s.free % l.length]?

/-- The segment becomes ERASING (R64). -/
def markErasing (n : Nat) (s : State) : State :=
  match n with
  | 0 => { s with ar.keepSegs := s.ar.keepSegs.set 0 { s.ar.keepSegs.get 0 with state := .erasing } }
  | 1 => { s with ar.keepSegs := s.ar.keepSegs.set 1 { s.ar.keepSegs.get 1 with state := .erasing } }
  | _ => { s with ar.segs := s.ar.segs.map (fun g => if g.num = n then { g with state := .erasing } else g) }

/-- ERASE_BEGIN (R74). -/
def execEraseBegin (s : State) : Host.Outcome State Fault Refusal :=
  .next
    (match canEraseBegin s, eraseTarget s with
     | true, some n => markErasing n { s with ar.erase := some ⟨n, .running, 0, s.now⟩, free := s.free + 1 }
     | _, _ => s)

/-- A page read or a page write waits for the interface (R75); a keep image that waits under R86 does not. -/
def somethingWaits (s : State) : Bool := !s.ar.readQueue.isEmpty || dataPageReady s || keepImageReady s

/-- The moment an erase that runs on reaches its total of 400 ms (R76). -/
def Erase.completes (e : Erase) : Nat := e.since + (eraseTime - e.total)

/-- ERASE_SUSPEND_ORDER (R75): while something waits, suspension is ordered once 5 ms have run since the erase began or resumed. -/
def execEraseSuspendOrder (s : State) : Host.Outcome State Fault Refusal :=
  .next
    (match s.ar.erase with
     | none => s
     | some e =>
       let t := max s.now (e.since + eraseRunTime)
       if e.phase = .running ∧ somethingWaits s ∧ t < e.completes then
         { advanceTo t s with
           ar.erase := some { e with phase := .suspending t (t + Config.suspendDelay s.free % 201) }
           free := s.free + 1 }
       else s)

/-- ERASE_SUSPEND_COMPLETE (R75): at the latest 0.2 ms after the order; the erase time then stands still. -/
def execEraseSuspendComplete (s : State) : Host.Outcome State Fault Refusal :=
  .next
    (match s.ar.erase with
     | none => s
     | some e =>
       match e.phase with
       | .running => s
       | .suspended => s
       | .suspending ordered _ =>
         let t := min s.now (ordered + 200)
         if t < e.completes then
           { s with ar.erase := some { e with phase := .suspended, total := e.total + (t - e.since), since := s.now } }
         else s)

/-- The suspended erase can resume: nothing is read, written or waiting (R76). -/
def canEraseResume (s : State) : Bool :=
  (match s.ar.erase with
    | none => false
    | some e => e.phase == .suspended)
  && interfaceFree s && !somethingWaits s

/-- ERASE_RESUME (R76). -/
def execEraseResume (s : State) : Host.Outcome State Fault Refusal :=
  .next
    (match canEraseResume s, s.ar.erase with
     | true, some e => { s with ar.erase := some { e with phase := .running, since := s.now } }
     | _, _ => s)

/-- An erase completed: the segment is erased; a keep segment becomes SPARE, a data segment FREE, which moves the stage, serves an
activation that waits and is a moment of reclaim choice (R76, R77, R80, R83). A keep segment's erase does neither (log entry 57). -/
def completeErase (n : Nat) (s : State) : State :=
  let s := { s with flash := s.flash.eraseSeg n, ar.erase := none }
  match n with
  | 0 => { s with ar.keepSegs := s.ar.keepSegs.set 0 ⟨.spare, 0⟩ }
  | 1 => { s with ar.keepSegs := s.ar.keepSegs.set 1 ⟨.spare, 0⟩ }
  | _ =>
    let s := stageAfterErase { s with ar.segs := s.ar.segs.filter (fun g => g.num != n) }
    reclaimMoment (if s.ar.activationWaits then activate s else s)

/-- The erase can complete if left to run: it runs, or its ordered suspension has not completed by then (R75). -/
def Erase.mayComplete (e : Erase) : Bool :=
  match e.phase with
  | .running => true
  | .suspending ordered _ => decide (e.completes ≤ ordered + 200)
  | .suspended => false

/-- ERASE_COMPLETE (R76): when the total reaches 400 ms. -/
def execEraseComplete (s : State) : Host.Outcome State Fault Refusal :=
  .next
    (match s.ar.erase with
     | none => s
     | some e => if e.mayComplete then settle (completeErase e.seg (advanceTo e.completes s)) else s)

/-! ### The keep area (R85, R86) -/

/-- KEEP_IMAGE_WRITE (R74, R85): the ready image write is issued when the interface is free, with the keep list as it stands. -/
def execKeepImageWrite (s : State) : Host.Outcome State Fault Refusal :=
  .next
    (match interfaceFree s && keepImageReady s, keepTarget s with
     | true, some (seg, page) =>
       { s with
         ar.keepWrite := some ⟨seg, page, s.ar.imageSeq, s.ru.keeps, s.now⟩
         ar.keepReady := false
         ar.imageSeq := s.ar.imageSeq + 1 }
     | _, _ => s)

/-- A keep image written: it stands in the flash, and its segment is CURRENT; at page 0 the segment that was CURRENT becomes STALE
(R86; log entry 28). -/
def completeImage (w : KeepWrite) (s : State) : State :=
  let other := s.ar.keepSegs.get (1 - w.seg)
  let other := if other.state = .current then { other with state := .stale } else other
  { s with
    flash := s.flash.put w.seg w.page (.keep w.imageSeq w.entries)
    ar.keepSegs := (s.ar.keepSegs.set (1 - w.seg) other).set w.seg ⟨.current, w.page + 1⟩
    ar.keepWrite := none }

/-- KEEP_IMAGE_WRITE_COMPLETE (R86): 1 ms after its issue. -/
def execKeepImageWriteComplete (s : State) : Host.Outcome State Fault Refusal :=
  .next
    (match s.ar.keepWrite with
     | none => s
     | some w => completeImage w (advanceTo (w.began + pageWriteTime) s))

end Sys2Proof.Machine
end

