-- ==== Sys2Proof/Machine/Scan.lean ====
section
/-! DEFINITION. The start-up scan (04_the_coil_archive.md, section 4.8) and reset: the meanings of SCAN_PAGE_READ, SCAN_END and RESET.
The scan reads the data segments from 2 on and then the keep segments (log entry 13). -/

namespace Sys2Proof.Machine

/-! ### What the scan sees (R87) -/

/-- The flash as the scan reads it: a page whose read failed is torn. -/
def scanView (f : Flash) (failed : List Nat) : List (Nat × Page) := failed.foldl (fun ps k => putKey k .torn ps) f.pages

/-- The place of a segment in the scan's order (log entry 13). -/
def scanOrder (seg : Nat) : Nat := if seg < 2 then seg + 4094 else seg - 2

/-- The pages before a place in the scan's order. -/
def scanBefore (seg page : Nat) (view : List (Nat × Page)) : List (Nat × Page) :=
  view.filter (fun e => decide (scanOrder (e.1 / 256) * 256 + e.1 % 256 < scanOrder seg * 256 + page))

/-- The pages of a segment from page n on, up to the first erased one (R87). -/
def writtenRun (view : List (Nat × Page)) (seg : Nat) : Nat → Nat → List Page
  | 0, _ => []
  | fuel + 1, n =>
    match getKey (pageKey seg n) view with
    | some p => p :: writtenRun view seg fuel (n + 1)
    | none => []

/-- The written pages of a segment, in page order. -/
def segPages (view : List (Nat × Page)) (seg : Nat) : List Page := writtenRun view seg 256 0

/-- A segment whose first page is torn, or that was partly erased, is damaged (R87). -/
def isDamaged (partly : List Nat) (pages : List Page) (seg : Nat) : Bool := partly.contains seg || pages.head? == some .torn

/-- The segments that are not erased, in number order. -/
def segsPresent (view : List (Nat × Page)) (partly : List Nat) : List Nat :=
  (view.map (fun e : Nat × Page => e.1 / 256) ++ partly).foldl (fun l n => putNat n l) []

/-- The segment table entry of a data segment that is not erased (R87): damaged is CHOSEN, otherwise USED. -/
def scanSeg (view : List (Nat × Page)) (partly : List Nat) (n : Nat) : Option SegEntry :=
  let pages := segPages view n
  if isDamaged partly pages n then some ⟨n, .chosen, 0, pages.length, []⟩
  else
    match pages with
    | .data seq _ :: _ =>
      some ⟨n, .used, seq, pages.length, pages.foldl (fun r p => rangeWith r ((dataItems (some p)).getD [])) []⟩
    | _ => none

/-- The segment table as the pages give it (R87). -/
def scanSegs (view : List (Nat × Page)) (partly : List Nat) : List SegEntry :=
  ((segsPresent view partly).filter (fun n => decide (2 ≤ n))).filterMap (scanSeg view partly)

/-- The highest sequence found, that of the USED segments alone, 0 if there is none (R87): valid pages behind a damaged data segment's
torn first page do not count (log entry 51). -/
def highestSeq (segs : List SegEntry) : Nat :=
  segs.foldl (fun m g => if g.state = .used then max m g.seq else m) 0

/-- The segment that becomes ACTIVE at the scan: a USED one with the highest sequence and an unwritten page (R87). Of several that share
the highest sequence the model takes the lowest-numbered with an unwritten page (log entry 54). -/
def highestOpen (segs : List SegEntry) : Option SegEntry :=
  segs.find? (fun g => decide (g.state = .used ∧ g.seq = highestSeq segs ∧ g.written < 256))

/-- That segment made ACTIVE, one at most (R64, R87). -/
def activateHighest (segs : List SegEntry) : List SegEntry :=
  match highestOpen segs with
  | none => segs
  | some h => segs.map (fun g => if g.num = h.num then { g with state := .active } else g)

/-! ### Items found (R88) -/

/-- The items of the USED segments in ascending sequence, each with its location (R88). -/
def scanItems (view : List (Nat × Page)) (segs : List SegEntry) : List (PageItem × Loc) :=
  ((bySeq segs).filter (fun g => g.state == .used)).flatMap (fun g =>
    (segPages view g.num).zipIdx.flatMap (fun p =>
      ((dataItems (some p.1)).getD []).zipIdx.map (fun i => (i.1, ⟨g.num, p.2, i.2⟩))))

/-- An output record found: the record, its location, and its position in the scan's item order. -/
structure FoundOut where
  record : OutputRecord
  loc : Loc
  position : Nat
deriving DecidableEq, Repr

/-- An input record found. -/
structure FoundIn where
  record : InputRecord
  loc : Loc
  position : Nat
deriving DecidableEq, Repr

/-- The output records found, in order. -/
def foundOuts (items : List (PageItem × Loc)) : List FoundOut :=
  items.zipIdx.filterMap (fun p =>
    match p.1.1 with
    | .item (.output r) => some ⟨r, p.1.2, p.2⟩
    | .item (.amendedOutput r _) => some ⟨r, p.1.2, p.2⟩
    | _ => none)

/-- The input records found, in order. -/
def foundIns (items : List (PageItem × Loc)) : List FoundIn :=
  items.zipIdx.filterMap (fun p =>
    match p.1.1 with
    | .item (.input r) => some ⟨r, p.1.2, p.2⟩
    | .item (.amendedInput r) => some ⟨r, p.1.2, p.2⟩
    | _ => none)

/-- The newest output record of each sequence: the highest revision, and of equal revisions the later one (R88). -/
def newestOuts (found : List FoundOut) : List FoundOut :=
  found.foldl (fun l x =>
    if l.any (fun y => y.record.seq == x.record.seq) then
      l.map (fun y => if y.record.seq = x.record.seq ∧ y.record.revision ≤ x.record.revision then x else y)
    else l ++ [x]) []

/-- The newest input record of each sequence (R88). -/
def newestIns (found : List FoundIn) : List FoundIn :=
  found.foldl (fun l x =>
    if l.any (fun y => y.record.seq == x.record.seq) then
      l.map (fun y => if y.record.seq = x.record.seq ∧ y.record.revision ≤ x.record.revision then x else y)
    else l ++ [x]) []

/-- Of newest output records with one ID, the one with the higher output sequence is entered (R88). -/
def withoutRivals (l : List FoundOut) : List FoundOut :=
  l.filter (fun x => !(l.any (fun y => y.record.id == x.record.id && decide (x.record.seq < y.record.seq))))

/-- The position below which keys are left out so that at most 16,384 remain (R88). -/
def keepsKey (positions : List Nat) (position : Nat) : Bool :=
  decide (positions.length - 16384 ≤ positions.countP (fun p => decide (p < position)))

/-- The segments of the freeze marks that name an output sequence (R88). -/
def freezeSegsOf (items : List (PageItem × Loc)) (seq : Nat) : List Nat :=
  items.foldl (fun l p =>
    match p.1 with
    | .item (.freezeMark s _) => if s = seq then putNat p.2.seg l else l
    | _ => l) []

/-- The directory entry of a newest output record, with its freeze marks (R88). -/
def foundOutEntry (items : List (PageItem × Loc)) (x : FoundOut) : OutEntry :=
  let marks := freezeSegsOf items x.record.seq
  let e := newOutEntry x.record x.loc
  { e with freezeSegs := marks, flags := { e.flags with frozen := e.flags.frozen || !marks.isEmpty } }

/-- The input sequences that the records found name (R17). -/
def inputSeqsNamed (outs : List FoundOut) (ins : List FoundIn) : List Nat :=
  ins.map (fun x => x.record.seq) ++ outs.flatMap (fun x => x.record.segments.filterMap (fun p => p.ref))

/-- One above the highest of some sequences, 1 if there is none, held at the width (R17). -/
def counterAbove (seqs : List Nat) : Nat := nextSeq (seqs.foldl max 0)

/-! ### Keep area (R87) -/

/-- The valid keep images of a segment, a damaged one's too: sequence, entries, segment. -/
def imagesOf (view : List (Nat × Page)) (seg : Fin 2) : List (Nat × List KeepEntry × Fin 2) :=
  (segPages view seg.val).filterMap (fun p =>
    match p with
    | .keep n entries => some (n, entries, seg)
    | .data _ _ => none
    | .torn => none)

/-- The valid image with the highest image sequence (R87). Of several that share it the model takes the one on the later page, and one of
segment 1 before one of segment 0 (log entry 55). -/
def newestImage (view : List (Nat × Page)) : Option (Nat × List KeepEntry × Fin 2) :=
  (imagesOf view 0 ++ imagesOf view 1).foldl (fun best i =>
    match best with
    | none => some i
    | some b => if b.1 ≤ i.1 then some i else some b) none

/-- A keep segment as the scan leaves it: CURRENT, SPARE when erased, or STALE; a damaged one is STALE even when the newest image is its
own (R87; log entry 13). -/
def scanKeepSeg (view : List (Nat × Page)) (partly : List Nat) (current : Option (Fin 2)) (k : Fin 2) : KeepSeg :=
  let pages := segPages view k.val
  if current = some k ∧ !isDamaged partly pages k.val then ⟨.current, pages.length⟩
  else if pages = [] ∧ !partly.contains k.val then ⟨.spare, 0⟩
  else ⟨.stale, pages.length⟩

/-! ### Run origin (R89) -/

/-- The upper ends of the cells found, with their pitches. -/
def cellEnds (items : List (PageItem × Loc)) : List (Nat × Nat) :=
  items.filterMap (fun p =>
    match p.1 with
    | .cells pitch first block => some ((first + block.length) * pitch, pitch)
    | .item _ => none)

/-- The greatest upper end with its pitch; 0 and 200 if no cell is found (R89). -/
def greatestEnd (ends : List (Nat × Nat)) : Nat × Nat := ends.foldl (fun m e => if m.1 ≤ e.1 then e else m) (0, 200)

/-- The run origin: the least multiple of Ph at or above E and G (R89). -/
def originOf (items : List (PageItem × Loc)) (outs : List FoundOut) (ins : List FoundIn) : Nat :=
  let e := greatestEnd (cellEnds items)
  let g := (outs.map (fun x => x.record.c1) ++ ins.map (fun x => x.record.w1)).foldl max 0
  (max e.1 g + e.2 - 1) / e.2 * e.2

/-! ### The tables built (R87, R88) -/

/-- What the scan puts into the archive controller, the keep list and the sequence counters from the pages it has read. -/
def buildTables (view : List (Nat × Page)) (s : State) : State :=
  let partly := s.flash.partlyErased
  let segs := scanSegs view partly
  let items := scanItems view segs
  let outs := foundOuts items
  let ins := foundIns items
  let keyOuts := withoutRivals (newestOuts outs)
  let keyIns := newestIns ins
  let positions := keyOuts.map (fun x => x.position) ++ keyIns.map (fun x => x.position)
  let image := newestImage view
  let current := image.map (fun i => i.2.2)
  let s := { s with
    ar.segs := activateHighest segs
    ar.segSeq := highestSeq segs + 1
    ar.keepSegs := Vector.ofFn (scanKeepSeg view partly current)
    ar.imageSeq := image.elim 1 (fun i => i.1 + 1)
    ar.outs := (keyOuts.filter (fun x => keepsKey positions x.position)).map (foundOutEntry items)
    ar.ins := (keyIns.filter (fun x => keepsKey positions x.position)).map (fun x => newInEntry x.record x.loc)
    ru.keeps := image.elim [] (fun i => i.2.1)
    ca.inSeq := counterAbove (inputSeqsNamed outs ins)
    ca.outSeq := counterAbove (outs.map (fun x => x.record.seq)) }
  let s := refreshSets s
  { s with ar.outs := s.ar.outs.map (fun e => { e with firstBlock := findFirstBlock ⟨view, partly⟩ e }) }

/-! ### The scan's steps -/

/-- The place after a page: the next page, or the next segment's first; done after segment 1 (R87; log entry 13). -/
def Scan.advance (lastOfSegment : Bool) (c : Scan) : Scan :=
  if !lastOfSegment then { c with page := c.page + 1 }
  else if c.seg = 1 then { c with done := true }
  else { c with seg := if c.seg = 4095 then 0 else c.seg + 1, page := 0 }

/-- The scan's reading of a segment ends at an erased page and at its last page (R87). -/
def endsSegment (view : List (Nat × Page)) (seg page : Nat) : Bool :=
  (getKey (pageKey seg page) view).isNone || decide (page = 255)

/-- SCAN_PAGE_READ (R87): the page at the scan's place is read and classified; the tables are those of the pages read. -/
def execScanPageRead (failed : Bool) (s : State) : Host.Outcome State Fault Refusal :=
  .next
    (match s.ar.scan with
     | none => s
     | some c =>
       if c.done then s
       else
         let key := pageKey c.seg c.page
         let c := { c with failed := if failed then putNat key c.failed else c.failed }
         let view := scanView s.flash c.failed
         let read := c.began + pageReadTime
         let c := { c.advance (endsSegment view c.seg c.page) with began := read }
         let s := advanceTo read { s with ar.scan := some c }
         buildTables (if c.done then view else scanBefore c.seg c.page view) s)

/-- How many page reads a segment takes (R87). -/
def scanReads (view : List (Nat × Page)) (seg : Nat) : Nat := min 256 ((segPages view seg).length + 1)

/-- How many page reads the scan takes from its place to its end: one for each segment, and the further pages of those written. -/
def scanReadsLeft (view : List (Nat × Page)) (partly : List Nat) (c : Scan) : Nat :=
  if c.done then 0
  else
    (4096 - scanOrder c.seg)
      + (((segsPresent view partly).filter (fun n => decide (scanOrder c.seg ≤ scanOrder n))).map
          (fun n => scanReads view n - 1)).sum
      - c.page

/-- SCAN_END (R89): the reads that remain find their pages whole (log entry 13); the tables, the run origin and the counters are set,
READY is raised, and the station passes to CONFIG. -/
def execScanEnd (s : State) : Host.Outcome State Fault Refusal :=
  .next
    (match s.ar.scan with
     | none => s
     | some c =>
       let view := scanView s.flash c.failed
       let items := scanItems view (scanSegs view s.flash.partlyErased)
       let s := buildTables view (advanceTo (c.began + pageReadTime * scanReadsLeft view s.flash.partlyErased c) s)
       settle (raise .ready { s with
         ar.scan := none
         ar.expired := []
         ar.stage := .normal
         tiu.runOrigin := originOf items (foundOuts items) (foundIns items)
         pp.station := .config }))

/-! ### Reset (R200, R212) -/

/-- The flash after a reset: a page write in progress leaves a torn page, an erase in progress a partly erased segment (R68, R76). -/
def flashAfterReset (s : State) : Flash :=
  let f := match s.ar.pageWrite with
    | none => s.flash
    | some w => s.flash.put w.seg w.page .torn
  let f := match s.ar.keepWrite with
    | none => f
    | some w => f.put w.seg w.page .torn
  match s.ar.erase with
  | none => f
  | some e => f.cutErase e.seg

/-- RESET (R200, R212): every block takes its reset state; the flash, the clock and the queue go on (log entry 5). -/
def execReset (strap : BitVec 5) (raw : BitVec 12) (s : State) : Host.Outcome State Fault Refusal :=
  .next (State.afterReset strap raw (flashAfterReset s) s.now s.free s.pending)

end Sys2Proof.Machine
end

