-- ==== Sys2Proof/Machine/Timers.lean ====
section
/-! DEFINITION. The windows and timers of the pull engine, burst unit, retention unit and staging: the meanings of LOCATE_WINDOW_EXPIRY,
REPLY_WINDOW_EXPIRY, SILENCE_TIMEOUT, DRAIN_TIMEOUT, PAUSE_LIMIT, STAGING_AGE_EXPIRY and RELAY_ROOM_RESUME. -/

namespace Sys2Proof.Machine

/-- The locate of a holder, once its window has begun: the moment and the collection. -/
def runningLocate (s : State) (h : LocateHolder) : Option (Nat × Locate) :=
  let l : Option Locate :=
    match h with
    | .slot k =>
      match slotAt s k with
      | none => none
      | some x =>
        match x.phase with
        | .seeking l => l
        | .pulling _ => none
        | .draining _ => none
    | .task =>
      match s.ru.head with
      | none => none
      | some h =>
        match h.phase with
        | .locating l => some l
        | .awaiting _ _ => none
  l.bind (fun l => l.began.map (fun t => (t, l)))

/-- LOCATE_WINDOW_EXPIRY (R136): the collection gives the outcome to its holder. -/
def execLocateWindowExpiry (h : LocateHolder) (s : State) : Host.Outcome State Fault Refusal :=
  .next
    (match runningLocate s h with
     | none => s
     | some (t, l) =>
       let s := advanceTo (t + locateWindow) s
       settle
         (match h with
          | .slot k => slotLocated k l.outcome s
          | .task => taskLocated l.outcome s))

/-- The moment the head task's reply window began. -/
def replyBegan (s : State) : Option Nat :=
  match s.ru.head with
  | none => none
  | some h =>
    match h.phase with
    | .awaiting _ began => began
    | .locating _ => none

/-- REPLY_WINDOW_EXPIRY (R97, R98): the head task fails. -/
def execReplyWindowExpiry (s : State) : Host.Outcome State Fault Refusal :=
  .next
    (match replyBegan s with
     | none => s
     | some t => settle (failTask (advanceTo (t + replyWindow) s)))

/-- The moment a slot's silence timer runs from; none while it stands or the slot is not PULLING (R176). -/
def silenceBegan (s : State) (k : Fin 8) : Option Nat :=
  match slotAt s k with
  | none => none
  | some x =>
    match x.phase with
    | .pulling p => p.silence
    | .seeking _ => none
    | .draining _ => none

/-- SILENCE_TIMEOUT (R176): the fetch is stopped, its slot drains, its segment ends TIMEOUT and the next one is begun. -/
def execSilenceTimeout (k : Fin 8) (s : State) : Host.Outcome State Fault Refusal :=
  .next
    (match silenceBegan s k, slotAt s k with
     | some t, some x =>
       let s := stopSlot k (advanceTo (t + silenceTime) s)
       settle
         (match x.context with
          | none => s
          | some c => nextSegment c (onCtx c (fun y => (addCount .timeout y).dropFetch) s))
     | _, _ => s)

/-- The moment a DRAINING slot's STOP left. -/
def drainBegan (s : State) (k : Fin 8) : Option Nat :=
  match slotAt s k with
  | none => none
  | some x =>
    match x.phase with
    | .draining t => t
    | .seeking _ => none
    | .pulling _ => none

/-- DRAIN_TIMEOUT (R152): the slot returns to FREE. -/
def execDrainTimeout (k : Fin 8) (s : State) : Host.Outcome State Fault Refusal :=
  .next
    (match drainBegan s k with
     | none => s
     | some t => settle (freeSlot k (advanceTo (t + drainTime) s)))

/-- The moment a context was paused. -/
def pausedAt (s : State) (c : Fin 6) : Option Nat := (ctxAt s c).bind (fun x => x.paused)

/-- PAUSE_LIMIT (R171, R156): the context ends with DONE ABANDONED. -/
def execPauseLimit (c : Fin 6) (s : State) : Host.Outcome State Fault Refusal :=
  .next
    (match pausedAt s c with
     | none => s
     | some t => settle (endContext c .abandoned (advanceTo (t + pauseTime) s)))

/-- STAGING_AGE_EXPIRY (R67): the cell at the head of staging reaches 1,000 ms since it retired, which makes a partial cell page due;
the page is formed by DATA_PAGE_WRITE. -/
def execStagingAgeExpiry (s : State) : Host.Outcome State Fault Refusal :=
  .next
    (match s.cx.staging with
     | [] => s
     | c :: _ => advanceTo (c.retired + stagingAge) s)

/-- Whether a context in LOCAL has a record to place and room for it (R172). -/
def canPlace (s : State) (c : Fin 6) : Bool :=
  match ctxAt s c with
  | none => false
  | some x =>
    x.phase == .localRecords && decide (x.relay.length < 64) && decide (x.placed < (ownRecords s x).length)

/-- RELAY_ROOM_RESUME (R144, R172): the context in LOCAL goes on placing its records. -/
def execRelayRoomResume (c : Fin 6) (s : State) : Host.Outcome State Fault Refusal :=
  .next (if canPlace s c then settle (continueLocal c s) else s)

end Sys2Proof.Machine
end

