-- ==== Sys2Proof/Machine/Dispatch.lean ====
section
/-! DEFINITION. Dispatch: one arm per command. -/

namespace Sys2Proof.Machine

/-- The effect of a command on everything but the queue. -/
def exec (i : Instr) (s : State) : Host.Outcome State Fault Refusal :=
  match i with
  | .reset strap raw => Sys2Proof.Machine.execReset strap raw s
  | .rawInputChange input level => Sys2Proof.Machine.execRawInputChange input level s
  | .filteredChange input => Sys2Proof.Machine.execFilteredChange input s
  | .exitPulse forward => Sys2Proof.Machine.execExitPulse forward s
  | .entryPulse forward => Sys2Proof.Machine.execEntryPulse forward s
  | .readEvents fields => Sys2Proof.Machine.execReadEvents fields s
  | .peekEvents fields => Sys2Proof.Machine.execPeekEvents fields s
  | .setEnables fields => Sys2Proof.Machine.execSetEnables fields s
  | .readState fields => Sys2Proof.Machine.execReadState fields s
  | .configure fields => Sys2Proof.Machine.execConfigure fields s
  | .start fields => Sys2Proof.Machine.execStart fields s
  | .restart fields => Sys2Proof.Machine.execRestart fields s
  | .readLastCoil fields => Sys2Proof.Machine.execReadLastCoil fields s
  | .announce fields => Sys2Proof.Machine.execAnnounce fields s
  | .nameExit fields => Sys2Proof.Machine.execNameExit fields s
  | .sample fields => Sys2Proof.Machine.execSample fields s
  | .freeze fields => Sys2Proof.Machine.execFreeze fields s
  | .amendOpen fields => Sys2Proof.Machine.execAmendOpen fields s
  | .amendRename fields => Sys2Proof.Machine.execAmendRename fields s
  | .amendCommit fields => Sys2Proof.Machine.execAmendCommit fields s
  | .amendCancel fields => Sys2Proof.Machine.execAmendCancel fields s
  | .amendClear fields => Sys2Proof.Machine.execAmendClear fields s
  | .unknownCommand code fields => Sys2Proof.Machine.execUnknownCommand code fields s
  | .transactionAbort bytes => Sys2Proof.Machine.execTransactionAbort bytes s
  | .scanPageRead failed => Sys2Proof.Machine.execScanPageRead failed s
  | .scanEnd => Sys2Proof.Machine.execScanEnd s
  | .dataPageWrite => Sys2Proof.Machine.execDataPageWrite s
  | .pageWriteComplete => Sys2Proof.Machine.execPageWriteComplete s
  | .pageReadStart => Sys2Proof.Machine.execPageReadStart s
  | .recordReadComplete failed => Sys2Proof.Machine.execRecordReadComplete failed s
  | .cellPageReadComplete failed => Sys2Proof.Machine.execCellPageReadComplete failed s
  | .amendReadComplete failed => Sys2Proof.Machine.execAmendReadComplete failed s
  | .keepImageWrite => Sys2Proof.Machine.execKeepImageWrite s
  | .keepImageWriteComplete => Sys2Proof.Machine.execKeepImageWriteComplete s
  | .eraseBegin => Sys2Proof.Machine.execEraseBegin s
  | .eraseSuspendOrder => Sys2Proof.Machine.execEraseSuspendOrder s
  | .eraseSuspendComplete => Sys2Proof.Machine.execEraseSuspendComplete s
  | .eraseResume => Sys2Proof.Machine.execEraseResume s
  | .eraseComplete => Sys2Proof.Machine.execEraseComplete s
  | .seek frame => Sys2Proof.Machine.execSeek frame s
  | .own frame => Sys2Proof.Machine.execOwn frame s
  | .pull frame => Sys2Proof.Machine.execPull frame s
  | .bins frame => Sys2Proof.Machine.execBins frame s
  | .mark frame => Sys2Proof.Machine.execMark frame s
  | .done frame => Sys2Proof.Machine.execDone frame s
  | .wait frame => Sys2Proof.Machine.execWait frame s
  | .go frame => Sys2Proof.Machine.execGo frame s
  | .stop frame => Sys2Proof.Machine.execStop frame s
  | .keep frame => Sys2Proof.Machine.execKeep frame s
  | .unkeep frame => Sys2Proof.Machine.execUnkeep frame s
  | .kept frame => Sys2Proof.Machine.execKept frame s
  | .frameDiscarded delimited bytes => Sys2Proof.Machine.execFrameDiscarded delimited bytes s
  | .locateWindowExpiry holder => Sys2Proof.Machine.execLocateWindowExpiry holder s
  | .replyWindowExpiry => Sys2Proof.Machine.execReplyWindowExpiry s
  | .silenceTimeout slot => Sys2Proof.Machine.execSilenceTimeout slot s
  | .drainTimeout slot => Sys2Proof.Machine.execDrainTimeout slot s
  | .pauseLimit context => Sys2Proof.Machine.execPauseLimit context s
  | .stagingAgeExpiry => Sys2Proof.Machine.execStagingAgeExpiry s
  | .relayRoomResume context => Sys2Proof.Machine.execRelayRoomResume context s
  | .accessWon => Sys2Proof.Machine.execAccessWon s
  | .loopbackDataFrame context => Sys2Proof.Machine.execLoopbackDataFrame context s
  | .frameSent => Sys2Proof.Machine.execFrameSent s
  | .readbackMismatch => Sys2Proof.Machine.execReadbackMismatch s
  | .carrierSeen => Sys2Proof.Machine.execCarrierSeen s

end Sys2Proof.Machine
end

