-- ==== Sys2Proof/Machine/Step.lean ====
section
/-! DEFINITION. One step: the command at the front of the queue, or on an empty queue one of the station's own events that is due, or
the passage of a microsecond (log entries 1 to 4). -/

namespace Sys2Proof.Machine

/-! ### The station's own events -/

/-- An event when a condition holds. -/
def eventIf (b : Bool) (i : Instr) : List Instr := if b then [i] else []

/-- A moment, if there is one, plus a time has come. -/
def hasRun (t : Option Nat) (time now : Nat) : Bool :=
  match t with
  | none => false
  | some t => decide (t + time ≤ now)

/-- The twelve inputs in number order. -/
def allInputs : List (Fin 12) := [0, 1, 2, 3, 4, 5, 6, 7, 8, 9, 10, 11]

/-- Pending changes whose filter time has run (R1). -/
def trackingEvents (s : State) : List Instr :=
  allInputs.flatMap (fun k => eventIf (hasRun ((s.tiu.changes.get k).map PendingChange.due) 0 s.now) (.filteredChange k))

/-- The scan's next step (R87, R89). -/
def scanEvents (s : State) : List Instr :=
  match s.ar.scan with
  | none => []
  | some c => if c.done then [.scanEnd] else eventIf (decide (c.began + pageReadTime ≤ s.now)) (.scanPageRead false)

/-- The completion of the page read in progress. -/
def readEvents (s : State) : List Instr :=
  match s.ar.reading with
  | none => []
  | some r =>
    eventIf (decide (r.began + pageReadTime ≤ s.now))
      (match r.request.reader with
       | .record _ => .recordReadComplete false
       | .cells _ => .cellPageReadComplete false
       | .amend => .amendReadComplete false)

/-- What the erase does next (R75, R76). -/
def eraseEvents (s : State) : List Instr :=
  match s.ar.erase with
  | none => eventIf (canEraseBegin s) .eraseBegin
  | some e =>
    if e.mayComplete ∧ e.completes ≤ s.now then [.eraseComplete]
    else
      match e.phase with
      | .running => eventIf (somethingWaits s && decide (e.since + eraseRunTime ≤ s.now)) .eraseSuspendOrder
      | .suspending _ complete => eventIf (decide (complete ≤ s.now)) .eraseSuspendComplete
      | .suspended => eventIf (canEraseResume s) .eraseResume

/-- Completions and grants of the flash interface (R67, R73, R74, R85). -/
def flashEvents (s : State) : List Instr :=
  eventIf (hasRun (s.ar.pageWrite.map PageWrite.began) pageWriteTime s.now) .pageWriteComplete
    ++ eventIf (hasRun (s.ar.keepWrite.map KeepWrite.began) pageWriteTime s.now) .keepImageWriteComplete
    ++ readEvents s ++ eraseEvents s
    ++ eventIf (interfaceFree s && keepImageReady s) .keepImageWrite
    ++ eventIf (canReadStart s) .pageReadStart
    ++ eventIf (canWriteData s) .dataPageWrite

/-- Windows and timers that have run (R97, R134, R152, R171, R176). -/
def timerEvents (s : State) : List Instr :=
  let locate (h : LocateHolder) : List Instr :=
    eventIf (hasRun ((runningLocate s h).map (fun l => l.1)) locateWindow s.now) (.locateWindowExpiry h)
  allSlots.flatMap (fun k =>
      locate (.slot k) ++ eventIf (hasRun (silenceBegan s k) silenceTime s.now) (.silenceTimeout k)
        ++ eventIf (hasRun (drainBegan s k) drainTime s.now) (.drainTimeout k))
    ++ locate .task ++ eventIf (hasRun (replyBegan s) replyWindow s.now) .replyWindowExpiry
    ++ allContexts.flatMap (fun c => eventIf (hasRun (pausedAt s c) pauseTime s.now) (.pauseLimit c))

/-- The beginning of an own slot while the station wants the bus (R187, R188). -/
def accessDue (s : State) : Bool :=
  match s.bi.silence with
  | none => false
  | some t => s.bi.node != 0 && s.bi.tx.isNone && wantsBus s && decide (ownSlotStart s t s.now = s.now)

/-- Room in relay buffers, looped data frames, access to the bus, and the end of a transmission (R172, R185, R188, R190). -/
def streamEvents (s : State) : List Instr :=
  allContexts.flatMap (fun c => eventIf (canPlace s c) (.relayRoomResume c) ++ eventIf (hasLoopFor s c) (.loopbackDataFrame c))
    ++ eventIf (accessDue s) .accessWon
    ++ (match s.bi.tx with
      | none => []
      | some t => eventIf (decide (t.began + frameTime t.bytes ≤ s.now)) .frameSent)

/-- The station's own events that are due now (log entry 3). -/
def ownEvents (s : State) : List Instr :=
  trackingEvents s ++ scanEvents s ++ flashEvents s ++ timerEvents s ++ streamEvents s

/-- The block on an empty queue: the transaction that filled the process port's buffer is over, and chip-select is released (R197, log
entry 38); an own event that is due enters the queue, which of several is a free value; when none is due, a microsecond passes (log
entries 1 and 3). -/
def idle (s : State) : State :=
  match ownEvents s with
  | [] => { releaseSelect s with now := s.now + 1 }
  | [e] => { releaseSelect s with pending := [e] }
  | es => { releaseSelect s with pending := (es[Config.arrivalOrder s.free % es.length]?).toList, free := s.free + 1 }

/-! ### Step -/

/-- One step of the station. -/
def step (s : State) : Host.Outcome State Fault Refusal :=
  match s.pending with
  | [] => .next (idle s)
  | i :: rest => exec i { s with pending := rest }

/-- The state with the command that a word spells at the front of its queue; unchanged where it spells none. A word of this block's
table spells none (log entries 35 and 39). -/
def State.withFetchWord (s : State) (nbits w : Nat) : State :=
  match decodeTableWord nbits w with
  | none => s
  | some i => { s with pending := i :: s.pending }

end Sys2Proof.Machine
end

