-- ==== Sys2Proof/Safety.lean ====
section
/-! DEFINITION. What always holds of the station: the invariants that statements take as premises or prove kept, each a property of
one state. Every command ends in a next state (no fault, no refusal), so that safety is these invariants. -/

namespace Sys2Proof.Machine

/-- The station state and what hangs on it agree: the scan lasts while the state is SCAN, the lock is set in RUN alone, and RUN has a
configuration (R200, R203, R204). -/
structure ModesAgree (s : State) : Prop where
  scan : s.ar.scan.isSome = (s.pp.station == .scan)
  lock : s.pp.lock = (s.pp.station == .run)
  config : s.pp.station = .run → s.pp.config.isSome = true

/-- The frames of a class in the control queue. -/
def countClass (cls : FrameClass) (s : State) : Nat := s.bi.queue.countP (fun f => f.cls == cls)

/-- The control queue holds 32 frames at most, 20 of them general at most (R191). -/
structure ControlQueueHolds (s : State) : Prop where
  frames : s.bi.queue.length ≤ 32
  general : countClass .general s ≤ 20

/-- The write queue holds 64 items at most (R66). -/
def WriteQueueHolds (s : State) : Prop := s.ar.writeQueue.length ≤ 64

/-- A keep image holds 64 entries at most (R85, R92). -/
def Page.imageHolds : Page → Prop
  | .keep _ entries => entries.length ≤ 64
  | .data _ _ => True
  | .torn => True

/-- The retention unit's collections are within their bounds (R92, R94, R100), as are the keep images (R85). -/
structure RetentionHolds (s : State) : Prop where
  keeps : s.ru.keeps.length ≤ 64
  tasks : s.ru.tasks.length ≤ 16
  freezes : s.ru.freezes.length ≤ 64
  written : ∀ w, s.ar.keepWrite = some w → w.entries.length ≤ 64
  stored : ∀ e ∈ s.flash.pages, e.2.imageHolds

/-- The coil assembler's collections are within their bounds (R19, R22, R24, R37). -/
structure AssemblerHolds (s : State) : Prop where
  entryQueue : s.ca.entryQueue.length ≤ 4
  welds : s.ca.welds.length ≤ 8
  boundaries : s.ca.boundaries.length ≤ 4
  closing : s.ca.closing.length ≤ 32

/-- Every relay buffer holds 64 records at most (R149, R172). -/
def RelaysHold (s : State) : Prop := ∀ c x, ctxAt s c = some x → x.relay.length ≤ 64

/-- The staging buffer holds 512 cells at most (R54). -/
def StagingHolds (s : State) : Prop := s.cx.staging.length ≤ 512

/-- An entry of a cell is sound: its count is within its width, and where it counts readings their sum lies between the least and the
greatest taken count times (R50, R51). -/
def CellEntry.Sound (e : CellEntry) : Prop :=
  e.count ≤ 65535 ∧ (e.count = 0 → e.sum = 0)
    ∧ (0 < e.count → ∃ lo hi, e.least = some lo ∧ e.greatest = some hi ∧ lo * e.count ≤ e.sum ∧ e.sum ≤ hi * e.count)

/-- Every entry of the window and of the staging buffer is sound (R51). -/
structure CellsSound (s : State) : Prop where
  window : ∀ c ∈ s.cx.window, ∀ e ∈ c.2, e.Sound
  staging : ∀ c ∈ s.cx.staging, ∀ e ∈ c.entries, e.Sound

/-- The flash is in its canonical form. -/
def FlashCanonical (s : State) : Prop := s.flash.wf = true

/-- Outside SCAN, ARCHIVE-LOW and ARCHIVE-FULL are set while their conditions hold (R84). -/
structure ConditionsFlagged (s : State) : Prop where
  low : s.pp.station ≠ .scan → archiveLowHolds s = true → flagSet .archiveLow s = true
  full : s.pp.station ≠ .scan → archiveFullHolds s = true → flagSet .archiveFull s = true

/-! ### What statements say of commands and states -/

/-- The command that a received frame of a kind is (R184). -/
def frameCommand (kind : FrameKind) (f : Frame) : Instr :=
  match kind with
  | .seek => .seek f
  | .own => .own f
  | .pull => .pull f
  | .bins => .bins f
  | .mark => .mark f
  | .done => .done f
  | .wait => .wait f
  | .go => .go f
  | .stop => .stop f
  | .keep => .keep f
  | .unkeep => .unkeep f
  | .kept => .kept f

/-- A frame whose CRC matches and that passes the tests of R182 to R184 at this station. -/
def Passes (kind : FrameKind) (f : Frame) (s : State) : Prop := crcMatches kind f = true ∧ isForUs s.bi.node kind f = true

/-- The node that a frame names as its source. -/
def senderOf (f : Frame) : Node := BitVec.ofNat 5 f.src.toNat

/-- What hearing a frame with a matching CRC does before anything is handed over: the silence is counted from its end unless the
station transmits, and the last-source register takes its source (R186, R187). -/
def heard (f : Frame) (s : State) : State := hearSource f.src (endCarrier s)

/-- The state with a command record and its response in the process port's buffer (R197). -/
def withResponse (code : Byte) (fields response : List Byte) (s : State) : State :=
  { s with pp.buffer := some ⟨code, fields.take 257, response⟩ }

/-- The room that a thing in a data page takes: a block its head and its cells, an item its own (R65). -/
def PageItem.room : PageItem → Nat
  | .cells _ _ block => 16 + (block.map (fun entries => 8 + 12 * entries.length)).sum
  | .item w => w.room

/-- The cells of a block, each with its pitch and index (R65). -/
def PageItem.namedCells : PageItem → List (Nat × Nat × List CellEntry)
  | .cells pitch first block => block.zipIdx.map (fun c => (pitch, first + c.2, c.1))
  | .item _ => []

/-- The state with the lowest-numbered FREE segment made ACTIVE under the segment sequence counter's value (R80). -/
def afterActivation (s : State) : State :=
  { s with
    ar.segs := putSeg ⟨lowestFree 2 s.ar.segs, .active, s.ar.segSeq, 0, []⟩ s.ar.segs
    ar.segSeq := s.ar.segSeq + 1
    ar.activationWaits := false }

/-- The state in RECORD-ONLY with the staged cells dropped but for those of the page being written, NO-TREND on every open and closing
coil, and ARCHIVE-LOW raised (R81). -/
def afterTrendStop (s : State) : State :=
  raise .archiveLow { s with
    ar.stage := .recordOnly
    cx.staging := s.cx.staging.take (cellsInPage s)
    ca.openCoils := s.ca.openCoils.map (fun o => { o with flags.noTrend := true })
    ca.closing := s.ca.closing.map (fun r => { r with flags.noTrend := true }) }

/-- What the parent segments of a record come to from one on, by R145's table. -/
def segmentEnds (s : State) (depth : Nat) (g : Grid) (r : OutputRecord) (cursor : Nat) : List Settled :=
  (r.segments.zipIdx.drop cursor).map (fun p => settleSegment s depth g r p.2 p.1)

/-- Whether a segment is not fetched (R145). -/
def Settled.unfetched : Settled → Bool
  | .fetch _ => false
  | .skipped => true
  | .status _ => true

/-- Whether a settled segment adds to the count of a place (R145). -/
def Settled.countsAt (i : Fin 12) : Settled → Bool
  | .status st => st.place == i
  | .skipped => false
  | .fetch _ => false

/-- The slot of a fetch as it begins for a context (R146, R147). -/
def slotFromPlan (s : State) (c : Fin 6) (tag : Tag) (plan : FetchPlan) : FetchSlot :=
  ⟨some c, tag, plan.parent, plan.grid, plan.lin, plan.estimated, plan.long, none, .seeking (some (newLocate s plan.parent))⟩

/-- A tag held by a slot other than k or by the retention unit's head task (R132). -/
def HeldBeside (s : State) (k : Fin 8) (tag : Tag) : Prop :=
  (∃ m x, m ≠ k ∧ slotAt s m = some x ∧ x.tag = tag) ∨ ∃ h, s.ru.head = some h ∧ h.tag = tag

/-- The tag that is taken once slot k has returned to FREE: the counter's value, values still held passed over, 65,535 followed by 0
(R132). -/
def TagTaken (s : State) (k : Fin 8) (tag : Tag) : Prop :=
  ¬ HeldBeside s k tag ∧ ∃ n, n ≤ 9 ∧ tag = s.pe.tagCounter + BitVec.ofNat 16 n
    ∧ ∀ m, m < n → HeldBeside s k (s.pe.tagCounter + BitVec.ofNat 16 m)

/-- No closing coil, no looped frame and an empty write queue, the free segments and the directory far from a reclaim demand. -/
structure Unhurried (s : State) : Prop where
  closing : s.ca.closing = []
  looped : s.bi.looped = []
  queue : s.ar.writeQueue = []
  segments : 5 ≤ freeCount s
  directory : s.ar.outs.length + s.ar.ins.length < 16000

/-- The output entry that an amended record names by its sequence and the ID it was filed under (R70, R108). -/
def isAmended (r : OutputRecord) (old : CoilId) (e : OutEntry) : Bool := e.seq == r.seq && e.id == old

/-- How an amendment in COMMITTING of a kind and sequence ends with its record's write: CLOSED with AMEND-DONE when the entry is there,
otherwise LOCKED with cause EXPIRED and AMEND-LOCK; another amendment stands (R107). -/
def CommitEnds (kind : AmendKind) (seq : Nat) (there : Bool) (s t : State) : Prop :=
  (∀ a, s.ru.amend = .committing a → a.kind = kind → a.seq = seq →
      (there = true → t.ru.amend = .closed ∧ flagSet .amendDone t = true)
        ∧ (there = false → t.ru.amend = .locked .expired ∧ flagSet .amendLock t = true))
    ∧ ((∀ a, s.ru.amend = .committing a → a.kind ≠ kind ∨ a.seq ≠ seq) →
        t.ru.amend = s.ru.amend ∧ flagSet .amendDone t = flagSet .amendDone s ∧ flagSet .amendLock t = flagSet .amendLock s)

/-- Whether an entry of the keep list is the source of a KEEP task held (R94, R99); the task names it by its triple (log entry 49). -/
def isTaskSource (s : State) (k : KeepEntry) : Bool :=
  s.ru.tasks.any (fun t => t.kind == .keep && k.id == t.source && k.node == t.node && k.number == t.number)

/-- Whether a frame enters a control queue of the length given (R191). -/
def enters (f : OutFrame) (n : Nat) : Bool := decide (f.cls = .context ∧ n < 32 ∨ f.cls = .general ∧ n < 20)

/-- The archive has nothing to settle: the stage is NORMAL, the directory and the write queue have room (R71, R84). -/
structure Quiet (s : State) : Prop where
  stage : s.ar.stage = .normal
  directory : directoryFull s = false
  queue : s.ar.writeQueue.length < 64

/-- No attention flag but those listed differs. -/
def OnlyFlags (may : List Attention) (s t : State) : Prop := ∀ a, a ∉ may → flagSet a t = flagSet a s

/-- Every page of the flash reads as before. -/
def FlashSame (s t : State) : Prop :=
  t.flash.partlyErased = s.flash.partlyErased ∧ ∀ seg page, t.flash.at seg page = s.flash.at seg page

/-- Every bound of the station's collections (R19, R22, R24, R37, R54, R66, R92, R94, R100, R172, R191). -/
structure Bounded (s : State) : Prop where
  control : ControlQueueHolds s
  write : WriteQueueHolds s
  retention : RetentionHolds s
  assembler : AssemblerHolds s
  relays : RelaysHold s
  staging : StagingHolds s

/-- The sequence counters are in their range (R17). -/
structure CountersInRange (s : State) : Prop where
  inputs : 1 ≤ s.ca.inSeq ∧ s.ca.inSeq ≤ 2 ^ 32 - 1
  outputs : 1 ≤ s.ca.outSeq ∧ s.ca.outSeq ≤ 2 ^ 32 - 1

/-- Input k has a pending change in RUN, and the edge kinds that begin to match when it is taken are those given (R4). -/
structure Fires (k : Fin 12) (s : State) (kinds : PrevMatch) : Prop where
  run : s.pp.station = .run
  change : (s.tiu.changes.get k).isSome = true
  rising : ∀ after, after = s.tiu.pairs.edges (setInput k (s.tiu.raw.getLsbD k) s.tiu.filtered) →
    kinds = ⟨after.entryWeld && !s.tiu.prev.entryWeld, after.exitWeld && !s.tiu.prev.exitWeld,
      after.exitCut && !s.tiu.prev.exitCut, after.stripBreak && !s.tiu.prev.stripBreak⟩

end Sys2Proof.Machine
end

