-- ==== Sys2Proof/Certificates/Slice0/Obligations.lean ====
section
/-! DEFINITION. The statements for the provers: the machine's step, the invariants every step keeps, and what each command does by the
spec's rules. A statement's docstring names the commands it says a next state for, and the log entry where it rests on one. -/

open Sys2Proof Sys2Proof.Machine

/-! ### The machine -/

/-- A step runs the command at the front of the queue on the state with the rest of the queue (log entry 5). -/
def Obligations.StepRunsTheFrontCommand : Prop :=
  ∀ (c : Instr) (rest : List Instr) (s : State), step { s with pending := c :: rest } = exec c { s with pending := rest }

/-- On an empty queue: with no own event due a microsecond passes; one that is due enters the queue; of several, one of them enters and
a free value is used up; the process port's buffer is discarded, the transaction being over. The model's choice: log entries 1, 3, 38;
that the own completions find every page whole: log entries 12 and 13.
The model's choice are also when three of them are due: an erase that can reach 400 ms within the 200 µs of its ordered suspension is
complete, and not suspended (log entry 9); RELAY_ROOM_RESUME is due whenever its context can place a record (log entry 26); FRAME_SENT is
due 4 µs for each byte and two delimiters after the frame began (log entry 33).
Which own events are due: a pending change whose filter time has run, the scan's next step, each completion, window and timer whose time
has run, each grant that can be given, an own slot that begins while the station wants the bus, and no others (R1, R67, R73, R75, R76,
R85, R87, R97, R134, R152, R171, R172, R176, R185, R187). -/
def Obligations.EmptyQueueTakesAnOwnEventOrAMicrosecond : Prop :=
  (∀ s : State, s.pending = [] →
    (ownEvents s = [] → step s = .next { s with now := s.now + 1, pp.buffer := none })
      ∧ (∀ e, ownEvents s = [e] → step s = .next { s with pending := [e], pp.buffer := none })
      ∧ (2 ≤ (ownEvents s).length → ∃ e ∈ ownEvents s,
          step s = .next { s with pending := [e], free := s.free + 1, pp.buffer := none }))
    ∧ (∀ s : State,
      (∀ k, .filteredChange k ∈ ownEvents s ↔ ∃ c, s.tiu.changes.get k = some c ∧ c.began + c.filterMs * 1000 ≤ s.now)
        ∧ (.scanEnd ∈ ownEvents s ↔ ∃ c, s.ar.scan = some c ∧ c.done = true)
        ∧ (∀ f, .scanPageRead f ∈ ownEvents s ↔ f = false ∧ ∃ c, s.ar.scan = some c ∧ c.done = false ∧ c.began + 100 ≤ s.now)
        ∧ (.pageWriteComplete ∈ ownEvents s ↔ ∃ w, s.ar.pageWrite = some w ∧ w.began + 1000 ≤ s.now)
        ∧ (.keepImageWriteComplete ∈ ownEvents s ↔ ∃ w, s.ar.keepWrite = some w ∧ w.began + 1000 ≤ s.now)
        ∧ (∀ f, .recordReadComplete f ∈ ownEvents s ↔
            f = false ∧ ∃ r c, s.ar.reading = some r ∧ r.request.reader = .record c ∧ r.began + 100 ≤ s.now)
        ∧ (∀ f, .cellPageReadComplete f ∈ ownEvents s ↔
            f = false ∧ ∃ r c, s.ar.reading = some r ∧ r.request.reader = .cells c ∧ r.began + 100 ≤ s.now)
        ∧ (∀ f, .amendReadComplete f ∈ ownEvents s ↔
            f = false ∧ ∃ r, s.ar.reading = some r ∧ r.request.reader = .amend ∧ r.began + 100 ≤ s.now)
        ∧ (.eraseBegin ∈ ownEvents s ↔ canEraseBegin s = true)
        ∧ (.eraseSuspendOrder ∈ ownEvents s ↔ ∃ e, s.ar.erase = some e ∧ e.phase = .running ∧ somethingWaits s = true
            ∧ e.since + 5000 ≤ s.now ∧ s.now < e.since + (400000 - e.total))
        ∧ (.eraseSuspendComplete ∈ ownEvents s ↔ ∃ e ordered complete, s.ar.erase = some e ∧ e.phase = .suspending ordered complete
            ∧ complete ≤ s.now
            ∧ ¬(e.since + (400000 - e.total) ≤ ordered + 200 ∧ e.since + (400000 - e.total) ≤ s.now))
        ∧ (.eraseResume ∈ ownEvents s ↔ ∃ e, s.ar.erase = some e ∧ e.phase = .suspended ∧ interfaceFree s = true
            ∧ somethingWaits s = false)
        ∧ (.eraseComplete ∈ ownEvents s ↔ ∃ e, s.ar.erase = some e ∧ e.since + (400000 - e.total) ≤ s.now
            ∧ (e.phase = .running
                ∨ ∃ ordered complete, e.phase = .suspending ordered complete ∧ e.since + (400000 - e.total) ≤ ordered + 200))
        ∧ (.keepImageWrite ∈ ownEvents s ↔ interfaceFree s = true ∧ keepImageReady s = true)
        ∧ (.pageReadStart ∈ ownEvents s ↔ canReadStart s = true)
        ∧ (.dataPageWrite ∈ ownEvents s ↔ canWriteData s = true)
        ∧ (∀ h, .locateWindowExpiry h ∈ ownEvents s ↔ ∃ began l, runningLocate s h = some (began, l) ∧ began + 40000 ≤ s.now)
        ∧ (.replyWindowExpiry ∈ ownEvents s ↔ ∃ h owner began, s.ru.head = some h ∧ h.phase = .awaiting owner (some began)
            ∧ began + 200000 ≤ s.now)
        ∧ (∀ k, .silenceTimeout k ∈ ownEvents s ↔ ∃ x p began, slotAt s k = some x ∧ x.phase = .pulling p
            ∧ p.silence = some began ∧ began + 1500000 ≤ s.now)
        ∧ (∀ k, .drainTimeout k ∈ ownEvents s ↔ ∃ x left, slotAt s k = some x ∧ x.phase = .draining (some left)
            ∧ left + 1500000 ≤ s.now)
        ∧ (∀ c, .pauseLimit c ∈ ownEvents s ↔ ∃ x began, ctxAt s c = some x ∧ x.paused = some began ∧ began + 5000000 ≤ s.now)
        ∧ (∀ c, .relayRoomResume c ∈ ownEvents s ↔ canPlace s c = true)
        ∧ (∀ c, .loopbackDataFrame c ∈ ownEvents s ↔ ∃ x, ctxAt s c = some x ∧ x.frameReady = true ∧ x.requester = s.bi.node
            ∧ s.bi.node ≠ 0)
        ∧ (.accessWon ∈ ownEvents s ↔ ∃ t, s.bi.silence = some t ∧ s.bi.node ≠ 0 ∧ s.bi.tx = none ∧ wantsBus s = true
            ∧ ownSlotStart s t s.now = s.now)
        ∧ (.frameSent ∈ ownEvents s ↔ ∃ t, s.bi.tx = some t ∧ t.began + 4 * (t.bytes.length + 2) ≤ s.now)
        ∧ (∀ e ∈ ownEvents s, (∀ kind f, e ≠ frameCommand kind f) ∧ (∀ d b, e ≠ .frameDiscarded d b) ∧ (∀ k l, e ≠ .rawInputChange k l)
            ∧ (∀ f, e ≠ .exitPulse f ∧ e ≠ .entryPulse f) ∧ (∀ strap raw, e ≠ .reset strap raw) ∧ e ≠ .readbackMismatch
            ∧ e ≠ .carrierSeen ∧ e ≠ .stagingAgeExpiry ∧ (∀ x, e ≠ .transactionAbort x) ∧ (∀ c x, e ≠ .unknownCommand c x)
            ∧ ∀ x, e ∉ [.readEvents x, .peekEvents x, .setEnables x, .readState x, .configure x, .start x, .restart x, .readLastCoil x,
                .announce x, .nameExit x, .sample x, .freeze x, .amendOpen x, .amendRename x, .amendCommit x, .amendCancel x,
                .amendClear x]))

/-- Every command in every state answers a next state; the queue stands and the clock does not fall (log entries 1, 2 and 5). -/
def Obligations.EveryCommandAnswersANextState : Prop :=
  ∀ (c : Instr) (s : State), ∃ t, exec c s = .next t ∧ t.pending = s.pending ∧ s.now ≤ t.now

/-- No command but RESET changes the node address (R179).
No command but READ_EVENTS and RESET clears an attention flag (R206).
No command but RESET changes the configuration lock once set, the configuration while it is set, or the enables but for
SET_ENABLES (R203, R207). -/
def Obligations.WhatStandsUntilResetOrItsCommand : Prop :=
  (∀ (c : Instr) (s t : State), (∀ strap raw, c ≠ .reset strap raw) → exec c s = .next t → t.bi.node = s.bi.node)
    ∧ (∀ (c : Instr) (s t : State), (∀ strap raw, c ≠ .reset strap raw) → (∀ fields, c ≠ .readEvents fields) → exec c s = .next t →
        ∀ a, flagSet a s = true → flagSet a t = true)
    ∧ (∀ (c : Instr) (s t : State), ModesAgree s → (∀ strap raw, c ≠ .reset strap raw) → exec c s = .next t →
        (s.pp.lock = true → t.pp.lock = true ∧ t.pp.config = s.pp.config ∧ t.tiu.pairs = s.tiu.pairs ∧ t.cx.channels = s.cx.channels)
          ∧ ((∀ fields, c ≠ .setEnables fields) → t.pp.enables = s.pp.enables))

/-! ### What every step keeps -/

/-- Station state, scan, lock and configuration agree after every step (R200, R203, R204).
The flash stays in its canonical form: page keys strictly rising, one entry a page (log entry 11). -/
def Obligations.StepKeepsTheModesAndTheFlash : Prop :=
  (∀ s t : State, ModesAgree s → step s = .next t → ModesAgree t)
    ∧ (∀ s t : State, FlashCanonical s → step s = .next t → FlashCanonical t)

/-- Every step keeps these bounds: the control queue, the write queue, the keep list and its images, the propagation tasks, the pending
freezes, the entry queue, the welds in transit, the pending exit boundaries, the closing list, the relay buffers and the staging buffer
(R19, R22, R24, R37, R54, R66, R92, R94, R100, R172, R191). -/
def Obligations.StepKeepsTheBounds : Prop := ∀ s t : State, Bounded s → step s = .next t → Bounded t

/-- Count and sum of every cell entry stay within least and greatest (R51). -/
def Obligations.StepKeepsTheCellsSound : Prop := ∀ s t : State, CellsSound s → step s = .next t → CellsSound t

/-- Outside SCAN, ARCHIVE-LOW and ARCHIVE-FULL are set while their conditions hold, after every step (R84). -/
def Obligations.StepKeepsTheConditionsFlagged : Prop :=
  ∀ s t : State, ModesAgree s → ConditionsFlagged s → step s = .next t → ConditionsFlagged t

/-- The machine right after reset meets every one of these. That its sequence counters stand at 1 and its flash is erased are the model's
choices: log entries 7 and 6. -/
def Obligations.ResetStateMeetsTheInvariants : Prop :=
  ModesAgree State.reset ∧ FlashCanonical State.reset ∧ Bounded State.reset ∧ CellsSound State.reset ∧ CountersInRange State.reset
    ∧ ConditionsFlagged State.reset

/-- The sequence counters stay in 1 to 2^32 − 1 (R17).
In RUN no command but RESET lowers a sequence counter or the run coordinate, past the total's 48 bits by the model's choice: log entry 8
(R11, R17, R34). -/
def Obligations.CountersKeepTheirRangeAndNeverFall : Prop :=
  (∀ s t : State, CountersInRange s → step s = .next t → CountersInRange t)
    ∧ (∀ (c : Instr) (s t : State), ModesAgree s → CountersInRange s → s.pp.station = .run → (∀ strap raw, c ≠ .reset strap raw) →
        exec c s = .next t →
        s.ca.inSeq ≤ t.ca.inSeq ∧ s.ca.outSeq ≤ t.ca.outSeq ∧ runCoord s ≤ runCoord t)

/-! ### Arithmetic of the rules -/

/-- The frame CRC and the burst CRC are the remainder of one bit rule, most significant bit first, from FFFFH with 1021H and from
3A5CH with 8005H; the burst CRC runs on over the boundaries between records (R181, R164). -/
def Obligations.RemaindersFollowTheBitRule : Prop :=
  (∀ g r b, crcBit g r b = if r.getLsbD 15 ≠ b then (r <<< 1) ^^^ g else r <<< 1)
    ∧ frameCrc [] = 0xFFFF
    ∧ (∀ bs b, frameCrc (bs ++ [b]) =
        [7, 6, 5, 4, 3, 2, 1, 0].foldl (fun r k => crcBit 0x1021 r (b.getLsbD k)) (frameCrc bs))
    ∧ burstCrc burstSeed [] = 0x3A5C
    ∧ (∀ rs r b, burstCrc burstSeed (rs ++ [r ++ [b]]) =
        [7, 6, 5, 4, 3, 2, 1, 0].foldl (fun q k => crcBit 0x8005 q (b.getLsbD k)) (burstCrc burstSeed (rs ++ [r])))
    ∧ (∀ rs, burstCrc burstSeed (rs ++ [[]]) = burstCrc burstSeed rs)

/-- The origin grid's bins cover the stretch to within half a centimetre, each at least 1 cm wide (R115, R116).
The bin of a position is the floor of (x − o) / s clamped into the grid's bins, and a position between a bin's bounds, closed and
open as the sign of the step has it, has that bin (R117).
Rounding is to the nearest integer, halves away from zero, and a value is held in the signed 48-bit range (R113, R114).
The hop inside a station and the hop across stations map origin, step, bins and clip by their formulas, for every grid (R121, R122, R123,
R125). -/
def Obligations.GridsAndBinsFollowTheirFormulas : Prop :=
  (∀ a b n len b' n' clamped, normalise a b n len = some (b', n', clamped) →
        b' = min b len ∧ n' = min n (b' - a) ∧ (clamped = true ↔ len < b) ∧ a < b' ∧ 1 ≤ n' ∧ n' ≤ 256
          ∧ ∃ step : Nat, step = (256 * (b' - a) + n' / 2) / n'
            ∧ originGrid a b' n' = ⟨256 * a, step, 0, n', 256 * a, 256 * b'⟩
            ∧ 256 ≤ step ∧ 256 * (b' - a) ≤ step * n' + n' / 2 ∧ step * n' ≤ 256 * (b' - a) + n' / 2
            ∧ ∀ x : Int, 256 * a + step * n' ≤ x → (originGrid a b' n').binOf x = n' - 1)
    ∧ (∀ (g : Grid) (x : Int) (j : Nat), 1 ≤ g.n →
        (g.f ≤ g.binOf x ∧ g.binOf x < g.f + g.n)
          ∧ (Int.fdiv (x - g.o) g.s < g.f → g.binOf x = g.f)
          ∧ ((g.f : Int) + g.n ≤ Int.fdiv (x - g.o) g.s → g.binOf x = g.f + g.n - 1)
          ∧ (g.f ≤ j → j < g.f + g.n → 0 < g.s → g.o + g.s * j ≤ x → x < g.o + g.s * (j + 1) → g.binOf x = j)
          ∧ (g.f ≤ j → j < g.f + g.n → g.s < 0 → g.o + g.s * (j + 1) < x → x ≤ g.o + g.s * j → g.binOf x = j))
    ∧ (∀ (p : Int) (q : Nat), 0 < q →
        2 * (q * roundDiv p q - p).natAbs ≤ q ∧ (2 * (q * roundDiv p q - p).natAbs = q → p.natAbs < (q * roundDiv p q).natAbs)
          ∧ (roundDiv p q ≠ 0 → hopStep p q = hold48 (roundDiv p q))
          ∧ (roundDiv p q = 0 → (0 < p → hopStep p q = 1) ∧ (p < 0 → hopStep p q = -1)))
    ∧ (∀ v : Int, (v < -(2 ^ 47) → hold48 v = -(2 ^ 47)) ∧ (2 ^ 47 ≤ v → hold48 v = 2 ^ 47 - 1)
        ∧ (-(2 ^ 47) ≤ v → v < 2 ^ 47 → hold48 v = v))
    ∧ (∀ (h : HopData) (g : Grid) (d x0 x1 : Int) (w j0 j1 : Nat), h.w0 < h.w1 → d = (h.c0 : Int) - h.w0 → w = h.w1 - h.w0 →
        x0 = max g.u0 (256 * h.t0) → x1 = min g.u1 (256 * h.t1) → j0 = g.binOf x0 → j1 = g.binOf (x1 - 1) →
        h.hop g = ⟨hold48 (roundDiv ((g.o + 256 * d) * h.lin) w), hopStep (g.s * h.lin) w, min j0 j1, max j0 j1 - min j0 j1 + 1,
          hold48 (roundDiv ((x0 + 256 * d) * h.lin) w), hold48 (roundDiv ((x1 + 256 * d) * h.lin) w)⟩)
    ∧ (∀ (r : OutputRecord) (index : Nat) (p : ParentSegment) (i : InEntry),
        segmentEnd r index p (some i) = if index = 7 ∧ r.flags.overflow = true then min (p.t1 : Int) ((i.w1 : Int) - r.c0) else p.t1)
    ∧ (∀ (g : Grid) (lin lp : Nat), 0 < lin →
        ownerGrid g lin lp = ⟨hold48 (256 * lp - roundDiv (g.o * lp) lin), hopStep (-(g.s * lp)) lin, g.f, g.n,
          hold48 (256 * lp - roundDiv (g.u1 * lp) lin), hold48 (256 * lp - roundDiv (g.u0 * lp) lin)⟩
          ∧ roundDiv (-(g.s * lp)) lin = -roundDiv (g.s * lp) lin)

/-- A coil owns the cells from cellFrom of its start up to cellFrom of its end: the cells whose run midpoint lies in it (R59).
The centre of an owned cell is the middle of the part of its extent that the coil holds, 128 × (e0 + e1) fine units (R60).
The cells of the coil's own pitch whose centre the clip includes are added to the bin of their centre, and no others (R119, R129,
R144; a cell of another channel count: log entry 40). -/
def Obligations.CellsBelongToCoilsAndBins : Prop :=
  (∀ c0 c1 p c : Nat, 0 < p →
        (ownsCell c0 c1 p c = true ↔ 2 * c0 ≤ (2 * c + 1) * p ∧ (2 * c + 1) * p < 2 * c1)
          ∧ (ownsCell c0 c1 p c = true ↔ cellFrom c0 p ≤ c ∧ c < cellFrom c1 p))
    ∧ (∀ (c0 c1 p c : Nat) (e0 e1 : Int), 0 < p → ownsCell c0 c1 p c = true → e0 = max ((c : Int) * p) c0 - c0 →
        e1 = min (((c : Int) + 1) * p) c1 - c0 →
        cellCentre c0 c1 p c = 128 * (e0 + e1) ∧ 0 ≤ e0 ∧ e0 < e1 ∧ e1 ≤ (c1 : Int) - c0
          ∧ (c0 ≤ c * p → (c + 1) * p ≤ c1 → cellCentre c0 c1 p c = 128 * ((2 * (c : Int) + 1) * p - 2 * c0)))
    ∧ (∀ (g : Grid) (r : OutputRecord) (accums : List (List Accum)) (cell : Nat) (entries : List CellEntry) (x : Int), g.n = accums.length →
        1 ≤ g.n → x = cellCentre r.c0 r.c1 r.pitch cell →
        (ownsCell r.c0 r.c1 r.pitch cell = true → g.u0 ≤ x → x < g.u1 →
          ∀ (j : Nat) row, accums[j]? = some row →
            (addCell g r accums cell entries)[j]? = some (if g.f + j = g.binOf x then addEntries row entries else row))
          ∧ (ownsCell r.c0 r.c1 r.pitch cell = false ∨ x < g.u0 ∨ g.u1 ≤ x → addCell g r accums cell entries = accums))

/-- An included cell raises cells, widens min and max, and adds count and sum together or neither, SATURATED then set; min × count ≤ sum
≤ max × count is kept (R129).
After the first cell refused for want of room every later cell is refused as well (R130); that it is so for a cell that would fit again
is log entry 50. -/
def Obligations.AccumulatorsTakeACellWhole : Prop :=
  ∀ (a : Accum) (e : CellEntry),
    (a.addEntry e).cells = a.cells + 1
      ∧ (e.count = 0 → (a.addEntry e).least = a.least ∧ (a.addEntry e).greatest = a.greatest)
      ∧ (∀ v w, 0 < e.count → e.least = some v → e.greatest = some w →
          (a.addEntry e).least = some (a.least.elim v (fun x => min x v))
            ∧ (a.addEntry e).greatest = some (a.greatest.elim w (fun x => max x w)))
      ∧ (a.refused = true ∨ 4294967295 < a.count + e.count →
          (a.addEntry e).count = a.count ∧ (a.addEntry e).sum = a.sum ∧ (a.addEntry e).saturated = true
            ∧ (a.addEntry e).refused = true)
      ∧ (a.refused = false → a.count + e.count ≤ 4294967295 →
          (a.addEntry e).count = a.count + e.count ∧ (a.addEntry e).sum = a.sum + e.sum
            ∧ (a.addEntry e).saturated = (a.saturated || e.sat) ∧ (a.addEntry e).refused = false)
      ∧ (a.saturated = true → (a.addEntry e).saturated = true)
      ∧ (e.Sound → (a.count = 0 → a.sum = 0) →
          (0 < a.count → ∃ lo hi, a.least = some lo ∧ a.greatest = some hi ∧ lo * a.count ≤ a.sum ∧ a.sum ≤ hi * a.count) →
          0 < (a.addEntry e).count →
          ∃ lo hi, (a.addEntry e).least = some lo ∧ (a.addEntry e).greatest = some hi
            ∧ lo * (a.addEntry e).count ≤ (a.addEntry e).sum ∧ (a.addEntry e).sum ≤ hi * (a.addEntry e).count)

/-! ### The line (RAW_INPUT_CHANGE, FILTERED_CHANGE, EXIT_PULSE, ENTRY_PULSE) -/

/-- EXIT_PULSE, ENTRY_PULSE: outside RUN and in reverse a pulse is ignored; in RUN a forward pulse adds 1 (R9). -/
def Obligations.PulsesCountForwardInRunAlone : Prop :=
  ∀ s : State,
    (∀ forward, s.pp.station ≠ .run → exec (.exitPulse forward) s = .next s ∧ exec (.entryPulse forward) s = .next s)
      ∧ exec (.exitPulse false) s = .next s ∧ exec (.entryPulse false) s = .next s
      ∧ (s.pp.station = .run → s.tiu.exitTotal ≠ BitVec.allOnes 48 →
          ∃ t, exec (.exitPulse true) s = .next t ∧ t.tiu = { s.tiu with exitTotal := s.tiu.exitTotal + 1 })
      ∧ (s.pp.station = .run → s.tiu.entryCount < 2 ^ 32 - 1 →
          exec (.entryPulse true) s = .next { s with tiu.entryCount := s.tiu.entryCount + 1 })

/-- EXIT_PULSE: a counted pulse that leaves the run coordinate unchanged changes the total alone; one that raises it, with no boundary
due, no length limit and no coil closing, retires the front cell once (front + 1) × P ≤ r − A: into staging; with 512 staged it is dropped
and its open coils get INCOMPLETE; in RECORD-ONLY and FULL it is dropped; otherwise the cells stand (R11, R12, R53, R54, R55).
EXIT_PULSE: past the 48 bits of the exit pulse total the total is a free value (log entry 8), the run coordinate holds at 2^40 − 1, and all
else goes on (R11).
EXIT_PULSE: a boundary due passes and leaves the list; the case of one, with no exit coil before it (R24, R25, R26).
EXIT_PULSE at 4,000,000 cm: the coil closes at r with FORCED, COIL-CLOSED is raised, and a new coil opens; the case of one lane and a
last cell not yet written (R32).
EXIT_PULSE that drops the retiring cell while none is staged: the mark rises, and a closing coil whose cells lie below it is handed over to
the write queue; the case of RECORD-ONLY and one coil (R35, R36, R57). -/
def Obligations.AdvanceRetiresTheFrontCell : Prop :=
  (∀ (s u : State) (front : Nat), s.pp.station = .run → s.tiu.exitTotal ≠ BitVec.allOnes 48 →
        u = { s with tiu.exitTotal := s.tiu.exitTotal + 1 } →
        (runCoord u ≤ runCoord s → exec (.exitPulse true) s = .next u)
          ∧ (runCoord s < runCoord u → (∀ b ∈ s.ca.boundaries, runCoord u < b.w) →
              (∀ c0, openStart s = some c0 → runCoord u < c0 + 4000000) → s.ca.closing = [] → s.cx.front = some front →
              (runCoord u < (front + 1) * s.cx.pitch + s.cx.allowance → exec (.exitPulse true) s = .next (settleArchive u))
                ∧ ((front + 1) * s.cx.pitch + s.cx.allowance ≤ runCoord u → s.ar.stage = .normal → s.cx.staging.length < 512 →
                    exec (.exitPulse true) s = .next (settleArchive { u with
                      cx.front := some (front + 1)
                      cx.window := s.cx.window.filter (fun c => c.1 != front)
                      cx.staging := s.cx.staging ++ [⟨front, s.cx.pitch, windowCell s front, s.now, true⟩] }))
                ∧ ((front + 1) * s.cx.pitch + s.cx.allowance ≤ runCoord u → s.ar.stage = .normal → 512 ≤ s.cx.staging.length →
                    exec (.exitPulse true) s = .next (settleArchive { u with
                      cx.front := some (front + 1)
                      cx.window := s.cx.window.filter (fun c => c.1 != front)
                      ca.openCoils := s.ca.openCoils.map (fun o => { o with
                        flags.incomplete := o.flags.incomplete || decide (2 * o.c0 ≤ (2 * front + 1) * s.cx.pitch) }) }))
                ∧ ((front + 1) * s.cx.pitch + s.cx.allowance ≤ runCoord u → s.ar.stage ≠ .normal →
                    exec (.exitPulse true) s = .next (settleArchive { u with
                      cx.front := some (front + 1)
                      cx.window := s.cx.window.filter (fun c => c.1 != front) }))))
    ∧ (∀ s : State, s.pp.station = .run → s.tiu.exitTotal = BitVec.allOnes 48 →
        ∃ t, exec (.exitPulse true) s = .next t
          ∧ t.tiu = { s.tiu with exitTotal := Config.exitTotalBeyond s.free, exitOver := true } ∧ t.free = s.free + 1
          ∧ runCoord t = 2 ^ 40 - 1)
    ∧ (∀ (s u : State) (front : Nat), s.pp.station = .run → s.tiu.exitTotal ≠ BitVec.allOnes 48 →
        u = { s with tiu.exitTotal := s.tiu.exitTotal + 1 } → runCoord s < runCoord u → s.cx.front = some front →
        (∀ (b : Boundary) (later : List Boundary) (f : InputCoil), s.ca.boundaries = b :: later → b.w ≤ runCoord u →
            (∀ x ∈ later, runCoord u < x.w) → s.ca.exitCoil = none → tableEntry s b.starting = some f →
            (∀ c0, openStart s = some c0 → runCoord u < c0 + 4000000) →
            runCoord u < (front + 1) * s.cx.pitch + s.cx.allowance →
            ∃ t f', exec (.exitPulse true) s = .next t ∧ t.ca.boundaries = later ∧ t.ca.exitCoil = some b.starting
              ∧ tableEntry t b.starting = some f' ∧ f'.w0 = some b.w ∧ f'.estimated = (f.estimated || b.estimated)
              ∧ t.ca.openCoils = s.ca.openCoils.map (OpenCoil.pass b.w (if f.id = [] then none else some b.starting))
              ∧ t.cx = s.cx)
          ∧ (∀ (o : OpenCoil) (last : OpenSegment) (earlier : List OpenSegment), (∀ b ∈ s.ca.boundaries, runCoord u < b.w) →
            s.ca.openCoils = [o] → o.lane = 1 → s.ca.laneCount = 1 → o.c0 + 4000000 ≤ runCoord u →
            o.segments = earlier ++ [last] → last.t0 < runCoord u - o.c0 → s.ca.closing = [] →
            writtenMark s < cellFrom (runCoord u) s.cx.pitch → cellFrom o.c0 s.cx.pitch < cellFrom (runCoord u) s.cx.pitch →
            runCoord u < (front + 1) * s.cx.pitch + s.cx.allowance →
            ∃ t r, exec (.exitPulse true) s = .next t ∧ t.ca.closing = [r] ∧ t.ca.lastCoil = some r ∧ r.seq = o.seq ∧ r.c0 = o.c0
              ∧ r.c1 = runCoord u ∧ r.flags.forced = true ∧ flagSet .coilClosed t = true
              ∧ t.ca.openCoils.map (fun c => (c.lane, c.seq, c.c0, c.segments))
                  = [(1, s.ca.outSeq, runCoord u, [⟨exitRef s, 0⟩])])
          ∧ (∀ r : OutputRecord, (∀ b ∈ s.ca.boundaries, runCoord u < b.w) →
            (∀ c0, openStart s = some c0 → runCoord u < c0 + 4000000) → s.ca.closing = [r] → s.ar.stage = .recordOnly →
            s.cx.staging = [] → s.ar.pageWrite = none → directoryFull s = false → s.ar.writeQueue.length < 64 →
            (front + 1) * s.cx.pitch + s.cx.allowance ≤ runCoord u → cellFrom r.c1 r.pitch ≤ front + 1 →
            ∃ t, exec (.exitPulse true) s = .next t ∧ t.ca.closing = [] ∧ t.ar.writeQueue = s.ar.writeQueue ++ [.output r]
              ∧ t.cx.front = some (front + 1) ∧ t.cx.staging = []))

/-- RAW_INPUT_CHANGE: a level the raw input has is no change (log entry 4); a departure from the filtered level begins a pending change
with the filter time in force; a return abandons it; with a filter time of 0 the change is taken at once (R1, R2; log entry 10).
An input's bit takes the level, and no other input's does. -/
def Obligations.RawChangeBeginsOrAbandonsAPendingChange : Prop :=
  (∀ (k : Fin 12) (level : Bool) (s u : State), u = { s with tiu.raw := setInput k level s.tiu.raw } →
        (level = s.tiu.raw.getLsbD k → exec (.rawInputChange k level) s = .next s)
          ∧ (level ≠ s.tiu.raw.getLsbD k →
              (level = s.tiu.filtered.getLsbD k →
                exec (.rawInputChange k level) s = .next { u with tiu.changes := s.tiu.changes.set k none })
              ∧ (level ≠ s.tiu.filtered.getLsbD k → s.tiu.filterMs ≠ 0 →
                exec (.rawInputChange k level) s
                  = .next { u with tiu.changes := s.tiu.changes.set k (some ⟨s.now, s.tiu.filterMs⟩) })
              ∧ (level ≠ s.tiu.filtered.getLsbD k → s.tiu.filterMs = 0 →
                exec (.rawInputChange k level) s
                  = exec (.filteredChange k) { u with tiu.changes := s.tiu.changes.set k (some ⟨s.now, 0⟩) })))
    ∧ (∀ (k j : Fin 12) (level : Bool) (v : BitVec 12),
        (setInput k level v).getLsbD j = if j = k then level else v.getLsbD j)

/-- FILTERED_CHANGE: the filtered level takes the raw level at the moment the filter time has run; in RUN every kind is evaluated, the
halt state recomputed, the previous matches replaced, and the entry pulse count becomes 0 when ENTRY-WELD fires; outside RUN nothing is
evaluated (R1, R3, R4, R6, R14).
FILTERED_CHANGE that makes several kinds fire: EXIT-WELD acts first, then EXIT-CUT, STRIP-BREAK and ENTRY-WELD, each on what the one before
it left (R5).
A kind matches when its mask is not zero and every input of the mask has the pattern's level (R3). -/
def Obligations.FilteredChangeEvaluatesTheKinds : Prop :=
  (∀ (k : Fin 12) (s : State) (c : PendingChange) (levels : BitVec 12), s.tiu.changes.get k = some c →
        levels = setInput k (s.tiu.raw.getLsbD k) s.tiu.filtered →
        (s.pp.station ≠ .run →
          exec (.filteredChange k) s = .next { s with
            now := max s.now (c.began + c.filterMs * 1000)
            tiu.filtered := levels
            tiu.changes := s.tiu.changes.set k none })
          ∧ (s.pp.station = .run →
            ∃ t, exec (.filteredChange k) s = .next t
              ∧ t.now = max s.now (c.began + c.filterMs * 1000)
              ∧ t.tiu = { s.tiu with
                  filtered := levels
                  changes := s.tiu.changes.set k none
                  prev := s.tiu.pairs.edges levels
                  halted := s.tiu.pairs.lineHalt.isMatch levels
                  entryCount := if s.tiu.pairs.entryWeld.isMatch levels && !s.tiu.prev.entryWeld then 0 else s.tiu.entryCount }))
    ∧ (∀ (k : Fin 12) (s s1 s2 s3 s4 s5 : State) (c : PendingChange) (levels : BitVec 12) (kinds : PrevMatch), Fires k s kinds →
        s.tiu.changes.get k = some c → levels = setInput k (s.tiu.raw.getLsbD k) s.tiu.filtered →
        s1 = { s with
          now := max s.now (c.began + c.filterMs * 1000)
          tiu.filtered := levels
          tiu.changes := s.tiu.changes.set k none
          tiu.prev := s.tiu.pairs.edges levels
          tiu.halted := s.tiu.pairs.lineHalt.isMatch levels } →
        s2 = (if kinds.exitWeld then exitWeld s1 else s1) → s3 = (if kinds.exitCut then exitCut s2 else s2) →
        s4 = (if kinds.stripBreak then stripBreak s3 else s3) → s5 = (if kinds.entryWeld then fireEntryWeld s4 else s4) →
        exec (.filteredChange k) s = .next (settleArchive s5))
    ∧ (∀ (p : MatchPair) (levels : BitVec 12),
        p.isMatch levels = true ↔ p.mask ≠ 0 ∧ ∀ k : Fin 12, p.mask.getLsbD k = true → levels.getLsbD k = p.pattern.getLsbD k)

/-- FILTERED_CHANGE firing EXIT-WELD (the exit coil is the first of its sequence in the table: log entry 30): with no weld in transit
TRACKING-FAULT is raised and the coil assembler stands; otherwise the
oldest weld leaves, and its boundary enters after every one with an equal or smaller w, at the run coordinate plus D_w (R23, R24); the
case where no boundary is due and fewer than 4 are held.
FILTERED_CHANGE firing EXIT-WELD with D_w of 0: the boundary passes at once; the exit coil ends at w, its record goes to the write
queue and INPUT-CLOSED is raised when its ID is present, and the weld's starting coil becomes the exit coil with head position w
(R23, R25); the case where no other boundary is held and the write queue takes the record.
FILTERED_CHANGE firing EXIT-WELD with 4 boundaries held: the oldest passes at the present run coordinate with ESTIMATED, TRACKING-FAULT is
raised, and the new boundary enters (R24); the case with no exit coil before it and no boundary due.
A boundary that passes at w acts on an open coil: at the start of its last segment it replaces the reference; otherwise it adds a segment
while fewer than 8 are held; otherwise OVERFLOW is set and the further count rises to 255 at most (R26). -/
def Obligations.ExitWeldPlacesABoundaryThatPasses : Prop :=
  (∀ (k : Fin 12) (s : State), Fires k s ⟨false, true, false, false⟩ →
        (s.ca.welds = [] →
          ∃ t, exec (.filteredChange k) s = .next t ∧ t.ca = s.ca ∧ flagSet .trackingFault t = true)
          ∧ (∀ weld rest, s.ca.welds = weld :: rest → s.ca.boundaries.length < 4 → 0 < s.ca.dw →
              (∀ b ∈ s.ca.boundaries, runCoord s < b.w) →
              ∃ t before after, exec (.filteredChange k) s = .next t ∧ s.ca.boundaries = before ++ after
                ∧ t.ca = { s.ca with
                    welds := rest
                    boundaries := before ++ ⟨runCoord s + s.ca.dw, weld.starting, false⟩ :: after }
                ∧ (∀ b ∈ before, b.w ≤ runCoord s + s.ca.dw) ∧ (∀ b, after.head? = some b → runCoord s + s.ca.dw < b.w)
                ∧ flagSet .trackingFault t = flagSet .trackingFault s))
    ∧ (∀ (k : Fin 12) (s : State) (weld : Weld) (rest : List Weld) (seq lin w0 : Nat) (e f : InputCoil) (more : List InputCoil),
        Fires k s ⟨false, true, false, false⟩ → s.ca.welds = weld :: rest → s.ca.boundaries = [] → s.ca.dw = 0 →
        s.ca.exitCoil = some seq → s.ca.table = e :: f :: more → e.seq = seq → f.seq = weld.starting → e.seq ≠ f.seq →
        e.lin = some lin → e.w0 = some w0 →
        ∃ t, exec (.filteredChange k) s = .next t
          ∧ t.ca.exitCoil = some weld.starting ∧ t.ca.boundaries = [] ∧ t.ca.welds = rest
          ∧ t.ca.table = { f with w0 := some (runCoord s) } :: more
          ∧ t.ca.openCoils
              = s.ca.openCoils.map (OpenCoil.pass (runCoord s) (if f.id = [] then none else some weld.starting))
          ∧ (e.id ≠ [] → Quiet s →
              flagSet .inputClosed t = true
                ∧ t.ar.writeQueue = s.ar.writeQueue ++ [.input ⟨seq, e.id, lin, w0, runCoord s, e.estimated, e.long, false, 0⟩])
          ∧ (e.id = [] → flagSet .inputClosed t = flagSet .inputClosed s))
    ∧ (∀ (k : Fin 12) (s : State) (weld : Weld) (rest : List Weld) (o : Boundary) (others : List Boundary) (f : InputCoil),
        Fires k s ⟨false, true, false, false⟩ → s.ca.welds = weld :: rest → s.ca.boundaries = o :: others → others.length = 3 →
        0 < s.ca.dw → (∀ b ∈ others, runCoord s < b.w) → s.ca.exitCoil = none → tableEntry s o.starting = some f →
        ∃ t before after f', exec (.filteredChange k) s = .next t ∧ others = before ++ after
          ∧ t.ca.boundaries = before ++ ⟨runCoord s + s.ca.dw, weld.starting, false⟩ :: after
          ∧ (∀ b ∈ before, b.w ≤ runCoord s + s.ca.dw) ∧ (∀ b, after.head? = some b → runCoord s + s.ca.dw < b.w)
          ∧ t.ca.welds = rest ∧ t.ca.exitCoil = some o.starting ∧ flagSet .trackingFault t = true
          ∧ tableEntry t o.starting = some f' ∧ f'.w0 = some (runCoord s) ∧ f'.estimated = true
          ∧ t.ca.openCoils
              = s.ca.openCoils.map (OpenCoil.pass (runCoord s) (if f.id = [] then none else some o.starting)))
    ∧ (∀ (w : Nat) (ref : Option Nat) (c : OpenCoil) (earlier : List OpenSegment) (last : OpenSegment), c.segments = earlier ++ [last] →
        (w - c.c0 = last.t0 → c.pass w ref = { c with segments := earlier ++ [⟨ref, last.t0⟩] })
          ∧ (w - c.c0 ≠ last.t0 → c.segments.length < 8 → c.pass w ref = { c with segments := c.segments ++ [⟨ref, w - c.c0⟩] })
          ∧ (w - c.c0 ≠ last.t0 → 8 ≤ c.segments.length →
              c.pass w ref = { c with flags.overflow := true, further := min 255 (c.further + 1) }))

/-- FILTERED_CHANGE firing ENTRY-WELD: the entry coil takes the entry length, 1 and ESTIMATED for a length of 0, and LONG by the mark;
the next coil takes the next input sequence and the oldest announced ID; the weld goes into transit; TRACKING-FAULT is raised for a
length of 0 and for an empty entry queue alone (R20, R21, R22); the case of fewer than 8 welds in transit. The model's
choices: no TRACKING-FAULT where the unknown coil ends (log entry 56), and the last of the table among coils of one sequence (log entry 30).
FILTERED_CHANGE firing ENTRY-WELD with 8 welds in transit: the oldest leaves, TRACKING-FAULT is raised, and 8 welds remain
in transit, the new one last; its boundary is ESTIMATED, at the greatest position among those pending and behind them all, or with none
pending at the run coordinate, where it passes at once (R22, R23); the cases of fewer than 4 pending, none of them due, and of none pending
and no exit coil.
The entry pulse count holds at 2^32 − 1; the entry length is the floor of count × 100 / weight, 4,000,000 cm at most, its mark set
when the quotient is above (R13). -/
def Obligations.EntryWeldEndsACoilAndBeginsTheNext : Prop :=
  (∀ (k : Fin 12) (s : State) (len : Nat) (mark : Bool) (fresh : InputCoil), Fires k s ⟨true, false, false, false⟩ →
        s.ca.welds.length < 8 → entryLength s.tiu = (len, mark) → fresh = ⟨s.ca.inSeq, s.ca.entryQueue.headD [], none, false, none, false⟩ →
        (s.ca.entryCoil = none →
          ∃ t, exec (.filteredChange k) s = .next t
            ∧ t.ca = { s.ca with
                inSeq := min (2 ^ 32 - 1) (s.ca.inSeq + 1)
                entryQueue := s.ca.entryQueue.drop 1
                table := s.ca.table ++ [fresh]
                entryCoil := some s.ca.inSeq
                welds := s.ca.welds ++ [⟨none, s.ca.inSeq⟩] }
            ∧ flagSet .trackingFault t = (flagSet .trackingFault s || s.ca.entryQueue.isEmpty))
          ∧ (∀ others e, s.ca.entryCoil = some e.seq → s.ca.table = others ++ [e] →
              ∃ t, exec (.filteredChange k) s = .next t
                ∧ t.ca = { s.ca with
                    inSeq := min (2 ^ 32 - 1) (s.ca.inSeq + 1)
                    entryQueue := s.ca.entryQueue.drop 1
                    table := others ++ [{ e with
                      lin := some (max 1 len), long := mark, estimated := e.estimated || decide (len = 0) }, fresh]
                    entryCoil := some s.ca.inSeq
                    welds := s.ca.welds ++ [⟨some e.seq, s.ca.inSeq⟩] }
                ∧ flagSet .trackingFault t = (flagSet .trackingFault s || s.ca.entryQueue.isEmpty || decide (len = 0))))
    ∧ (∀ (k : Fin 12) (s : State) (weld : Weld) (rest : List Weld), Fires k s ⟨true, false, false, false⟩ →
        s.ca.welds = weld :: rest → rest.length = 7 →
        ∃ t, exec (.filteredChange k) s = .next t ∧ t.ca.welds = rest ++ [⟨s.ca.entryCoil, s.ca.inSeq⟩]
          ∧ flagSet .trackingFault t = true
          ∧ (∀ w, s.ca.boundaries.length < 4 → (∀ b ∈ s.ca.boundaries, runCoord s < b.w ∧ b.w ≤ w) → (∃ b ∈ s.ca.boundaries, b.w = w) →
              t.ca.boundaries = s.ca.boundaries ++ [⟨w, weld.starting, true⟩])
          ∧ (∀ f, s.ca.boundaries = [] → s.ca.exitCoil = none → tableEntry s weld.starting = some f →
              t.ca.boundaries = [] ∧ t.ca.exitCoil = some weld.starting
                ∧ (∃ f', tableEntry t weld.starting = some f' ∧ f'.w0 = some (runCoord s) ∧ f'.estimated = true)
                ∧ t.ca.openCoils
                    = s.ca.openCoils.map (OpenCoil.pass (runCoord s) (if f.id = [] then none else some weld.starting))))
    ∧ ((∀ s : State, s.pp.station = .run → s.tiu.entryCount = 2 ^ 32 - 1 → exec (.entryPulse true) s = .next s)
        ∧ (∀ t : Tiu, ∀ q, 0 < t.entryWeight → q * t.entryWeight ≤ t.entryCount * 100 → t.entryCount * 100 < (q + 1) * t.entryWeight →
            (q ≤ 4000000 → entryLength t = (q, false)) ∧ (4000000 < q → entryLength t = (4000000, true))))

/-- FILTERED_CHANGE firing EXIT-CUT: at the open coils' start it closes nothing and raises nothing (R34); above it, as for STRIP-BREAK above
it, every open coil closes, COIL-CLOSED is raised, and each lane opens a new coil at the cut with the next output sequence (R27, R29, R33).
FILTERED_CHANGE firing STRIP-BREAK at the open coils' start: every open coil takes BROKEN and nothing else changes in the coil
assembler (R34); above it the entry side stands (R33).
FILTERED_CHANGE firing EXIT-CUT or STRIP-BREAK on one lane: the coil closes over [c0, c), with BROKEN set by a break alone, under its
pending name when that is present and no duplicate, otherwise under a station-made name with STATION-NAMED, the first from its sequence on
that is no duplicate; the pending name is used up, and the coil waits on the closing list while its last cell is not written (R29, R30,
R31, R35).
FILTERED_CHANGE firing EXIT-CUT or STRIP-BREAK on several lanes: the coils close in lane order, each with its lane and over the same
interval, no two under one name; a name that an earlier lane of the cut has taken is a duplicate too (R29, R30, R31); the case of an empty
closing list and cells not yet written. -/
def Obligations.CutsCloseAndOpenEveryLane : Prop :=
  (∀ (k : Fin 12) (s : State) (c0 : Nat) (broken : Bool), Fires k s ⟨false, false, !broken, broken⟩ → openStart s = some c0 →
        (runCoord s ≤ c0 → broken = false → ∃ t, exec (.filteredChange k) s = .next t ∧ t.ca = s.ca
          ∧ flagSet .coilClosed t = flagSet .coilClosed s)
          ∧ (c0 < runCoord s → s.ca.outSeq ≤ 2 ^ 32 - 1 →
              ∃ t, exec (.filteredChange k) s = .next t ∧ flagSet .coilClosed t = true
                ∧ t.ca.openCoils = (List.range s.ca.laneCount).map (fun i =>
                    ⟨i + 1, min (2 ^ 32 - 1) (s.ca.outSeq + i), runCoord s, [⟨exitRef s, 0⟩], 0,
                      { CoilFlags.clear with noTrend := s.ar.stage != .normal }⟩)
                ∧ t.ca.welds = s.ca.welds ∧ t.ca.boundaries = s.ca.boundaries ∧ t.ca.table = s.ca.table
                ∧ t.ca.entryQueue = s.ca.entryQueue ∧ t.ca.inSeq = s.ca.inSeq ∧ t.ca.exitCoil = s.ca.exitCoil))
    ∧ (∀ (k : Fin 12) (s : State) (c0 : Nat), Fires k s ⟨false, false, false, true⟩ → openStart s = some c0 →
        (runCoord s ≤ c0 → ∃ t, exec (.filteredChange k) s = .next t
          ∧ t.ca = { s.ca with openCoils := s.ca.openCoils.map (fun c => { c with flags.broken := true }) }
          ∧ flagSet .coilClosed t = flagSet .coilClosed s)
          ∧ (c0 < runCoord s → ∃ t, exec (.filteredChange k) s = .next t ∧ flagSet .coilClosed t = true
              ∧ t.ca.entryQueue = s.ca.entryQueue ∧ t.ca.table = s.ca.table ∧ t.ca.welds = s.ca.welds
              ∧ t.ca.boundaries = s.ca.boundaries ∧ t.ca.exitCoil = s.ca.exitCoil))
    ∧ (∀ (k : Fin 12) (s : State) (o : OpenCoil) (last : OpenSegment) (earlier : List OpenSegment) (broken : Bool),
        Fires k s ⟨false, false, !broken, broken⟩ → s.ca.openCoils = [o] → o.lane = 1 → s.ca.laneCount = 1 → o.c0 < runCoord s →
        o.segments = earlier ++ [last] → last.t0 < runCoord s - o.c0 → s.ca.closing = [] →
        writtenMark s < cellFrom (runCoord s) s.cx.pitch → cellFrom o.c0 s.cx.pitch < cellFrom (runCoord s) s.cx.pitch →
        ∃ t r, exec (.filteredChange k) s = .next t ∧ t.ca.closing = [r] ∧ t.ca.lastCoil = some r
          ∧ r.seq = o.seq ∧ r.lane = none ∧ r.c0 = o.c0 ∧ r.c1 = runCoord s ∧ r.further = o.further ∧ r.revision = 0
          ∧ r.segments.getLast? = some ⟨last.ref, last.t0, runCoord s - o.c0⟩ ∧ r.segments.length = o.segments.length
          ∧ r.flags = { o.flags with
              broken := o.flags.broken || broken
              noTrend := o.flags.noTrend || s.ar.stage != .normal
              stationNamed := r.flags.stationNamed }
          ∧ (laneName s 1 ≠ [] → isDuplicate s (laneName s 1) = false → r.id = laneName s 1 ∧ r.flags.stationNamed = false)
          ∧ (laneName s 1 = [] ∨ isDuplicate s (laneName s 1) = true →
              r.flags.stationNamed = true ∧ ∃ n, r.id = stationName s.bi.node (o.seq + n)
                ∧ ∀ m, m < n → isDuplicate s (stationName s.bi.node (o.seq + m)) = true)
          ∧ ((directoryNames s ++ heldNames s).length < 9000000 → isDuplicate s r.id = false)
          ∧ laneName t 1 = [])
    ∧ (∀ (k : Fin 12) (s : State) (c0 : Nat) (coils : List OpenCoil) (broken : Bool), Fires k s ⟨false, false, !broken, broken⟩ →
        s.ca.openCoils = coils → coils ≠ [] → coils.length ≤ 8 → (∀ o ∈ coils, o.c0 = c0) →
        coils.map (fun o => o.lane) = (List.range coils.length).map (fun i => i + 1) → c0 < runCoord s → s.ca.closing = [] →
        writtenMark s < cellFrom (runCoord s) s.cx.pitch → cellFrom c0 s.cx.pitch < cellFrom (runCoord s) s.cx.pitch →
        (directoryNames s ++ heldNames s).length < 9000000 →
        ∃ t, exec (.filteredChange k) s = .next t ∧ t.ca.closing.length = coils.length ∧ t.ca.lastCoil = t.ca.closing.getLast?
          ∧ (t.ca.closing.map (fun r => r.id)).Nodup ∧ (∀ r ∈ t.ca.closing, isDuplicate s r.id = false)
          ∧ (∀ o ∈ coils, laneName t o.lane = [])
          ∧ ∀ i o r, coils[i]? = some o → t.ca.closing[i]? = some r →
              r.seq = o.seq ∧ r.lane = (if 1 < s.ca.laneCount then some o.lane else none) ∧ r.c0 = c0 ∧ r.c1 = runCoord s
                ∧ r.further = o.further ∧ r.revision = 0 ∧ r.pitch = s.cx.pitch
                ∧ r.flags = { o.flags with
                    broken := o.flags.broken || broken
                    noTrend := o.flags.noTrend || s.ar.stage != .normal
                    stationNamed := r.flags.stationNamed }
                ∧ (laneName s o.lane ≠ [] → isDuplicate s (laneName s o.lane) = false →
                    (∀ q ∈ t.ca.closing.take i, q.id ≠ laneName s o.lane) → r.id = laneName s o.lane ∧ r.flags.stationNamed = false)
                ∧ (laneName s o.lane = [] ∨ isDuplicate s (laneName s o.lane) = true
                      ∨ (∃ q ∈ t.ca.closing.take i, q.id = laneName s o.lane) →
                    r.flags.stationNamed = true ∧ ∃ n, r.id = stationName s.bi.node (o.seq + n)
                      ∧ ∀ m, m < n → isDuplicate s (stationName s.bi.node (o.seq + m)) = true
                          ∨ ∃ q ∈ t.ca.closing.take i, q.id = stationName s.bi.node (o.seq + m)))

/-- The frame of RAW_INPUT_CHANGE, FILTERED_CHANGE, EXIT_PULSE and ENTRY_PULSE: pulls, bus, flash, keep list and port stand, every page
reads as before, and no flag changes but COIL-CLOSED, TRACKING-FAULT, ARCHIVE-LOW, ARCHIVE-FULL, AMEND-LOCK and INPUT-CLOSED. -/
def Obligations.LineCommandsLeaveTheRest : Prop :=
  ∀ (c : Instr) (s t : State),
    ((∃ k level, c = .rawInputChange k level) ∨ (∃ k, c = .filteredChange k) ∨ (∃ forward, c = .exitPulse forward)
      ∨ (∃ forward, c = .entryPulse forward)) →
    exec c s = .next t →
    t.pe = s.pe ∧ t.bi = s.bi ∧ t.ru.keeps = s.ru.keeps ∧ t.ru.tasks = s.ru.tasks ∧ t.ru.head = s.ru.head
      ∧ t.pp = { s.pp with flags := t.pp.flags } ∧ FlashSame s t
      ∧ OnlyFlags [.coilClosed, .trackingFault, .archiveLow, .archiveFull, .amendLock, .inputClosed] s t

/-! ### The process port (READ_EVENTS to AMEND_CLEAR, UNKNOWN_COMMAND, TRANSACTION_ABORT) -/

/-- READ_EVENTS: answered ACCEPTED with the flags and enables as they stand; every flag is cleared, ARCHIVE-LOW and ARCHIVE-FULL being
set again while their conditions hold; nothing else changes; a flag raised before it is returned and cleared, one raised after it stays
set (R208).
PEEK_EVENTS: answered ACCEPTED with the ten flags and the ten enables in every station state; nothing else changes, and a flag raised
after it is returned by the READ_EVENTS that follows (R209). -/
def Obligations.EventsAreReadAndCleared : Prop :=
  (∀ s : State, ∃ t, exec (.readEvents []) s = .next t
        ∧ t = { withResponse 0x01 [] (0x00 :: (beBytes 2 s.pp.flags.toNat ++ beBytes 2 s.pp.enables.toNat)) s with
            pp.flags := t.pp.flags }
        ∧ (∀ a, flagSet a t = true ↔
            (a = .archiveLow ∧ archiveLowHolds s = true) ∨ (a = .archiveFull ∧ archiveFullHolds s = true))
        ∧ (∀ a, flagSet a (raise a t) = true)
        ∧ (∀ a, ∃ u, exec (.readEvents []) (raise a s) = .next u ∧ u.pp.flags = t.pp.flags
            ∧ u.pp.buffer = some ⟨0x01, [], 0x00 :: (beBytes 2 (s.pp.flags ||| a.word).toNat ++ beBytes 2 s.pp.enables.toNat)⟩))
    ∧ (∀ s : State,
        exec (.peekEvents []) s
            = .next (withResponse 0x02 [] (0x00 :: (beBytes 2 s.pp.flags.toNat ++ beBytes 2 s.pp.enables.toNat)) s)
          ∧ ∀ (a : Attention) (u : State), exec (.peekEvents []) s = .next u →
              attentionLine u = attentionLine s
                ∧ ∃ v x, exec (.readEvents []) (raise a u) = .next v ∧ v.pp.buffer = some x
                  ∧ (natAt x.response 1 2).testBit a.bit = true)

/-- SET_ENABLES: the enables at reset, their replacement in every station state, their standing at RESTART, and the attention line
(R207). -/
def Obligations.EnablesDriveTheAttentionLine : Prop :=
  (∀ a, State.reset.pp.enables.getLsbD (Attention.bit a) = true ↔ a ≠ .lateSample)
    ∧ (∀ (s : State) (hi lo : Byte),
        exec (.setEnables [hi, lo]) s
          = .next (withResponse 0x03 [hi, lo] [0x00] { s with pp.enables := BitVec.ofNat 10 (hi.toNat * 256 + lo.toNat) }))
    ∧ (∀ s t : State, exec (.restart []) s = .next t → t.pp.enables = s.pp.enables)
    ∧ (∀ s : State, attentionLine s = true ↔
        ∃ a : Attention, flagSet a s = true ∧ s.pp.enables.getLsbD a.bit = true)
    ∧ (∀ (strap : BitVec 5) (raw : BitVec 12) (s t : State), exec (.reset strap raw) s = .next t →
        attentionLine t = false ∧ t.pp.enables = State.reset.pp.enables)
    ∧ (∀ (s : State) (a : Attention), s.pp.enables.getLsbD a.bit = true → attentionLine (raise a s) = true)
    ∧ (∀ (s : State) (a : Attention), flagSet a s = true → flagSet a { s with pp.enables := 0 } = true)
    ∧ (∀ s t : State, s.ar.scan.isSome = true → s.pp.enables = State.reset.pp.enables →
        exec .scanEnd s = .next t → attentionLine t = true)

/-- READ_STATE: answered ACCEPTED with the 44 bytes of the station's state in the order of R219's table; nothing changes (R210).
READ_LAST_COIL in RUN: the last coil to have closed with its flags as they stand on the closing list, or an absent ID and zeros;
nothing changes (R211). -/
def Obligations.StateAndLastCoilAreReadAsTheyStand : Prop :=
  (∀ s : State, Bounded s →
        (∀ c, s.pp.config = some c → c.lineName.length ≤ 16 ∧ c.laneCount ≤ 8 ∧ c.channels.length ≤ 16) →
        ∃ d : List Byte, exec (.readState []) s = .next (withResponse 0x04 [] (0x00 :: d) s) ∧ d.length = 44
          ∧ byteAt d 0 = s.pp.station.code
          ∧ ((byteAt d 1).getLsbD 0 = s.pp.config.isSome ∧ (byteAt d 1).getLsbD 1 = s.pp.lock)
          ∧ slice d 2 17 = countedBytes (s.pp.config.elim [] (fun c => c.lineName))
          ∧ natAt d 19 1 = s.pp.config.elim 0 (fun c => c.laneCount)
          ∧ natAt d 20 1 = s.pp.config.elim 0 (fun c => c.channels.length)
          ∧ byteAt d 21 = s.ar.stage.code
          ∧ natAt d 22 2 = (if s.pp.station = .scan then 0 else 4094 - s.ar.segs.length)
          ∧ natAt d 24 5 = runCoord s
          ∧ natAt d 29 1 = s.ca.entryQueue.length ∧ natAt d 30 1 = s.ca.welds.length
          ∧ natAt d 31 1 = s.ca.boundaries.length ∧ natAt d 32 1 = s.ca.closing.length
          ∧ natAt d 33 2 = s.cx.staging.length ∧ natAt d 35 1 = s.ar.writeQueue.length
          ∧ natAt d 36 1 = (if s.pp.station = .scan then 0 else s.ru.keeps.length)
          ∧ natAt d 37 1 = s.ru.tasks.length
          ∧ natAt d 38 1 = allContexts.countP (fun c => (ctxAt s c).isSome)
          ∧ natAt d 39 1 = allSlots.countP (fun k => (slotAt s k).isSome)
          ∧ natAt d 40 1 = s.bi.queue.length
          ∧ byteAt d 41 = s.ru.amend.code ∧ byteAt d 42 = s.ru.amend.causeCode ∧ natAt d 43 1 = s.bi.node.toNat)
    ∧ (∀ s : State, s.pp.station = .run →
        (s.ca.lastCoil = none →
          exec (.readLastCoil []) s = .next (withResponse 0x08 [] (0x00 :: List.replicate 26 0) s))
          ∧ (∀ l r, s.ca.lastCoil = some l → (r ∈ s.ca.closing ∧ r.id = l.id ∧ (∀ x ∈ s.ca.closing, x.id = l.id → x = r)
                ∨ r = l ∧ ∀ x ∈ s.ca.closing, x.id ≠ l.id) →
              exec (.readLastCoil []) s = .next (withResponse 0x08 []
                (0x00 :: (countedBytes r.id ++ beBytes 4 r.seq ++ beBytes 4 (r.c1 - r.c0) ++ [r.flags.byte])) s)))

/-- CONFIGURE in CONFIG, on any well-formed record of up to 16 channels: ACCEPTED with the number of fields that differ from their clamped
value; the clamped record is held and the filter time acts at once; nothing else changes (R202, R45, R221, R2).
CONFIGURE: refused WRONG-STATE in SCAN and LOCKED in RUN, with nothing changed but the response; the lock is clear at reset, and
START sets it (R201, R203). -/
def Obligations.ConfigureHoldsTheClampedRecord : Prop :=
  (∀ (fields : List Byte) (s : State) (name : CoilId), s.pp.station = .config → natAt fields 48 1 ≤ 16 →
        fields.length = 49 + 13 * natAt fields 48 1 → countedId (slice fields 0 17) = some name → name ≠ [] →
        (∀ i, i < natAt fields 48 1 → ∃ ch, filledId (slice fields (49 + 13 * i) 8) = some ch ∧ ch ≠ []) →
        ∃ (c : Configuration) (n : Nat), n ≤ 55
          ∧ n = [(c.pitch, natAt fields 17 1), (c.exitWeight, natAt fields 18 2), (c.entryWeight, natAt fields 20 2),
                (c.dw, natAt fields 22 2), (c.filterMs, natAt fields 24 1), (c.laneCount, natAt fields 45 1),
                (c.allowance, natAt fields 46 2)].countP (fun p => p.1 ≠ p.2)
              + (c.channels.zipIdx.map (fun p =>
                (if p.1.unit = byteAt fields (49 + 13 * p.2 + 8) then 0 else 1)
                  + (if p.1.scale = intAt fields (49 + 13 * p.2 + 9) 1 then 0 else 1)
                  + (if p.1.lag = natAt fields (49 + 13 * p.2 + 10) 3 then 0 else 1))).sum
          ∧ exec (.configure fields) s = .next (withResponse 0x05 fields [0x00, BitVec.ofNat 8 n]
              { s with pp.config := some c, tiu.filterMs := min 20 (natAt fields 24 1) })
          ∧ c.lineName = name ∧ c.filterMs = min 20 (natAt fields 24 1)
          ∧ c.exitWeight = max 100 (min 6400 (natAt fields 18 2)) ∧ c.entryWeight = max 100 (min 6400 (natAt fields 20 2))
          ∧ c.dw = min 20000 (natAt fields 22 2) ∧ c.laneCount = max 1 (min 8 (natAt fields 45 1))
          ∧ c.pitch ∈ [10, 25, 50, 100, 200]
          ∧ (∀ p ∈ [10, 25, 50, 100, 200],
              ((c.pitch : Int) - natAt fields 17 1).natAbs < ((p : Int) - natAt fields 17 1).natAbs
                ∨ (((c.pitch : Int) - natAt fields 17 1).natAbs = ((p : Int) - natAt fields 17 1).natAbs ∧ p ≤ c.pitch))
          ∧ c.allowance = min (30 * c.pitch) (natAt fields 46 2)
          ∧ c.pairs = ⟨pairAt fields 25, pairAt fields 29, pairAt fields 33, pairAt fields 37, pairAt fields 41⟩
          ∧ c.channels.length = natAt fields 48 1
          ∧ ∀ (i : Nat) (ch : Channel), c.channels[i]? = some ch →
              some ch.name = filledId (slice fields (49 + 13 * i) 8)
                ∧ ch.unit = (if 8 < natAt fields (49 + 13 * i + 8) 1 then 0 else byteAt fields (49 + 13 * i + 8))
                ∧ ch.scale = max (-3) (min 3 (intAt fields (49 + 13 * i + 9) 1))
                ∧ ch.lag = min (natAt fields (49 + 13 * i + 10) 3) (2000 * c.pitch))
    ∧ ((∀ (fields : List Byte) (s : State),
        (s.pp.station = .scan → exec (.configure fields) s = .next (withResponse 0x05 fields [0x81, 0] s))
          ∧ (s.pp.station = .run → exec (.configure fields) s = .next (withResponse 0x05 fields [0x82, 0] s)))
        ∧ State.reset.pp.lock = false
        ∧ ∀ (s : State) (c : Configuration), s.pp.station = .config → s.pp.config = some c →
            ∃ t, exec (.start []) s = .next t ∧ t.pp.lock = true)

/-- START in CONFIG with a configuration held: ACCEPTED, RUN, and each block's taking of it, in the order of log entry 18 (R204, R7, R41,
R62); without one it is refused WRONG-STATE. With no ACTIVE segment it makes an activation, which may set ARCHIVE-LOW and ARCHIVE-FULL
within START by the model's reading (log entry 59), and otherwise the archive stands (R80).
An activation with two or more FREE segments, or one and a reclaim in hand or eligible: the lowest FREE segment becomes ACTIVE, numbered by
the segment sequence counter, and the stage stands; with one and no hope of a reclaim: the same, and RECORD-ONLY with the staged cells
dropped, NO-TREND on the open and closing coils and ARCHIVE-LOW, the coils that are ready handed over; with none: it waits, and in
RECORD-ONLY without hope the stage becomes FULL, the write queue is dropped, a dropped amended record ends its commit in LOCKED, and
ARCHIVE-FULL is raised. It is a moment of reclaim choice, after the outcome by the model's choice: log entry 48 (R80, R81, R82).
In FULL every item handed over is dropped (R82). A segment put into the table stands there alone of its number, and the lowest number that a
rising table lacks is the one activated. -/
def Obligations.StartOpensTracking : Prop :=
  (∀ s : State, s.pp.station = .config →
    (s.pp.config = none → exec (.start []) s = .next (withResponse 0x06 [] [0x81] s))
      ∧ ∀ c, s.pp.config = some c → s.ca.outSeq ≤ 2 ^ 32 - 1 →
          ∃ t, exec (.start []) s = .next t
            ∧ t.pp = { s.pp with station := .run, lock := true, flags := t.pp.flags, buffer := some ⟨0x06, [], [0x00]⟩ }
            ∧ t.tiu = { s.tiu with
                pairs := c.pairs, exitWeight := c.exitWeight, entryWeight := c.entryWeight, entryCount := 0
                prev := c.pairs.edges s.tiu.filtered, halted := c.pairs.lineHalt.isMatch s.tiu.filtered }
            ∧ t.cx = ⟨c.channels, c.pitch, c.allowance, some (runCoord t / c.pitch), [], []⟩
            ∧ t.ca.openCoils.map (fun o => (o.lane, o.seq, o.c0, o.segments))
                = (List.range c.laneCount).map (fun i =>
                    (i + 1, min (2 ^ 32 - 1) (s.ca.outSeq + i), runCoord t, [⟨none, 0⟩]))
            ∧ t.ca.entryCoil = none ∧ t.ca.exitCoil = none ∧ t.ca.entryQueue = [] ∧ t.ca.table = [] ∧ t.ca.welds = []
            ∧ t.ca.boundaries = [] ∧ t.ca.closing = [] ∧ t.ca.lastCoil = none ∧ t.ca.laneCount = c.laneCount ∧ t.ca.dw = c.dw
            ∧ FlashSame s t
            ∧ ∃ u, t = withResponse 0x06 [] [0x00] (settle (if (activeSeg s).isSome then u else activate u))
                ∧ u.ar = s.ar ∧ u.ru = s.ru ∧ u.pe = s.pe ∧ u.bi = s.bi ∧ u.pp.station = .run)
    ∧ (∀ s : State,
        (2 ≤ freeCount s ∨ freeCount s = 1 ∧ reclaimHope s = true → activate s = reclaimMoment (afterActivation s))
          ∧ (freeCount s = 1 → reclaimHope s = false →
              activate s = reclaimMoment (handReady (afterTrendStop (afterActivation s))))
          ∧ (freeCount s = 0 → reclaimHope s = true ∨ s.ar.stage ≠ .recordOnly →
              activate s = reclaimMoment { s with ar.activationWaits := true })
          ∧ (freeCount s = 0 → reclaimHope s = false → s.ar.stage = .recordOnly →
              ∃ v, activate s = reclaimMoment v ∧ v.ar.stage = .full ∧ v.ar.writeQueue = [] ∧ v.ar.activationWaits = true
                ∧ flagSet .archiveFull v = true ∧ v.ar.segs = s.ar.segs ∧ v.ar.outs = s.ar.outs ∧ v.ar.ins = s.ar.ins
                ∧ v.ar.expired = s.ar.expired ∧ v.cx = s.cx ∧ v.ca = s.ca ∧ v.pe = s.pe ∧ v.flash = s.flash
                ∧ (∀ a r, s.ru.amend = .committing a → a.seq = r.seq →
                    (a.kind = .input ∧ .amendedInput r ∈ s.ar.writeQueue) → v.ru.amend = .locked .writeFailed)
                ∧ (∀ a r old, s.ru.amend = .committing a → a.seq = r.seq →
                    (a.kind = .output ∧ .amendedOutput r old ∈ s.ar.writeQueue) → v.ru.amend = .locked .writeFailed))
          ∧ (reclaimHope s = true ↔ reclaimInHand s = true ∨ (lowestEligible s).isSome = true)
          ∧ (∀ w, s.ar.stage = .full → handItem w s = dropItem w s ∧ flagSet .archiveFull (dropItem w s) = true
              ∧ (dropItem w s).ar = s.ar ∧ (∀ seq id, w = .freezeMark seq id → (dropItem w s).ru.freezes = s.ru.freezes.erase seq)))
    ∧ (∀ (e : SegEntry) (segs : List SegEntry),
        (putSeg e segs).find? (fun g => g.num == e.num) = some e
          ∧ (∀ n, n ≠ e.num → (putSeg e segs).find? (fun g => g.num == n) = segs.find? (fun g => g.num == n))
          ∧ (segs.Pairwise (fun a b => a.num < b.num) →
              (∀ g ∈ segs, g.num ≠ lowestFree 2 segs) ∧ 2 ≤ lowestFree 2 segs
                ∧ ∀ m, 2 ≤ m → m < lowestFree 2 segs → ∃ g ∈ segs, g.num = m))

/-- RESTART in RUN: ACCEPTED and READY raised; the empty line again, every pull gone, the bus queue emptied but for the frame in the
transmit path; of the staging buffer the cells of the page being written remain and count no more for the written-cell mark, which is the
new front (R205, R42, R57, R63, R157, R196; the order of the blocks: log entry 18). The keep list stands, the entries that KEEP tasks came
from becoming PARTIAL and no others (R99); the task names its entry by the triple, log entry 49. With an ACTIVE segment and no reclaim
demanded the archive stands but for the read queue, which is emptied, a read in progress, whose page is discarded, and the image write that
a new PARTIAL mark makes ready; the pending freezes stand (R85, R91, R101). -/
def Obligations.RestartReturnsToTheEmptyLine : Prop :=
  ∀ s : State, s.pp.station = .run → s.ca.outSeq ≤ 2 ^ 32 - 1 →
    ∃ t, exec (.restart []) s = .next t
      ∧ t.pp = { s.pp with flags := t.pp.flags, buffer := some ⟨0x07, [], [0x00]⟩ } ∧ flagSet .ready t = true
      ∧ t.tiu = { s.tiu with
          entryCount := 0, prev := s.tiu.pairs.edges s.tiu.filtered, halted := s.tiu.pairs.lineHalt.isMatch s.tiu.filtered }
      ∧ t.cx.front = some (runCoord s / s.cx.pitch) ∧ t.cx.window = [] ∧ t.cx.channels = s.cx.channels
      ∧ t.cx.pitch = s.cx.pitch ∧ t.cx.allowance = s.cx.allowance
      ∧ t.cx.staging = (s.cx.staging.take (cellsInPage s)).map (fun c => { c with current := false })
      ∧ writtenMark t = runCoord s / s.cx.pitch
      ∧ t.ca.openCoils.map (fun o => (o.lane, o.seq, o.c0, o.segments))
          = (List.range s.ca.laneCount).map (fun i =>
              (i + 1, min (2 ^ 32 - 1) (s.ca.outSeq + i), runCoord s, [⟨none, 0⟩]))
      ∧ t.ca.entryCoil = none ∧ t.ca.exitCoil = none ∧ t.ca.entryQueue = [] ∧ t.ca.table = [] ∧ t.ca.welds = []
      ∧ t.ca.boundaries = [] ∧ t.ca.closing = [] ∧ t.ca.lastCoil = none ∧ t.ca.names = Vector.replicate 8 []
      ∧ t.ca.inSeq = s.ca.inSeq ∧ t.ca.laneCount = s.ca.laneCount ∧ t.ca.dw = s.ca.dw
      ∧ t.ar.readQueue = [] ∧ t.ru.tasks = [] ∧ t.ru.head = none ∧ t.ru.amend = .closed
      ∧ t.ru.keeps = s.ru.keeps.map (fun k => if isTaskSource s k then { k with keptPartial := true } else k)
      ∧ ((activeSeg s).isSome = true → reclaimDemand s = false → t.ru.freezes = s.ru.freezes
          ∧ t.ar = { s.ar with
              readQueue := []
              reading := s.ar.reading.map (fun r => { r with discarded := true })
              keepReady := s.ar.keepReady || s.ru.keeps.any (fun k => isTaskSource s k && !k.keptPartial) })
      ∧ t.pe = ⟨Vector.replicate 6 none, Vector.replicate 8 none, [], s.pe.tagCounter⟩
      ∧ t.bi.node = s.bi.node ∧ t.bi.lastSource = s.bi.lastSource ∧ t.bi.silence = s.bi.silence ∧ t.bi.pointer = s.bi.pointer
      ∧ t.bi.offers = [] ∧ t.bi.queue.length = (if s.bi.tx.any (fun x => x.control) then 1 else 0)
      ∧ FlashSame s t

/-- ANNOUNCE in RUN with a well-formed ID: DUPLICATE, FULL or appended, as the entry queue stands (R19); a malformed or absent ID is
refused BAD-ORDINAL (R214).
NAME_EXIT in RUN: a lane outside 1 to the lane count is refused BAD-ORDINAL; otherwise the lane's pending name becomes the ID, absent
included, and no other lane's changes (R28). -/
def Obligations.AnnouncedAndPendingNamesAreTaken : Prop :=
  (∀ (fields : List Byte) (s : State), s.pp.station = .run → fields.length = 17 →
        (countedId fields = none ∨ countedId fields = some [] →
          exec (.announce fields) s = .next (withResponse 0x09 fields [0x88] s))
          ∧ ∀ id, countedId fields = some id → id ≠ [] →
              (id ∈ s.ca.entryQueue → exec (.announce fields) s = .next (withResponse 0x09 fields [0x84] s))
                ∧ (id ∉ s.ca.entryQueue → 4 ≤ s.ca.entryQueue.length →
                    exec (.announce fields) s = .next (withResponse 0x09 fields [0x83] s))
                ∧ (id ∉ s.ca.entryQueue → s.ca.entryQueue.length < 4 →
                    exec (.announce fields) s
                      = .next (withResponse 0x09 fields [0x00] { s with ca.entryQueue := s.ca.entryQueue ++ [id] })))
    ∧ (∀ (fields : List Byte) (s : State) (id : CoilId), s.pp.station = .run → fields.length = 18 → s.ca.laneCount ≤ 8 →
        countedId (fields.drop 1) = some id →
        (natAt fields 0 1 = 0 ∨ s.ca.laneCount < natAt fields 0 1 →
          exec (.nameExit fields) s = .next (withResponse 0x0A fields [0x88] s))
          ∧ (1 ≤ natAt fields 0 1 → natAt fields 0 1 ≤ s.ca.laneCount →
              ∃ names, exec (.nameExit fields) s = .next (withResponse 0x0A fields [0x00] { s with ca.names := names })
                ∧ ∀ lane, 1 ≤ lane → lane ≤ 8 →
                    laneName { s with ca.names := names } lane = if lane = natAt fields 0 1 then id else laneName s lane))

/-- SAMPLE in RUN with one pair: ignored while the line is halted, for a channel not configured and for no reading; late below the window
front, which raises LATE-SAMPLE and marks the open and the closing coils that own the cell INCOMPLETE; otherwise it enters its cell's entry
and counts 1 (R46, R47, R48, R50, R52). That it is late by its index just after START, where R52 says never late, is the model's choice, log
entry 45; so is that a position below the run coordinate of START enters the front cell, against R62, log entry 46.
SAMPLE of several pairs acts as its pairs one after another, the counts added (R46). -/
def Obligations.SampleEntersTheCellOfItsPosition : Prop :=
  (∀ (fields : List Byte) (s : State) (number : Nat) (v : Int), s.pp.station = .run → natAt fields 0 1 = 1 →
    fields.length = 4 ∨ fields.length = 6 → number = natAt fields 1 1 → v = intAt fields 2 2 →
    (s.tiu.halted = true ∨ s.cx.channels[number]? = none ∨ v = -32768 →
      exec (.sample fields) s = .next (withResponse 0x0B fields [0x00, 0] s))
      ∧ ∀ (ch : Channel) (front : Nat) (cell : Int), s.tiu.halted = false → s.cx.channels[number]? = some ch → v ≠ -32768 →
          s.cx.front = some front → 0 < s.cx.pitch →
          cell * s.cx.pitch ≤ (runCoord s : Int) + ch.lag - natAt fields 4 2 →
          (runCoord s : Int) + ch.lag - natAt fields 4 2 < (cell + 1) * s.cx.pitch →
          (cell < front → ∃ t, exec (.sample fields) s = .next t ∧ flagSet .lateSample t = true ∧ t.cx = s.cx
              ∧ t.pp.buffer = some ⟨0x0B, fields, [0x00, 0]⟩
              ∧ t.ca.openCoils = s.ca.openCoils.map (fun o =>
                  { o with flags.incomplete := o.flags.incomplete || decide (2 * (o.c0 : Int) ≤ (2 * cell + 1) * s.cx.pitch ∧ 0 ≤ cell) })
              ∧ t.ca.closing = s.ca.closing.map (fun r =>
                  { r with flags.incomplete := r.flags.incomplete
                      || decide (0 ≤ cell ∧ 2 * (r.c0 : Int) ≤ (2 * cell + 1) * r.pitch ∧ (2 * cell + 1) * r.pitch < 2 * (r.c1 : Int)) }))
            ∧ (front ≤ cell → ∃ entries,
                exec (.sample fields) s = .next (withResponse 0x0B fields [0x00, 1]
                    { s with cx.window := putKey cell.toNat entries s.cx.window })
                  ∧ entries.length = (windowCell s cell.toNat).length
                  ∧ (∀ j, j ≠ number → entries[j]? = (windowCell s cell.toNat)[j]?)
                  ∧ ∀ e, (windowCell s cell.toNat)[number]? = some e →
                      ∃ e', entries[number]? = some e'
                        ∧ (e.count < 65535 → e'.count = e.count + 1 ∧ e'.sum = e.sum + v ∧ e'.sat = e.sat)
                        ∧ (65535 ≤ e.count → e'.count = e.count ∧ e'.sum = e.sum ∧ e'.sat = true)
                        ∧ (e.count = 0 → e'.least = some v ∧ e'.greatest = some v)
                        ∧ (∀ lo hi, 0 < e.count → e.least = some lo → e.greatest = some hi →
                            e'.least = some (min lo v) ∧ e'.greatest = some (max hi v))))
    ∧ (∀ (first last delay : List Byte) (n : Nat) (s : State), s.pp.station = .run → 1 ≤ n → n ≤ 15 → first.length = 3 * n →
        last.length = 3 → delay.length = 0 ∨ delay.length = 2 →
        ∃ u v j k, exec (.sample (BitVec.ofNat 8 n :: (first ++ delay))) s
              = .next (withResponse 0x0B (BitVec.ofNat 8 n :: (first ++ delay)) [0x00, BitVec.ofNat 8 j] u)
          ∧ exec (.sample (1 :: (last ++ delay))) u = .next (withResponse 0x0B (1 :: (last ++ delay)) [0x00, BitVec.ofNat 8 k] v)
          ∧ j ≤ n ∧ k ≤ 1
          ∧ exec (.sample (BitVec.ofNat 8 (n + 1) :: (first ++ last ++ delay))) s
              = .next (withResponse 0x0B (BitVec.ofNat 8 (n + 1) :: (first ++ last ++ delay)) [0x00, BitVec.ofNat 8 (j + k)] v))

/-- FREEZE in RUN: BUSY under a commit, NOT-FOUND for a coil not in the directory, ACCEPTED without effect when frozen or pending, FULL
with 64 pending; otherwise the freeze is pending and its mark goes to the write queue (R100). -/
def Obligations.FreezeQueuesAMark : Prop :=
  ∀ (fields : List Byte) (s : State) (id : CoilId), s.pp.station = .run → fields.length = 17 → countedId fields = some id →
    (underCommit s id = true → exec (.freeze fields) s = .next (withResponse 0x0C fields [0x86] s))
      ∧ (underCommit s id = false →
          (outById s id = none → exec (.freeze fields) s = .next (withResponse 0x0C fields [0x85] s))
          ∧ ∀ e, outById s id = some e →
              (isFrozen s e = true → exec (.freeze fields) s = .next (withResponse 0x0C fields [0x00] s))
              ∧ (isFrozen s e = false → 64 ≤ s.ru.freezes.length →
                  exec (.freeze fields) s = .next (withResponse 0x0C fields [0x83] s))
              ∧ (isFrozen s e = false → s.ru.freezes.length < 64 → Quiet s →
                  ∃ t, exec (.freeze fields) s = .next t ∧ t.pp.buffer = some ⟨0x0C, fields, [0x00]⟩
                    ∧ (s.bi.looped = [] → t.ru.freezes = s.ru.freezes ++ [e.seq]
                        ∧ t.ar.writeQueue = s.ar.writeQueue ++ [.freezeMark e.seq id])))

/-- AMEND commands in RUN: refused by amendment state as R104's table says, the state left as it was; those it says are taken are the
statements below.
AMEND_CANCEL in OPEN and AMEND_CLEAR in LOCKED: the state becomes CLOSED, nothing is written and no flag is raised (R109). -/
def Obligations.AmendCommandsFollowTheAmendmentState : Prop :=
  (∀ (s : State) (a : Amending) (cause : LockCause) (openFields nameFields : List Byte) (kind : AmendKind) (id newId : CoilId),
        s.pp.station = .run → openFields.length = 22 → AmendKind.ofCode (byteAt openFields 0) = some kind →
        countedId (slice openFields 1 17) = some id → nameFields.length = 17 → countedId nameFields = some newId →
        (s.ru.amend = .opened a ∨ s.ru.amend = .committing a →
            exec (.amendOpen openFields) s = .next (withResponse 0x0D openFields [0x86] s))
          ∧ (s.ru.amend = .locked cause → exec (.amendOpen openFields) s = .next (withResponse 0x0D openFields [0x82] s))
          ∧ (s.ru.amend = .closed →
              exec (.amendRename nameFields) s = .next (withResponse 0x0E nameFields [0x81] s)
              ∧ exec (.amendCommit []) s = .next (withResponse 0x0F [] [0x81] s)
              ∧ exec (.amendCancel []) s = .next (withResponse 0x10 [] [0x81] s))
          ∧ (s.ru.amend = .committing a →
              exec (.amendRename nameFields) s = .next (withResponse 0x0E nameFields [0x86] s)
              ∧ exec (.amendCommit []) s = .next (withResponse 0x0F [] [0x86] s)
              ∧ exec (.amendCancel []) s = .next (withResponse 0x10 [] [0x86] s))
          ∧ (s.ru.amend = .locked cause →
              exec (.amendRename nameFields) s = .next (withResponse 0x0E nameFields [0x82] s)
              ∧ exec (.amendCommit []) s = .next (withResponse 0x0F [] [0x82] s)
              ∧ exec (.amendCancel []) s = .next (withResponse 0x10 [] [0x82] s))
          ∧ (s.ru.amend = .closed ∨ s.ru.amend = .opened a ∨ s.ru.amend = .committing a →
              exec (.amendClear []) s = .next (withResponse 0x11 [] [0x81] s))
          ∧ (s.ru.amend = .locked cause →
              exec (.amendClear []) s = .next (withResponse 0x11 [] [0x00] { s with ru.amend := .closed })))
    ∧ (∀ s : State, s.pp.station = .run →
        (∀ a, s.ru.amend = .opened a → ∃ t, exec (.amendCancel []) s = .next t ∧ t.ru = { s.ru with amend := .closed }
            ∧ t.pp = { s.pp with buffer := some ⟨0x10, [], [0x00]⟩ } ∧ t.ar.writeQueue = s.ar.writeQueue ∧ t.ar.outs = s.ar.outs
            ∧ t.ar.ins = s.ar.ins ∧ t.flash = s.flash)
          ∧ (∀ cause, s.ru.amend = .locked cause →
              exec (.amendClear []) s = .next (withResponse 0x11 [] [0x00] { s with ru.amend := .closed })))

/-- AMEND_OPEN in CLOSED: BUSY when it names a record whose amended record still awaits write, its entry present or expired; otherwise by
the first row of R103's tables that applies: the refusals that lock raise AMEND-LOCK, and an accepted open notes the record, takes its
ID and asks for its page (R102, R103). That such an output is named by the ID it was filed under is the model's choice: log entry 41. -/
def Obligations.AmendOpenChecksTheRecord : Prop :=
  ∀ (fields : List Byte) (s : State) (id : CoilId), s.pp.station = .run → fields.length = 22 → s.ru.amend = .closed →
    countedId (slice fields 1 17) = some id →
    (∀ cause code u, (u = raise .amendLock { s with ru.amend := .locked cause }) →
        (byteAt fields 0 = 1 → outUnderCommit s id (natAt fields 18 4) = false → outById s id = none →
            exec (.amendOpen fields) s = .next (withResponse 0x0D fields [0x85] s))
        ∧ (byteAt fields 0 = 2 → inUnderCommit s (natAt fields 18 4) = false → inBySeq s (natAt fields 18 4) = none →
            exec (.amendOpen fields) s = .next (withResponse 0x0D fields [0x85] s))
        ∧ (∀ e, byteAt fields 0 = 1 → outById s id = some e → outUnderCommit s id (natAt fields 18 4) = false →
            (e.seq ≠ natAt fields 18 4 ∧ cause = .mismatch ∧ code = 0x87
              ∨ e.seq = natAt fields 18 4 ∧ isFrozen s e = true ∧ cause = .frozen ∧ code = 0x82
              ∨ e.seq = natAt fields 18 4 ∧ isFrozen s e = false ∧ isKept s id = true ∧ cause = .kept ∧ code = 0x82) →
            exec (.amendOpen fields) s = .next (withResponse 0x0D fields [code] u))
        ∧ (∀ e, byteAt fields 0 = 2 → inBySeq s (natAt fields 18 4) = some e → inUnderCommit s (natAt fields 18 4) = false →
            (e.id ≠ id ∧ cause = .mismatch ∧ code = 0x87
              ∨ e.id = id ∧ (∃ o ∈ namingOuts s e.seq, isFrozen s o = true) ∧ cause = .frozen ∧ code = 0x82
              ∨ e.id = id ∧ (∀ o ∈ namingOuts s e.seq, isFrozen s o = false) ∧ (∃ o ∈ namingOuts s e.seq, isKept s o.id = true)
                ∧ cause = .kept ∧ code = 0x82) →
            exec (.amendOpen fields) s = .next (withResponse 0x0D fields [code] u)))
      ∧ (byteAt fields 0 = 1 → outUnderCommit s id (natAt fields 18 4) = true →
          exec (.amendOpen fields) s = .next (withResponse 0x0D fields [0x86] s))
      ∧ (byteAt fields 0 = 2 → inUnderCommit s (natAt fields 18 4) = true →
          exec (.amendOpen fields) s = .next (withResponse 0x0D fields [0x86] s))
      ∧ (∀ seq, outUnderCommit s id seq = true ↔
          ∃ r, .amendedOutput r id ∈ awaiting s ∧ (r.seq = seq ∨ ∃ e, outById s id = some e ∧ e.seq = r.seq))
      ∧ (∀ seq, inUnderCommit s seq = true ↔ ∃ r, .amendedInput r ∈ awaiting s ∧ r.seq = seq)
      ∧ (∀ e, byteAt fields 0 = 1 → outById s id = some e → outUnderCommit s id (natAt fields 18 4) = false → e.seq = natAt fields 18 4 →
          isFrozen s e = false → isKept s id = false →
          exec (.amendOpen fields) s = .next (withResponse 0x0D fields [0x00] { s with
            ru.amend := .opened ⟨.output, e.seq, id, id, none⟩
            ar.readQueue := s.ar.readQueue ++ [⟨e.loc.seg, e.loc.page, .amend⟩] }))
      ∧ (∀ e, byteAt fields 0 = 2 → inBySeq s (natAt fields 18 4) = some e → inUnderCommit s (natAt fields 18 4) = false →
          e.id = id → (∀ o ∈ namingOuts s e.seq, isFrozen s o = false ∧ isKept s o.id = false) →
          exec (.amendOpen fields) s = .next (withResponse 0x0D fields [0x00] { s with
            ru.amend := .opened ⟨.input, e.seq, id, id, none⟩
            ar.readQueue := s.ar.readQueue ++ [⟨e.loc.seg, e.loc.page, .amend⟩] }))

/-- AMEND_RENAME in OPEN: for an output an absent ID is MISMATCH, a duplicate DUPLICATE, the present ID and any other ACCEPTED; for an
input any ID is ACCEPTED (R105).
AMEND_COMMIT in OPEN, by the first row of R106's table that applies; accepted, the amended record with its revision one higher and
AMENDED set goes to the write queue and the state is COMMITTING. -/
def Obligations.RenameAndCommitActOnTheWorkingCopy : Prop :=
  (∀ (fields : List Byte) (s : State) (a : Amending) (id : CoilId), s.pp.station = .run → fields.length = 17 →
        countedId fields = some id → s.ru.amend = .opened a →
        (a.kind = .input ∨ id ≠ [] ∧ (id = a.newId ∨ id = a.openedId ∨ isDuplicate s id = false) →
            exec (.amendRename fields) s
              = .next (withResponse 0x0E fields [0x00] { s with ru.amend := .opened { a with newId := id } }))
          ∧ (a.kind = .output → id = [] → exec (.amendRename fields) s = .next (withResponse 0x0E fields [0x87] s))
          ∧ (a.kind = .output → id ≠ [] → id ≠ a.newId → id ≠ a.openedId → isDuplicate s id = true →
              exec (.amendRename fields) s = .next (withResponse 0x0E fields [0x84] s)))
    ∧ (∀ (s : State) (a : Amending), s.pp.station = .run → s.ru.amend = .opened a →
        (amendPresent s a = false →
          ∃ t, exec (.amendCommit []) s = .next t ∧ t.ru.amend = .closed ∧ t.pp.buffer = some ⟨0x0F, [], [0x85]⟩)
          ∧ (amendPresent s a = true → a.copy = none → exec (.amendCommit []) s = .next (withResponse 0x0F [] [0x86] s))
          ∧ ∀ r, amendPresent s a = true → a.copy = some r →
              ((∃ e ∈ guardOuts s a, isFrozen s e = true) →
                exec (.amendCommit []) s
                  = .next (withResponse 0x0F [] [0x82] (raise .amendLock { s with ru.amend := .locked .frozen })))
              ∧ ((∀ e ∈ guardOuts s a, isFrozen s e = false) → (∃ e ∈ guardOuts s a, isKept s e.id = true) →
                exec (.amendCommit []) s
                  = .next (withResponse 0x0F [] [0x82] (raise .amendLock { s with ru.amend := .locked .kept })))
              ∧ ((∀ e ∈ guardOuts s a, isFrozen s e = false ∧ isKept s e.id = false) →
                (a.kind = .output → a.newId ≠ a.openedId → isDuplicate s a.newId = true →
                  exec (.amendCommit []) s = .next (withResponse 0x0F [] [0x84] s))
                ∧ (a.kind = .input ∨ a.newId = a.openedId ∨ isDuplicate s a.newId = false → Quiet s →
                  ∃ t, exec (.amendCommit []) s = .next t ∧ t.pp.buffer = some ⟨0x0F, [], [0x00]⟩
                    ∧ (s.bi.looped = [] → t.ru.amend = .committing a
                        ∧ t.ar.writeQueue = s.ar.writeQueue ++ [amendedItem a r])
                    ∧ (∀ x, r = .output x → ∃ y, amendedItem a r = .amendedOutput y a.openedId ∧ y.id = a.newId
                        ∧ y.revision = x.revision + 1 ∧ y.flags = { x.flags with amended := true } ∧ y.seq = x.seq
                        ∧ y.c0 = x.c0 ∧ y.c1 = x.c1 ∧ y.segments = x.segments)
                    ∧ (∀ x, r = .input x → amendedItem a r
                        = .amendedInput { x with id := a.newId, revision := x.revision + 1, amended := true }))))

/-- UNKNOWN_COMMAND, TRANSACTION_ABORT: a code that names no command is refused WRONG-STATE in every station state, and an incomplete
record is discarded; neither has another effect (R198).
What the station drives after a command record: two turnaround bytes of 00H, the response, and 00H after its last byte (R197).
The commands of RUN alone are refused WRONG-STATE in SCAN and CONFIG, and START outside CONFIG, with their data fields 0 and nothing
else changed (R201, R199).
A record of a wrong length is refused BAD-ORDINAL in a state that takes the command, and changes nothing else (R220). -/
def Obligations.RefusedRecordsChangeNothing : Prop :=
  (∀ (s : State) (code : Byte) (fields bytes : List Byte),
        (code = 0 ∨ 17 < code.toNat → exec (.unknownCommand code fields) s = .next (withResponse code fields [0x81] s))
          ∧ exec (.transactionAbort bytes) s = .next { s with pp.buffer := none })
    ∧ (∀ x : Exchange, drivenByte x 0 = 0 ∧ drivenByte x 1 = 0
        ∧ (∀ n b, x.response[n]? = some b → drivenByte x (n + 2) = b)
        ∧ (∀ n, x.response.length ≤ n → drivenByte x (n + 2) = 0))
    ∧ (∀ (s : State) (fields : List Byte),
        (s.pp.station ≠ .config → exec (.start fields) s = .next (withResponse 0x06 fields [0x81] s))
          ∧ (s.pp.station ≠ .run →
              exec (.restart fields) s = .next (withResponse 0x07 fields [0x81] s)
              ∧ exec (.readLastCoil fields) s = .next (withResponse 0x08 fields (0x81 :: List.replicate 26 0) s)
              ∧ exec (.announce fields) s = .next (withResponse 0x09 fields [0x81] s)
              ∧ exec (.nameExit fields) s = .next (withResponse 0x0A fields [0x81] s)
              ∧ exec (.sample fields) s = .next (withResponse 0x0B fields [0x81, 0] s)
              ∧ exec (.freeze fields) s = .next (withResponse 0x0C fields [0x81] s)
              ∧ exec (.amendOpen fields) s = .next (withResponse 0x0D fields [0x81] s)
              ∧ exec (.amendRename fields) s = .next (withResponse 0x0E fields [0x81] s)
              ∧ exec (.amendCommit fields) s = .next (withResponse 0x0F fields [0x81] s)
              ∧ exec (.amendCancel fields) s = .next (withResponse 0x10 fields [0x81] s)
              ∧ exec (.amendClear fields) s = .next (withResponse 0x11 fields [0x81] s)))
    ∧ (∀ (s : State) (fields : List Byte),
        (fields.length ≠ 0 →
            exec (.readEvents fields) s = .next (withResponse 0x01 fields [0x88, 0, 0, 0, 0] s)
            ∧ exec (.peekEvents fields) s = .next (withResponse 0x02 fields [0x88, 0, 0, 0, 0] s)
            ∧ exec (.readState fields) s = .next (withResponse 0x04 fields (0x88 :: List.replicate 44 0) s)
            ∧ (s.pp.station = .config → exec (.start fields) s = .next (withResponse 0x06 fields [0x88] s))
            ∧ (s.pp.station = .run →
                exec (.restart fields) s = .next (withResponse 0x07 fields [0x88] s)
                ∧ exec (.readLastCoil fields) s = .next (withResponse 0x08 fields (0x88 :: List.replicate 26 0) s)
                ∧ exec (.amendCommit fields) s = .next (withResponse 0x0F fields [0x88] s)
                ∧ exec (.amendCancel fields) s = .next (withResponse 0x10 fields [0x88] s)
                ∧ exec (.amendClear fields) s = .next (withResponse 0x11 fields [0x88] s)))
          ∧ (fields.length ≠ 2 → exec (.setEnables fields) s = .next (withResponse 0x03 fields [0x88] s))
          ∧ (s.pp.station = .config → fields.length ≠ 49 + 13 * natAt fields 48 1 →
              exec (.configure fields) s = .next (withResponse 0x05 fields [0x88, 0] s))
          ∧ (s.pp.station = .run →
              (fields.length ≠ 17 → exec (.announce fields) s = .next (withResponse 0x09 fields [0x88] s)
                ∧ exec (.freeze fields) s = .next (withResponse 0x0C fields [0x88] s)
                ∧ exec (.amendRename fields) s = .next (withResponse 0x0E fields [0x88] s))
              ∧ (fields.length ≠ 18 → exec (.nameExit fields) s = .next (withResponse 0x0A fields [0x88] s))
              ∧ (fields.length ≠ 22 → exec (.amendOpen fields) s = .next (withResponse 0x0D fields [0x88] s))
              ∧ (fields.length ≠ 1 + 3 * natAt fields 0 1 → fields.length ≠ 3 + 3 * natAt fields 0 1 →
                  exec (.sample fields) s = .next (withResponse 0x0B fields [0x88, 0] s))))

/-! ### Reset, the scan and the archive -/

/-- RESET: every block at its reset value, the strap pins read, the scan begun; the flash keeps every page but a page being written,
which is torn, and the pages of a segment being erased, which the model keeps as partly erased and reads as nothing (R200, R212, R15, R43,
R61, R68, R76, R90, R158, R195; log entries 13 and 28). The moment and the rest of the queue stand (log entry 5). -/
def Obligations.ResetPutsEveryBlockAtItsResetValue : Prop :=
  ∀ (strap : BitVec 5) (raw : BitVec 12) (s : State),
    (∀ w, s.ar.pageWrite = some w → w.page < 256) → (∀ w, s.ar.keepWrite = some w → w.page < 256) →
    ∃ t, exec (.reset strap raw) s = .next t
      ∧ t.pp = ⟨.scan, none, false, 0, 0b1111110111, none⟩
      ∧ t.tiu.raw = raw ∧ t.tiu.filtered = raw ∧ t.tiu.changes = Vector.replicate 12 none ∧ t.tiu.filterMs = 0
      ∧ t.tiu.pairs = .zero ∧ t.tiu.prev = ⟨false, false, false, false⟩ ∧ t.tiu.halted = false
      ∧ t.tiu.exitTotal = 0 ∧ t.tiu.exitOver = false ∧ t.tiu.entryCount = 0 ∧ t.tiu.runOrigin = 0
      ∧ t.ca.entryQueue = [] ∧ t.ca.table = [] ∧ t.ca.entryCoil = none ∧ t.ca.exitCoil = none ∧ t.ca.welds = []
      ∧ t.ca.boundaries = [] ∧ t.ca.openCoils = [] ∧ t.ca.names = Vector.replicate 8 [] ∧ t.ca.closing = [] ∧ t.ca.lastCoil = none
      ∧ t.cx.channels = [] ∧ t.cx.front = none ∧ t.cx.window = [] ∧ t.cx.staging = []
      ∧ t.ar.outs = [] ∧ t.ar.ins = [] ∧ t.ar.expired = [] ∧ t.ar.writeQueue = [] ∧ t.ar.readQueue = [] ∧ t.ar.pageWrite = none
      ∧ t.ar.reading = none ∧ t.ar.keepReady = false ∧ t.ar.keepWrite = none ∧ t.ar.erase = none ∧ t.ar.stage = .normal
      ∧ t.ar.scan.isSome = true
      ∧ t.ru = ⟨[], [], none, [], .closed⟩ ∧ t.pe = ⟨Vector.replicate 6 none, Vector.replicate 8 none, [], 0⟩
      ∧ t.bi = ⟨strap, 0, some s.now, 5, [], [], none, []⟩
      ∧ t.pending = s.pending ∧ t.now = s.now
      ∧ ∀ seg page, page < 256 → t.flash.at seg page =
          if s.ar.erase.any (fun e => e.seg == seg) then none
          else if s.ar.pageWrite.any (fun w => w.seg == seg && w.page == page)
              || s.ar.keepWrite.any (fun w => w.seg.val == seg && w.page == page) then some .torn
          else s.flash.at seg page

/-- SCAN_PAGE_READ: a page read takes 0.1 ms; after a page that is not erased, a torn one too, comes the next of its segment up to the last,
after an erased one the next segment; a failed read is noted; the flash, the port, the line and the bus stand (R87, R200). The order of
the segments is log entry 13.
SCAN_END: the state becomes CONFIG and READY is raised; the run origin is at or above the end of every record and cell block found,
the output sequence counter above every output sequence found; on an erased flash the origin is 0, both counters are 1 and nothing is
held (R89, R87, R17, R200).
SCAN_END: the keep list is the valid image with the highest image sequence, also one behind a torn first page, and the next image sequence
is one above it; a keep segment with a torn first page is STALE (R87). That such a segment is STALE even when the image restored is its own,
where R87 also says CURRENT, is the model's choice: log entry 13. -/
def Obligations.ScanReadsThePagesAndEndsInConfig : Prop :=
  (∀ (failed : Bool) (s : State) (c : Scan), s.ar.scan = some c → c.done = false →
        ∃ t c', exec (.scanPageRead failed) s = .next t ∧ t.ar.scan = some c' ∧ c'.began = c.began + 100
          ∧ t.now = max s.now (c.began + 100) ∧ t.pp = s.pp ∧ t.tiu = s.tiu ∧ t.cx = s.cx ∧ t.bi = s.bi ∧ t.pe = s.pe ∧ FlashSame s t
          ∧ c'.failed = (if failed then putNat (c.seg * 256 + c.page) c.failed else c.failed)
          ∧ ((failed = false ∧ c.seg * 256 + c.page ∉ c.failed ∧ s.flash.at c.seg c.page = none) ∨ c.page = 255 →
              c'.done = decide (c.seg = 1) ∧ (c.seg ≠ 1 → c'.page = 0 ∧ c'.seg = if c.seg = 4095 then 0 else c.seg + 1))
          ∧ (failed = true ∨ c.seg * 256 + c.page ∈ c.failed ∨ s.flash.at c.seg c.page ≠ none → c.page < 255 →
              c'.done = false ∧ c'.seg = c.seg ∧ c'.page = c.page + 1))
    ∧ (∀ (s : State) (c : Scan) (items : List (PageItem × Loc)), s.ar.scan = some c →
        items = scanItems (scanView s.flash c.failed) (scanSegs (scanView s.flash c.failed) s.flash.partlyErased) →
        ∃ t, exec .scanEnd s = .next t ∧ t.pp.station = .config ∧ flagSet .ready t = true ∧ t.ar.scan = none ∧ t.ar.stage = .normal
          ∧ FlashSame s t ∧ t.cx = s.cx
          ∧ (∀ i ∈ items, ∀ r, i.1 = .item (.output r) → (∀ j ∈ items, ∀ p n b, j.1 = .cells p n b → 0 < p) →
              r.c1 ≤ t.tiu.runOrigin ∧ (r.seq < t.ca.outSeq ∨ t.ca.outSeq = 2 ^ 32 - 1))
          ∧ (∀ i ∈ items, ∀ r, i.1 = .item (.input r) → (∀ j ∈ items, ∀ p n b, j.1 = .cells p n b → 0 < p) →
              r.w1 ≤ t.tiu.runOrigin ∧ (r.seq < t.ca.inSeq ∨ t.ca.inSeq = 2 ^ 32 - 1))
          ∧ (∀ i ∈ items, ∀ p n b, i.1 = .cells p n b → (∀ j ∈ items, ∀ q m d, j.1 = .cells q m d → 0 < q) →
              (n + b.length) * p ≤ t.tiu.runOrigin)
          ∧ (s.flash = ⟨[], []⟩ → c.failed = [] →
              t.tiu.runOrigin = 0 ∧ t.ca.inSeq = 1 ∧ t.ca.outSeq = 1
                ∧ (s.bi.looped = [] → s.ar.writeQueue = [] → t.ar.segs = [] ∧ t.ar.outs = [] ∧ t.ar.ins = [] ∧ t.ru.keeps = []
                    ∧ t.ar.keepSegs = Vector.replicate 2 ⟨.spare, 0⟩))
          ∧ (∀ (k : Fin 2) (page n : Nat) (entries : List KeepEntry), c.failed = [] → s.bi.looped = [] → page < 256 →
              (∀ j, j ≤ page → s.flash.at k j ≠ none) → s.flash.at k page = some (.keep n entries) →
              ∃ (k' : Fin 2) (page' m : Nat), n ≤ m ∧ t.ar.imageSeq = m + 1
                ∧ s.flash.at k' page' = some (.keep m t.ru.keeps))
          ∧ (∀ k : Fin 2, c.failed = [] → s.flash.at k 0 = some .torn → (t.ar.keepSegs.get k).state = .stale))

/-- DATA_PAGE_WRITE, when granted: the page goes to the next page of the ACTIVE segment; it holds items from the head of the write queue, as
many as fit while those that need a directory place find one, and then in NORMAL staged cells in order, as many as fit, in blocks of one
pitch with consecutive indices, a block beginning at the first cell, at a gap and at a change of pitch; the whole page is within 4,064
bytes and is not empty; without an item it is full, or 256 cells are staged, or the head of staging has aged; nothing leaves staging and
nothing is yet on the flash (R65, R67, R71, R74).
STAGING_AGE_EXPIRY: the head of staging has aged 1,000 ms, so that a partial page is due; nothing else changes (R67). -/
def Obligations.DataPageIsFormedFromQueueAndStaging : Prop :=
  (∀ (s : State) (g : SegEntry), canWriteData s = true → activeSeg s = some g →
        ∃ (t : State) (items : List WriteItem) (blocks : List PageItem) (n used : Nat), exec .dataPageWrite s = .next t
          ∧ t.ar.pageWrite = some ⟨g.num, g.written, items.map PageItem.item ++ blocks, n, s.now⟩
          ∧ items = s.ar.writeQueue.take items.length
          ∧ (∀ i w, items[i]? = some w → needsPlace s w = true → placesUsed s + (items.take i).countP (needsPlace s) < 16384)
          ∧ (∀ w, s.ar.writeQueue[items.length]? = some w →
              4064 < (items.map WriteItem.room).sum + w.room
                ∨ needsPlace s w = true ∧ 16384 ≤ placesUsed s + items.countP (needsPlace s))
          ∧ n ≤ s.cx.staging.length ∧ (s.ar.stage ≠ .normal → n = 0)
          ∧ blocks.flatMap PageItem.namedCells = (s.cx.staging.take n).map (fun c => (c.pitch, c.index, c.entries))
          ∧ (∀ b ∈ blocks, ∃ p first cells, b = .cells p first cells ∧ cells ≠ [])
          ∧ (∀ i p first cells q next more, blocks[i]? = some (.cells p first cells) → blocks[i + 1]? = some (.cells q next more) →
              q ≠ p ∨ next ≠ first + cells.length)
          ∧ used = ((items.map PageItem.item ++ blocks).map PageItem.room).sum ∧ used ≤ 4064
          ∧ (∀ c, s.ar.stage = .normal → s.cx.staging[n]? = some c →
              (∃ d, 0 < n ∧ s.cx.staging[n - 1]? = some d ∧ d.pitch = c.pitch ∧ c.index = d.index + 1 ∧ 4064 < used + c.room)
                ∨ 4064 < used + 16 + c.room)
          ∧ (items = [] → 0 < n ∧ (n < s.cx.staging.length ∨ (∃ c ∈ s.cx.staging, 4064 < used + c.room)
              ∨ 256 ≤ s.cx.staging.length ∨ stagingAged s = true))
          ∧ t.ar.lastServed = .write ∧ t.cx = s.cx ∧ FlashSame s t ∧ t.tiu = s.tiu ∧ t.ca = s.ca
          ∧ (s.bi.looped = [] → t.ar.writeQueue.Sublist (s.ar.writeQueue.drop items.length)))
    ∧ (∀ (s : State) (cell : StagedCell) (rest : List StagedCell), s.cx.staging = cell :: rest →
        ∃ t, exec .stagingAgeExpiry s = .next t ∧ t = { s with now := max s.now (cell.retired + 1000000) } ∧ stagingAged t = true)

/-- What rests on the model's choices: cell ranges by pitch (log entry 15), segment sets (log entry 16), a record whose sequence has an
entry already (log entry 17).
PAGE_WRITE_COMPLETE: 1 ms after its issue the page stands in the flash under its segment's sequence, every other page reads as
before, and its cells have left staging (R67, R68, R56).
PAGE_WRITE_COMPLETE of a page with one new output record: its directory entry appears with the record's location, in place of any
entry under its ID (R68, R69, R70); the case where the page does not fill its segment and no reclaim is demanded.
PAGE_WRITE_COMPLETE of a segment's last page: the segment becomes USED and an activation is made (R68, R80); the case of an empty closing
list.
PAGE_WRITE_COMPLETE before the last page, with nothing else to settle: the segment's written count rises, and its cell ranges take in the
page's cells and no others (R68). With one new input record its entry appears, and its segment joins the set of every output entry that
names it (R70). With one freeze mark the entries of its output sequence take FROZEN and the segment, and the pending freeze ends (R101).
With one amended output or input record the entry points to the new revision and takes its ID and flags, FROZEN never lost, or none is made
when it is gone; a commit in progress ends CLOSED with AMEND-DONE, or LOCKED EXPIRED with AMEND-LOCK (R70, R101, R107). -/
def Obligations.CompletedPageStandsAndIsFiled : Prop :=
  (∀ (s : State) (w : PageWrite) (g : SegEntry), s.ar.pageWrite = some w → segEntry s w.seg = some g → w.page < 256 →
        ∃ t, exec .pageWriteComplete s = .next t ∧ t.now = max s.now (w.began + 1000) ∧ t.ar.pageWrite = none
          ∧ t.flash.at w.seg w.page = some (.data g.seq w.items)
          ∧ (∀ seg page, page < 256 → (seg ≠ w.seg ∨ page ≠ w.page) → t.flash.at seg page = s.flash.at seg page)
          ∧ t.cx.staging <+: s.cx.staging.drop w.cells ∧ t.cx.front = s.cx.front ∧ t.cx.window = s.cx.window ∧ t.tiu = s.tiu)
    ∧ (∀ (s : State) (w : PageWrite) (g : SegEntry) (r : OutputRecord), s.ar.pageWrite = some w → segEntry s w.seg = some g →
        w.page < 255 → w.items = [.item (.output r)] → needsPlace s (.output r) = true → s.ca.closing = [] → s.bi.looped = [] →
        5 ≤ freeCount s → s.ar.outs.length + s.ar.ins.length < 16000 → s.ar.writeQueue = [] →
        ∃ t e, exec .pageWriteComplete s = .next t ∧ outById t r.id = some e ∧ e.seq = r.seq ∧ e.loc = ⟨w.seg, w.page, 0⟩
          ∧ e.c0 = r.c0 ∧ e.c1 = r.c1 ∧ e.lane = r.lane ∧ e.flags = r.flags ∧ e.revision = r.revision
          ∧ e.refs = r.segments.map (fun p => p.ref) ∧ w.seg ∈ e.segSet)
    ∧ (∀ (s : State) (w : PageWrite) (g : SegEntry), s.ar.pageWrite = some w → segEntry s w.seg = some g → w.page = 255 → s.ca.closing = [] →
        ∃ u h, exec .pageWriteComplete s
              = .next (settle (if w.items.any (fun i => match i with | .item (.output r) => needsPlace s (.output r) | _ => false)
                  then reclaimMoment (activate u) else activate u))
          ∧ segEntry u w.seg = some h ∧ h.state = .used ∧ h.seq = g.seq ∧ h.written = 256
          ∧ (∀ n, n ≠ w.seg → segEntry u n = segEntry s n) ∧ u.ar.segSeq = s.ar.segSeq ∧ u.ar.stage = s.ar.stage)
    ∧ (∀ (s : State) (w : PageWrite) (g : SegEntry), s.ar.pageWrite = some w → segEntry s w.seg = some g → w.page < 255 → Unhurried s →
        (w.items.length ≤ 300 →
          ∃ t h, exec .pageWriteComplete s = .next t ∧ segEntry t w.seg = some h ∧ h.state = g.state ∧ h.seq = g.seq
            ∧ h.written = w.page + 1
            ∧ (∀ pitch first block i, .cells pitch first block ∈ w.items → i < block.length →
                ∃ r ∈ h.cells, r.pitch = pitch ∧ r.lowest ≤ first + i ∧ first + i ≤ r.highest)
            ∧ (∀ r ∈ g.cells, ∃ q ∈ h.cells, q.pitch = r.pitch ∧ q.lowest ≤ r.lowest ∧ r.highest ≤ q.highest)
            ∧ (∀ q ∈ h.cells,
                ((∃ r ∈ g.cells, r.pitch = q.pitch ∧ r.lowest = q.lowest)
                  ∨ ∃ first block i, .cells q.pitch first block ∈ w.items ∧ i < block.length ∧ first + i = q.lowest)
                ∧ ((∃ r ∈ g.cells, r.pitch = q.pitch ∧ r.highest = q.highest)
                  ∨ ∃ first block i, .cells q.pitch first block ∈ w.items ∧ i < block.length ∧ first + i = q.highest)))
          ∧ (∀ i : InputRecord, w.items = [.item (.input i)] → needsPlace s (.input i) = true →
            ∃ t, exec .pageWriteComplete s = .next t
              ∧ t.ar.ins = s.ar.ins ++ [⟨i.seq, ⟨w.seg, w.page, 0⟩, i.revision, i.id, i.lin, i.w0, i.w1, i.estimated, i.long⟩]
              ∧ t.ar.outs.map (fun e => (e.id, e.seq, e.loc, e.flags)) = s.ar.outs.map (fun e => (e.id, e.seq, e.loc, e.flags))
              ∧ ∀ e ∈ t.ar.outs, some i.seq ∈ e.refs → w.seg ∈ e.segSet)
          ∧ (∀ seq id, w.items = [.item (.freezeMark seq id)] →
            ∃ t, exec .pageWriteComplete s = .next t ∧ t.ru.freezes = s.ru.freezes.erase seq ∧ t.ar.ins = s.ar.ins
              ∧ t.ar.outs.map (fun e => (e.id, e.seq, e.loc, e.flags)) = s.ar.outs.map (fun e =>
                  (e.id, e.seq, e.loc, { e.flags with frozen := e.flags.frozen || decide (e.seq = seq) }))
              ∧ ∀ e ∈ t.ar.outs, e.seq = seq → w.seg ∈ e.segSet)
          ∧ (∀ r old, w.items = [.item (.amendedOutput r old)] →
            ∃ t, exec .pageWriteComplete s = .next t ∧ CommitEnds .output r.seq (s.ar.outs.any (isAmended r old)) s t
              ∧ t.ar.ins = s.ar.ins ∧ t.ar.expired = s.ar.expired ∧ t.ru.freezes = s.ru.freezes
              ∧ t.ar.outs.map (fun e => (e.seq, e.id, e.loc, e.revision, e.flags)) = s.ar.outs.map (fun e =>
                  if isAmended r old e then
                    (e.seq, r.id, ⟨w.seg, w.page, 0⟩, r.revision, { r.flags with frozen := r.flags.frozen || e.flags.frozen })
                  else (e.seq, e.id, e.loc, e.revision, e.flags))
              ∧ ∀ e ∈ t.ar.outs, e.loc.seg ∈ e.segSet)
          ∧ (∀ i : InputRecord, w.items = [.item (.amendedInput i)] →
            ∃ t, exec .pageWriteComplete s = .next t ∧ CommitEnds .input i.seq (inBySeq s i.seq).isSome s t
              ∧ t.ar.ins = s.ar.ins.map (fun e => if e.seq = i.seq then
                  { e with loc := ⟨w.seg, w.page, 0⟩, revision := i.revision, id := i.id, estimated := i.estimated, long := i.long } else e)
              ∧ t.ar.outs.map (fun e => (e.id, e.seq, e.loc, e.flags)) = s.ar.outs.map (fun e => (e.id, e.seq, e.loc, e.flags))))

/-- RECORD_READ_COMPLETE: a page that fails its check ends the pull NOT-FOUND with its pin released; otherwise the context holds the
record with the directory entry's flags and its grid, and its first record is its LEVEL record (R141, R142). That the flags are those of
the entry as copied at admission is the model's choice: log entry 19.
The 28 bytes of a LEVEL record (R142, R217). -/
def Obligations.RecordReadGivesTheContextItsRecord : Prop :=
  (∀ (s : State) (r : Reading) (c : Fin 6) (x : PullContext) (e : OutEntry), s.ar.reading = some r → r.discarded = false →
    r.request.reader = .record c → ctxAt s c = some x → x.entry = some e → s.bi.looped = [] →
    (∃ t, exec (.recordReadComplete true) s = .next t ∧ t.ar.reading = none
        ∧ ctxAt t c = some { x with phase := .closing, result := .notFound, pin := none })
      ∧ ∀ seq items record grid clamped, s.flash.at r.request.seg r.request.page = some (.data seq items) →
          items[e.loc.place]? = some (.item (.output record)) → record.seq = e.seq →
          x.form.gridOn (record.c1 - record.c0) = some (grid, clamped) →
          ∃ t y, exec (.recordReadComplete false) s = .next t ∧ t.ar.reading = none ∧ ctxAt t c = some y
            ∧ y.record = some { record with flags := e.flags } ∧ y.grid = some grid ∧ y.clamped = clamped
            ∧ y.requester = x.requester ∧ y.tag = x.tag
            ∧ (x.relay = [] → x.placed = 0 →
                y.relay.head? = some (levelRecord s { x with clamped := clamped } e { record with flags := e.flags } grid)))
    ∧ (∀ (s : State) (x : PullContext) (e : OutEntry) (r : OutputRecord) (g : Grid) (d : List Byte), x.level ≤ 7 → r.id.length ≤ 16 →
        r.c1 - r.c0 ≤ 4000000 → r.pitch ≤ 200 → s.cx.channels.length ≤ 16 → r.segments.length ≤ 8 → r.lane.getD 0 ≤ 8 →
        1 ≤ g.n → g.n ≤ 256 → d = levelRecord s x e r g →
        d.length = 28 ∧ natAt d 0 1 = 16 + x.level ∧ natAt d 1 1 = s.bi.node.toNat
          ∧ slice d 2 16 = r.id ++ List.replicate (16 - r.id.length) 0 ∧ natAt d 18 4 = r.c1 - r.c0
          ∧ ((byteAt d 22).getLsbD 7 = r.flags.incomplete ∧ (byteAt d 22).getLsbD 6 = r.flags.broken
            ∧ (byteAt d 22).getLsbD 5 = r.flags.forced ∧ (byteAt d 22).getLsbD 4 = r.flags.noTrend
            ∧ (byteAt d 22).getLsbD 3 = r.flags.stationNamed ∧ (byteAt d 22).getLsbD 2 = r.flags.frozen
            ∧ (byteAt d 22).getLsbD 1 = r.flags.amended ∧ (byteAt d 22).getLsbD 0 = r.flags.overflow)
          ∧ ((byteAt d 23).getLsbD 0 = isKept s r.id ∧ (byteAt d 23).getLsbD 1 = isKeptPartial s r.id
            ∧ (byteAt d 23).getLsbD 2 = x.clamped ∧ (byteAt d 23).toNat < 8)
          ∧ natAt d 24 1 = (if e.firstBlock.isSome then r.pitch else 0) ∧ natAt d 25 1 = s.cx.channels.length
          ∧ natAt d 26 1 = r.lane.getD 0 * 16 + r.segments.length ∧ natAt d 27 1 = g.n - 1)

/-- Which page comes next rests on log entries 15 and 54, a cell of another channel count on log entry 40.
CELL_PAGE_READ_COMPLETE: the page's cells are added to the accumulators, those of a page that fails are passed over; the next page is
asked for while one remains and the last owned cell is not reached; the reading of cells ends where no page remains, and with the page
that reaches the last owned cell (R144; that it ends with that page is log entry 27). The page that ends the reading is added too: the own
records that follow are made from the accumulators with it, as many as the relay buffer has room for; when the last is placed, the pin is
released, the accumulators are discarded and LOCAL ends, and until then they are kept (R142 to R144, R172). The BIN records stand bin by
bin, and within a bin channel by channel, behind the LEVEL and the CHAN records (R144). -/
def Obligations.CellPageIsAddedAndTheNextAskedFor : Prop :=
  (∀ (s : State) (r : Reading) (failed : Bool) (c : Fin 6) (x : PullContext) (e : OutEntry) (record : OutputRecord) (grid : Grid)
    (items : List PageItem) (blocks : List (Nat × List (List CellEntry))) (accums : List (List Accum)),
    s.ar.reading = some r → r.discarded = false → r.request.reader = .cells c → ctxAt s c = some x → x.entry = some e →
    x.record = some record → x.grid = some grid →
    items = (if failed then [] else (dataItems (s.flash.at r.request.seg r.request.page)).getD []) →
    blocks = blocksOf record.pitch items → accums = blocks.foldl (fun a b => addBlock grid record b.1 b.2 a) x.accums →
    ((∀ b ∈ blocks, b.1 + b.2.length < cellFrom record.c1 record.pitch) → ∀ seg page, nextCellPage s x e record = some (seg, page) →
        exec (.cellPageReadComplete failed) s
          = .next (settle (setCtx c (some { x with accums := accums, readAt := some (seg, page) }) { s with
              now := max s.now (r.began + 100)
              ar.reading := none
              ar.readQueue := s.ar.readQueue ++ [⟨seg, page, .cells c⟩] })))
      ∧ ((∃ b ∈ blocks, cellFrom record.c1 record.pitch ≤ b.1 + b.2.length) ∨ nextCellPage s x e record = none → s.bi.looped = [] →
          ∃ t y, exec (.cellPageReadComplete failed) s = .next t ∧ t.ar.reading = none ∧ ctxAt t c = some y ∧ y.cellsRead = true
            ∧ ∀ own room, own = (ownRecords s { x with accums := accums, cellsRead := true }).drop x.placed → room = 64 - x.relay.length →
                y.relay = x.relay ++ own.take room
                  ∧ (x.phase = .localRecords →
                      (own.length ≤ room → (y.phase = .segments ∨ y.phase = .closing) ∧ y.accums = [] ∧ y.pin = none)
                        ∧ (room < own.length →
                            y.phase = .localRecords ∧ y.accums = accums ∧ y.placed = x.placed + room ∧ y.pin = x.pin))))
    ∧ (∀ (s : State) (x : PullContext) (e : OutEntry) (record : OutputRecord) (grid : Grid) (j ch n : Nat), x.entry = some e →
        x.record = some record → x.grid = some grid → x.cellsRead = true → n = s.cx.channels.length → j < grid.n → ch < n →
        (ownRecords s x)[1 + n + (j * n + ch)]?
          = some (binRecord x.level s.bi.node (grid.f + j) ch ((x.accums.getD j []).getD ch .zero)))

/-- When the flash interface grants what: it is free when nothing is read or written and no erase runs; a ready keep image goes first, then
an erase that can begin, and reads alternate with data pages, the kind not served last going next, a read while none was served (R74).
PAGE_READ_START, when granted: the read at the head of the read queue begins, and a read is the kind served last
(R73, R74).
RECORD_READ_COMPLETE, CELL_PAGE_READ_COMPLETE, AMEND_READ_COMPLETE of a page whose asker is gone: the interface is free and the page
is discarded (R73).
AMEND_READ_COMPLETE: a page that fails its check locks the amendment READ-FAILED and raises AMEND-LOCK; otherwise the working copy
takes the stored record (R103). -/
def Obligations.GrantedAndDiscardedReads : Prop :=
  (∀ s : State,
      (interfaceFree s = true ↔ s.ar.pageWrite = none ∧ s.ar.reading = none ∧ s.ar.keepWrite = none ∧ s.ar.scan = none
          ∧ ∀ e, s.ar.erase = some e → e.phase = .suspended)
        ∧ (keepImageReady s = true ↔ s.ar.keepReady = true ∧ s.ar.keepWrite = none ∧ (keepTarget s).isSome = true)
        ∧ (dataPageReady s = true ↔ s.ar.pageWrite = none ∧ s.ar.scan = none ∧ (∃ g, activeSeg s = some g ∧ g.written < 256)
            ∧ ((planPage s).items ≠ [] ∨ 1 ≤ (planPage s).cells
                ∧ ((planPage s).full = true ∨ 256 ≤ s.cx.staging.length ∨ stagingAged s = true)))
        ∧ (canEraseBegin s = true ↔ interfaceFree s = true ∧ keepImageReady s = false ∧ s.ar.erase = none
            ∧ ((∃ k : Fin 2, (s.ar.keepSegs.get k).state = .stale) ∨ ∃ g ∈ s.ar.segs, g.state = .chosen))
        ∧ (canReadStart s = true ↔ interfaceFree s = true ∧ keepImageReady s = false ∧ canEraseBegin s = false
            ∧ s.ar.readQueue ≠ [] ∧ (dataPageReady s = true → s.ar.lastServed ≠ .read))
        ∧ (canWriteData s = true ↔ interfaceFree s = true ∧ keepImageReady s = false ∧ canEraseBegin s = false
            ∧ dataPageReady s = true ∧ (s.ar.readQueue ≠ [] → s.ar.lastServed = .read)))
    ∧ (∀ (s : State) (r : ReadRequest) (rest : List ReadRequest), canReadStart s = true → s.ar.readQueue = r :: rest →
        exec .pageReadStart s
          = .next { s with ar.reading := some ⟨r, s.now, false⟩, ar.readQueue := rest, ar.lastServed := .read })
    ∧ (∀ (s : State) (r : Reading) (failed : Bool), s.ar.reading = some r → r.discarded = true →
        (∀ c, r.request.reader = .record c →
            exec (.recordReadComplete failed) s = .next { s with ar.reading := none, now := max s.now (r.began + 100) })
          ∧ (∀ c, r.request.reader = .cells c →
              exec (.cellPageReadComplete failed) s = .next { s with ar.reading := none, now := max s.now (r.began + 100) })
          ∧ (r.request.reader = .amend →
              exec (.amendReadComplete failed) s = .next { s with ar.reading := none, now := max s.now (r.began + 100) }))
    ∧ (∀ (s u : State) (r : Reading) (a : Amending) (seq : Nat) (items : List PageItem), s.ar.reading = some r → r.discarded = false →
        r.request.reader = .amend → s.ru.amend = .opened a → u = { s with ar.reading := none, now := max s.now (r.began + 100) } →
        exec (.amendReadComplete true) s = .next (settle (raise .amendLock { u with ru.amend := .locked .readFailed }))
          ∧ (s.flash.at r.request.seg r.request.page = some (.data seq items) →
              (∀ e record, a.kind = .output → amendedEntry s a = some e → items[e.loc.place]? = some (.item (.output record)) →
                record.seq = a.seq →
                exec (.amendReadComplete false) s
                  = .next (settle { u with ru.amend := .opened { a with copy := some (.output record) } }))
              ∧ (∀ e record, a.kind = .input → inBySeq s a.seq = some e → items[e.loc.place]? = some (.item (.input record)) →
                record.seq = a.seq →
                exec (.amendReadComplete false) s
                  = .next (settle { u with ru.amend := .opened { a with copy := some (.input record) } }))))

/-- KEEP_IMAGE_WRITE, when ready and the interface free: the keep list as it stands is written to the next page of the CURRENT keep
segment while that has one, under the next image sequence; with none CURRENT to page 0 of the lowest-numbered SPARE one, and it waits
while neither is SPARE (R85, R86, R87).
KEEP_IMAGE_WRITE_COMPLETE: 1 ms after its issue the image stands in the flash, every other page reads as before, its segment is
CURRENT, and a segment that was CURRENT before it is STALE (R85, R86). -/
def Obligations.KeepImagesAreWrittenInTurn : Prop :=
  (∀ (s : State) (k : Fin 2), interfaceFree s = true → s.ar.keepReady = true → (s.ar.keepSegs.get k).state = .current →
        (s.ar.keepSegs.get (1 - k)).state ≠ .current →
        ((s.ar.keepSegs.get k).written < 256 →
            exec .keepImageWrite s = .next { s with
              ar.keepWrite := some ⟨k, (s.ar.keepSegs.get k).written, s.ar.imageSeq, s.ru.keeps, s.now⟩
              ar.keepReady := false
              ar.imageSeq := s.ar.imageSeq + 1 })
          ∧ (256 ≤ (s.ar.keepSegs.get k).written → (s.ar.keepSegs.get (1 - k)).state = .spare →
              exec .keepImageWrite s = .next { s with
                ar.keepWrite := some ⟨1 - k, 0, s.ar.imageSeq, s.ru.keeps, s.now⟩
                ar.keepReady := false
                ar.imageSeq := s.ar.imageSeq + 1 })
          ∧ (256 ≤ (s.ar.keepSegs.get k).written → (s.ar.keepSegs.get (1 - k)).state ≠ .spare → exec .keepImageWrite s = .next s))
    ∧ (∀ s : State, interfaceFree s = true → s.ar.keepReady = true → (∀ k : Fin 2, (s.ar.keepSegs.get k).state ≠ .current) →
        (∀ k : Fin 2, (s.ar.keepSegs.get k).state = .spare → (∀ j, j < k → (s.ar.keepSegs.get j).state ≠ .spare) →
            exec .keepImageWrite s = .next { s with
              ar.keepWrite := some ⟨k, 0, s.ar.imageSeq, s.ru.keeps, s.now⟩
              ar.keepReady := false
              ar.imageSeq := s.ar.imageSeq + 1 })
          ∧ ((∀ k : Fin 2, (s.ar.keepSegs.get k).state ≠ .spare) → exec .keepImageWrite s = .next s))
    ∧ (∀ (s : State) (w : KeepWrite), s.ar.keepWrite = some w → w.page < 256 →
        ∃ t, exec .keepImageWriteComplete s = .next t ∧ t.now = max s.now (w.began + 1000) ∧ t.ar.keepWrite = none
          ∧ t.flash.at w.seg w.page = some (.keep w.imageSeq w.entries)
          ∧ (∀ seg page, page < 256 → (seg ≠ w.seg ∨ page ≠ w.page) → t.flash.at seg page = s.flash.at seg page)
          ∧ t.ar.keepSegs.get w.seg = ⟨.current, w.page + 1⟩
          ∧ t.ar.keepSegs.get (1 - w.seg) = (if (s.ar.keepSegs.get (1 - w.seg)).state = .current
              then { s.ar.keepSegs.get (1 - w.seg) with state := .stale } else s.ar.keepSegs.get (1 - w.seg))
          ∧ t.ru = s.ru ∧ t.pp = s.pp)

/-- ERASE_BEGIN, when granted: a segment that waits for erase, a keep segment before a data segment, becomes ERASING, and its erase time
runs from 0 (R74, R75). Which of several is a free value: log entry 32.
ERASE_SUSPEND_ORDER, ERASE_SUSPEND_COMPLETE, ERASE_RESUME: with something waiting a suspension is ordered once 5 ms have run, it
completes at the latest 0.2 ms later, the erase time then stands still, and it runs on once nothing waits (R75, R76). The moment of the
completion within the 0.2 ms is a free value: log entry 9.
ERASE_COMPLETE: at 400 ms of erase time every page of the segment reads erased and every other page as before; a keep segment
becomes SPARE, a data segment FREE when no activation waits for it (R76, R77).
ERASE_COMPLETE of a data segment moves the stage: NORMAL stands; RECORD-ONLY becomes NORMAL with two or more FREE; FULL becomes RECORD-ONLY
with the FREE segment ACTIVE as a new reserve; an activation that waits is then made (at a data segment's erase, the model's reading: log
entry 57), and the completion is a moment of reclaim choice (R77, R80, R83). -/
def Obligations.ErasesRunAreSuspendedAndComplete : Prop :=
  (∀ s : State, canEraseBegin s = true →
        ∃ t, ∃ n ∈ eraseCandidates s, exec .eraseBegin s = .next t ∧ t.ar.erase = some ⟨n, .running, 0, s.now⟩ ∧ t.flash = s.flash
          ∧ (2 ≤ n → (∀ k : Fin 2, (s.ar.keepSegs.get k).state ≠ .stale)
              ∧ t.ar.segs = s.ar.segs.map (fun g => if g.num = n then { g with state := .erasing } else g))
          ∧ (∀ k : Fin 2, k.val = n → (t.ar.keepSegs.get k).state = .erasing)
          ∧ t.pp = s.pp ∧ t.ru = s.ru ∧ t.now = s.now)
    ∧ (∀ (s : State) (e : Erase), s.ar.erase = some e →
        (∀ t, e.phase = .running → somethingWaits s = true → t = max s.now (e.since + 5000) → t < e.since + (400000 - e.total) →
            ∃ complete, t ≤ complete ∧ complete ≤ t + 200
              ∧ exec .eraseSuspendOrder s = .next { s with
                  now := t, ar.erase := some { e with phase := .suspending t complete }, free := s.free + 1 })
          ∧ (∀ t ordered complete, e.phase = .suspending ordered complete → t = min s.now (ordered + 200) →
              t < e.since + (400000 - e.total) →
              exec .eraseSuspendComplete s = .next { s with
                ar.erase := some { e with phase := .suspended, total := e.total + (t - e.since), since := s.now } })
          ∧ (e.phase = .suspended → interfaceFree s = true → somethingWaits s = false →
              exec .eraseResume s = .next { s with ar.erase := some { e with phase := .running, since := s.now } }))
    ∧ (∀ (s : State) (e : Erase), s.ar.erase = some e → e.phase = .running →
        ∃ t, exec .eraseComplete s = .next t ∧ t.ar.erase = none ∧ t.now = max s.now (e.since + (400000 - e.total))
          ∧ (∀ page, page < 256 → t.flash.at e.seg page = none)
          ∧ (∀ seg page, page < 256 → seg ≠ e.seg → t.flash.at seg page = s.flash.at seg page)
          ∧ (∀ k : Fin 2, k.val = e.seg → t.ar.keepSegs.get k = ⟨.spare, 0⟩)
          ∧ (2 ≤ e.seg → s.bi.looped = [] → s.ar.stage = .normal → s.ar.activationWaits = false → segEntry t e.seg = none))
    ∧ (∀ (s u : State) (e : Erase), s.ar.erase = some e → e.phase = .running → 2 ≤ e.seg →
        u = { s with
          now := max s.now (e.since + (400000 - e.total))
          flash := s.flash.eraseSeg e.seg
          ar.erase := none
          ar.segs := s.ar.segs.filter (fun g => g.num != e.seg) } →
        (s.ar.stage = .normal ∨ s.ar.stage = .recordOnly ∧ freeCount u < 2 →
          exec .eraseComplete s = .next (settle (reclaimMoment (if s.ar.activationWaits then activate u else u))))
          ∧ (s.ar.stage = .recordOnly → 2 ≤ freeCount u → ∀ v, v = { u with ar.stage := .normal } →
              exec .eraseComplete s = .next (settle (reclaimMoment (if s.ar.activationWaits then activate v else v))))
          ∧ (s.ar.stage = .full → 1 ≤ freeCount u →
              exec .eraseComplete s = .next (settle (reclaimMoment (handReady (afterTrendStop (afterActivation u)))))))

/-- What follows every event that touches the archive changes the archive's tables and queues, the pending freezes, the amendment and
the flags of R84 and R206 alone, and with nothing to settle it changes nothing (R71, R77, R84).
A moment of reclaim choice: with fewer than 4 segments FREE or the directory full, and no segment CHOSEN or ERASING, the eligible segment
of the lowest sequence becomes CHOSEN: a USED one that holds no data of a kept or pinned coil and no cell at or above a coil that is open,
closing or awaiting write; the entries with data in it leave the directory, and the IDs of the output entries enter the expired list, 256
at most, in directory order by the model's choice (log entry 47; cell ranges, sets, the moment of a drop and CHOSEN after a scan: log
entries 15, 16, 31, 32); a waiting amendment read of it fails (R72, R73, R77, R78, R79).
The frame of the flash's commands but the scan's: the line's inputs and counts, the configuration and the node address stand; the
flash changes at a completed write or erase alone; no flag changes but ARCHIVE-LOW, ARCHIVE-FULL, AMEND-DONE and AMEND-LOCK. -/
def Obligations.FlashCommandsAndSettlingLeaveTheRest : Prop :=
  (∀ s : State,
        (∃ segs outs ins expired writes reads freezes amend flags, settleArchive s = { s with
            ar := { s.ar with segs := segs, outs := outs, ins := ins, expired := expired, writeQueue := writes, readQueue := reads }
            ru := { s.ru with freezes := freezes, amend := amend }
            pp.flags := flags })
          ∧ OnlyFlags [.archiveLow, .archiveFull, .amendLock] s (settleArchive s)
          ∧ (archiveLowHolds (settleArchive s) = true → flagSet .archiveLow (settleArchive s) = true)
          ∧ (archiveFullHolds (settleArchive s) = true → flagSet .archiveFull (settleArchive s) = true)
          ∧ (Quiet s → settleArchive s = s) ∧ (s.bi.looped = [] → settle s = settleArchive s))
    ∧ (∀ s : State,
        (reclaimDemand s = true ↔ freeCount s < 4 ∨ 16384 ≤ placesUsed s)
          ∧ (reclaimInHand s = true ↔ ∃ g ∈ s.ar.segs, g.state = .chosen ∨ g.state = .erasing)
          ∧ (∀ g, eligible s g = true ↔ g.state = .used ∧ (∀ e ∈ s.ar.outs, isKept s e.id = true → g.num ∉ e.segSet)
              ∧ (∀ c x, ctxAt s c = some x → g.num ∉ pinnedSegs s x)
              ∧ ∀ r ∈ g.cells, ∀ c0 ∈ liveStarts s, (2 * r.highest + 1) * r.pitch < 2 * c0)
          ∧ (∀ c0, c0 ∈ liveStarts s ↔ (∃ o ∈ s.ca.openCoils, o.c0 = c0) ∨ (∃ r ∈ s.ca.closing, r.c0 = c0)
              ∨ ∃ r, .output r ∈ awaiting s ∧ r.c0 = c0)
          ∧ (lowestEligible s = none ↔ ∀ g ∈ s.ar.segs, eligible s g = false)
          ∧ (reclaimDemand s = false ∨ reclaimInHand s = true ∨ lowestEligible s = none → reclaimMoment s = s)
          ∧ (∀ g u gone, lowestEligible s = some g → gone = s.ar.outs.filter (fun e => decide (g.num ∈ e.segSet)) → u = reclaimMoment s →
              g ∈ s.ar.segs ∧ eligible s g = true ∧ (∀ h ∈ s.ar.segs, eligible s h = true → g.seq ≤ h.seq)
                ∧ (reclaimDemand s = true → reclaimInHand s = false →
                    segEntry u g.num = some { g with state := .chosen } ∧ (∀ n, n ≠ g.num → segEntry u n = segEntry s n)
                      ∧ u.ar.outs = s.ar.outs.filter (fun e => decide (g.num ∉ e.segSet))
                      ∧ u.ar.ins = s.ar.ins.filter (fun e => decide (e.loc.seg ≠ g.num))
                      ∧ (gone = [] → u.ar.expired = s.ar.expired)
                      ∧ (∀ l, gone ≠ [] → l = s.ar.expired ++ gone.map (fun e => e.id) → u.ar.expired = l.drop (l.length - 256))
                      ∧ (∀ a r, r ∈ s.ar.readQueue → r.reader = .amend → r.seg = g.num → s.ru.amend = .opened a →
                          u.ru.amend = .locked .readFailed ∧ flagSet .amendLock u = true ∧ r ∉ u.ar.readQueue)
                      ∧ u.flash = s.flash ∧ u.ca = s.ca ∧ u.cx = s.cx ∧ u.pe = s.pe ∧ u.ar.writeQueue = s.ar.writeQueue)))
    ∧ (∀ (c : Instr) (s t : State), exec c s = .next t →
        (c = .dataPageWrite ∨ c = .pageReadStart ∨ (∃ f, c = .recordReadComplete f) ∨ (∃ f, c = .cellPageReadComplete f)
            ∨ (∃ f, c = .amendReadComplete f) ∨ c = .keepImageWrite ∨ c = .eraseBegin ∨ c = .eraseSuspendOrder ∨ c = .eraseSuspendComplete
            ∨ c = .eraseResume ∨ c = .stagingAgeExpiry ∨ c = .pageWriteComplete ∨ c = .keepImageWriteComplete ∨ c = .eraseComplete) →
        t.tiu = s.tiu ∧ t.bi.node = s.bi.node ∧ t.bi.lastSource = s.bi.lastSource ∧ t.pp = { s.pp with flags := t.pp.flags }
          ∧ t.cx.front = s.cx.front ∧ t.cx.window = s.cx.window ∧ t.cx.channels = s.cx.channels
          ∧ OnlyFlags [.archiveLow, .archiveFull, .amendDone, .amendLock] s t
          ∧ (c ≠ .pageWriteComplete → c ≠ .keepImageWriteComplete → c ≠ .eraseComplete → FlashSame s t))

/-! ### The trend bus: frames received -/

/-- SEEK to KEPT and FRAME_DISCARDED: a frame whose CRC does not match leaves all but the silence count; one that matches and then fails
another test sets the last-source register alone (R182, R184, R186, R187). That a source above 31 leaves the register is log entry 25, and
that the silence stands while the station transmits log entry 44: both the model's choice.
Which frames pass the tests after the CRC: the source is 1 to 31, the destination this node, or 0 for a SEEK alone, and the payload
length is one of the kind's (R182, R183, R184). -/
def Obligations.DiscardedFramesReachNoBlock : Prop :=
  (∀ (kind : FrameKind) (f : Frame) (s u : State), u = { s with bi.silence := if s.bi.tx.isNone then some s.now else s.bi.silence } →
        (crcMatches kind f = false → exec (frameCommand kind f) s = .next u)
          ∧ (crcMatches kind f = true → isForUs s.bi.node kind f = false → f.src.toNat ≤ 31 →
              exec (frameCommand kind f) s = .next { u with bi.lastSource := senderOf f })
          ∧ (crcMatches kind f = true → 31 < f.src.toNat → exec (frameCommand kind f) s = .next u)
          ∧ (∀ body : List Byte, 6 ≤ body.length → 31 < (byteAt body 1).toNat →
              exec (.frameDiscarded true (body ++ beBytes 2 (frameCrc body).toNat)) s = .next u)
          ∧ (∀ bytes, exec (.frameDiscarded false bytes) s = .next u)
          ∧ (∀ body : List Byte, 6 ≤ body.length → (byteAt body 1).toNat ≤ 31 →
              exec (.frameDiscarded true (body ++ beBytes 2 (frameCrc body).toNat)) s
                  = .next { u with bi.lastSource := BitVec.ofNat 5 (byteAt body 1).toNat }
                ∧ ∀ crc : Word16, crc ≠ frameCrc body → exec (.frameDiscarded true (body ++ beBytes 2 crc.toNat)) s = .next u))
    ∧ (∀ (node : Node) (f : Frame) (kind : FrameKind),
        (isForUs node kind f = true ↔
          (1 ≤ f.src.toNat ∧ f.src.toNat ≤ 31)
            ∧ ((f.dest = 0 ∧ kind = .seek) ∨ (f.dest ≠ 0 ∧ f.dest.toNat = node.toNat))
            ∧ lengthConsistent kind f.payload = true)
          ∧ (lengthConsistent .bins f.payload = true ↔ ∃ k, 1 ≤ k ∧ k ≤ 8 ∧ f.payload.length = 28 * k)
          ∧ (lengthConsistent .pull f.payload = true ↔
              (f.payload.length = 30 ∧ byteAt f.payload 0 = 1) ∨ (f.payload.length = 52 ∧ byteAt f.payload 0 = 2))
          ∧ (∀ p ∈ [(FrameKind.seek, 17), (.own, 23), (.mark, 4), (.done, 17), (.wait, 0), (.go, 0), (.stop, 0), (.keep, 20),
              (.unkeep, 20), (.kept, 18)], lengthConsistent p.1 f.payload = true ↔ f.payload.length = p.2))

/-- SEEK: in RUN, from another node, for a coil the station knows, it is answered by an OWN with the tag, the ID, the status, the length
and the FROZEN and KEPT marks, AMENDED by the model's reading not among them (log entry 58); otherwise nothing is offered (R133).
OWN: the running locate whose tag and ID it carries takes one answer from each node; the head task's locate likewise (R135). -/
def Obligations.SeekIsAnsweredAndOwnIsCollected : Prop :=
  (∀ (f : Frame) (s : State) (id : CoilId), Passes .seek f s → countedId f.payload = some id →
        (∀ st len, s.pp.station = .run → senderOf f ≠ s.bi.node → ownStatus s id = some (st, len) →
            exec (.seek f) s = .next (settle (send
              ⟨senderOf f, .own, f.tag, countedBytes id ++ [st.code] ++ beBytes 4 len
                ++ [bitIf ((outById s id).any (fun e => e.flags.frozen)) 0 ||| bitIf (isKept s id) 1], .general, .nobody⟩ (heard f s))))
          ∧ (s.pp.station ≠ .run ∨ senderOf f = s.bi.node ∨ ownStatus s id = none →
              exec (.seek f) s = .next (settle (heard f s)))
          ∧ (id ≠ [] →
              (∀ e, outById s id = some e → ownStatus s id = some (.stored, e.c1 - e.c0))
              ∧ (outById s id = none → ∀ r, closingById s id = some r → ownStatus s id = some (.closing, r.c1 - r.c0))
              ∧ (outById s id = none → closingById s id = none → ∀ c, openByName s id = some c →
                  ownStatus s id = some (.opened, runCoord s - c.c0))
              ∧ (outById s id = none → closingById s id = none → openByName s id = none →
                  ownStatus s id = if id ∈ s.ar.expired then some (.expired, 0) else none)))
    ∧ (∀ (f : Frame) (s : State) (id : CoilId) (st : OwnStatus) (l l' : Locate), Passes .own f s →
        countedId (f.payload.take 17) = some id → byteAt f.payload 17 = st.code → l.began.isSome = true → s.bi.looped = [] →
        ((∃ b ∈ l.answers, b.node = senderOf f) → l' = l) →
        ((∀ b ∈ l.answers, b.node ≠ senderOf f) →
          l' = { l with answers := l.answers ++ [⟨senderOf f, st, natAt f.payload 18 4⟩] }) →
        (∀ k x, slotAt s k = some x → x.phase = .seeking (some l) → x.tag = f.tag → x.parent = id →
            ∃ t, exec (.own f) s = .next t ∧ slotAt t k = some { x with phase := .seeking (some l') })
          ∧ (∀ h task rest, s.ru.head = some h → s.ru.tasks = task :: rest → h.phase = .locating l → h.tag = f.tag → task.parent = id →
              ∃ t, exec (.own f) s = .next t ∧ t.ru.head = some { h with phase := .locating l' })
          ∧ (∀ k x, slotAt s k = some x → x.tag ≠ f.tag ∨ x.parent ≠ id →
              ∃ t, exec (.own f) s = .next t ∧ slotAt t k = some x))

/-- PULL: its admission by the first row of R138's table that applies; admitted, it takes the lowest FREE context, with the depth held to
7 − level, and RESOLVE pins a STORED coil and asks for its record, or ends the pull with the coil's status (R137, R138, R140, R141; the
entry is copied at admission: log entry 19). -/
def Obligations.PullIsAdmittedOrRefused : Prop :=
  ∀ (f : Frame) (s : State) (level depth : Nat) (form : PullForm), Passes .pull f s → level = natAt f.payload 18 1 →
    depth = natAt f.payload 19 1 → form = pullForm f.payload →
    (s.pp.station ≠ .run →
        exec (.pull f) s = .next (settle (send (refusalDone (senderOf f) f.tag .notReady (min 7 level)) (heard f s))))
      ∧ (s.pp.station = .run → 7 < level →
          exec (.pull f) s = .next (settle (send (refusalDone (senderOf f) f.tag .badRequest 7) (heard f s))))
      ∧ (s.pp.station = .run → level ≤ 7 →
          ((∃ c x, ctxAt s c = some x ∧ x.requester = senderOf f ∧ x.tag = f.tag) →
            exec (.pull f) s = .next (settle (heard f s)))
          ∧ ((∀ c x, ctxAt s c = some x → x.requester ≠ senderOf f ∨ x.tag ≠ f.tag) →
            ((∀ c, (ctxAt s c).isSome = true) →
              exec (.pull f) s = .next (settle (send (refusalDone (senderOf f) f.tag .busy level) (heard f s))))
            ∧ ∀ c, ctxAt s c = none → (∀ d, d < c → (ctxAt s d).isSome = true) →
                ∀ id x, countedId (slice f.payload 1 17) = some id → x = PullContext.admitted (senderOf f) f.tag id form level depth →
                  (x.requester = senderOf f ∧ x.tag = f.tag ∧ x.coil = id ∧ x.form = form ∧ x.level = level
                      ∧ x.depth = (if 7 < level + depth then 7 - level else depth))
                  ∧ (∀ e g, id ≠ [] → outById s id = some e → form.gridOn (e.c1 - e.c0) = some g →
                    exec (.pull f) s = .next (settle (setCtx c (some { x with entry := some e, pin := some e.segSet })
                      { heard f s with ar.readQueue := s.ar.readQueue ++ [⟨e.loc.seg, e.loc.page, .record c⟩] })))
                  ∧ (∀ e, id ≠ [] → outById s id = some e → form.gridOn (e.c1 - e.c0) = none →
                    exec (.pull f) s = .next (settle (reclaimMoment
                      (setCtx c (some { x with phase := .closing, result := .badRequest }) (heard f s)))))
                  ∧ (∀ st len result, ownStatus s id = some (st, len) → outById s id = none →
                    (st, result) ∈ [(OwnStatus.closing, DoneStatus.closing), (.opened, .opened), (.expired, .expired)] →
                    exec (.pull f) s = .next (settle (setCtx c (some { x with phase := .closing, result := result }) (heard f s))))
                  ∧ (ownStatus s id = none → outById s id = none →
                    exec (.pull f) s
                      = .next (settle (setCtx c (some { x with phase := .closing, result := .notFound }) (heard f s))))))

/-- BINS for a PULLING fetch: a record of a deeper level is relayed and counted, a LEVEL record opening the relaying; a record not deeper is
counted and not relayed; for no such fetch the frame is discarded (R148, R149, R166, R172); the case of one record and a buffer that stays
below 48.
BINS that raises the buffer to 48 or more in RUNNING offers WAIT to the owner: accepted, the flow is WAITED and the silence timer stands;
refused, WAIT-OWED (R173, R176). A record that finds the buffer full is dropped and not counted, a LEVEL record closing the relaying (R149,
R166, R172); the cases of one record.
A BINS frame formed from the buffer that leaves 16 or fewer: an owed WAIT is withdrawn, and in WAITED GO is offered and the flow is
RELEASING; above 16, and in RUNNING and RELEASING, the flow stands (R174).
MARK for a PULLING fetch: the first of sequence, count and CRC that differs is the context's first error when it has none, a count of 0 or
above 128 failing its check; the check resets to the MARK's sequence plus 1, count 0 and the seed (R154, R167, R176, R216). -/
def Obligations.BinsAreRelayedAndMarksChecked : Prop :=
  (∀ (f : Frame) (s : State), Passes .bins f s →
        (slotFor s (senderOf f) f.tag = none → exec (.bins f) s = .next (settle (heard f s)))
          ∧ ∀ k x p c y, slotFor s (senderOf f) f.tag = some k → slotAt s k = some x → x.phase = .pulling p → x.context = some c →
              ctxAt s c = some y → f.payload.length = 28 → y.relay.length < 47 →
              (∀ kind lvl, kind = (byteAt f.payload 0).toNat / 16 → lvl = (byteAt f.payload 0).toNat % 16 →
                (y.level < lvl → lvl ≤ 7 → kind = 1 ∨ (p.relayOpen = true ∧ (kind = 2 ∨ kind = 3)) →
                  exec (.bins f) s = .next (settle (setCtx c (some { y with relay := y.relay ++ [f.payload] })
                    (setSlot k (some { x with phase := .pulling { p with
                      received := p.received + 1, crc := burstCrcRecord p.crc f.payload, relayOpen := true
                      silence := p.silence.map (fun _ => s.now) } }) (heard f s)))))
                ∧ (lvl ≤ y.level ∨ (p.relayOpen = false ∧ (kind = 2 ∨ kind = 3)) →
                  exec (.bins f) s = .next (settle (setCtx c (some y)
                    (setSlot k (some { x with phase := .pulling { p with
                      received := p.received + 1, crc := burstCrcRecord p.crc f.payload
                      silence := p.silence.map (fun _ => s.now) } }) (heard f s)))))))
    ∧ (∀ (f : Frame) (s u : State) k x p q c y kind lvl, Passes .bins f s → slotFor s (senderOf f) f.tag = some k → slotAt s k = some x →
        x.phase = .pulling p → x.context = some c → ctxAt s c = some y → f.payload.length = 28 →
        kind = (byteAt f.payload 0).toNat / 16 → lvl = (byteAt f.payload 0).toNat % 16 → y.level < lvl → lvl ≤ 7 →
        (kind = 1 → 47 ≤ y.relay.length → y.relay.length < 64 → p.flow = .running → senderOf f ≠ s.bi.node →
          q = { p with
            received := p.received + 1, crc := burstCrcRecord p.crc f.payload, relayOpen := true
            silence := p.silence.map (fun _ => s.now) } →
          u = setCtx c (some { y with relay := y.relay ++ [f.payload] })
            (setSlot k (some { x with phase := .pulling q }) (heard f s)) →
          (s.bi.queue.length < 32 → exec (.bins f) s
              = .next (settle (setSlot k (some { x with phase := .pulling { q with flow := .waited, silence := none } }) { u with
                  bi.queue := s.bi.queue ++ [⟨senderOf f, .wait, x.tag, [], .context, .slot k⟩] })))
            ∧ (32 ≤ s.bi.queue.length → exec (.bins f) s
              = .next (settle (setSlot k (some { x with phase := .pulling { q with flow := .waitOwed } }) { u with
                  bi.offers := s.bi.offers ++ [⟨senderOf f, .wait, x.tag, [], .context, .slot k⟩] }))))
          ∧ (y.relay.length = 64 → p.flow ≠ .running → kind = 1 ∨ p.relayOpen = true ∧ (kind = 2 ∨ kind = 3) →
            exec (.bins f) s = .next (settle (setCtx c (some y) (setSlot k (some { x with phase := .pulling { p with
              relayOpen := decide (kind ≠ 1), silence := p.silence.map (fun _ => s.now) } }) (heard f s))))))
    ∧ (∀ (s u : State) (c : Fin 6) (x : PullContext) (k : Fin 8) (y : FetchSlot) (p : Pulling), ctxAt s c = some x → x.slot = some k →
        slotAt s k = some y → y.phase = .pulling p → x.relay ≠ [] → (∀ b, x.burst = some b → b.frames ≠ 16) → u = (formFrame c x s).2 →
        (24 < x.relay.length ∨ p.flow = .running ∨ p.flow = .releasing → slotAt u k = some y ∧ u.bi = s.bi)
          ∧ (x.relay.length ≤ 24 → p.flow = .waitOwed →
              slotAt u k = some { y with phase := .pulling { p with flow := .running } } ∧ u.bi.queue = s.bi.queue
                ∧ ∀ g, g ∈ u.bi.offers ↔ g ∈ s.bi.offers ∧ ¬(g.owner = .slot k ∧ g.kind = .wait))
          ∧ (x.relay.length ≤ 24 → p.flow = .waited → s.bi.node ≠ 0 → y.owner.getD 0 ≠ s.bi.node →
              slotAt u k = some { y with phase := .pulling { p with flow := .releasing } }
                ∧ (s.bi.queue.length < 32 →
                    u.bi.queue = s.bi.queue ++ [⟨y.owner.getD 0, .go, y.tag, [], .context, .slot k⟩])
                ∧ (32 ≤ s.bi.queue.length →
                    u.bi.offers = s.bi.offers ++ [⟨y.owner.getD 0, .go, y.tag, [], .context, .slot k⟩])))
    ∧ (∀ (f : Frame) (s : State) k x p c y kind, Passes .mark f s → slotFor s (senderOf f) f.tag = some k → slotAt s k = some x →
        x.phase = .pulling p → x.context = some c → ctxAt s c = some y →
        kind = (if byteAt f.payload 0 ≠ p.expected then ErrorKind.burstSeq
          else if natAt f.payload 1 1 = 0 ∨ 128 < natAt f.payload 1 1 ∨ natAt f.payload 1 1 ≠ p.received then .burstCount
          else if natAt f.payload 2 2 ≠ p.crc.toNat then .burstCrc else .none) →
        exec (.mark f) s = .next (settle (setCtx c
          (some (if y.firstError.kind = .none ∧ kind ≠ .none
            then { y with firstError := ⟨kind, BitVec.ofNat 8 s.bi.node.toNat, BitVec.ofNat 8 y.level⟩ } else y))
          (setSlot k (some { x with phase := .pulling { p with
            expected := byteAt f.payload 0 + 1, received := 0, crc := burstSeed, silence := p.silence.map (fun _ => s.now) } })
            (heard f s)))))

/-- DONE: for a PULLING fetch on the last segment it frees the slot, adds the twelve counts and its own segment's status, each held at
255, and the context enters CLOSING; its first error, when it has none, is a BURST-COUNT for records received since the last MARK of a
COMPLETE stream, and otherwise the one that the DONE carries; for a DRAINING slot it frees the slot; for no slot it is ignored (R151, R152,
R145, R146, R154, R168, R216); the case where no context waits for a slot.
DONE with parent segments left (how one is settled: log entries 20 and 53): they are settled in order, each that ends with a status adding
1 to its count, up to the first that is fetched: it takes the lowest FREE slot, the one just freed among them, and a tag, the counter's
value with those still held passed over, and its SEEK is offered; with none fetched the further
segments count as UNTRACED and the context enters CLOSING (R132, R145, R146, R147). -/
def Obligations.DoneEndsTheFetch : Prop :=
  ∀ (f : Frame) (s : State), Passes .done f s → s.bi.looped = [] →
    (slotFor s (senderOf f) f.tag = none → exec (.done f) s = .next (settle (heard f s)))
      ∧ ∀ k x, slotFor s (senderOf f) f.tag = some k → slotAt s k = some x → s.pe.waiting = [] →
          (∀ left, x.phase = .draining left → ∃ t, exec (.done f) s = .next t ∧ slotAt t k = none ∧ t.pe.contexts = s.pe.contexts)
          ∧ ∀ p c y g r st, x.phase = .pulling p → x.context = some c → ctxAt s c = some y → y.grid = some g → y.record = some r →
              (byteAt f.payload 0 = 0 ∧ x.estimated = false ∧ x.long = false ∧ st = SegStatus.ok
                ∨ byteAt f.payload 0 = 0 ∧ (x.estimated = true ∨ x.long = true) ∧ st = .estimated
                ∨ (byteAt f.payload 0 = 1 ∨ byteAt f.payload 0 = 2) ∧ st = .timeout
                ∨ (byteAt f.payload 0 = 3 ∨ byteAt f.payload 0 = 4) ∧ st = .busy
                ∨ (byteAt f.payload 0 = 5 ∨ 9 ≤ (byteAt f.payload 0).toNat) ∧ st = .notFound
                ∨ byteAt f.payload 0 = 6 ∧ st = .expired ∨ byteAt f.payload 0 = 7 ∧ st = .closing
                ∨ byteAt f.payload 0 = 8 ∧ st = .opened) →
              (r.segments.length ≤ y.cursor → r.further = 0 →
              ∃ t z, exec (.done f) s = .next t ∧ slotAt t k = none ∧ ctxAt t c = some z ∧ z.phase = .closing ∧ z.slot = none
                ∧ z.relay = y.relay
                ∧ z.firstError = (if y.firstError.kind ≠ .none then y.firstError
                    else if byteAt f.payload 0 = 0 ∧ p.received ≠ 0
                      then ⟨.burstCount, BitVec.ofNat 8 s.bi.node.toNat, BitVec.ofNat 8 y.level⟩
                    else if byteAt f.payload 14 = 1 then ⟨.burstCrc, byteAt f.payload 15, byteAt f.payload 16⟩
                    else if byteAt f.payload 14 = 2 then ⟨.burstSeq, byteAt f.payload 15, byteAt f.payload 16⟩
                    else if byteAt f.payload 14 = 3 then ⟨.burstCount, byteAt f.payload 15, byteAt f.payload 16⟩
                    else y.firstError)
                ∧ ∀ i : Fin 12, z.counts.get i = min 255 (min 255 (y.counts.get i + natAt f.payload (2 + i.val) 1)
                    + if i = st.place then 1 else 0))
              ∧ ∀ ends, ends = segmentEnds s y.depth g r y.cursor →
                (ends.all Settled.unfetched = true →
                  ∃ t z, exec (.done f) s = .next t ∧ slotAt t k = none ∧ ctxAt t c = some z ∧ z.phase = .closing ∧ z.slot = none
                    ∧ z.fetch = none ∧ z.relay = y.relay
                    ∧ ∀ i : Fin 12, z.counts.get i = min 255 (y.counts.get i + natAt f.payload (2 + i.val) 1
                        + (if i = st.place then 1 else 0) + ends.countP (Settled.countsAt i)
                        + if i = SegStatus.untraced.place then r.further else 0))
                ∧ ∀ before plan after, ends = before ++ .fetch plan :: after → before.all Settled.unfetched = true →
                  ∃ t z j tag, exec (.done f) s = .next t ∧ ctxAt t c = some z ∧ z.phase = y.phase
                    ∧ z.cursor = y.cursor + before.length + 1 ∧ z.slot = some j ∧ z.fetch = some plan ∧ z.relay = y.relay
                    ∧ (j = k ∨ slotAt s j = none) ∧ j ≤ k ∧ (∀ m, slotAt s m = none → j ≤ m)
                    ∧ TagTaken s k tag ∧ slotAt t j = some (slotFromPlan s c tag plan) ∧ (j ≠ k → slotAt t k = none)
                    ∧ t.pe.tagCounter = tag + 1
                    ∧ (s.bi.queue.length < 32 →
                        t.bi.queue.getLast? = some ⟨0, .seek, tag, countedBytes plan.parent, .context, .slot j⟩)
                    ∧ (32 ≤ s.bi.queue.length →
                        t.bi.offers.getLast? = some ⟨0, .seek, tag, countedBytes plan.parent, .context, .slot j⟩)
                    ∧ ∀ i : Fin 12, z.counts.get i = min 255 (y.counts.get i + natAt f.payload (2 + i.val) 1
                        + (if i = st.place then 1 else 0) + before.countP (Settled.countsAt i))

/-- WAIT: the context of the source and tag is paused, its pause limit running from the WAIT that set the mark; GO: the mark is cleared;
neither acts on another context (R169, R170). -/
def Obligations.WaitPausesAndGoResumes : Prop :=
  ∀ (f : Frame) (s : State),
    (Passes .wait f s → ctxFor s (senderOf f) f.tag = none → exec (.wait f) s = .next (settle (heard f s)))
      ∧ (Passes .go f s → ctxFor s (senderOf f) f.tag = none → exec (.go f) s = .next (settle (heard f s)))
      ∧ ∀ c x, ctxFor s (senderOf f) f.tag = some c → ctxAt s c = some x →
          (x.requester = senderOf f ∧ x.tag = f.tag)
            ∧ (Passes .wait f s → exec (.wait f) s
                = .next (settle (setCtx c (some { x with paused := some (x.paused.getD s.now) }) (heard f s))))
            ∧ (Passes .go f s → exec (.go f) s = .next (settle (setCtx c (some { x with paused := none }) (heard f s))))

/-- STOP: the context of the source and tag is freed, its reads and its place in the fetch-wait queue gone, and with a free place in the
control queue a DONE STOPPED with its counts and first error as they stand is queued for the requester; PAUSE_LIMIT ends a paused context
the same way with ABANDONED, 5 s after it was paused (R155, R156, R171).
With a PULLING fetch a STOP goes to the owner, or waits when the queue has no place, and the slot becomes DRAINING without a context; with
a SEEKING fetch the slot returns to FREE at once, or is taken by the head of the fetch-wait queue; the DONE goes behind, or is dropped when
the queue has no place (R146, R152, R155, R191). -/
def Obligations.StopAndPauseLimitEndTheContext : Prop :=
  ∀ (s u : State) (c : Fin 6) (x : PullContext) (command : Instr) (result : DoneStatus), ctxAt s c = some x →
    ((∃ f, command = .stop f ∧ Passes .stop f s ∧ ctxFor s (senderOf f) f.tag = some c ∧ result = .stopped ∧ u = heard f s)
      ∨ (∃ began, command = .pauseLimit c ∧ x.paused = some began ∧ result = .abandoned
          ∧ u = { s with now := max s.now (began + 5000000) })) →
    ∃ t, exec command s = .next (settle t) ∧ t.now = u.now ∧ t.ca = s.ca ∧ t.cx = s.cx ∧ t.tiu = s.tiu
      ∧ (x.slot = none → ctxAt t c = none ∧ (∀ d, d ≠ c → ctxAt t d = ctxAt s d)
          ∧ (∀ r ∈ t.ar.readQueue, r.reader ≠ .record c ∧ r.reader ≠ .cells c) ∧ c ∉ t.pe.waiting
          ∧ (s.bi.node ≠ 0 → x.requester ≠ s.bi.node → s.bi.queue.length < 32 →
              t.bi.queue.getLast? = some ⟨x.requester, .done, x.tag, donePayload result x.level x.counts x.firstError, .context, .nobody⟩))
      ∧ (∀ k y p, x.slot = some k → slotAt s k = some y → y.phase = .pulling p → s.bi.node ≠ 0 → y.owner.getD 0 ≠ s.bi.node →
          x.requester ≠ s.bi.node → ∀ stop done, stop = ⟨y.owner.getD 0, .stop, y.tag, [], .context, .slot k⟩ →
          done = ⟨x.requester, .done, x.tag, donePayload result x.level x.counts x.firstError, .context, .nobody⟩ →
          ctxAt t c = none ∧ slotAt t k = some { y with context := none, phase := .draining none }
            ∧ (s.bi.queue.length ≤ 30 → t.bi.queue.drop s.bi.queue.length = [stop, done])
            ∧ (s.bi.queue.length = 31 → t.bi.queue.drop 31 = [stop])
            ∧ (32 ≤ s.bi.queue.length → t.bi.queue.length = s.bi.queue.length ∧ t.bi.offers.getLast? = some stop))
      ∧ (∀ k y l waiting done, x.slot = some k → slotAt s k = some y → y.phase = .seeking l → s.bi.node ≠ 0 → x.requester ≠ s.bi.node →
          waiting = s.pe.waiting.filter (fun d => d != c) →
          done = ⟨x.requester, .done, x.tag, donePayload result x.level x.counts x.firstError, .context, .nobody⟩ →
          ctxAt t c = none
            ∧ (waiting = [] → slotAt t k = none ∧ t.pe.waiting = [] ∧ (∀ d, d ≠ c → ctxAt t d = ctxAt s d)
                ∧ (s.bi.queue.length < 32 → t.bi.queue.drop s.bi.queue.length = [done]))
            ∧ ∀ d rest w next, waiting = d :: rest → ctxAt s d = some w → w.fetch = some next →
                ∃ tag, TagTaken s k tag ∧ slotAt t k = some (slotFromPlan s d tag next) ∧ ctxAt t d = some { w with slot := some k }
                  ∧ t.pe.waiting = rest ∧ t.pe.tagCounter = tag + 1
                  ∧ (s.bi.queue.length ≤ 30 →
                      t.bi.queue.drop s.bi.queue.length = [⟨0, .seek, tag, countedBytes next.parent, .context, .slot k⟩, done]))

/-- KEEP: NOT-READY outside RUN; in RUN, a STORED coil with no rename under commit is entered in the keep list, answered OK and an image
write made ready, an entry already held answering OK and a full list FULL with nothing changed, the case where nothing propagates; a coil
not STORED answers EXPIRED or NOT-FOUND (R85, R93).
UNKEEP: NOT-READY outside RUN; an entry held is removed, answered OK and an image write made ready, the case where nothing
propagates; one not held answers NOT-KEPT (R95).
KEEP that adds an entry forms one KEEP task for each parent ID: the present IDs of the input entries that its parent segments name, in
their order, each ID once; they join the queue at the tail, and the first of the queue begins when no task is worked; a task that finds 16
held is dropped and the entry becomes PARTIAL. UNKEEP of a coil in the directory removes the entry and forms UNKEEP tasks in the same way,
one that finds 16 held being dropped with nothing marked. UNKEEP's answer takes the next place of the bus queue, before what its task
offers, by the model's choice: log entry 42.
The case with no reclaim demanded (R94, R95, R96). -/
def Obligations.KeepAndUnkeepChangeTheKeepList : Prop :=
  (∀ (f : Frame) (s : State) (id : CoilId) (node : Node) (number : Nat) (answer : Byte → OutFrame), Passes .keep f s →
        countedId (f.payload.take 17) = some id → natAt f.payload 17 1 ≤ 31 → node = BitVec.ofNat 5 (natAt f.payload 17 1) →
        number = natAt f.payload 18 2 → (∀ b, answer b = ⟨senderOf f, .kept, f.tag, countedBytes id ++ [b], .general, .nobody⟩) →
        (s.pp.station ≠ .run → exec (.keep f) s = .next (settle (send (answer 5) (heard f s))))
          ∧ (s.pp.station = .run →
              (underRename s id = true → exec (.keep f) s = .next (settle (send (answer 1) (heard f s))))
              ∧ (underRename s id = false →
                  (outById s id = none →
                    exec (.keep f) s = .next (settle (send (answer (if id ∈ s.ar.expired then 2 else 1)) (heard f s))))
                  ∧ ∀ e, outById s id = some e →
                      (hasKeep s id node number = true → exec (.keep f) s = .next (settle (send (answer 0) (heard f s))))
                      ∧ (hasKeep s id node number = false → 64 ≤ s.ru.keeps.length →
                          exec (.keep f) s = .next (settle (send (answer 3) (heard f s))))
                      ∧ (hasKeep s id node number = false → s.ru.keeps.length < 64 → (∀ r ∈ e.refs, r = none) → s.ru.tasks = [] →
                          exec (.keep f) s = .next (settle (send (answer 0) (reclaimMoment { heard f s with
                            ru.keeps := s.ru.keeps ++ [⟨id, node, number, false⟩]
                            ar.keepReady := true })))))))
    ∧ (∀ (f : Frame) (s : State) (id : CoilId) (node : Node) (number : Nat) (answer : Byte → OutFrame), Passes .unkeep f s →
        countedId (f.payload.take 17) = some id → natAt f.payload 17 1 ≤ 31 → node = BitVec.ofNat 5 (natAt f.payload 17 1) →
        number = natAt f.payload 18 2 → (∀ b, answer b = ⟨senderOf f, .kept, f.tag, countedBytes id ++ [b], .general, .nobody⟩) →
        (s.pp.station ≠ .run → exec (.unkeep f) s = .next (settle (send (answer 5) (heard f s))))
          ∧ (s.pp.station = .run → hasKeep s id node number = false →
              exec (.unkeep f) s = .next (settle (send (answer 4) (heard f s))))
          ∧ (s.pp.station = .run → hasKeep s id node number = true → outById s id = none →
              ∃ keeps, exec (.unkeep f) s = .next (settle (send (answer 0) (reclaimMoment { heard f s with
                  ru.keeps := keeps, ar.keepReady := true })))
                ∧ ∀ k, k ∈ keeps ↔ k ∈ s.ru.keeps ∧ ¬(k.id = id ∧ k.node = node ∧ k.number = number)))
    ∧ (∀ (f : Frame) (s : State) (id : CoilId) (node : Node) (number : Nat) (e : OutEntry), Passes .keep f s →
        countedId (f.payload.take 17) = some id → natAt f.payload 17 1 ≤ 31 → node = BitVec.ofNat 5 (natAt f.payload 17 1) →
        number = natAt f.payload 18 2 → s.pp.station = .run → underRename s id = false → outById s id = some e →
        hasKeep s id node number = false → s.ru.keeps.length < 64 → reclaimDemand s = false → senderOf f ≠ s.bi.node →
        s.bi.looped = [] →
        s.ru.tasks.length ≤ 16 → ∀ tasks, tasks = s.ru.tasks ++ (parentIds s e).map (fun parent => ⟨parent, node, number, .keep, id⟩) →
            ∃ t, exec (.keep f) s = .next t ∧ t.ru.keeps = s.ru.keeps ++ [⟨id, node, number, decide (16 < tasks.length)⟩]
              ∧ t.ru.tasks = tasks.take 16 ∧ t.ar.keepReady = true
              ∧ (s.ru.head = none → t.ru.head.isSome = !tasks.isEmpty) ∧ (s.ru.head.isSome = true → t.ru.head = s.ru.head))
    ∧ (∀ (f : Frame) (s : State) (id : CoilId) (node : Node) (number : Nat) (e : OutEntry), Passes .unkeep f s →
        countedId (f.payload.take 17) = some id → natAt f.payload 17 1 ≤ 31 → node = BitVec.ofNat 5 (natAt f.payload 17 1) →
        number = natAt f.payload 18 2 → s.pp.station = .run → outById s id = some e → hasKeep s id node number = true →
        reclaimDemand s = false → senderOf f ≠ s.bi.node → s.bi.looped = [] →
        s.ru.tasks.length ≤ 16 → ∀ tasks, tasks = s.ru.tasks ++ (parentIds s e).map (fun parent => ⟨parent, node, number, .unkeep, id⟩) →
            ∃ t, exec (.unkeep f) s = .next t
              ∧ t.ru.keeps = s.ru.keeps.filter (fun k => decide (¬(k.id = id ∧ k.node = node ∧ k.number = number)))
              ∧ t.ru.tasks = tasks.take 16 ∧ t.ar.keepReady = true
              ∧ (s.ru.head = none → t.ru.head.isSome = !tasks.isEmpty) ∧ (s.ru.head.isSome = true → t.ru.head = s.ru.head)
              ∧ (s.bi.node ≠ 0 → s.bi.queue.length < 20 → t.bi.queue[s.bi.queue.length]?
                  = some ⟨senderOf f, .kept, f.tag, countedBytes id ++ [0], .general, .nobody⟩))
    ∧ (∀ (s : State) (e : OutEntry),
        (∀ id, id ∈ parentIds s e ↔ id ≠ [] ∧ ∃ seq i, some seq ∈ e.refs ∧ inBySeq s seq = some i ∧ i.id = id)
          ∧ (parentIds s e).Nodup
          ∧ (parentIds s e).Sublist (e.refs.filterMap (fun r => r.bind (fun seq => (inBySeq s seq).map (fun i => i.id)))))

/-- KEPT: one from the owner found, with the task's tag and parent ID, ends the head task; OK leaves the source entry, any other status
marks the source of a KEEP task PARTIAL, the entry found by the triple (the model's reading: log entry 49); one that differs is ignored;
REPLY_WINDOW_EXPIRY fails the task 200 ms after its frame left
(R97, R98); the case where no other task waits. -/
def Obligations.KeptOrExpiryEndsTheTask : Prop :=
  ∀ (s : State) (h : TaskHead) (task : Task) (owner : Node) (began : Option Nat), s.ru.head = some h → s.ru.tasks = [task] →
    h.phase = .awaiting owner began → s.bi.looped = [] →
    (∀ f, Passes .kept f s →
        (owner = senderOf f → h.tag = f.tag → countedId (f.payload.take 17) = some task.parent →
          ∃ t, exec (.kept f) s = .next t ∧ t.ru.tasks = [] ∧ t.ru.head = none
            ∧ (byteAt f.payload 17 = 0 ∨ task.kind = .unkeep → t.ru.keeps = s.ru.keeps)
            ∧ (byteAt f.payload 17 ≠ 0 → task.kind = .keep → t.ru.keeps = s.ru.keeps.map (fun k =>
                if k.id = task.source ∧ k.node = task.node ∧ k.number = task.number then { k with keptPartial := true } else k)))
        ∧ (owner ≠ senderOf f ∨ h.tag ≠ f.tag ∨ countedId (f.payload.take 17) ≠ some task.parent →
          exec (.kept f) s = .next (settle (heard f s))))
      ∧ (∀ moment, began = some moment →
          ∃ t, exec .replyWindowExpiry s = .next t ∧ t.now = max s.now (moment + 200000) ∧ t.ru.tasks = [] ∧ t.ru.head = none
            ∧ (task.kind = .unkeep → t.ru.keeps = s.ru.keeps)
            ∧ (task.kind = .keep → t.ru.keeps = s.ru.keeps.map (fun k =>
                if k.id = task.source ∧ k.node = task.node ∧ k.number = task.number then { k with keptPartial := true } else k)))

/-! ### Windows, timers, streams and access -/

/-- The outcome of a locate's collection: one owner that is not EXPIRED decides by its status, several are AMBIGUOUS, none is EXPIRED or
NOT-FOUND (R136).
LOCATE_WINDOW_EXPIRY: 40 ms after the window began, a located fetch offers its MAPPED PULL to the owner and waits for it to leave; a
located task offers its KEEP or UNKEEP; a fetch that is not located frees its slot and its segment ends with the outcome's status
(R96, R97, R136, R147, R148); the case of the last segment and no waiting context. A task that is not located ends, and the source entry
of a KEEP task, found by the triple (the model's reading: log entry 49), becomes PARTIAL (R96, R98); the case of one task.
How a parent segment is settled, by the first row of R145's table: skipped for an empty clip, UNTRACED, PENDING (its reading is log entry
20; the cut of an eighth segment is log entry 53), EXPIRED, UNTRACED for an absent ID, skipped for an empty mapped clip, DEPTH, or fetched
with the hopped grid (R145).
A fetch that is not located while contexts wait for a slot: the head of the fetch-wait queue takes the slot and a tag (R132), and the
context whose fetch ended joins the tail when its next segment is fetched and no slot is FREE (R146, R147). -/
def Obligations.LocateWindowGivesTheOutcome : Prop :=
  (∀ (l : Locate) (live : List OwnAnswer), live = l.answers.filter (fun a => a.status ≠ .expired) →
        (∀ a, live = [a] → a.status = .stored → l.outcome = .located a.node)
          ∧ (∀ a, live = [a] → a.status = .closing → l.outcome = .failed .closing)
          ∧ (∀ a, live = [a] → a.status = .opened → l.outcome = .failed .opened)
          ∧ (2 ≤ live.length → l.outcome = .failed .ambiguous)
          ∧ (live = [] → l.outcome = .failed (if l.answers = [] then .notFound else .expired)))
    ∧ (∀ (s u : State) (began : Nat) (l : Locate), l.began = some began → u = { s with now := max s.now (began + 40000) } →
        (∀ k x c y owner, slotAt s k = some x → x.phase = .seeking (some l) → x.context = some c → ctxAt s c = some y →
            l.outcome = .located owner →
            exec (.locateWindowExpiry (.slot k)) s = .next (settle (send
              ⟨owner, .pull, x.tag, mappedPayload x.parent (y.level + 1) (y.depth - 1) x.lin x.grid, .context, .slot k⟩
              (setSlot k (some { x with owner := some owner, phase := .seeking none }) u))))
          ∧ (∀ h task rest owner kind, s.ru.head = some h → s.ru.tasks = task :: rest → h.phase = .locating l →
              l.outcome = .located owner →
              (task.kind = .keep ∧ kind = FrameKind.keep ∨ task.kind = .unkeep ∧ kind = .unkeep) →
              exec (.locateWindowExpiry .task) s = .next (settle (send
                ⟨owner, kind, h.tag, countedBytes task.parent ++ [BitVec.ofNat 8 task.node.toNat] ++ beBytes 2 task.number, .general, .task⟩
                { u with ru.head := some { h with phase := .awaiting owner none } })))
          ∧ (∀ k x c y st g r, slotAt s k = some x → x.phase = .seeking (some l) → x.context = some c → ctxAt s c = some y →
              l.outcome = .failed st → y.grid = some g → y.record = some r → r.segments.length ≤ y.cursor → r.further = 0 →
              s.pe.waiting = [] → s.bi.looped = [] →
              ∃ t z, exec (.locateWindowExpiry (.slot k)) s = .next t ∧ slotAt t k = none ∧ ctxAt t c = some z ∧ z.phase = .closing
                ∧ z.slot = none
                ∧ ∀ i : Fin 12, z.counts.get i = min 255 (y.counts.get i + if i = st.place then 1 else 0)
                    ∨ (i ≠ st.place ∧ i ≠ SegStatus.untraced.place ∧ z.counts.get i = y.counts.get i))
          ∧ (∀ h task st, s.ru.head = some h → s.ru.tasks = [task] → h.phase = .locating l → l.outcome = .failed st →
              s.bi.looped = [] →
              ∃ t, exec (.locateWindowExpiry .task) s = .next t ∧ t.ru.tasks = [] ∧ t.ru.head = none
                ∧ (task.kind = .unkeep → t.ru.keeps = s.ru.keeps)
                ∧ (task.kind = .keep → t.ru.keeps = s.ru.keeps.map (fun k =>
                    if k.id = task.source ∧ k.node = task.node ∧ k.number = task.number then { k with keptPartial := true } else k)))
          ∧ (∀ k x c y st g r d w next rest ends, slotAt s k = some x → x.phase = .seeking (some l) → x.context = some c →
              ctxAt s c = some y → l.outcome = .failed st → y.grid = some g → y.record = some r → s.pe.waiting = d :: rest → d ≠ c →
              ctxAt s d = some w → w.fetch = some next → s.bi.looped = [] → s.bi.node ≠ 0 →
              ends = segmentEnds s y.depth g r y.cursor →
              ∃ t z tag, exec (.locateWindowExpiry (.slot k)) s = .next t ∧ TagTaken s k tag ∧ slotAt t k = some (slotFromPlan s d tag next)
                ∧ ctxAt t d = some { w with slot := some k } ∧ ctxAt t c = some z
                ∧ (ends.all Settled.unfetched = true → t.pe.waiting = rest ∧ z.phase = .closing ∧ z.slot = none ∧ t.pe.tagCounter = tag + 1
                    ∧ (s.bi.queue.length < 32 →
                        t.bi.queue.getLast? = some ⟨0, .seek, tag, countedBytes next.parent, .context, .slot k⟩))
                ∧ (∀ before plan after, ends = before ++ .fetch plan :: after → before.all Settled.unfetched = true →
                    (∀ m, slotAt s m ≠ none) →
                    t.pe.waiting = rest ++ [c] ∧ z.phase = y.phase ∧ z.slot = none ∧ z.fetch = some plan
                      ∧ z.cursor = y.cursor + before.length + 1)))
    ∧ (∀ (s : State) (depth : Nat) (g : Grid) (r : OutputRecord) (index : Nat) (p : ParentSegment) (t1 x0 x1 : Int),
        t1 = segmentEnd r index p (p.ref.bind (inBySeq s)) → x0 = max g.u0 (256 * p.t0) → x1 = min g.u1 (256 * t1) →
        (x1 ≤ x0 → settleSegment s depth g r index p = .skipped)
          ∧ (x0 < x1 →
            (p.ref = none → settleSegment s depth g r index p = .status .untraced)
              ∧ ∀ seq, p.ref = some seq →
                (isPending s seq = true ↔ (∃ e ∈ s.ca.table, e.seq = seq) ∨ ∃ i, .input i ∈ awaiting s ∧ i.seq = seq)
                  ∧ (isPending s seq = true → settleSegment s depth g r index p = .status .pending)
                  ∧ (isPending s seq = false → inBySeq s seq = none → settleSegment s depth g r index p = .status .expired)
                  ∧ ∀ e q, isPending s seq = false → inBySeq s seq = some e → q = (HopData.mk r.c0 p.t0 t1 e.w0 e.w1 e.lin).hop g →
                      (e.id = [] → settleSegment s depth g r index p = .status .untraced)
                        ∧ (e.id ≠ [] → q.u1 ≤ q.u0 → settleSegment s depth g r index p = .skipped)
                        ∧ (e.id ≠ [] → q.u0 < q.u1 → depth = 0 → settleSegment s depth g r index p = .status .depth)
                        ∧ (e.id ≠ [] → q.u0 < q.u1 → depth ≠ 0 →
                            settleSegment s depth g r index p = .fetch ⟨e.id, e.lin, q, e.estimated, e.long⟩)))

/-- SILENCE_TIMEOUT: 1,500 ms without a frame stop the fetch: its slot drains without a context, STOP is offered to the owner, and the
segment ends TIMEOUT; DRAIN_TIMEOUT: 1,500 ms after the STOP left the slot is FREE (R152, R176); the case of the last segment and no
waiting context. -/
def Obligations.SilenceStopsAndDrainingFreesTheSlot : Prop :=
  ∀ (s : State) (k : Fin 8) (x : FetchSlot), slotAt s k = some x → s.bi.looped = [] →
    (∀ p began c y g r, x.phase = .pulling p → p.silence = some began → x.context = some c → ctxAt s c = some y → y.grid = some g →
        y.record = some r → r.segments.length ≤ y.cursor → s.bi.node ≠ 0 → x.owner.getD 0 ≠ s.bi.node →
        ∃ t z, exec (.silenceTimeout k) s = .next t ∧ t.now = max s.now (began + 1500000)
          ∧ slotAt t k = some { x with context := none, phase := .draining none }
          ∧ (s.bi.queue.length < 32 →
              t.bi.queue.getLast? = some ⟨x.owner.getD 0, .stop, x.tag, [], .context, .slot k⟩)
          ∧ ctxAt t c = some z ∧ z.phase = .closing ∧ z.slot = none
          ∧ z.counts.get SegStatus.timeout.place = min 255 (y.counts.get SegStatus.timeout.place + 1))
      ∧ (∀ left, x.phase = .draining (some left) → s.pe.waiting = [] →
          ∃ t, exec (.drainTimeout k) s = .next t ∧ t.now = max s.now (left + 1500000) ∧ slotAt t k = none
            ∧ t.pe.contexts = s.pe.contexts)

/-- RELAY_ROOM_RESUME: the context in LOCAL places its next records in order, as many as the relay buffer has room for (R144, R172; that
one event places all that fit is the model's choice: log entry 26); the case where records remain to be placed.
The 28 bytes of a CHAN and of a BIN record (R131, R143, R217).
The frame a context with one ready gives, by the first row of R160: BINS of up to 8 records from the relay buffer opens or goes on
with a burst of at most 16 frames, MARK closes it with the sequence, count and CRC, and DONE is formed with no burst open and no record
left (R160, R161, R162, R163).
LOOPBACK_DATA_FRAME: the frame of a context whose requester is this station is formed, reported as sent and looped, with nothing on
the pair; a DONE frees the context (R185, R190). -/
def Obligations.StreamFramesAreFormedAndLooped : Prop :=
  (∀ (s : State) (c : Fin 6) (x : PullContext) (room : Nat), ctxAt s c = some x → x.phase = .localRecords → room = 64 - x.relay.length →
        1 ≤ room → x.placed + room < (ownRecords s x).length →
        exec (.relayRoomResume c) s = .next (settle (setCtx c
          (some { x with relay := x.relay ++ ((ownRecords s x).drop x.placed).take room, placed := x.placed + room }) s)))
    ∧ (∀ (s : State) (c : Fin 6) (x : PullContext), ctxAt s c = some x → x.slot = none →
        (∀ b, x.burst = some b → x.relay = [] ∨ b.frames = 16 →
            formFrame c x s = (⟨x.requester, .mark, x.tag, [x.burstSeq, BitVec.ofNat 8 b.records] ++ beBytes 2 b.crc.toNat, .context,
                .context c⟩, setCtx c (some { x with burst := none, burstSeq := x.burstSeq + 1 }) s))
          ∧ (∀ b, (x.burst = some b ∧ b.frames ≠ 16 ∨ x.burst = none ∧ b = ⟨0, 0, burstSeed⟩) → x.relay ≠ [] →
              formFrame c x s = (⟨x.requester, .bins, x.tag, (x.relay.take 8).flatten, .context, .context c⟩,
                setCtx c (some { x with
                  relay := x.relay.drop 8
                  burst := some ⟨b.frames + 1, b.records + (x.relay.take 8).length, burstCrc b.crc (x.relay.take 8)⟩ }) s))
          ∧ (x.burst = none → x.relay = [] →
              formFrame c x s
                = (⟨x.requester, .done, x.tag, donePayload x.result x.level x.counts x.firstError, .context, .context c⟩, s)))
    ∧ (∀ (s : State) (c : Fin 6) (x : PullContext), ctxAt s c = some x → x.frameReady = true → x.requester = s.bi.node → s.bi.node ≠ 0 →
        x.slot = none →
        ∃ u formed, exec (.loopbackDataFrame c) s = .next (settle u) ∧ formFrame c x s = formed
          ∧ u.bi = { s.bi with looped := s.bi.looped ++ [formed.1] }
          ∧ (formed.1.kind = .done → ctxAt u c = none) ∧ (formed.1.kind ≠ .done → u.pe = formed.2.pe))
    ∧ (∀ (level : Nat) (node : Node) (number : Nat) (ch : Channel) (d : List Byte), level ≤ 7 → number ≤ 15 → ch.name.length ≤ 8 →
        -3 ≤ ch.scale → ch.scale ≤ 3 → d = chanRecord level node number ch →
        d.length = 28 ∧ natAt d 0 1 = 32 + level ∧ natAt d 1 1 = node.toNat ∧ natAt d 2 1 = number
          ∧ slice d 3 8 = ch.name ++ List.replicate (8 - ch.name.length) 0 ∧ byteAt d 11 = ch.unit ∧ intAt d 12 1 = ch.scale
          ∧ slice d 13 15 = List.replicate 15 0)
    ∧ (∀ (level : Nat) (node : Node) (bin number : Nat) (a : Accum) (d : List Byte), level ≤ 7 → bin ≤ 255 → number ≤ 15 →
        a.cells < 2 ^ 32 → a.count < 2 ^ 32 → (∀ v, a.least = some v ∨ a.greatest = some v → -32768 ≤ v ∧ v ≤ 32767) →
        -(2 ^ 47) ≤ a.sum → a.sum < 2 ^ 47 → d = binRecord level node bin number a →
        d.length = 28 ∧ natAt d 0 1 = 48 + level ∧ natAt d 1 1 = node.toNat ∧ natAt d 2 1 = bin ∧ natAt d 3 1 = number
          ∧ natAt d 4 4 = a.cells ∧ natAt d 8 4 = a.count
          ∧ (0 < a.count → intAt d 12 2 = a.least.getD 0 ∧ intAt d 14 2 = a.greatest.getD 0 ∧ intAt d 16 6 = a.sum)
          ∧ (a.count = 0 → intAt d 12 2 = 0 ∧ intAt d 14 2 = 0 ∧ intAt d 16 6 = 0)
          ∧ (byteAt d 22).getLsbD 0 = decide (a.count = 0) ∧ (byteAt d 22).getLsbD 1 = a.saturated ∧ (byteAt d 22).toNat < 4
          ∧ slice d 23 5 = List.replicate 5 0)

/-- ACCESS_WON: at the first of the node's own slots at or after the moment, the head of the control queue is sent; with an empty queue
a data frame of the first context after the pointer that has one ready for another node; a station strapped 0, one that transmits and
one without silence do not start (R179, R187, R188, R193, R194).
ACCESS_WON without silence on the pair does not start (R188; log entry 4).
CARRIER_SEEN: the silence count ends and nothing else changes (R188). -/
def Obligations.AccessSendsTheFirstFrame : Prop :=
  (∀ (s : State) (t moment : Nat), s.bi.silence = some t → moment = ownSlotStart s t s.now →
        (s.bi.node = 0 ∨ s.bi.tx.isSome = true → exec .accessWon s = .next s)
          ∧ (∃ n, moment = t + 10 + 10 * ((s.bi.node - s.bi.lastSource - 1).toNat + 32 * n) ∧ s.now ≤ moment
              ∧ ∀ m, s.now ≤ t + 10 + 10 * ((s.bi.node - s.bi.lastSource - 1).toNat + 32 * m) → n ≤ m)
          ∧ (s.bi.node ≠ 0 → s.bi.tx = none →
              (∀ f rest, s.bi.queue = f :: rest →
                exec .accessWon s = .next (settle { s with
                  now := max s.now moment
                  bi.tx := some ⟨f, frameBytes s.bi.node f, true, max s.now moment⟩
                  bi.silence := none }))
              ∧ (s.bi.queue = [] → (∀ c, hasDataFor s c = false) → exec .accessWon s = .next (settle { s with now := max s.now moment }))
              ∧ (∀ c x, s.bi.queue = [] → nextDataCtx s = some c → ctxAt s c = some x →
                  ∃ u formed, exec .accessWon s = .next (settle u) ∧ formFrame c x { s with now := max s.now moment } = formed
                    ∧ u.bi.tx = some ⟨formed.1, frameBytes s.bi.node formed.1, false, max s.now moment⟩ ∧ u.bi.pointer = c
                    ∧ u.bi.silence = none ∧ u.pe = formed.2.pe)))
    ∧ (∀ s : State, s.bi.silence = none → exec .accessWon s = .next s)
    ∧ (∀ s : State, exec .carrierSeen s = .next { s with bi.silence := none })

/-- A frame offered to the bus: finished at once at a station strapped 0, looped back when it is for the own node, queued at the tail
when its class has a free place, and otherwise dropped or held as its kind says (R179, R185, R190, R191).
FRAME_SENT: the frame is finished at its end, 4 µs for each byte and each of two delimiters after its beginning (log entry 33, the
model's reading; READBACK_MISMATCH falls at the clock's moment), the own address becomes the last source and the silence is counted from
there, and a control frame's place is freed; READBACK_MISMATCH: the frame is abandoned, BUS-FAULT raised and the last source left (R186,
R189, R190, R193); the case of a frame that no block awaits and no waiting offer.
What the report of a finished frame does: SEEK begins the locate window of its slot or task, PULL makes the slot PULLING, STOP begins its
limit, GO makes it RUNNING, KEEP and UNKEEP begin the reply window, DONE frees its context; a block that is gone or carries another tag is
left (R190). A place that a finished control frame frees goes to the oldest waiting offer whose class is accepted, and a WAIT owed is then
WAITED (R173, R192). -/
def Obligations.FramesAreQueuedSentOrAbandoned : Prop :=
  (∀ (f : OutFrame) (s : State),
        (s.bi.node = 0 → send f s = report f s)
          ∧ (s.bi.node ≠ 0 → f.dest = s.bi.node → (send f s).bi.queue = s.bi.queue ∧ (send f s).bi.looped = s.bi.looped ++ [f])
          ∧ (s.bi.node ≠ 0 → f.dest ≠ s.bi.node → f.cls = .context → s.bi.queue.length < 32 →
              send f s = { s with bi.queue := s.bi.queue ++ [f] })
          ∧ (s.bi.node ≠ 0 → f.dest ≠ s.bi.node → f.cls = .general → s.bi.queue.length < 20 →
              send f s = { s with bi.queue := s.bi.queue ++ [f] })
          ∧ (s.bi.node ≠ 0 → f.dest ≠ s.bi.node →
              (f.cls = .context ∧ 32 ≤ s.bi.queue.length ∨ f.cls = .general ∧ 20 ≤ s.bi.queue.length) →
              send f s = if f.kind = .own ∨ f.kind = .kept ∨ f.kind = .done then s else { s with bi.offers := s.bi.offers ++ [f] }))
    ∧ (∀ (s : State) (x : Transmit), s.bi.tx = some x → x.frame.owner = .nobody → s.bi.offers = [] →
        exec .frameSent s = .next (settle { s with
            now := max s.now (x.began + 4 * (x.bytes.length + 2))
            bi.tx := none
            bi.lastSource := s.bi.node
            bi.silence := some (max s.now (x.began + 4 * (x.bytes.length + 2)))
            bi.queue := if x.control then s.bi.queue.drop 1 else s.bi.queue })
          ∧ exec .readbackMismatch s = .next (settle (raise .busFault { s with
              bi.tx := none
              bi.silence := some s.now
              bi.queue := if x.control then s.bi.queue.drop 1 else s.bi.queue })))
    ∧ (∀ (f : OutFrame) (s : State),
        (f.owner = .nobody → report f s = s)
          ∧ (∀ c, f.owner = .context c → report f s = if f.kind = .done then setCtx c none s else s)
          ∧ (∀ k, f.owner = .slot k → slotAt s k = none → report f s = s)
          ∧ (∀ k x, f.owner = .slot k → slotAt s k = some x →
              (x.tag ≠ f.tag ∨ (f.kind ≠ .seek ∧ f.kind ≠ .pull ∧ f.kind ≠ .stop ∧ f.kind ≠ .go) → report f s = s)
                ∧ (∀ answers, x.tag = f.tag → f.kind = .seek → x.phase = .seeking (some ⟨none, answers⟩) →
                    report f s = setSlot k (some { x with phase := .seeking (some ⟨some s.now, answers⟩) }) s)
                ∧ (x.tag = f.tag → f.kind = .pull → x.phase = .seeking none →
                    report f s = setSlot k (some { x with phase := .pulling ⟨0, 0, 0x3A5C, .running, some s.now, false⟩ }) s)
                ∧ (x.tag = f.tag → f.kind = .stop → x.phase = .draining none →
                    report f s = setSlot k (some { x with phase := .draining (some s.now) }) s)
                ∧ (∀ p, x.tag = f.tag → f.kind = .go → x.phase = .pulling p → p.flow = .releasing →
                    report f s = setSlot k (some { x with phase := .pulling { p with flow := .running, silence := some s.now } }) s))
          ∧ (∀ h, f.owner = .task → s.ru.head = some h →
              (h.tag ≠ f.tag ∨ (f.kind ≠ .seek ∧ f.kind ≠ .keep ∧ f.kind ≠ .unkeep) → report f s = s)
                ∧ (∀ answers, h.tag = f.tag → f.kind = .seek → h.phase = .locating ⟨none, answers⟩ →
                    report f s = { s with ru.head := some { h with phase := .locating ⟨some s.now, answers⟩ } })
                ∧ (∀ owner, h.tag = f.tag → f.kind = .keep ∨ f.kind = .unkeep → h.phase = .awaiting owner none →
                    report f s = { s with ru.head := some { h with phase := .awaiting owner (some s.now) } })))
    ∧ (∀ (c : Instr) (s u : State) (x : Transmit) (m : Nat), s.bi.tx = some x → m = max s.now (x.began + 4 * (x.bytes.length + 2)) →
        (c = .frameSent ∧ u = report x.frame { s with now := m, bi.tx := none, bi.lastSource := s.bi.node, bi.silence := some m }
          ∨ c = .readbackMismatch ∧ u = report x.frame (raise .busFault { s with bi.tx := none, bi.silence := some s.now })) →
        (x.control = false → exec c s = .next (settle u))
          ∧ (x.control = true → (∀ f ∈ s.bi.offers, enters f (s.bi.queue.length - 1) = false) →
              exec c s = .next (settle { u with bi.queue := s.bi.queue.drop 1 }))
          ∧ (∀ before f after, x.control = true → s.bi.offers = before ++ f :: after →
              (∀ g ∈ before, enters g (s.bi.queue.length - 1) = false) → enters f (s.bi.queue.length - 1) = true →
              ∃ v, exec c s = .next (settle v) ∧ v.bi = { u.bi with queue := s.bi.queue.drop 1 ++ [f], offers := before ++ after }
                ∧ v.pp = u.pp ∧ v.ru = u.ru ∧ v.ar = u.ar ∧ (f.kind ≠ .wait → v.pe = u.pe)
                ∧ (∀ k y p, f.kind = .wait → f.owner = .slot k → slotAt u k = some y → y.phase = .pulling p → p.flow = .waitOwed →
                    slotAt v k = some { y with phase := .pulling { p with flow := .waited, silence := none } })))

/-- The frame of the bus's commands (the twelve frames, FRAME_DISCARDED, the windows and timers, RELAY_ROOM_RESUME, ACCESS_WON,
LOOPBACK_DATA_FRAME, FRAME_SENT, READBACK_MISMATCH, CARRIER_SEEN): the line, the coil assembler, the cells, the port and every page of
the flash stand; no flag changes but ARCHIVE-LOW, ARCHIVE-FULL, AMEND-LOCK, and BUS-FAULT at READBACK_MISMATCH. -/
def Obligations.BusCommandsLeaveTheRest : Prop :=
  ∀ (c : Instr) (s t : State), exec c s = .next t →
    ((∃ kind f, c = frameCommand kind f) ∨ (∃ d b, c = .frameDiscarded d b) ∨ (∃ h, c = .locateWindowExpiry h) ∨ c = .replyWindowExpiry
        ∨ (∃ k, c = .silenceTimeout k) ∨ (∃ k, c = .drainTimeout k) ∨ (∃ k, c = .pauseLimit k) ∨ (∃ k, c = .relayRoomResume k)
        ∨ c = .accessWon ∨ (∃ k, c = .loopbackDataFrame k) ∨ c = .frameSent ∨ c = .readbackMismatch ∨ c = .carrierSeen) →
    t.tiu = s.tiu ∧ t.ca = s.ca ∧ t.cx = s.cx ∧ t.pp = { s.pp with flags := t.pp.flags } ∧ t.bi.node = s.bi.node ∧ FlashSame s t
      ∧ OnlyFlags [.archiveLow, .archiveFull, .amendLock, .busFault] s t
      ∧ (c ≠ .readbackMismatch → flagSet .busFault t = flagSet .busFault s)
end

