-- ==== Sys2Proof/Laws/State.lean ====
section
/-! SUPPORT. One lemma per field and update: what the plain updates of State leave as it was, and what they write. -/

namespace Sys2Proof.Machine

/-! ### Clock and attention -/

@[simp] theorem advanceTo_at (t : Nat) (s : State) : (advanceTo t s).now = max s.now t := rfl
@[simp] theorem advanceTo_free (t : Nat) (s : State) : (advanceTo t s).free = s.free := rfl
@[simp] theorem advanceTo_tiu (t : Nat) (s : State) : (advanceTo t s).tiu = s.tiu := rfl
@[simp] theorem advanceTo_ca (t : Nat) (s : State) : (advanceTo t s).ca = s.ca := rfl
@[simp] theorem advanceTo_cx (t : Nat) (s : State) : (advanceTo t s).cx = s.cx := rfl
@[simp] theorem advanceTo_ar (t : Nat) (s : State) : (advanceTo t s).ar = s.ar := rfl
@[simp] theorem advanceTo_flash (t : Nat) (s : State) : (advanceTo t s).flash = s.flash := rfl
@[simp] theorem advanceTo_ru (t : Nat) (s : State) : (advanceTo t s).ru = s.ru := rfl
@[simp] theorem advanceTo_pe (t : Nat) (s : State) : (advanceTo t s).pe = s.pe := rfl
@[simp] theorem advanceTo_bi (t : Nat) (s : State) : (advanceTo t s).bi = s.bi := rfl
@[simp] theorem advanceTo_pp (t : Nat) (s : State) : (advanceTo t s).pp = s.pp := rfl
@[simp] theorem advanceTo_pending (t : Nat) (s : State) : (advanceTo t s).pending = s.pending := rfl

@[simp] theorem raise_flags (a : Attention) (s : State) : (raise a s).pp.flags = s.pp.flags ||| a.word := rfl
@[simp] theorem raise_now (a : Attention) (s : State) : (raise a s).now = s.now := rfl
@[simp] theorem raise_free (a : Attention) (s : State) : (raise a s).free = s.free := rfl
@[simp] theorem raise_tiu (a : Attention) (s : State) : (raise a s).tiu = s.tiu := rfl
@[simp] theorem raise_ca (a : Attention) (s : State) : (raise a s).ca = s.ca := rfl
@[simp] theorem raise_cx (a : Attention) (s : State) : (raise a s).cx = s.cx := rfl
@[simp] theorem raise_ar (a : Attention) (s : State) : (raise a s).ar = s.ar := rfl
@[simp] theorem raise_flash (a : Attention) (s : State) : (raise a s).flash = s.flash := rfl
@[simp] theorem raise_ru (a : Attention) (s : State) : (raise a s).ru = s.ru := rfl
@[simp] theorem raise_pe (a : Attention) (s : State) : (raise a s).pe = s.pe := rfl
@[simp] theorem raise_bi (a : Attention) (s : State) : (raise a s).bi = s.bi := rfl
@[simp] theorem raise_pending (a : Attention) (s : State) : (raise a s).pending = s.pending := rfl
@[simp] theorem raise_pp_station (a : Attention) (s : State) : (raise a s).pp.station = s.pp.station := rfl
@[simp] theorem raise_pp_config (a : Attention) (s : State) : (raise a s).pp.config = s.pp.config := rfl
@[simp] theorem raise_pp_lock (a : Attention) (s : State) : (raise a s).pp.lock = s.pp.lock := rfl
@[simp] theorem raise_pp_enables (a : Attention) (s : State) : (raise a s).pp.enables = s.pp.enables := rfl
@[simp] theorem raise_pp_buffer (a : Attention) (s : State) : (raise a s).pp.buffer = s.pp.buffer := rfl

@[simp] theorem releaseSelect_now (s : State) : (releaseSelect s).now = s.now := rfl
@[simp] theorem releaseSelect_free (s : State) : (releaseSelect s).free = s.free := rfl
@[simp] theorem releaseSelect_tiu (s : State) : (releaseSelect s).tiu = s.tiu := rfl
@[simp] theorem releaseSelect_ca (s : State) : (releaseSelect s).ca = s.ca := rfl
@[simp] theorem releaseSelect_cx (s : State) : (releaseSelect s).cx = s.cx := rfl
@[simp] theorem releaseSelect_ar (s : State) : (releaseSelect s).ar = s.ar := rfl
@[simp] theorem releaseSelect_flash (s : State) : (releaseSelect s).flash = s.flash := rfl
@[simp] theorem releaseSelect_ru (s : State) : (releaseSelect s).ru = s.ru := rfl
@[simp] theorem releaseSelect_pe (s : State) : (releaseSelect s).pe = s.pe := rfl
@[simp] theorem releaseSelect_bi (s : State) : (releaseSelect s).bi = s.bi := rfl
@[simp] theorem releaseSelect_pp (s : State) : (releaseSelect s).pp = { s.pp with buffer := none } := rfl
@[simp] theorem releaseSelect_pending (s : State) : (releaseSelect s).pending = s.pending := rfl

/-! ### Responses -/

/-- What is driven after the record: two bytes of 00H, the response byte by byte, and then 00H (R197). -/
theorem drivenByte_eq (x : Exchange) (n : Nat) :
    (n < 2 → drivenByte x n = 0) ∧ (∀ b, x.response[n]? = some b → drivenByte x (n + 2) = b)
      ∧ (x.response.length + 2 ≤ n → drivenByte x n = 0) := by
  refine ⟨fun h => if_pos h, fun b h => ?_, fun h => ?_⟩
  · simp [drivenByte, h]
  · have hn : ¬n < 2 := by omega
    have hl : x.response.length ≤ n - 2 := by omega
    simp [drivenByte, hn, List.getElem?_eq_none hl]

@[simp] theorem respond_now (code : Byte) (fs : List Byte) (r : PortResult) (n : Nat) (d : List Byte) (s : State) : (respond code fs r n d s).now = s.now := rfl
@[simp] theorem respond_free (code : Byte) (fs : List Byte) (r : PortResult) (n : Nat) (d : List Byte) (s : State) : (respond code fs r n d s).free = s.free := rfl
@[simp] theorem respond_tiu (code : Byte) (fs : List Byte) (r : PortResult) (n : Nat) (d : List Byte) (s : State) : (respond code fs r n d s).tiu = s.tiu := rfl
@[simp] theorem respond_ca (code : Byte) (fs : List Byte) (r : PortResult) (n : Nat) (d : List Byte) (s : State) : (respond code fs r n d s).ca = s.ca := rfl
@[simp] theorem respond_cx (code : Byte) (fs : List Byte) (r : PortResult) (n : Nat) (d : List Byte) (s : State) : (respond code fs r n d s).cx = s.cx := rfl
@[simp] theorem respond_ar (code : Byte) (fs : List Byte) (r : PortResult) (n : Nat) (d : List Byte) (s : State) : (respond code fs r n d s).ar = s.ar := rfl
@[simp] theorem respond_flash (code : Byte) (fs : List Byte) (r : PortResult) (n : Nat) (d : List Byte) (s : State) : (respond code fs r n d s).flash = s.flash := rfl
@[simp] theorem respond_ru (code : Byte) (fs : List Byte) (r : PortResult) (n : Nat) (d : List Byte) (s : State) : (respond code fs r n d s).ru = s.ru := rfl
@[simp] theorem respond_pe (code : Byte) (fs : List Byte) (r : PortResult) (n : Nat) (d : List Byte) (s : State) : (respond code fs r n d s).pe = s.pe := rfl
@[simp] theorem respond_bi (code : Byte) (fs : List Byte) (r : PortResult) (n : Nat) (d : List Byte) (s : State) : (respond code fs r n d s).bi = s.bi := rfl
@[simp] theorem respond_pending (code : Byte) (fs : List Byte) (r : PortResult) (n : Nat) (d : List Byte) (s : State) : (respond code fs r n d s).pending = s.pending := rfl
@[simp] theorem respond_pp_station (code : Byte) (fs : List Byte) (r : PortResult) (n : Nat) (d : List Byte) (s : State) : (respond code fs r n d s).pp.station = s.pp.station := rfl
@[simp] theorem respond_pp_config (code : Byte) (fs : List Byte) (r : PortResult) (n : Nat) (d : List Byte) (s : State) : (respond code fs r n d s).pp.config = s.pp.config := rfl
@[simp] theorem respond_pp_lock (code : Byte) (fs : List Byte) (r : PortResult) (n : Nat) (d : List Byte) (s : State) : (respond code fs r n d s).pp.lock = s.pp.lock := rfl
@[simp] theorem respond_pp_flags (code : Byte) (fs : List Byte) (r : PortResult) (n : Nat) (d : List Byte) (s : State) : (respond code fs r n d s).pp.flags = s.pp.flags := rfl
@[simp] theorem respond_pp_enables (code : Byte) (fs : List Byte) (r : PortResult) (n : Nat) (d : List Byte) (s : State) : (respond code fs r n d s).pp.enables = s.pp.enables := rfl

@[simp] theorem refuse_now (code : Byte) (fs : List Byte) (n : Nat) (r : Reason) (s : State) : (refuse code fs n r s).now = s.now := rfl
@[simp] theorem refuse_free (code : Byte) (fs : List Byte) (n : Nat) (r : Reason) (s : State) : (refuse code fs n r s).free = s.free := rfl
@[simp] theorem refuse_tiu (code : Byte) (fs : List Byte) (n : Nat) (r : Reason) (s : State) : (refuse code fs n r s).tiu = s.tiu := rfl
@[simp] theorem refuse_ca (code : Byte) (fs : List Byte) (n : Nat) (r : Reason) (s : State) : (refuse code fs n r s).ca = s.ca := rfl
@[simp] theorem refuse_cx (code : Byte) (fs : List Byte) (n : Nat) (r : Reason) (s : State) : (refuse code fs n r s).cx = s.cx := rfl
@[simp] theorem refuse_ar (code : Byte) (fs : List Byte) (n : Nat) (r : Reason) (s : State) : (refuse code fs n r s).ar = s.ar := rfl
@[simp] theorem refuse_flash (code : Byte) (fs : List Byte) (n : Nat) (r : Reason) (s : State) : (refuse code fs n r s).flash = s.flash := rfl
@[simp] theorem refuse_ru (code : Byte) (fs : List Byte) (n : Nat) (r : Reason) (s : State) : (refuse code fs n r s).ru = s.ru := rfl
@[simp] theorem refuse_pe (code : Byte) (fs : List Byte) (n : Nat) (r : Reason) (s : State) : (refuse code fs n r s).pe = s.pe := rfl
@[simp] theorem refuse_bi (code : Byte) (fs : List Byte) (n : Nat) (r : Reason) (s : State) : (refuse code fs n r s).bi = s.bi := rfl
@[simp] theorem refuse_pending (code : Byte) (fs : List Byte) (n : Nat) (r : Reason) (s : State) : (refuse code fs n r s).pending = s.pending := rfl
@[simp] theorem refuse_pp_station (code : Byte) (fs : List Byte) (n : Nat) (r : Reason) (s : State) : (refuse code fs n r s).pp.station = s.pp.station := rfl
@[simp] theorem refuse_pp_config (code : Byte) (fs : List Byte) (n : Nat) (r : Reason) (s : State) : (refuse code fs n r s).pp.config = s.pp.config := rfl
@[simp] theorem refuse_pp_lock (code : Byte) (fs : List Byte) (n : Nat) (r : Reason) (s : State) : (refuse code fs n r s).pp.lock = s.pp.lock := rfl
@[simp] theorem refuse_pp_flags (code : Byte) (fs : List Byte) (n : Nat) (r : Reason) (s : State) : (refuse code fs n r s).pp.flags = s.pp.flags := rfl
@[simp] theorem refuse_pp_enables (code : Byte) (fs : List Byte) (n : Nat) (r : Reason) (s : State) : (refuse code fs n r s).pp.enables = s.pp.enables := rfl

@[simp] theorem accept_now (code : Byte) (fs d : List Byte) (s : State) : (accept code fs d s).now = s.now := rfl
@[simp] theorem accept_free (code : Byte) (fs d : List Byte) (s : State) : (accept code fs d s).free = s.free := rfl
@[simp] theorem accept_tiu (code : Byte) (fs d : List Byte) (s : State) : (accept code fs d s).tiu = s.tiu := rfl
@[simp] theorem accept_ca (code : Byte) (fs d : List Byte) (s : State) : (accept code fs d s).ca = s.ca := rfl
@[simp] theorem accept_cx (code : Byte) (fs d : List Byte) (s : State) : (accept code fs d s).cx = s.cx := rfl
@[simp] theorem accept_ar (code : Byte) (fs d : List Byte) (s : State) : (accept code fs d s).ar = s.ar := rfl
@[simp] theorem accept_flash (code : Byte) (fs d : List Byte) (s : State) : (accept code fs d s).flash = s.flash := rfl
@[simp] theorem accept_ru (code : Byte) (fs d : List Byte) (s : State) : (accept code fs d s).ru = s.ru := rfl
@[simp] theorem accept_pe (code : Byte) (fs d : List Byte) (s : State) : (accept code fs d s).pe = s.pe := rfl
@[simp] theorem accept_bi (code : Byte) (fs d : List Byte) (s : State) : (accept code fs d s).bi = s.bi := rfl
@[simp] theorem accept_pending (code : Byte) (fs d : List Byte) (s : State) : (accept code fs d s).pending = s.pending := rfl
@[simp] theorem accept_pp_station (code : Byte) (fs d : List Byte) (s : State) : (accept code fs d s).pp.station = s.pp.station := rfl
@[simp] theorem accept_pp_config (code : Byte) (fs d : List Byte) (s : State) : (accept code fs d s).pp.config = s.pp.config := rfl
@[simp] theorem accept_pp_lock (code : Byte) (fs d : List Byte) (s : State) : (accept code fs d s).pp.lock = s.pp.lock := rfl
@[simp] theorem accept_pp_flags (code : Byte) (fs d : List Byte) (s : State) : (accept code fs d s).pp.flags = s.pp.flags := rfl
@[simp] theorem accept_pp_enables (code : Byte) (fs d : List Byte) (s : State) : (accept code fs d s).pp.enables = s.pp.enables := rfl

/-! ### Contexts, slots and tags -/

@[simp] theorem setCtx_now (c : Fin 6) (x : Option PullContext) (s : State) : (setCtx c x s).now = s.now := rfl
@[simp] theorem setCtx_free (c : Fin 6) (x : Option PullContext) (s : State) : (setCtx c x s).free = s.free := rfl
@[simp] theorem setCtx_tiu (c : Fin 6) (x : Option PullContext) (s : State) : (setCtx c x s).tiu = s.tiu := rfl
@[simp] theorem setCtx_ca (c : Fin 6) (x : Option PullContext) (s : State) : (setCtx c x s).ca = s.ca := rfl
@[simp] theorem setCtx_cx (c : Fin 6) (x : Option PullContext) (s : State) : (setCtx c x s).cx = s.cx := rfl
@[simp] theorem setCtx_ar (c : Fin 6) (x : Option PullContext) (s : State) : (setCtx c x s).ar = s.ar := rfl
@[simp] theorem setCtx_flash (c : Fin 6) (x : Option PullContext) (s : State) : (setCtx c x s).flash = s.flash := rfl
@[simp] theorem setCtx_ru (c : Fin 6) (x : Option PullContext) (s : State) : (setCtx c x s).ru = s.ru := rfl
@[simp] theorem setCtx_bi (c : Fin 6) (x : Option PullContext) (s : State) : (setCtx c x s).bi = s.bi := rfl
@[simp] theorem setCtx_pp (c : Fin 6) (x : Option PullContext) (s : State) : (setCtx c x s).pp = s.pp := rfl
@[simp] theorem setCtx_pending (c : Fin 6) (x : Option PullContext) (s : State) : (setCtx c x s).pending = s.pending := rfl
@[simp] theorem setCtx_pe_slots (c : Fin 6) (x : Option PullContext) (s : State) : (setCtx c x s).pe.slots = s.pe.slots := rfl
@[simp] theorem setCtx_pe_waiting (c : Fin 6) (x : Option PullContext) (s : State) : (setCtx c x s).pe.waiting = s.pe.waiting := rfl
@[simp] theorem setCtx_pe_tagCounter (c : Fin 6) (x : Option PullContext) (s : State) : (setCtx c x s).pe.tagCounter = s.pe.tagCounter := rfl

@[simp] theorem setSlot_now (k : Fin 8) (x : Option FetchSlot) (s : State) : (setSlot k x s).now = s.now := rfl
@[simp] theorem setSlot_free (k : Fin 8) (x : Option FetchSlot) (s : State) : (setSlot k x s).free = s.free := rfl
@[simp] theorem setSlot_tiu (k : Fin 8) (x : Option FetchSlot) (s : State) : (setSlot k x s).tiu = s.tiu := rfl
@[simp] theorem setSlot_ca (k : Fin 8) (x : Option FetchSlot) (s : State) : (setSlot k x s).ca = s.ca := rfl
@[simp] theorem setSlot_cx (k : Fin 8) (x : Option FetchSlot) (s : State) : (setSlot k x s).cx = s.cx := rfl
@[simp] theorem setSlot_ar (k : Fin 8) (x : Option FetchSlot) (s : State) : (setSlot k x s).ar = s.ar := rfl
@[simp] theorem setSlot_flash (k : Fin 8) (x : Option FetchSlot) (s : State) : (setSlot k x s).flash = s.flash := rfl
@[simp] theorem setSlot_ru (k : Fin 8) (x : Option FetchSlot) (s : State) : (setSlot k x s).ru = s.ru := rfl
@[simp] theorem setSlot_bi (k : Fin 8) (x : Option FetchSlot) (s : State) : (setSlot k x s).bi = s.bi := rfl
@[simp] theorem setSlot_pp (k : Fin 8) (x : Option FetchSlot) (s : State) : (setSlot k x s).pp = s.pp := rfl
@[simp] theorem setSlot_pending (k : Fin 8) (x : Option FetchSlot) (s : State) : (setSlot k x s).pending = s.pending := rfl
@[simp] theorem setSlot_pe_contexts (k : Fin 8) (x : Option FetchSlot) (s : State) : (setSlot k x s).pe.contexts = s.pe.contexts := rfl
@[simp] theorem setSlot_pe_waiting (k : Fin 8) (x : Option FetchSlot) (s : State) : (setSlot k x s).pe.waiting = s.pe.waiting := rfl
@[simp] theorem setSlot_pe_tagCounter (k : Fin 8) (x : Option FetchSlot) (s : State) : (setSlot k x s).pe.tagCounter = s.pe.tagCounter := rfl

@[simp] theorem takeTag_now (s : State) : (takeTag s).now = s.now := rfl
@[simp] theorem takeTag_free (s : State) : (takeTag s).free = s.free := rfl
@[simp] theorem takeTag_tiu (s : State) : (takeTag s).tiu = s.tiu := rfl
@[simp] theorem takeTag_ca (s : State) : (takeTag s).ca = s.ca := rfl
@[simp] theorem takeTag_cx (s : State) : (takeTag s).cx = s.cx := rfl
@[simp] theorem takeTag_ar (s : State) : (takeTag s).ar = s.ar := rfl
@[simp] theorem takeTag_flash (s : State) : (takeTag s).flash = s.flash := rfl
@[simp] theorem takeTag_ru (s : State) : (takeTag s).ru = s.ru := rfl
@[simp] theorem takeTag_bi (s : State) : (takeTag s).bi = s.bi := rfl
@[simp] theorem takeTag_pp (s : State) : (takeTag s).pp = s.pp := rfl
@[simp] theorem takeTag_pending (s : State) : (takeTag s).pending = s.pending := rfl
@[simp] theorem takeTag_pe_contexts (s : State) : (takeTag s).pe.contexts = s.pe.contexts := rfl
@[simp] theorem takeTag_pe_slots (s : State) : (takeTag s).pe.slots = s.pe.slots := rfl
@[simp] theorem takeTag_pe_waiting (s : State) : (takeTag s).pe.waiting = s.pe.waiting := rfl

/-! ### Bus interface -/

@[simp] theorem enterQueue_now (f : OutFrame) (s : State) : (enterQueue f s).now = s.now := rfl
@[simp] theorem enterQueue_free (f : OutFrame) (s : State) : (enterQueue f s).free = s.free := rfl
@[simp] theorem enterQueue_tiu (f : OutFrame) (s : State) : (enterQueue f s).tiu = s.tiu := rfl
@[simp] theorem enterQueue_ca (f : OutFrame) (s : State) : (enterQueue f s).ca = s.ca := rfl
@[simp] theorem enterQueue_cx (f : OutFrame) (s : State) : (enterQueue f s).cx = s.cx := rfl
@[simp] theorem enterQueue_ar (f : OutFrame) (s : State) : (enterQueue f s).ar = s.ar := rfl
@[simp] theorem enterQueue_flash (f : OutFrame) (s : State) : (enterQueue f s).flash = s.flash := rfl
@[simp] theorem enterQueue_ru (f : OutFrame) (s : State) : (enterQueue f s).ru = s.ru := rfl
@[simp] theorem enterQueue_pe (f : OutFrame) (s : State) : (enterQueue f s).pe = s.pe := rfl
@[simp] theorem enterQueue_pp (f : OutFrame) (s : State) : (enterQueue f s).pp = s.pp := rfl
@[simp] theorem enterQueue_pending (f : OutFrame) (s : State) : (enterQueue f s).pending = s.pending := rfl
@[simp] theorem enterQueue_bi_node (f : OutFrame) (s : State) : (enterQueue f s).bi.node = s.bi.node := rfl
@[simp] theorem enterQueue_bi_lastSource (f : OutFrame) (s : State) : (enterQueue f s).bi.lastSource = s.bi.lastSource := rfl
@[simp] theorem enterQueue_bi_silence (f : OutFrame) (s : State) : (enterQueue f s).bi.silence = s.bi.silence := rfl
@[simp] theorem enterQueue_bi_pointer (f : OutFrame) (s : State) : (enterQueue f s).bi.pointer = s.bi.pointer := rfl
@[simp] theorem enterQueue_bi_looped (f : OutFrame) (s : State) : (enterQueue f s).bi.looped = s.bi.looped := rfl
@[simp] theorem enterQueue_bi_offers (f : OutFrame) (s : State) : (enterQueue f s).bi.offers = s.bi.offers := rfl
@[simp] theorem enterQueue_bi_tx (f : OutFrame) (s : State) : (enterQueue f s).bi.tx = s.bi.tx := rfl

@[simp] theorem withdraw_now (p : OutFrame → Bool) (s : State) : (withdraw p s).now = s.now := rfl
@[simp] theorem withdraw_free (p : OutFrame → Bool) (s : State) : (withdraw p s).free = s.free := rfl
@[simp] theorem withdraw_tiu (p : OutFrame → Bool) (s : State) : (withdraw p s).tiu = s.tiu := rfl
@[simp] theorem withdraw_ca (p : OutFrame → Bool) (s : State) : (withdraw p s).ca = s.ca := rfl
@[simp] theorem withdraw_cx (p : OutFrame → Bool) (s : State) : (withdraw p s).cx = s.cx := rfl
@[simp] theorem withdraw_ar (p : OutFrame → Bool) (s : State) : (withdraw p s).ar = s.ar := rfl
@[simp] theorem withdraw_flash (p : OutFrame → Bool) (s : State) : (withdraw p s).flash = s.flash := rfl
@[simp] theorem withdraw_ru (p : OutFrame → Bool) (s : State) : (withdraw p s).ru = s.ru := rfl
@[simp] theorem withdraw_pe (p : OutFrame → Bool) (s : State) : (withdraw p s).pe = s.pe := rfl
@[simp] theorem withdraw_pp (p : OutFrame → Bool) (s : State) : (withdraw p s).pp = s.pp := rfl
@[simp] theorem withdraw_pending (p : OutFrame → Bool) (s : State) : (withdraw p s).pending = s.pending := rfl
@[simp] theorem withdraw_bi_node (p : OutFrame → Bool) (s : State) : (withdraw p s).bi.node = s.bi.node := rfl
@[simp] theorem withdraw_bi_lastSource (p : OutFrame → Bool) (s : State) : (withdraw p s).bi.lastSource = s.bi.lastSource := rfl
@[simp] theorem withdraw_bi_silence (p : OutFrame → Bool) (s : State) : (withdraw p s).bi.silence = s.bi.silence := rfl
@[simp] theorem withdraw_bi_pointer (p : OutFrame → Bool) (s : State) : (withdraw p s).bi.pointer = s.bi.pointer := rfl
@[simp] theorem withdraw_bi_looped (p : OutFrame → Bool) (s : State) : (withdraw p s).bi.looped = s.bi.looped := rfl
@[simp] theorem withdraw_bi_queue (p : OutFrame → Bool) (s : State) : (withdraw p s).bi.queue = s.bi.queue := rfl
@[simp] theorem withdraw_bi_tx (p : OutFrame → Bool) (s : State) : (withdraw p s).bi.tx = s.bi.tx := rfl

@[simp] theorem orphan_now (o : FrameOwner) (s : State) : (orphan o s).now = s.now := rfl
@[simp] theorem orphan_free (o : FrameOwner) (s : State) : (orphan o s).free = s.free := rfl
@[simp] theorem orphan_tiu (o : FrameOwner) (s : State) : (orphan o s).tiu = s.tiu := rfl
@[simp] theorem orphan_ca (o : FrameOwner) (s : State) : (orphan o s).ca = s.ca := rfl
@[simp] theorem orphan_cx (o : FrameOwner) (s : State) : (orphan o s).cx = s.cx := rfl
@[simp] theorem orphan_ar (o : FrameOwner) (s : State) : (orphan o s).ar = s.ar := rfl
@[simp] theorem orphan_flash (o : FrameOwner) (s : State) : (orphan o s).flash = s.flash := rfl
@[simp] theorem orphan_ru (o : FrameOwner) (s : State) : (orphan o s).ru = s.ru := rfl
@[simp] theorem orphan_pe (o : FrameOwner) (s : State) : (orphan o s).pe = s.pe := rfl
@[simp] theorem orphan_pp (o : FrameOwner) (s : State) : (orphan o s).pp = s.pp := rfl
@[simp] theorem orphan_pending (o : FrameOwner) (s : State) : (orphan o s).pending = s.pending := rfl
@[simp] theorem orphan_bi_node (o : FrameOwner) (s : State) : (orphan o s).bi.node = s.bi.node := rfl
@[simp] theorem orphan_bi_lastSource (o : FrameOwner) (s : State) : (orphan o s).bi.lastSource = s.bi.lastSource := rfl
@[simp] theorem orphan_bi_silence (o : FrameOwner) (s : State) : (orphan o s).bi.silence = s.bi.silence := rfl
@[simp] theorem orphan_bi_pointer (o : FrameOwner) (s : State) : (orphan o s).bi.pointer = s.bi.pointer := rfl
@[simp] theorem orphan_bi_looped (o : FrameOwner) (s : State) : (orphan o s).bi.looped = s.bi.looped := rfl
@[simp] theorem orphan_bi_offers (o : FrameOwner) (s : State) : (orphan o s).bi.offers = s.bi.offers := rfl

/-! ### Amendment and segments -/

@[simp] theorem lockAmend_now (c : LockCause) (s : State) : (lockAmend c s).now = s.now := rfl
@[simp] theorem lockAmend_free (c : LockCause) (s : State) : (lockAmend c s).free = s.free := rfl
@[simp] theorem lockAmend_tiu (c : LockCause) (s : State) : (lockAmend c s).tiu = s.tiu := rfl
@[simp] theorem lockAmend_ca (c : LockCause) (s : State) : (lockAmend c s).ca = s.ca := rfl
@[simp] theorem lockAmend_cx (c : LockCause) (s : State) : (lockAmend c s).cx = s.cx := rfl
@[simp] theorem lockAmend_ar (c : LockCause) (s : State) : (lockAmend c s).ar = s.ar := rfl
@[simp] theorem lockAmend_flash (c : LockCause) (s : State) : (lockAmend c s).flash = s.flash := rfl
@[simp] theorem lockAmend_pe (c : LockCause) (s : State) : (lockAmend c s).pe = s.pe := rfl
@[simp] theorem lockAmend_bi (c : LockCause) (s : State) : (lockAmend c s).bi = s.bi := rfl
@[simp] theorem lockAmend_pending (c : LockCause) (s : State) : (lockAmend c s).pending = s.pending := rfl
@[simp] theorem lockAmend_pp_station (c : LockCause) (s : State) : (lockAmend c s).pp.station = s.pp.station := rfl
@[simp] theorem lockAmend_pp_config (c : LockCause) (s : State) : (lockAmend c s).pp.config = s.pp.config := rfl
@[simp] theorem lockAmend_pp_lock (c : LockCause) (s : State) : (lockAmend c s).pp.lock = s.pp.lock := rfl
@[simp] theorem lockAmend_pp_enables (c : LockCause) (s : State) : (lockAmend c s).pp.enables = s.pp.enables := rfl
@[simp] theorem lockAmend_pp_buffer (c : LockCause) (s : State) : (lockAmend c s).pp.buffer = s.pp.buffer := rfl
@[simp] theorem lockAmend_ru_keeps (c : LockCause) (s : State) : (lockAmend c s).ru.keeps = s.ru.keeps := rfl
@[simp] theorem lockAmend_ru_tasks (c : LockCause) (s : State) : (lockAmend c s).ru.tasks = s.ru.tasks := rfl
@[simp] theorem lockAmend_ru_head (c : LockCause) (s : State) : (lockAmend c s).ru.head = s.ru.head := rfl
@[simp] theorem lockAmend_ru_freezes (c : LockCause) (s : State) : (lockAmend c s).ru.freezes = s.ru.freezes := rfl

@[simp] theorem lockAmend_amend (c : LockCause) (s : State) : (lockAmend c s).ru.amend = .locked c := rfl

@[simp] theorem activateLowest_now (s : State) : (activateLowest s).now = s.now := rfl
@[simp] theorem activateLowest_free (s : State) : (activateLowest s).free = s.free := rfl
@[simp] theorem activateLowest_tiu (s : State) : (activateLowest s).tiu = s.tiu := rfl
@[simp] theorem activateLowest_ca (s : State) : (activateLowest s).ca = s.ca := rfl
@[simp] theorem activateLowest_cx (s : State) : (activateLowest s).cx = s.cx := rfl
@[simp] theorem activateLowest_flash (s : State) : (activateLowest s).flash = s.flash := rfl
@[simp] theorem activateLowest_ru (s : State) : (activateLowest s).ru = s.ru := rfl
@[simp] theorem activateLowest_pe (s : State) : (activateLowest s).pe = s.pe := rfl
@[simp] theorem activateLowest_bi (s : State) : (activateLowest s).bi = s.bi := rfl
@[simp] theorem activateLowest_pp (s : State) : (activateLowest s).pp = s.pp := rfl
@[simp] theorem activateLowest_pending (s : State) : (activateLowest s).pending = s.pending := rfl

@[simp] theorem refreshSets_now (s : State) : (refreshSets s).now = s.now := rfl
@[simp] theorem refreshSets_free (s : State) : (refreshSets s).free = s.free := rfl
@[simp] theorem refreshSets_tiu (s : State) : (refreshSets s).tiu = s.tiu := rfl
@[simp] theorem refreshSets_ca (s : State) : (refreshSets s).ca = s.ca := rfl
@[simp] theorem refreshSets_cx (s : State) : (refreshSets s).cx = s.cx := rfl
@[simp] theorem refreshSets_flash (s : State) : (refreshSets s).flash = s.flash := rfl
@[simp] theorem refreshSets_ru (s : State) : (refreshSets s).ru = s.ru := rfl
@[simp] theorem refreshSets_pe (s : State) : (refreshSets s).pe = s.pe := rfl
@[simp] theorem refreshSets_bi (s : State) : (refreshSets s).bi = s.bi := rfl
@[simp] theorem refreshSets_pp (s : State) : (refreshSets s).pp = s.pp := rfl
@[simp] theorem refreshSets_pending (s : State) : (refreshSets s).pending = s.pending := rfl

end Sys2Proof.Machine
end

