-- ==== Sys2Proof/Laws/Archive.lean ====
section
/-! SUPPORT. What the archive controller's shared operations can do, said once: an ArchiveMove changes the archive's tables and queues,
the pending freezes, the amendment and the attention flags; it clears no flag and keeps the write queue within its bound. -/

namespace Sys2Proof.Machine

/-! ### Lists -/

theorem length_dropFirst_le {α : Type} (p : α → Bool) (l : List α) : (dropFirst p l).length ≤ l.length := by
  induction l with
  | nil => simp [dropFirst]
  | cons a l ih =>
    simp only [dropFirst]
    split
    · simp
    · simp only [List.length_cons]; omega

theorem length_drop_le {α : Type} (n : Nat) (l : List α) : (l.drop n).length ≤ l.length := by
  rw [List.length_drop]; exact Nat.sub_le _ _

/-! ### Entries in ascending segment sequence (R78, R87) -/

theorem mem_insertBySeq (g e : SegEntry) (es : List SegEntry) : g ∈ insertBySeq e es ↔ g = e ∨ g ∈ es := by
  induction es with
  | nil => simp [insertBySeq]
  | cons a es ih =>
    simp only [insertBySeq]
    split
    · simp
    · simp only [List.mem_cons, ih]; tauto

theorem mem_bySeq (g : SegEntry) (es : List SegEntry) : g ∈ bySeq es ↔ g ∈ es := by
  induction es with
  | nil => rfl
  | cons a es ih => rw [bySeq, List.foldr_cons, mem_insertBySeq, ← bySeq, ih, List.mem_cons]

theorem sorted_insertBySeq (e : SegEntry) {es : List SegEntry} (h : es.Pairwise (fun a b => a.seq ≤ b.seq)) :
    (insertBySeq e es).Pairwise (fun a b => a.seq ≤ b.seq) := by
  induction es with
  | nil => exact List.pairwise_singleton _ _
  | cons a es ih =>
    obtain ⟨above, rest⟩ := List.pairwise_cons.mp h
    simp only [insertBySeq]
    split
    · refine List.pairwise_cons.mpr ⟨fun b hb => ?_, h⟩
      rcases List.mem_cons.mp hb with rfl | hb
      · omega
      · have := above b hb; omega
    · refine List.pairwise_cons.mpr ⟨fun b hb => ?_, ih rest⟩
      rcases (mem_insertBySeq _ _ _).mp hb with rfl | hb
      · omega
      · exact above b hb

theorem sorted_bySeq (es : List SegEntry) : (bySeq es).Pairwise (fun a b => a.seq ≤ b.seq) := by
  induction es with
  | nil => exact .nil
  | cons a es ih => exact sorted_insertBySeq a ih

/-! ### Cell ranges (R64, R69) -/

/-- A range meets a stretch of cells when it is of their pitch and one index lies in both. -/
theorem CellRange.meets_iff (r : CellRange) (p first past : Nat) :
    r.meets p first past = true ↔ r.pitch = p ∧ ∃ c, r.lowest ≤ c ∧ c ≤ r.highest ∧ first ≤ c ∧ c < past := by
  simp only [CellRange.meets, decide_eq_true_eq]
  constructor
  · rintro ⟨hp, hi, hl⟩
    exact ⟨hp, max r.lowest first, le_max_left _ _, hi, le_max_right _ _, hl⟩
  · rintro ⟨hp, c, h1, h2, h3, h4⟩
    exact ⟨hp, by omega, by omega⟩

/-- Once a cell is taken in, a range of its pitch holds its index (R68). -/
theorem takeInCell_holds (l : List CellRange) (c : CellName) :
    ∃ r ∈ takeInCell l c, r.pitch = c.pitch ∧ r.lowest ≤ c.index ∧ c.index ≤ r.highest := by
  induction l with
  | nil => exact ⟨_, List.mem_singleton_self _, rfl, le_refl _, le_refl _⟩
  | cons a l ih =>
    unfold takeInCell
    split
    · rename_i h
      exact ⟨_, List.mem_cons_self, h, min_le_right _ _, le_max_right _ _⟩
    · obtain ⟨r, hr, h⟩ := ih
      exact ⟨r, List.mem_cons_of_mem _ hr, h⟩

/-! ### Flags -/

/-- No flag is cleared. -/
def FlagsKept (s t : State) : Prop := ∀ k, s.pp.flags.getLsbD k = true → t.pp.flags.getLsbD k = true

theorem FlagsKept.refl (s : State) : FlagsKept s s := fun _ h => h

theorem FlagsKept.trans {s t u : State} (h : FlagsKept s t) (g : FlagsKept t u) : FlagsKept s u := fun k hk => g k (h k hk)

theorem flagsKept_of_eq {s t : State} (h : t.pp.flags = s.pp.flags) : FlagsKept s t := fun k hk => by rw [h]; exact hk

theorem flagsKept_raise (a : Attention) (s : State) : FlagsKept s (raise a s) := fun k hk => by
  simp [raise, BitVec.getLsbD_or, hk]

/-! ### ArchiveMove -/

/-- The state with what an ArchiveMove may change taken away. -/
def State.lessArchive (s : State) : State :=
  { s with
    ar := { s.ar with segs := [], outs := [], ins := [], expired := [], writeQueue := [], readQueue := [] }
    ru := { s.ru with freezes := [], amend := .closed }
    pp.flags := 0 }

/-- What the archive's shared operations can do. -/
structure ArchiveMove (s t : State) : Prop where
  rest : t.lessArchive = s.lessArchive
  flags : FlagsKept s t
  write : s.ar.writeQueue.length ≤ 64 → t.ar.writeQueue.length ≤ 64
  freezes : t.ru.freezes.length ≤ s.ru.freezes.length

namespace ArchiveMove

theorem refl (s : State) : ArchiveMove s s := ⟨rfl, .refl s, id, le_refl _⟩

theorem trans {s t u : State} (h : ArchiveMove s t) (g : ArchiveMove t u) : ArchiveMove s u :=
  ⟨g.rest.trans h.rest, h.flags.trans g.flags, g.write ∘ h.write, g.freezes.trans h.freezes⟩

/-- A further raise. -/
theorem thenRaise {s t : State} (a : Attention) (h : ArchiveMove s t) : ArchiveMove s (raise a t) :=
  h.trans ⟨rfl, flagsKept_raise a t, id, le_refl _⟩

/-- A fold of moves is a move. -/
theorem foldl {α : Type} (f : State → α → State) (hf : ∀ s a, ArchiveMove s (f s a)) (l : List α) (s : State) :
    ArchiveMove s (l.foldl f s) := by
  induction l generalizing s with
  | nil => exact refl s
  | cons a l ih => exact (hf s a).trans (ih _)

variable {s t : State} (h : ArchiveMove s t)
include h

theorem now : t.now = s.now := congrArg (fun u => u.now) h.rest
theorem free : t.free = s.free := congrArg (fun u => u.free) h.rest
theorem tiu : t.tiu = s.tiu := congrArg (fun u => u.tiu) h.rest
theorem ca : t.ca = s.ca := congrArg (fun u => u.ca) h.rest
theorem cx : t.cx = s.cx := congrArg (fun u => u.cx) h.rest
theorem flash : t.flash = s.flash := congrArg (fun u => u.flash) h.rest
theorem pe : t.pe = s.pe := congrArg (fun u => u.pe) h.rest
theorem bi : t.bi = s.bi := congrArg (fun u => u.bi) h.rest
theorem pending : t.pending = s.pending := congrArg (fun u => u.pending) h.rest
theorem scan : t.ar.scan = s.ar.scan := congrArg (fun u => u.ar.scan) h.rest
theorem stage : t.ar.stage = s.ar.stage := congrArg (fun u => u.ar.stage) h.rest
theorem pageWrite : t.ar.pageWrite = s.ar.pageWrite := congrArg (fun u => u.ar.pageWrite) h.rest
theorem keepWrite : t.ar.keepWrite = s.ar.keepWrite := congrArg (fun u => u.ar.keepWrite) h.rest
theorem keeps : t.ru.keeps = s.ru.keeps := congrArg (fun u => u.ru.keeps) h.rest
theorem tasks : t.ru.tasks = s.ru.tasks := congrArg (fun u => u.ru.tasks) h.rest
theorem head : t.ru.head = s.ru.head := congrArg (fun u => u.ru.head) h.rest
theorem station : t.pp.station = s.pp.station := congrArg (fun u => u.pp.station) h.rest
theorem config : t.pp.config = s.pp.config := congrArg (fun u => u.pp.config) h.rest
theorem lock : t.pp.lock = s.pp.lock := congrArg (fun u => u.pp.lock) h.rest
theorem enables : t.pp.enables = s.pp.enables := congrArg (fun u => u.pp.enables) h.rest
theorem buffer : t.pp.buffer = s.pp.buffer := congrArg (fun u => u.pp.buffer) h.rest

end ArchiveMove

/-! ### The operations -/

theorem raise_move (a : Attention) (s : State) : ArchiveMove s (raise a s) := (ArchiveMove.refl s).thenRaise a

theorem lockAmend_move (c : LockCause) (s : State) : ArchiveMove s (lockAmend c s) :=
  ⟨rfl, flagsKept_raise _ _, id, le_refl _⟩

theorem dropItem_move (w : WriteItem) (s : State) : ArchiveMove s (dropItem w s) := by
  unfold dropItem
  refine (raise_move .archiveFull s).trans ?_
  cases w with
  | input r => exact .refl _
  | output r => exact .refl _
  | freezeMark n i => exact ⟨rfl, flagsKept_of_eq rfl, fun h => h, List.length_erase_le⟩
  | amendedInput r => dsimp only; split <;> first | exact lockAmend_move _ _ | exact .refl _
  | amendedOutput r o => dsimp only; split <;> first | exact lockAmend_move _ _ | exact .refl _

theorem failAmendRead_move (seg : Nat) (s : State) : ArchiveMove s (failAmendRead seg s) := by
  unfold failAmendRead
  split
  · refine ArchiveMove.trans (t := { s with ar.readQueue := s.ar.readQueue.filter (fun r => !(r.reader == Reader.amend && r.seg == seg)) })
      ⟨rfl, flagsKept_of_eq rfl, id, le_refl _⟩ ?_
    dsimp only
    split <;> first | exact lockAmend_move _ _ | exact .refl _
  · exact .refl s

theorem chooseSegment_move (g : SegEntry) (s : State) : ArchiveMove s (chooseSegment g s) := by
  unfold chooseSegment
  refine ArchiveMove.trans ?_ (failAmendRead_move _ _)
  exact ⟨rfl, flagsKept_of_eq rfl, id, le_refl _⟩

theorem reclaimMoment_move (s : State) : ArchiveMove s (reclaimMoment s) := by
  unfold reclaimMoment
  split
  · split <;> first | exact chooseSegment_move _ _ | exact .refl _
  · exact .refl s

theorem handItem_move (w : WriteItem) (s : State) : ArchiveMove s (handItem w s) := by
  unfold handItem
  split
  · exact dropItem_move w s
  · split
    · exact dropItem_move w s
    · split
      · exact dropItem_move w s
      · rename_i h
        have m : ArchiveMove s { s with ar.writeQueue := s.ar.writeQueue ++ [w] } :=
          ⟨rfl, flagsKept_of_eq rfl, fun _ => by simp; omega, le_refl _⟩
        dsimp only
        split
        · exact m.thenRaise _
        · exact m

theorem dropPlaceless_move (s : State) : ArchiveMove s (dropPlaceless s) := by
  unfold dropPlaceless
  split
  · refine ArchiveMove.trans ?_ (ArchiveMove.foldl _ (fun s w => dropItem_move w s) _ _)
    exact ⟨rfl, flagsKept_of_eq rfl, fun h => (List.length_filter_le _ _).trans h, le_refl _⟩
  · exact .refl s

theorem placeMoment_move (s : State) : ArchiveMove s (placeMoment s) := by
  unfold placeMoment
  split
  · exact .refl s
  · split <;> first | exact reclaimMoment_move _ | exact .refl _

theorem raiseConditions_move (s : State) : ArchiveMove s (raiseConditions s) := by
  have low : ArchiveMove s (if archiveLowHolds s then raise .archiveLow s else s) := by
    split <;> first | exact raise_move _ _ | exact .refl _
  refine low.trans ?_
  unfold raiseConditions
  generalize (if archiveLowHolds s then raise .archiveLow s else s) = t
  dsimp only
  split <;> first | exact raise_move _ _ | exact .refl _

theorem settleArchive_move (s : State) : ArchiveMove s (settleArchive s) :=
  (placeMoment_move s).trans ((dropPlaceless_move _).trans (raiseConditions_move _))

/-! ### The conditions of R84 after an event is settled -/

@[simp] theorem archiveLowHolds_raise (a : Attention) (s : State) : archiveLowHolds (raise a s) = archiveLowHolds s := rfl

@[simp] theorem archiveFullHolds_raise (a : Attention) (s : State) : archiveFullHolds (raise a s) = archiveFullHolds s := rfl

theorem flagSet_raise_same (a : Attention) (s : State) : flagSet a (raise a s) = true := by
  cases a <;> simp [flagSet, raise, Attention.word, Attention.bit]

theorem flagSet_raise_of (a b : Attention) (s : State) (h : flagSet a s = true) : flagSet a (raise b s) = true :=
  flagsKept_raise b s _ h

/-- The two conditions with their flags set: what R84 asks of a state. -/
def Flagged (s : State) : Prop :=
  (archiveLowHolds s = true → flagSet .archiveLow s = true) ∧ (archiveFullHolds s = true → flagSet .archiveFull s = true)

theorem raiseConditions_flagged (s : State) : Flagged (raiseConditions s) := by
  unfold raiseConditions Flagged
  by_cases hl : archiveLowHolds s = true <;> by_cases hf : archiveFullHolds s = true <;>
    simp [hl, hf, flagSet_raise_same, flagSet_raise_of]

theorem settleArchive_flagged (s : State) : Flagged (settleArchive s) := raiseConditions_flagged _

/-- Nothing to settle: no item waits, the stage is NORMAL, and the directory is not full. -/
theorem settleArchive_quiet {s : State} (hq : s.ar.writeQueue = []) (hs : s.ar.stage = .normal) (hd : directoryFull s = false) :
    settleArchive s = s := by
  have h1 : placeMoment s = s := by unfold placeMoment; rw [hq]
  have h2 : dropPlaceless s = s := by unfold dropPlaceless directoryStuck; simp [hd]
  have h3 : raiseConditions s = s := by
    unfold raiseConditions archiveLowHolds archiveFullHolds directoryStuck
    simp [hd, hs, hq]
  unfold settleArchive
  rw [h1, h2, h3]

end Sys2Proof.Machine
end

