-- ==== Sys2Proof/Laws/Bus.lean ====
section
/-! SUPPORT. What the bus interface's, retention unit's, pull engine's and burst unit's shared operations can do, said once: a BusMove
changes those four units, the archive's tables and queues and the attention flags; it clears no flag and keeps every bound. -/

namespace Sys2Proof.Machine

/-! ### BusMove -/

/-- The state with what a BusMove may change taken away. -/
def State.lessBus (s : State) : State :=
  { s with
    ar := { s.ar with
      segs := [], outs := [], ins := [], expired := [], writeQueue := [], readQueue := [], reading := none, keepReady := false }
    ru := .atReset
    pe := .atReset
    bi := { s.bi with queue := [], offers := [], tx := none, looped := [] }
    pp.flags := 0 }

/-- What the shared operations of the bus side can do. -/
structure BusMove (s t : State) : Prop where
  rest : t.lessBus = s.lessBus
  flags : FlagsKept s t
  write : s.ar.writeQueue.length ≤ 64 → t.ar.writeQueue.length ≤ 64
  control : s.bi.queue.length ≤ 32 → t.bi.queue.length ≤ 32
  general : countClass .general s ≤ 20 → countClass .general t ≤ 20
  keeps : s.ru.keeps.length ≤ 64 → t.ru.keeps.length ≤ 64
  tasks : s.ru.tasks.length ≤ 16 → t.ru.tasks.length ≤ 16
  freezes : t.ru.freezes.length ≤ s.ru.freezes.length
  relays : RelaysHold s → RelaysHold t

namespace BusMove

theorem refl (s : State) : BusMove s s := ⟨rfl, .refl s, id, id, id, id, id, le_refl _, id⟩

theorem trans {s t u : State} (h : BusMove s t) (g : BusMove t u) : BusMove s u :=
  ⟨g.rest.trans h.rest, h.flags.trans g.flags, g.write ∘ h.write, g.control ∘ h.control, g.general ∘ h.general, g.keeps ∘ h.keeps,
    g.tasks ∘ h.tasks, g.freezes.trans h.freezes, g.relays ∘ h.relays⟩

/-- The same, the last move first. -/
theorem after {s t u : State} (g : BusMove t u) (h : BusMove s t) : BusMove s u := h.trans g

theorem ofArchive {s t : State} (h : ArchiveMove s t) : BusMove s t where
  rest := show t.lessArchive.lessBus = s.lessArchive.lessBus from congrArg State.lessBus h.rest
  flags := h.flags
  write := h.write
  control := by rw [h.bi]; exact id
  general := by unfold countClass; rw [h.bi]; exact id
  keeps := by rw [h.keeps]; exact id
  tasks := by rw [h.tasks]; exact id
  freezes := h.freezes
  relays := by unfold RelaysHold ctxAt; rw [h.pe]; exact id

/-- A fold of moves is a move. -/
theorem foldl {α : Type} (f : State → α → State) (hf : ∀ s a, BusMove s (f s a)) (l : List α) (s : State) :
    BusMove s (l.foldl f s) := by
  induction l generalizing s with
  | nil => exact refl s
  | cons a l ih => exact (hf s a).trans (ih _)

variable {s t : State} (h : BusMove s t)
include h

theorem now : t.now = s.now := congrArg (fun u => u.now) h.rest
theorem free : t.free = s.free := congrArg (fun u => u.free) h.rest
theorem tiu : t.tiu = s.tiu := congrArg (fun u => u.tiu) h.rest
theorem ca : t.ca = s.ca := congrArg (fun u => u.ca) h.rest
theorem cx : t.cx = s.cx := congrArg (fun u => u.cx) h.rest
theorem flash : t.flash = s.flash := congrArg (fun u => u.flash) h.rest
theorem pending : t.pending = s.pending := congrArg (fun u => u.pending) h.rest
theorem scan : t.ar.scan = s.ar.scan := congrArg (fun u => u.ar.scan) h.rest
theorem stage : t.ar.stage = s.ar.stage := congrArg (fun u => u.ar.stage) h.rest
theorem keepWrite : t.ar.keepWrite = s.ar.keepWrite := congrArg (fun u => u.ar.keepWrite) h.rest
theorem node : t.bi.node = s.bi.node := congrArg (fun u => u.bi.node) h.rest
theorem station : t.pp.station = s.pp.station := congrArg (fun u => u.pp.station) h.rest
theorem config : t.pp.config = s.pp.config := congrArg (fun u => u.pp.config) h.rest
theorem lock : t.pp.lock = s.pp.lock := congrArg (fun u => u.pp.lock) h.rest
theorem enables : t.pp.enables = s.pp.enables := congrArg (fun u => u.pp.enables) h.rest
theorem buffer : t.pp.buffer = s.pp.buffer := congrArg (fun u => u.pp.buffer) h.rest

end BusMove

theorem reclaim_move (s : State) : BusMove s (reclaimMoment s) := .ofArchive (reclaimMoment_move s)

/-! ### Contexts and slots -/

@[simp] theorem ctxAt_setCtx (c d : Fin 6) (x : Option PullContext) (s : State) :
    ctxAt (setCtx c x s) d = if c = d then x else ctxAt s d := by
  simp only [ctxAt, setCtx, Vector.get_eq_getElem, Vector.getElem_set, Fin.ext_iff]

@[simp] theorem slotAt_setCtx (c : Fin 6) (x : Option PullContext) (k : Fin 8) (s : State) :
    slotAt (setCtx c x s) k = slotAt s k := rfl

@[simp] theorem slotAt_setSlot (k l : Fin 8) (x : Option FetchSlot) (s : State) :
    slotAt (setSlot k x s) l = if k = l then x else slotAt s l := by
  simp only [slotAt, setSlot, Vector.get_eq_getElem, Vector.getElem_set, Fin.ext_iff]

@[simp] theorem ctxAt_setSlot (k : Fin 8) (x : Option FetchSlot) (c : Fin 6) (s : State) :
    ctxAt (setSlot k x s) c = ctxAt s c := rfl

theorem relaysHold_setCtx {s : State} (c : Fin 6) (x : Option PullContext) (h : RelaysHold s)
    (hx : ∀ y, x = some y → y.relay.length ≤ 64) : RelaysHold (setCtx c x s) := fun d y hd => by
  rw [ctxAt_setCtx] at hd
  split at hd
  · exact hx y hd
  · exact h d y hd

/-- A context put whose relay buffer is within its bound when all were. -/
theorem setCtx_move (c : Fin 6) (x : Option PullContext) (s : State)
    (hx : RelaysHold s → ∀ y, x = some y → y.relay.length ≤ 64) : BusMove s (setCtx c x s) :=
  ⟨rfl, flagsKept_of_eq rfl, id, id, id, id, id, le_refl _, fun h => relaysHold_setCtx c x h (hx h)⟩

theorem freeCtx_move (c : Fin 6) (s : State) : BusMove s (setCtx c none s) :=
  setCtx_move c none s (fun _ _ h => by cases h)

/-- A context changed with its relay buffer kept or shortened. -/
theorem onCtx_move (c : Fin 6) (f : PullContext → PullContext) (s : State)
    (hf : ∀ x, x.relay.length ≤ 64 → (f x).relay.length ≤ 64) : BusMove s (onCtx c f s) := by
  unfold onCtx
  split
  · exact .refl s
  · rename_i x hx
    exact setCtx_move c _ s (fun h y hy => by cases hy; exact hf x (h c x hx))

theorem setSlot_move (k : Fin 8) (x : Option FetchSlot) (s : State) : BusMove s (setSlot k x s) :=
  ⟨rfl, flagsKept_of_eq rfl, id, id, id, id, id, le_refl _, id⟩

theorem onSlot_move (k : Fin 8) (f : FetchSlot → FetchSlot) (s : State) : BusMove s (onSlot k f s) := by
  unfold onSlot
  split <;> first | exact .refl s | exact setSlot_move _ _ _

theorem onPulling_move (k : Fin 8) (f : Pulling → Pulling) (s : State) : BusMove s (onPulling k f s) := onSlot_move _ _ _

theorem takeTag_move (s : State) : BusMove s (takeTag s) := ⟨rfl, flagsKept_of_eq rfl, id, id, id, id, id, le_refl _, id⟩

/-! ### The control queue (R190 to R192) -/

theorem report_move (f : OutFrame) (s : State) : BusMove s (report f s) := by
  unfold report
  split
  · exact .refl s
  · exact onSlot_move _ _ _
  · exact ⟨rfl, flagsKept_of_eq rfl, id, id, id, id, id, le_refl _, id⟩
  · split <;> first | exact freeCtx_move _ _ | exact .refl s

/-- A frame enters when its class is accepted: the bounds of R191 hold on. -/
theorem enterQueue_move (f : OutFrame) (s : State) (h : acceptsClass f.cls s = true) : BusMove s (enterQueue f s) := by
  refine ⟨rfl, flagsKept_of_eq rfl, id, fun hq => ?_, fun hg => ?_, id, id, le_refl _, id⟩
  · simp only [enterQueue, List.length_append, List.length_cons, List.length_nil]
    unfold acceptsClass freePlaces at h
    split at h <;> simp at h <;> omega
  · unfold countClass at hg ⊢
    have hle : s.bi.queue.countP (fun f => f.cls == FrameClass.general) ≤ s.bi.queue.length := List.countP_le_length
    simp only [enterQueue, List.countP_append, List.countP_singleton]
    unfold acceptsClass freePlaces at h
    split at h
    · rename_i hc; simp [hc]; exact hg
    · rename_i hc; simp [hc] at h ⊢; omega

theorem offer_move (f : OutFrame) (s : State) : BusMove s (offer f s).1 := by
  unfold offer
  split
  · exact report_move f s
  · split
    · exact (report_move f s).trans ⟨rfl, flagsKept_of_eq rfl, id, id, id, id, id, le_refl _, id⟩
    · split
      · rename_i h; exact enterQueue_move f s h
      · split
        · exact ⟨rfl, flagsKept_of_eq rfl, id, id, id, id, id, le_refl _, id⟩
        · exact .refl s

theorem send_move (f : OutFrame) (s : State) : BusMove s (send f s) := offer_move f s

theorem acceptedLater_move (f : OutFrame) (s : State) : BusMove s (acceptedLater f s) := by
  unfold acceptedLater
  split <;> first | exact onPulling_move _ _ _ | exact .refl s

theorem admitOffer_move (s : State) : BusMove s (admitOffer s) := by
  unfold admitOffer
  split
  · exact .refl s
  · rename_i f hf
    have ha : acceptsClass f.cls s = true := List.find?_some (p := fun f : OutFrame => acceptsClass f.cls s) hf
    refine BusMove.trans ?_ (acceptedLater_move _ _)
    refine BusMove.trans (t := { s with bi.offers := dropFirst (fun g => acceptsClass g.cls s) s.bi.offers })
      ⟨rfl, flagsKept_of_eq rfl, id, id, id, id, id, le_refl _, id⟩ (enterQueue_move f _ ?_)
    exact ha

theorem withdraw_move (p : OutFrame → Bool) (s : State) : BusMove s (withdraw p s) :=
  ⟨rfl, flagsKept_of_eq rfl, id, id, id, id, id, le_refl _, id⟩

theorem orphan_move (o : FrameOwner) (s : State) : BusMove s (orphan o s) := by
  refine ⟨rfl, flagsKept_of_eq rfl, id, fun h => by simpa [orphan] using h, fun h => ?_, id, id, le_refl _, id⟩
  unfold countClass at h ⊢
  simp only [orphan, List.countP_map]
  refine le_trans (le_of_eq (List.countP_congr fun f _ => ?_)) h
  simp only [Function.comp]
  split <;> rfl

theorem finishTransmit_move (s : State) : BusMove s (finishTransmit s) := by
  unfold finishTransmit
  split
  · exact .refl s
  · rename_i t _
    have m : BusMove s (report t.frame { s with bi.tx := none }) :=
      BusMove.trans (t := { s with bi.tx := none }) ⟨rfl, flagsKept_of_eq rfl, id, id, id, id, id, le_refl _, id⟩ (report_move _ _)
    dsimp only
    split
    · refine m.trans (BusMove.trans ?_ (admitOffer_move _))
      refine ⟨rfl, flagsKept_of_eq rfl, id, fun h => ?_, fun h => ?_, id, id, le_refl _, id⟩
      · exact le_trans (length_drop_le _ _) h
      · exact le_trans ((List.drop_sublist 1 _).countP_le) h
    · exact m

/-! ### Keeps and their propagation (R92 to R99) -/

theorem keepChanged_move (s : State) : BusMove s (keepChanged s) :=
  BusMove.trans (t := { s with ar.keepReady := true }) ⟨rfl, flagsKept_of_eq rfl, id, id, id, id, id, le_refl _, id⟩ (reclaim_move _)

theorem markPartial_move (i : CoilId) (n : Node) (k : Nat) (s : State) : BusMove s (markPartial i n k s) := by
  unfold markPartial
  split
  · refine BusMove.trans ?_ (keepChanged_move _)
    exact ⟨rfl, flagsKept_of_eq rfl, id, id, id, fun h => by simpa using h, id, le_refl _, id⟩
  · exact .refl s

theorem queueTask_move (t : Task) (s : State) : BusMove s (queueTask t s) := by
  unfold queueTask
  split
  · rename_i h
    exact ⟨rfl, flagsKept_of_eq rfl, id, id, id, id, fun _ => by simp; omega, le_refl _, id⟩
  · split <;> first | exact markPartial_move _ _ _ _ | exact .refl s

/-- The head task's record changed alone. -/
theorem setHead_move (h : Option TaskHead) (s : State) : BusMove s { s with ru.head := h } :=
  ⟨rfl, flagsKept_of_eq rfl, id, id, id, id, id, le_refl _, id⟩

theorem startHead_move (s : State) : BusMove s (startHead s) := by
  unfold startHead
  split
  · exact (takeTag_move s).trans ((setHead_move _ _).trans (send_move _ _))
  · exact .refl s

theorem formTasks_move (e : OutEntry) (n : Node) (k : Nat) (kind : TaskKind) (s : State) : BusMove s (formTasks e n k kind s) :=
  (BusMove.foldl _ (fun s _ => queueTask_move _ s) _ _).trans (startHead_move _)

theorem endTask_move (s : State) : BusMove s (endTask s) := by
  unfold endTask
  have m := (withdraw_move (fun f => f.owner == .task) s).trans (orphan_move .task _)
  refine m.trans ?_
  generalize orphan .task (withdraw (fun f => f.owner == .task) s) = t
  refine BusMove.trans (t := { t with ru.tasks := t.ru.tasks.drop 1, ru.head := none }) ?_ (startHead_move _)
  exact ⟨rfl, flagsKept_of_eq rfl, id, id, id, id, fun h => le_trans (length_drop_le _ _) h, le_refl _, id⟩

theorem failTask_move (s : State) : BusMove s (failTask s) := by
  unfold failTask
  split
  · exact .refl s
  · refine BusMove.trans ?_ (endTask_move _)
    split <;> first | exact markPartial_move _ _ _ _ | exact .refl s

theorem taskLocated_move (o : LocateOutcome) (s : State) : BusMove s (taskLocated o s) := by
  unfold taskLocated
  split
  · exact (setHead_move _ _).trans (send_move _ _)
  · exact failTask_move s
  · exact .refl s

/-- A KEEP that adds an entry found room for it. -/
theorem keepOutcome_room {s : State} {i : Option CoilId} {o n : Nat} {e : OutEntry} (h : (keepOutcome s i o n).2 = some e) :
    s.ru.keeps.length < 64 := by
  unfold keepOutcome at h
  repeat' split at h
  all_goals first | (simp at h; done) | omega

theorem takeKeep_move (src : Node) (tag : Tag) (p : List Byte) (s : State) : BusMove s (takeKeep src tag p s) := by
  unfold takeKeep
  dsimp only
  split
  · exact send_move _ _
  · split
    · exact send_move _ _
    · rename_i e he
      have room := keepOutcome_room he
      refine BusMove.trans (t := { s with ru.keeps := s.ru.keeps ++ [⟨e.id, _, _, false⟩] }) ?_
        ((keepChanged_move _).trans ((send_move _ _).trans (formTasks_move _ _ _ _ _)))
      exact ⟨rfl, flagsKept_of_eq rfl, id, id, id, fun _ => by simp; omega, id, le_refl _, id⟩

theorem takeUnkeep_move (src : Node) (tag : Tag) (p : List Byte) (s : State) : BusMove s (takeUnkeep src tag p s) := by
  unfold takeUnkeep
  dsimp only
  split
  · exact send_move _ _
  · split
    · exact send_move _ _
    · split
      · have m : ∀ ks : List KeepEntry, ks.length ≤ s.ru.keeps.length → ∀ f, BusMove s (send f (keepChanged { s with ru.keeps := ks })) :=
          fun ks hk f => BusMove.trans (t := { s with ru.keeps := ks })
            ⟨rfl, flagsKept_of_eq rfl, id, id, id, hk.trans, id, le_refl _, id⟩ ((keepChanged_move _).trans (send_move _ _))
        split
        · exact m _ (List.length_filter_le _ _) _
        · exact (m _ (List.length_filter_le _ _) _).trans (formTasks_move _ _ _ _ _)
      · exact send_move _ _

theorem takeKept_move (src : Node) (tag : Tag) (p : List Byte) (s : State) : BusMove s (takeKept src tag p s) := by
  unfold takeKept
  split
  · split
    · split
      · split <;> first | exact endTask_move s | exact failTask_move s
      · exact .refl s
    · exact .refl s
  · exact .refl s

theorem dropTasks_move (s : State) : BusMove s (dropTasks s) := by
  unfold dropTasks
  refine BusMove.trans (t := { s with ru.tasks := [], ru.head := none }) ?_ (BusMove.foldl _ (fun s t => ?_) _ _)
  · exact ⟨rfl, flagsKept_of_eq rfl, id, id, id, id, fun _ => by simp, le_refl _, id⟩
  · split <;> first | exact markPartial_move _ _ _ _ | exact .refl s

end Sys2Proof.Machine
end

