-- ==== Sys2Proof/Laws/Pull.lean ====
section
/-! SUPPORT. The pull engine's, burst unit's and receive side's operations are BusMoves: one lemma for each, up to settle. -/

namespace Sys2Proof.Machine

/-! ### Fetch slots (R146 to R152) -/

/-- The tag found: values passed over are held, and it is not held itself unless as many as allowed were passed over (R132). -/
theorem freshTag_passes (s : State) (fuel : Nat) (t : Tag) :
    ∃ n, n ≤ fuel ∧ freshTag s fuel t = t + BitVec.ofNat 16 n ∧ (∀ m, m < n → tagHeld s (t + BitVec.ofNat 16 m) = true)
      ∧ (n < fuel → tagHeld s (freshTag s fuel t) = false) := by
  induction fuel generalizing t with
  | zero => exact ⟨0, le_refl _, by simp [freshTag], fun m h => absurd h (Nat.not_lt_zero m), fun h => absurd h (Nat.lt_irrefl 0)⟩
  | succ fuel ih =>
    unfold freshTag
    by_cases held : tagHeld s t = true
    · obtain ⟨n, hn, found, passed, fresh⟩ := ih (t + 1)
      have next : ∀ m : Nat, t + BitVec.ofNat 16 (m + 1) = t + 1 + BitVec.ofNat 16 m := by
        intro m
        rw [BitVec.add_assoc, Nat.add_comm m 1, BitVec.ofNat_add]; rfl
      refine ⟨n + 1, by omega, ?_, ?_, ?_⟩
      · rw [if_pos held, found, next]
      · intro m hm
        cases m with
        | zero => simpa using held
        | succ m => rw [next]; exact passed m (by omega)
      · intro hm
        rw [if_pos held]
        exact fresh (by omega)
    · exact ⟨0, Nat.zero_le _, by simp [held], fun m h => absurd h (Nat.not_lt_zero m), fun _ => by simp [held]⟩

theorem beginFetch_move (c : Fin 6) (k : Fin 8) (plan : FetchPlan) (s : State) : BusMove s (beginFetch c k plan s) :=
  .after (send_move _ _) <| .after (onCtx_move _ _ _ fun _ h => h) <| .after (setSlot_move _ _ _) (takeTag_move s)

theorem waiting_move (l : List (Fin 6)) (s : State) : BusMove s { s with pe.waiting := l } :=
  ⟨rfl, flagsKept_of_eq rfl, id, id, id, id, id, le_refl _, id⟩

theorem readQueue_move (l : List ReadRequest) (s : State) : BusMove s { s with ar.readQueue := l } :=
  ⟨rfl, flagsKept_of_eq rfl, id, id, id, id, id, le_refl _, id⟩

theorem takeSlot_move (c : Fin 6) (plan : FetchPlan) (s : State) : BusMove s (takeSlot c plan s) := by
  unfold takeSlot
  split
  · exact beginFetch_move _ _ _ _
  · exact .after (onCtx_move _ _ _ fun _ h => h) (waiting_move _ s)

theorem promote_move (k : Fin 8) (s : State) : BusMove s (promote k s) := by
  unfold promote
  split
  · exact .refl s
  · rename_i c rest _
    dsimp only
    split
    · exact waiting_move rest s
    · split
      · exact waiting_move rest s
      · exact (waiting_move rest s).trans (beginFetch_move _ _ _ _)

theorem freeSlot_move (k : Fin 8) (s : State) : BusMove s (freeSlot k s) :=
  .after (promote_move _ _) <| .after (setSlot_move _ _ _) <| .after (orphan_move _ _) (withdraw_move _ s)

theorem stopSlot_move (k : Fin 8) (s : State) : BusMove s (stopSlot k s) := by
  unfold stopSlot
  split
  · exact .refl s
  · exact (withdraw_move _ s).trans ((setSlot_move _ _ _).trans (send_move _ _))

/-! ### The walk over parent segments (R145) -/

theorem walk_move (c : Fin 6) (depth : Nat) (g : Grid) (r : OutputRecord) (index : Nat) (l : List ParentSegment) (s : State) :
    BusMove s (walk c depth g r index l s) := by
  induction l generalizing index s with
  | nil => exact onCtx_move c enterClosing s (fun _ h => h)
  | cons p rest ih =>
    have m : BusMove s (onCtx c (fun x => { x with cursor := index + 1 }) s) := onCtx_move _ _ _ (fun _ h => h)
    unfold walk
    split
    · exact m.trans (ih _ _)
    · exact .after (ih _ _) <| .after (onCtx_move _ _ _ fun _ h => h) m
    · exact m.trans (takeSlot_move _ _ _)

theorem nextSegment_move (c : Fin 6) (s : State) : BusMove s (nextSegment c s) := by
  unfold nextSegment
  split
  · exact .refl s
  · split <;> first | exact walk_move _ _ _ _ _ _ _ | exact .refl s

theorem finishFetch_move (c : Fin 6) (k : Fin 8) (st : SegStatus) (s : State) : BusMove s (finishFetch c k st s) :=
  .after (nextSegment_move _ _) <| .after (freeSlot_move _ _) (onCtx_move c _ s fun _ h => h)

theorem slotLocated_move (k : Fin 8) (o : LocateOutcome) (s : State) : BusMove s (slotLocated k o s) := by
  unfold slotLocated
  split
  · exact .refl s
  · split
    · exact .refl s
    · split
      · exact (setSlot_move _ _ s).trans (send_move _ _)
      · exact finishFetch_move _ _ _ _
      · exact .refl s

/-! ### RESOLVE and LOCAL (R140 to R144) -/

/-- Own records are placed while there is room: the relay buffer keeps its bound (R172). -/
theorem placeOwn_move (c : Fin 6) (s : State) : BusMove s (placeOwn c s) := by
  unfold placeOwn
  refine onCtx_move c _ s (fun x h => ?_)
  simp only [List.length_append, List.length_take, List.length_drop]
  omega

theorem releasePin_move (c : Fin 6) (s : State) : BusMove s (releasePin c s) :=
  .after (reclaim_move _) (onCtx_move c _ s fun _ h => h)

theorem leaveLocal_move (c : Fin 6) (s : State) : BusMove s (leaveLocal c s) :=
  .after (nextSegment_move _ _) <| .after (releasePin_move _ _) (onCtx_move c _ s fun _ h => h)

theorem continueLocal_move (c : Fin 6) (s : State) : BusMove s (continueLocal c s) := by
  refine (placeOwn_move c s).trans ?_
  unfold continueLocal
  generalize placeOwn c s = t
  dsimp only
  split
  · exact .refl t
  · split <;> first | exact leaveLocal_move _ _ | exact .refl t

theorem endCellReading_move (c : Fin 6) (s : State) : BusMove s (endCellReading c s) :=
  .after (continueLocal_move _ _) (onCtx_move c _ s fun _ h => h)

theorem askCells_move (c : Fin 6) (s : State) : BusMove s (askCells c s) := by
  unfold askCells
  split
  · exact .refl s
  · split
    · split
      · exact endCellReading_move _ _
      · exact .after (onCtx_move _ _ _ fun _ h => h) (readQueue_move _ s)
    · exact .refl s

/-- A context put back with the relay buffer it had. -/
theorem putBack_move {c : Fin 6} {x y : PullContext} {s : State} (hx : ctxAt s c = some x) (hy : y.relay = x.relay) :
    BusMove s (setCtx c (some y) s) :=
  setCtx_move c _ s (fun h z hz => by cases hz; rw [hy]; exact h c x hx)

theorem takeCellPage_move (c : Fin 6) (p : Option Page) (s : State) : BusMove s (takeCellPage c p s) := by
  unfold takeCellPage
  split
  · exact .refl s
  · rename_i x hx
    split
    · dsimp only
      split
      · exact .after (endCellReading_move _ _) (putBack_move hx rfl)
      · exact .after (askCells_move _ _) (putBack_move hx rfl)
    · exact .refl s

theorem takeRecordPage_move (c : Fin 6) (p : Option Page) (s : State) : BusMove s (takeRecordPage c p s) := by
  unfold takeRecordPage
  split
  · exact .refl s
  · rename_i x hx
    split
    · exact .refl s
    · split
      · exact .after (reclaim_move _) (putBack_move hx rfl)
      · split
        · exact .after (reclaim_move _) (putBack_move hx rfl)
        · unfold enterLocal
          dsimp only
          split
          · exact .after (endCellReading_move _ _) <| .after (placeOwn_move _ _) (putBack_move hx rfl)
          · exact .after (askCells_move _ _) <| .after (placeOwn_move _ _) (putBack_move hx rfl)

theorem resolve_move (c : Fin 6) (x : PullContext) (s : State) (hx : x.relay.length ≤ 64) : BusMove s (resolve c x s) := by
  have put : ∀ (y : PullContext) (t : State), y.relay = x.relay → BusMove t (setCtx c (some y) t) := fun y t hy =>
    setCtx_move c _ t (fun _ z hz => by cases hz; rw [hy]; exact hx)
  unfold resolve
  split
  · split
    · exact .after (reclaim_move _) (put _ s rfl)
    · exact (readQueue_move _ s).trans (put _ _ rfl)
  · exact put _ s rfl
  · exact put _ s rfl

theorem takePull_move (src : Node) (tag : Tag) (p : List Byte) (s : State) : BusMove s (takePull src tag p s) := by
  unfold takePull
  dsimp only
  split
  · exact send_move _ _
  · split
    · exact send_move _ _
    · split
      · exact .refl s
      · split
        · exact send_move _ _
        · exact resolve_move _ _ _ (Nat.zero_le _)

/-! ### The ending of contexts (R155, R156) -/

theorem dropReads_move (c : Fin 6) (s : State) : BusMove s (dropReads c s) :=
  ⟨rfl, flagsKept_of_eq rfl, id, id, id, id, id, le_refl _, id⟩

theorem stopFetch_move (c : Fin 6) (s : State) : BusMove s (stopFetch c s) := by
  unfold stopFetch
  repeat' split
  all_goals first | exact .refl s | exact freeSlot_move _ _ | exact stopSlot_move _ _

theorem freeCtxNow_move (c : Fin 6) (s : State) : BusMove s (freeCtxNow c s) := (orphan_move _ s).trans (freeCtx_move _ _)

theorem endContext_move (c : Fin 6) (st : DoneStatus) (s : State) : BusMove s (endContext c st s) := by
  unfold endContext
  split
  · exact .refl s
  · have m : ∀ f, BusMove s
        (freeCtxNow c (send f (stopFetch c (dropReads c { s with pe.waiting := s.pe.waiting.filter (fun d => d != c) })))) := fun f =>
      (waiting_move _ s).trans ((dropReads_move _ _).trans ((stopFetch_move _ _).trans ((send_move _ _).trans (freeCtxNow_move _ _))))
    dsimp only
    split
    · exact (m _).trans (reclaim_move _)
    · exact m _

theorem takeStop_move (src : Node) (tag : Tag) (s : State) : BusMove s (takeStop src tag s) := by
  unfold takeStop
  split <;> first | exact .refl s | exact endContext_move _ _ _

/-! ### Answers and locates (R133, R135) -/

theorem takeSeek_move (src : Node) (tag : Tag) (p : List Byte) (s : State) : BusMove s (takeSeek src tag p s) := by
  unfold takeSeek
  repeat' split
  all_goals first | exact .refl s | exact send_move _ _

theorem takeOwn_move (src : Node) (tag : Tag) (p : List Byte) (s : State) : BusMove s (takeOwn src tag p s) := by
  unfold takeOwn
  split
  · exact ⟨rfl, flagsKept_of_eq rfl, id, id, id, id, id, le_refl _, id⟩
  · exact .refl s

/-! ### Bursts (R149 to R174) -/

theorem drainWatermark_move (c : Fin 6) (s : State) : BusMove s (drainWatermark c s) := by
  unfold drainWatermark
  repeat' split
  all_goals first
    | exact .refl s
    | exact (withdraw_move _ s).trans (onPulling_move _ _ _)
    | exact (onPulling_move _ _ s).trans (send_move _ _)

theorem formFrame_move {c : Fin 6} {x : PullContext} {s : State} (hx : ctxAt s c = some x) : BusMove s (formFrame c x s).2 := by
  have bins : ∀ b, BusMove s (formBins c x b s).2 := fun b => by
    refine BusMove.trans (setCtx_move c _ s (fun h y hy => ?_)) (drainWatermark_move c _)
    cases hy
    exact le_trans (length_drop_le _ _) (h c x hx)
  unfold formFrame
  split
  · split
    · exact putBack_move hx rfl
    · exact bins _
  · split
    · exact .refl s
    · exact bins _

/-- One record relayed keeps the buffer within 64 records (R149). -/
theorem relayRecord_room (level : Nat) (w : Relaying) (r : RecordBytes) (h : w.relay.length ≤ 64) :
    (relayRecord level w r).relay.length ≤ 64 := by
  unfold relayRecord Relaying.count
  dsimp only
  repeat' split
  all_goals simp_all

theorem relayRecords_room (level : Nat) (l : List RecordBytes) (w : Relaying) (h : w.relay.length ≤ 64) :
    (l.foldl (relayRecord level) w).relay.length ≤ 64 := by
  induction l generalizing w with
  | nil => exact h
  | cons r l ih => exact ih _ (relayRecord_room level w r h)

theorem raiseWatermark_move (k : Fin 8) (x : FetchSlot) (c : Fin 6) (s : State) : BusMove s (raiseWatermark k x c s) := by
  unfold raiseWatermark
  split
  · split
    · dsimp only
      split <;> exact (offer_move _ s).trans (onPulling_move _ _ _)
    · exact .refl s
  · exact .refl s

theorem relayFrame_move {c : Fin 6} {y : PullContext} {s : State} (hy : ctxAt s c = some y) (k : Fin 8) (x : FetchSlot) (p : Pulling)
    (pl : List Byte) : BusMove s (relayFrame k x p c y pl s) := by
  unfold relayFrame
  refine BusMove.trans (setSlot_move _ _ s) (BusMove.trans (setCtx_move c _ _ (fun h z hz => ?_)) (raiseWatermark_move _ _ _ _))
  cases hz
  exact relayRecords_room _ _ _ (h c y hy)

theorem takeBins_move (src : Node) (tag : Tag) (p : List Byte) (s : State) : BusMove s (takeBins src tag p s) := by
  unfold takeBins
  repeat' split
  all_goals first | exact .refl s | exact relayFrame_move (by assumption) _ _ _ _

theorem takeError_relay (e : FirstError) (x : PullContext) : (x.takeError e).relay = x.relay := by
  unfold PullContext.takeError; split <;> rfl

theorem takeMark_move (src : Node) (tag : Tag) (p : List Byte) (s : State) : BusMove s (takeMark src tag p s) := by
  unfold takeMark
  repeat' split
  all_goals first
    | exact .refl s
    | exact (setSlot_move _ _ s).trans (onCtx_move _ _ _ (fun x h => by rw [ownFault, takeError_relay]; exact h))

theorem takeDone_relay (s : State) (p : Pulling) (pl : List Byte) (x : PullContext) : (PullContext.takeDone s p pl x).relay = x.relay := by
  unfold PullContext.takeDone
  rw [takeError_relay]
  dsimp only [PullContext.addCounts]
  split
  · rw [ownFault, takeError_relay]
  · rfl

theorem takeDone_move (src : Node) (tag : Tag) (p : List Byte) (s : State) : BusMove s (takeDone src tag p s) := by
  unfold takeDone
  repeat' split
  all_goals first
    | exact .refl s
    | exact freeSlot_move _ _
    | exact .after (finishFetch_move _ _ _ _) (onCtx_move _ _ s fun x h => by rw [takeDone_relay]; exact h)

theorem takeWait_move (src : Node) (tag : Tag) (s : State) : BusMove s (takeWait src tag s) := by
  unfold takeWait
  split
  · exact .refl s
  · exact onCtx_move _ _ s (fun x h => by split <;> exact h)

theorem takeGo_move (src : Node) (tag : Tag) (s : State) : BusMove s (takeGo src tag s) := by
  unfold takeGo
  split
  · exact .refl s
  · exact onCtx_move _ _ s (fun x h => h)

/-! ### Handing over (R184, R185) -/

theorem handOver_move (kind : FrameKind) (src : Node) (tag : Tag) (p : List Byte) (s : State) :
    BusMove s (handOver kind src tag p s) := by
  cases kind
  · exact takeSeek_move _ _ _ _
  · exact takeOwn_move _ _ _ _
  · exact takePull_move _ _ _ _
  · exact takeBins_move _ _ _ _
  · exact takeMark_move _ _ _ _
  · exact takeDone_move _ _ _ _
  · exact takeWait_move _ _ _
  · exact takeGo_move _ _ _
  · exact takeStop_move _ _ _
  · exact takeKeep_move _ _ _ _
  · exact takeUnkeep_move _ _ _ _
  · exact takeKept_move _ _ _ _

theorem looped_move (l : List OutFrame) (s : State) : BusMove s { s with bi.looped := l } :=
  ⟨rfl, flagsKept_of_eq rfl, id, id, id, id, id, le_refl _, id⟩

theorem drainLooped_move (n : Nat) (s : State) : BusMove s (drainLooped n s) := by
  induction n generalizing s with
  | zero => exact .refl s
  | succ n ih =>
    unfold drainLooped
    split
    · exact .refl s
    · exact (looped_move _ s).trans ((handOver_move _ _ _ _ _).trans (ih _))

theorem settle_move (s : State) : BusMove s (settle s) := (drainLooped_move 64 s).trans (.ofArchive (settleArchive_move _))

theorem settle_flagged (s : State) : Flagged (settle s) := settleArchive_flagged _

/-- With no frame in the loopback, settling is the archive's. -/
theorem settle_of_noneLooped {s : State} (h : s.bi.looped = []) : settle s = settleArchive s := by
  unfold settle drainLooped
  rw [h]

end Sys2Proof.Machine
end

