-- ==== Sys2Proof/Laws/Line.lean ====
section
/-! SUPPORT. What the coil assembler's, cell accumulator's and activation's operations can do, said once: a LineMove changes the coil
assembler, the cell window and staging, the archive's tables, stage and queues, and the attention flags; it clears no flag, keeps every
bound, and no sequence counter falls. -/

namespace Sys2Proof.Machine

/-! ### LineMove -/

/-- The state with what a LineMove may change taken away. -/
def State.lessLine (s : State) : State :=
  { s with
    ca := { Ca.atReset with laneCount := s.ca.laneCount, dw := s.ca.dw }
    cx := { s.cx with front := none, window := [], staging := [] }
    ar := { s.ar with
      segs := [], outs := [], ins := [], expired := [], writeQueue := [], readQueue := []
      segSeq := 0, stage := .normal, activationWaits := false }
    ru := { s.ru with freezes := [], amend := .closed }
    pp.flags := 0 }

/-- The greatest value of a sequence counter (R17). -/
def maxSeq : Nat := 2 ^ 32 - 1

/-- What the shared operations of the line side can do. -/
structure LineMove (s t : State) : Prop where
  rest : t.lessLine = s.lessLine
  flags : FlagsKept s t
  write : s.ar.writeQueue.length ≤ 64 → t.ar.writeQueue.length ≤ 64
  freezes : t.ru.freezes.length ≤ s.ru.freezes.length
  entryQueue : t.ca.entryQueue.length ≤ s.ca.entryQueue.length
  welds : s.ca.welds.length ≤ 8 → t.ca.welds.length ≤ 8
  boundaries : s.ca.boundaries.length ≤ 4 → t.ca.boundaries.length ≤ 4
  closing : s.ca.closing.length ≤ 32 → t.ca.closing.length ≤ 32
  staging : s.cx.staging.length ≤ 512 → t.cx.staging.length ≤ 512
  sound : CellsSound s → CellsSound t
  inSeq : s.ca.inSeq ≤ maxSeq → s.ca.inSeq ≤ t.ca.inSeq ∧ t.ca.inSeq ≤ maxSeq
  outSeq : s.ca.outSeq ≤ maxSeq → s.ca.outSeq ≤ t.ca.outSeq ∧ t.ca.outSeq ≤ maxSeq

theorem nextSeq_move (n : Nat) (h : n ≤ maxSeq) : n ≤ nextSeq n ∧ nextSeq n ≤ maxSeq := by
  unfold nextSeq maxSeq at *; omega

namespace LineMove

theorem refl (s : State) : LineMove s s :=
  ⟨rfl, .refl s, id, le_refl _, le_refl _, id, id, id, id, id, fun h => ⟨le_refl _, h⟩, fun h => ⟨le_refl _, h⟩⟩

theorem trans {s t u : State} (h : LineMove s t) (g : LineMove t u) : LineMove s u where
  rest := g.rest.trans h.rest
  flags := h.flags.trans g.flags
  write := g.write ∘ h.write
  freezes := g.freezes.trans h.freezes
  entryQueue := g.entryQueue.trans h.entryQueue
  welds := g.welds ∘ h.welds
  boundaries := g.boundaries ∘ h.boundaries
  closing := g.closing ∘ h.closing
  staging := g.staging ∘ h.staging
  sound := g.sound ∘ h.sound
  inSeq := fun a => ⟨(h.inSeq a).1.trans (g.inSeq (h.inSeq a).2).1, (g.inSeq (h.inSeq a).2).2⟩
  outSeq := fun a => ⟨(h.outSeq a).1.trans (g.outSeq (h.outSeq a).2).1, (g.outSeq (h.outSeq a).2).2⟩

/-- The same, the last move first. -/
theorem after {s t u : State} (g : LineMove t u) (h : LineMove s t) : LineMove s u := h.trans g

theorem ofArchive {s t : State} (h : ArchiveMove s t) : LineMove s t where
  rest := show t.lessArchive.lessLine = s.lessArchive.lessLine from congrArg State.lessLine h.rest
  flags := h.flags
  write := h.write
  freezes := h.freezes
  entryQueue := by rw [h.ca]
  welds := by rw [h.ca]; exact id
  boundaries := by rw [h.ca]; exact id
  closing := by rw [h.ca]; exact id
  staging := by rw [h.cx]; exact id
  sound := fun ⟨w, g⟩ => ⟨by rw [h.cx]; exact w, by rw [h.cx]; exact g⟩
  inSeq := by rw [h.ca]; exact fun a => ⟨le_refl _, a⟩
  outSeq := by rw [h.ca]; exact fun a => ⟨le_refl _, a⟩

/-- A fold of moves is a move. -/
theorem foldl {α : Type} (f : State → α → State) (hf : ∀ s a, LineMove s (f s a)) (l : List α) (s : State) :
    LineMove s (l.foldl f s) := by
  induction l generalizing s with
  | nil => exact refl s
  | cons a l ih => exact (hf s a).trans (ih _)

/-- A further raise. -/
theorem thenRaise {s t : State} (a : Attention) (h : LineMove s t) : LineMove s (raise a t) := h.trans (ofArchive (raise_move a t))

variable {s t : State} (h : LineMove s t)
include h

theorem now : t.now = s.now := congrArg (fun u => u.now) h.rest
theorem free : t.free = s.free := congrArg (fun u => u.free) h.rest
theorem tiu : t.tiu = s.tiu := congrArg (fun u => u.tiu) h.rest
theorem flash : t.flash = s.flash := congrArg (fun u => u.flash) h.rest
theorem pe : t.pe = s.pe := congrArg (fun u => u.pe) h.rest
theorem bi : t.bi = s.bi := congrArg (fun u => u.bi) h.rest
theorem pending : t.pending = s.pending := congrArg (fun u => u.pending) h.rest
theorem laneCount : t.ca.laneCount = s.ca.laneCount := congrArg (fun u => u.ca.laneCount) h.rest
theorem dw : t.ca.dw = s.ca.dw := congrArg (fun u => u.ca.dw) h.rest
theorem channels : t.cx.channels = s.cx.channels := congrArg (fun u => u.cx.channels) h.rest
theorem pitch : t.cx.pitch = s.cx.pitch := congrArg (fun u => u.cx.pitch) h.rest
theorem scan : t.ar.scan = s.ar.scan := congrArg (fun u => u.ar.scan) h.rest
theorem pageWrite : t.ar.pageWrite = s.ar.pageWrite := congrArg (fun u => u.ar.pageWrite) h.rest
theorem keepWrite : t.ar.keepWrite = s.ar.keepWrite := congrArg (fun u => u.ar.keepWrite) h.rest
theorem keeps : t.ru.keeps = s.ru.keeps := congrArg (fun u => u.ru.keeps) h.rest
theorem tasks : t.ru.tasks = s.ru.tasks := congrArg (fun u => u.ru.tasks) h.rest
theorem station : t.pp.station = s.pp.station := congrArg (fun u => u.pp.station) h.rest
theorem config : t.pp.config = s.pp.config := congrArg (fun u => u.pp.config) h.rest
theorem lock : t.pp.lock = s.pp.lock := congrArg (fun u => u.pp.lock) h.rest
theorem enables : t.pp.enables = s.pp.enables := congrArg (fun u => u.pp.enables) h.rest
theorem buffer : t.pp.buffer = s.pp.buffer := congrArg (fun u => u.pp.buffer) h.rest

end LineMove

theorem raise_line (a : Attention) (s : State) : LineMove s (raise a s) := .ofArchive (raise_move a s)
theorem handItem_line (w : WriteItem) (s : State) : LineMove s (handItem w s) := .ofArchive (handItem_move w s)
theorem reclaim_line (s : State) : LineMove s (reclaimMoment s) := .ofArchive (reclaimMoment_move s)

theorem momentIf_line (b : Bool) (s : State) : LineMove s (momentIf b s) := by
  unfold momentIf
  split
  · exact reclaim_line s
  · exact .refl s

/-- The coil assembler put, its bounds kept. -/
theorem setCa_line (s : State) (a : Ca) (hl : a.laneCount = s.ca.laneCount) (hd : a.dw = s.ca.dw)
    (he : a.entryQueue.length ≤ s.ca.entryQueue.length) (hw : s.ca.welds.length ≤ 8 → a.welds.length ≤ 8)
    (hb : s.ca.boundaries.length ≤ 4 → a.boundaries.length ≤ 4) (hc : s.ca.closing.length ≤ 32 → a.closing.length ≤ 32)
    (hi : s.ca.inSeq ≤ maxSeq → s.ca.inSeq ≤ a.inSeq ∧ a.inSeq ≤ maxSeq)
    (ho : s.ca.outSeq ≤ maxSeq → s.ca.outSeq ≤ a.outSeq ∧ a.outSeq ≤ maxSeq) : LineMove s { s with ca := a } where
  rest := by simp only [State.lessLine, hl, hd]
  flags := .refl _
  write := id
  freezes := le_refl _
  entryQueue := he
  welds := hw
  boundaries := hb
  closing := hc
  staging := id
  sound := fun h => ⟨h.window, h.staging⟩
  inSeq := hi
  outSeq := ho

/-! ### Handing over (R35, R36) -/

theorem handCoil_line (r : OutputRecord) (s : State) : LineMove s (handCoil r s) := by
  unfold handCoil
  refine .after (reclaim_line _) <| .after (handItem_line _ _) ?_
  exact setCa_line s _ rfl rfl (le_refl _) id id id (fun h => ⟨le_refl _, h⟩) (fun h => ⟨le_refl _, h⟩)

/-- The closing list shortened. -/
theorem closing_line (s : State) (l : List OutputRecord) (hl : l.length ≤ s.ca.closing.length) :
    LineMove s { s with ca.closing := l } :=
  setCa_line s _ rfl rfl (le_refl _) id id hl.trans (fun h => ⟨le_refl _, h⟩) (fun h => ⟨le_refl _, h⟩)

theorem handReadyN_line (n : Nat) (s : State) : LineMove s (handReadyN n s) := by
  induction n generalizing s with
  | zero => exact .refl s
  | succ n ih =>
    unfold handReadyN
    split
    · exact .refl s
    · rename_i r rest hr
      split
      · exact .after (ih _) <| .after (handCoil_line _ _) (closing_line s rest (by rw [hr]; simp))
      · exact .refl s

theorem handReady_line (s : State) : LineMove s (handReady s) := handReadyN_line _ s

/-! ### Stages and activation (R80 to R83) -/

theorem enterRecordOnly_line (s : State) : LineMove s (enterRecordOnly s) := by
  unfold enterRecordOnly
  refine .after (handReady_line _) <| .after (raise_line _ _) ?_
  exact {
    rest := rfl
    flags := .refl _
    write := id
    freezes := le_refl _
    entryQueue := le_refl _
    welds := id
    boundaries := id
    closing := fun h => by simpa using h
    staging := fun h => by simp only [List.length_take]; omega
    sound := fun h => ⟨h.window, fun c hc => h.staging c (List.mem_of_mem_take hc)⟩
    inSeq := fun h => ⟨le_refl _, h⟩
    outSeq := fun h => ⟨le_refl _, h⟩ }

/-- The archive's stage and tables put; its write queue no longer than it was. -/
theorem setAr_line (s : State) (a : Ar) (hr : State.lessLine { s with ar := a } = s.lessLine)
    (hw : s.ar.writeQueue.length ≤ 64 → a.writeQueue.length ≤ 64) : LineMove s { s with ar := a } :=
  ⟨hr, .refl _, hw, le_refl _, le_refl _, id, id, id, id, fun h => ⟨h.window, h.staging⟩, fun h => ⟨le_refl _, h⟩, fun h => ⟨le_refl _, h⟩⟩

theorem enterFull_line (s : State) : LineMove s (enterFull s) := by
  unfold enterFull
  refine .after (raise_line _ _) <| .after (.foldl _ (fun s w => .ofArchive (dropItem_move w s)) _ _) ?_
  exact setAr_line s _ rfl (fun _ => by simp)

theorem activateLowest_line (s : State) : LineMove s (activateLowest s) := setAr_line s _ rfl id

theorem activate_line (s : State) : LineMove s (activate s) := by
  unfold activate
  refine .after (reclaim_line _) ?_
  dsimp only
  split
  · have m : LineMove s { s with ar.activationWaits := true } := setAr_line s _ rfl id
    split
    · exact m
    · split
      · exact .after (enterFull_line _) m
      · exact m
      · exact m
  · split
    · exact activateLowest_line s
    · exact .after (enterRecordOnly_line _) (activateLowest_line s)
  · exact activateLowest_line s

theorem activateIfNone_line (s : State) : LineMove s (activateIfNone s) := by
  unfold activateIfNone
  split <;> first | exact activate_line s | exact .refl s

theorem stageAfterErase_line (s : State) : LineMove s (stageAfterErase s) := by
  unfold stageAfterErase
  split
  · exact .refl s
  · split
    · exact setAr_line s _ rfl id
    · exact .refl s
  · split
    · exact .after (enterRecordOnly_line _) (activateLowest_line s)
    · exact .refl s

/-! ### Boundaries (R23 to R26) -/

/-- The coil assembler put with its counters and collections but the table and the coils as they were. -/
theorem setCoils_line (s : State) (a : Ca) (hl : a.laneCount = s.ca.laneCount) (hd : a.dw = s.ca.dw)
    (he : a.entryQueue = s.ca.entryQueue) (hw : a.welds = s.ca.welds) (hb : a.boundaries = s.ca.boundaries)
    (hc : a.closing = s.ca.closing) (hi : a.inSeq = s.ca.inSeq) (ho : a.outSeq = s.ca.outSeq) : LineMove s { s with ca := a } :=
  setCa_line s a hl hd (by rw [he]) (by rw [hw]; exact id) (by rw [hb]; exact id) (by rw [hc]; exact id)
    (by rw [hi]; exact fun h => ⟨le_refl _, h⟩) (by rw [ho]; exact fun h => ⟨le_refl _, h⟩)

/-- The pending boundaries shortened. -/
theorem dropBoundaries_line (s : State) (l : List Boundary) (hl : l.length ≤ s.ca.boundaries.length) :
    LineMove s { s with ca.boundaries := l } :=
  setCa_line s _ rfl rfl (le_refl _) id hl.trans id (fun h => ⟨le_refl _, h⟩) (fun h => ⟨le_refl _, h⟩)

theorem endExitCoil_line (b : Boundary) (s : State) : LineMove s (endExitCoil b s) := by
  unfold endExitCoil
  split
  · exact .refl s
  · split
    · exact .refl s
    · have m : ∀ l, LineMove s { s with ca.table := l } := fun l => setCoils_line s _ rfl rfl rfl rfl rfl rfl rfl rfl
      dsimp only
      split
      · exact m _
      · exact .after (raise_line _ _) <| .after (handItem_line _ _) (m _)

theorem passBoundary_line (b : Boundary) (s : State) : LineMove s (passBoundary b s) := by
  have m : LineMove s (beginExitCoil b (endExitCoil b s)) :=
    .after (setCoils_line _ _ rfl rfl rfl rfl rfl rfl rfl rfl) (endExitCoil_line b s)
  exact .after (setCoils_line _ _ rfl rfl rfl rfl rfl rfl rfl rfl) m

theorem passAll_line (l : List Boundary) (s : State) : LineMove s (passAll l s) := by
  induction l generalizing s with
  | nil => exact .refl s
  | cons b l ih =>
    unfold passAll
    exact .after (ih _) <| .after (passBoundary_line _ _) (dropBoundaries_line s _ (length_drop_le _ _))

theorem passDue_line (r : Nat) (s : State) : LineMove s (passDue r s) := passAll_line _ s

theorem forceOldestBoundary_line (s : State) : LineMove s (forceOldestBoundary s) := by
  unfold forceOldestBoundary
  split
  · split
    · exact .refl s
    · rename_i o rest h
      exact .after (raise_line _ _) <| .after (passBoundary_line _ _) (dropBoundaries_line s rest (by rw [h]; simp))
  · exact .refl s

theorem endExitCoil_boundaries (b : Boundary) (s : State) : (endExitCoil b s).ca.boundaries = s.ca.boundaries := by
  unfold endExitCoil
  split
  · rfl
  · split
    · rfl
    · dsimp only
      split
      · rfl
      · simp only [raise_ca]; rw [(handItem_move _ _).ca]

theorem passBoundary_boundaries (b : Boundary) (s : State) : (passBoundary b s).ca.boundaries = s.ca.boundaries :=
  endExitCoil_boundaries b s

/-- Room for the boundary that enters. -/
theorem forceOldestBoundary_room {s : State} (h : s.ca.boundaries.length ≤ 4) : (forceOldestBoundary s).ca.boundaries.length ≤ 3 := by
  unfold forceOldestBoundary
  split
  · split
    · rename_i h0; simp [h0]
    · rename_i o rest hr
      simp only [raise_ca, passBoundary_boundaries]
      rw [hr] at h; exact Nat.le_of_succ_le_succ h
  · omega

theorem length_insertBoundary (b : Boundary) (l : List Boundary) : (insertBoundary b l).length = l.length + 1 := by
  induction l with
  | nil => rfl
  | cons a l ih => simp only [insertBoundary]; split <;> simp [ih]

theorem enterBoundary_line (b : Boundary) (s : State) : LineMove s (enterBoundary b s) := by
  have f := forceOldestBoundary_line s
  have room := @forceOldestBoundary_room s
  unfold enterBoundary
  revert f room
  generalize forceOldestBoundary s = t
  intro f room
  refine .after (passDue_line _ _) ?_
  have m : LineMove s { t with ca.boundaries := [] } := .after (dropBoundaries_line t [] (Nat.zero_le _)) f
  exact { m with
    boundaries := fun h => by simp only [length_insertBoundary]; have := room h; omega
    sound := fun h => ⟨(m.sound h).window, (m.sound h).staging⟩ }

/-! ### Welds (R20 to R23) -/

theorem endEntryCoil_line (len : Nat) (sat : Bool) (s : State) : LineMove s (endEntryCoil len sat s) := by
  unfold endEntryCoil
  split
  · exact .refl s
  · have m : ∀ l, LineMove s { s with ca.table := l } := fun l => setCoils_line s _ rfl rfl rfl rfl rfl rfl rfl rfl
    dsimp only
    split
    · exact .after (raise_line _ _) (m _)
    · exact m _

theorem beginEntryCoil_line (s : State) : LineMove s (beginEntryCoil s) := by
  unfold beginEntryCoil
  have m : LineMove s { s with
      ca.inSeq := nextSeq s.ca.inSeq
      ca.entryQueue := s.ca.entryQueue.drop 1
      ca.table := s.ca.table ++ [⟨s.ca.inSeq, s.ca.entryQueue.headD [], none, false, none, false⟩]
      ca.entryCoil := some s.ca.inSeq } :=
    setCa_line s _ rfl rfl (length_drop_le _ _) id id id (nextSeq_move _) (fun h => ⟨le_refl _, h⟩)
  dsimp only
  split
  · exact .after (raise_line _ _) m
  · exact m

/-- The welds in transit shortened. -/
theorem dropWelds_line (s : State) (l : List Weld) (hl : l.length ≤ s.ca.welds.length) : LineMove s { s with ca.welds := l } :=
  setCa_line s _ rfl rfl (le_refl _) hl.trans id id (fun h => ⟨le_refl _, h⟩) (fun h => ⟨le_refl _, h⟩)

theorem forceOldestWeld_line (s : State) : LineMove s (forceOldestWeld s) := by
  unfold forceOldestWeld
  split
  · split
    · exact .refl s
    · rename_i o rest h
      exact .after (raise_line _ _) <| .after (enterBoundary_line _ _) (dropWelds_line s rest (by rw [h]; simp))
  · exact .refl s

theorem endExitCoil_welds (b : Boundary) (s : State) : (endExitCoil b s).ca.welds = s.ca.welds := by
  unfold endExitCoil
  split
  · rfl
  · split
    · rfl
    · dsimp only
      split
      · rfl
      · simp only [raise_ca]; rw [(handItem_move _ _).ca]

theorem passBoundary_welds (b : Boundary) (s : State) : (passBoundary b s).ca.welds = s.ca.welds := endExitCoil_welds b s

theorem passAll_welds (l : List Boundary) (s : State) : (passAll l s).ca.welds = s.ca.welds := by
  induction l generalizing s with
  | nil => rfl
  | cons b l ih => unfold passAll; rw [ih, passBoundary_welds]

theorem enterBoundary_welds (b : Boundary) (s : State) : (enterBoundary b s).ca.welds = s.ca.welds := by
  unfold enterBoundary passDue
  rw [passAll_welds]
  unfold forceOldestBoundary
  split
  · split
    · rfl
    · simp only [raise_ca, passBoundary_welds]
  · rfl

theorem forceOldestWeld_room {s : State} (h : s.ca.welds.length ≤ 8) : (forceOldestWeld s).ca.welds.length ≤ 7 := by
  unfold forceOldestWeld
  split
  · split
    · rename_i h0; simp [h0]
    · rename_i o rest hr
      simp only [raise_ca, enterBoundary_welds]
      rw [hr] at h; exact Nat.le_of_succ_le_succ h
  · omega

theorem entryWeld_line (len : Nat) (sat : Bool) (s : State) : LineMove s (entryWeld len sat s) := by
  have b : LineMove s (beginEntryCoil (endEntryCoil len sat s)) := .after (beginEntryCoil_line _) (endEntryCoil_line _ _ s)
  have f := LineMove.after (forceOldestWeld_line _) b
  have room : s.ca.welds.length ≤ 8 → (forceOldestWeld (beginEntryCoil (endEntryCoil len sat s))).ca.welds.length ≤ 7 :=
    fun h => forceOldestWeld_room (b.welds h)
  unfold entryWeld
  revert f room
  generalize forceOldestWeld (beginEntryCoil (endEntryCoil len sat s)) = t
  intro f room
  have m : LineMove s { t with ca.welds := [] } := .after (dropWelds_line t [] (Nat.zero_le _)) f
  exact { m with
    welds := fun h => by simp only [List.length_append, List.length_cons, List.length_nil]; have := room h; omega
    sound := fun h => ⟨(m.sound h).window, (m.sound h).staging⟩ }

theorem exitWeld_line (s : State) : LineMove s (exitWeld s) := by
  unfold exitWeld
  split
  · exact raise_line _ s
  · rename_i o rest h
    exact .after (enterBoundary_line _ _) (dropWelds_line s rest (by rw [h]; simp))

/-! ### Cuts (R27 to R37) -/

theorem openLane_line (c : Nat) (s : State) (lane : Nat) : LineMove s (openLane c s lane) :=
  setCa_line s _ rfl rfl (le_refl _) id id id (fun h => ⟨le_refl _, h⟩) (nextSeq_move _)

theorem openCoilsAt_line (c : Nat) (s : State) : LineMove s (openCoilsAt c s) :=
  .after (.foldl _ (openLane_line c) _ _) (setCoils_line s _ rfl rfl rfl rfl rfl rfl rfl rfl)

theorem finaliseOldest_line (s : State) : LineMove s (finaliseOldest s) := by
  unfold finaliseOldest
  split
  · split
    · exact .refl s
    · rename_i r rest h
      exact .after (handCoil_line _ _) (closing_line s rest (by rw [h]; simp))
  · exact .refl s

theorem handCoil_closing (r : OutputRecord) (s : State) : (handCoil r s).ca.closing = s.ca.closing := by
  unfold handCoil
  rw [(reclaimMoment_move _).ca, (handItem_move _ _).ca]

/-- Room for the coil that enters the closing list. -/
theorem finaliseOldest_room {s : State} (h : s.ca.closing.length ≤ 32) : (finaliseOldest s).ca.closing.length ≤ 31 := by
  unfold finaliseOldest
  split
  · split
    · rename_i h0; simp [h0]
    · rename_i r rest hr
      rw [handCoil_closing]
      rw [hr] at h; exact Nat.le_of_succ_le_succ h
  · omega

theorem closeLane_line (c : Nat) (mark : CoilFlags → CoilFlags) (dir : List CoilId) (p : State × List CoilId) (o : OpenCoil) :
    LineMove p.1 (closeLane c mark dir p o).1 := by
  obtain ⟨s, ids⟩ := p
  unfold closeLane
  dsimp only
  generalize closedRecord s c mark _ _ o = r
  have b : LineMove s { s with
      ca.names := s.ca.names.setIfInBounds (o.lane - 1) [], ca.openCoils := s.ca.openCoils.drop 1 } :=
    setCoils_line s _ rfl rfl rfl rfl rfl rfl rfl rfl
  have f := LineMove.after (finaliseOldest_line _) b
  have room := fun h => finaliseOldest_room (b.closing h)
  revert f room
  generalize finaliseOldest { s with
      ca.names := s.ca.names.setIfInBounds (o.lane - 1) [], ca.openCoils := s.ca.openCoils.drop 1 } = t
  intro f room
  refine .after (handReady_line _) ?_
  have m : LineMove s { t with ca.closing := [], ca.lastCoil := some r } :=
    .after (setCa_line t _ rfl rfl (le_refl _) id id (fun _ => Nat.zero_le _) (fun h => ⟨le_refl _, h⟩) (fun h => ⟨le_refl _, h⟩)) f
  exact { m with
    closing := fun h => by simp only [List.length_append, List.length_cons, List.length_nil]; have := room h; omega
    sound := fun h => ⟨(m.sound h).window, (m.sound h).staging⟩ }

theorem closeLanes_line (c : Nat) (mark : CoilFlags → CoilFlags) (dir : List CoilId) (l : List OpenCoil) (p : State × List CoilId) :
    LineMove p.1 (l.foldl (closeLane c mark dir) p).1 := by
  induction l generalizing p with
  | nil => exact .refl _
  | cons o l ih => exact .after (ih _) (closeLane_line c mark dir p o)

theorem cutCoils_line (c : Nat) (mark : CoilFlags → CoilFlags) (s : State) : LineMove s (cutCoils c mark s) :=
  .after (raise_line _ _) <| .after (openCoilsAt_line _ _) (closeLanes_line c mark _ _ (s, []))

theorem exitCut_line (s : State) : LineMove s (exitCut s) := by
  unfold exitCut
  split <;> first | exact cutCoils_line _ _ _ | exact .refl s

theorem stripBreak_line (s : State) : LineMove s (stripBreak s) := by
  unfold stripBreak
  split
  · exact cutCoils_line _ _ _
  · exact setCoils_line s _ rfl rfl rfl rfl rfl rfl rfl rfl

theorem advanceCoils_line (r : Nat) (s : State) : LineMove s (advanceCoils r s) := by
  refine .after ?_ (passDue_line r s)
  unfold advanceCoils
  generalize passDue r s = t
  dsimp only
  split
  · exact .refl t
  · split <;> first | exact cutCoils_line _ _ _ | exact .refl t

/-! ### Cells (R46 to R55) -/

theorem CellEntry.sound_empty : CellEntry.empty.Sound := by
  unfold CellEntry.Sound CellEntry.empty; simp

/-- A sample keeps an entry sound (R50, R51). -/
theorem CellEntry.sound_addSample {e : CellEntry} (v : Int) (h : e.Sound) : (e.addSample v).Sound := by
  obtain ⟨hc, hz, hp⟩ := h
  obtain ⟨count, sum, least, greatest, sat⟩ := e
  simp only [] at hc hz hp
  unfold CellEntry.Sound CellEntry.addSample
  simp only []
  rcases Nat.eq_zero_or_pos count with h0 | h0
  · subst h0
    have : sum = 0 := hz rfl
    subst this
    simp
  · obtain ⟨lo, hi, hlo, hhi, h1, h2⟩ := hp h0
    subst hlo hhi
    have hne : count ≠ 0 := by omega
    refine ⟨?_, ?_, fun _ => ⟨min lo v, max hi v, ?_, ?_, ?_, ?_⟩⟩
    · split <;> omega
    · intro hcount; split at hcount <;> omega
    · simp [hne, lesser]
    · simp [hne, greater]
    · have hmin : min lo v ≤ lo := min_le_left _ _
      have hminv : min lo v ≤ v := min_le_right _ _
      have hmul : min lo v * (count : Int) ≤ lo * count := mul_le_mul_of_nonneg_right hmin (by omega)
      split
      · push_cast; rw [mul_add, mul_one]; omega
      · omega
    · have hmax : hi ≤ max hi v := le_max_left _ _
      have hmaxv : v ≤ max hi v := le_max_right _ _
      have hmul : hi * (count : Int) ≤ max hi v * count := mul_le_mul_of_nonneg_right hmax (by omega)
      split
      · push_cast; rw [mul_add, mul_one]; omega
      · omega

theorem mem_putKey {α : Type} {k : Nat} {v : α} {l : List (Nat × α)} {e : Nat × α} (h : e ∈ putKey k v l) :
    e = (k, v) ∨ e ∈ l := by
  induction l with
  | nil => simp [putKey] at h; exact Or.inl h
  | cons a l ih =>
    simp only [putKey] at h
    split at h
    · simpa using h
    · split at h
      · rcases List.mem_cons.1 h with h | h
        · exact Or.inl h
        · exact Or.inr (List.mem_cons_of_mem _ h)
      · rcases List.mem_cons.1 h with h | h
        · exact Or.inr (h ▸ List.mem_cons_self)
        · rcases ih h with h | h
          · exact Or.inl h
          · exact Or.inr (List.mem_cons_of_mem _ h)

theorem getKey_mem {α : Type} {k : Nat} {v : α} {l : List (Nat × α)} (h : getKey k l = some v) : (k, v) ∈ l := by
  induction l with
  | nil => simp [getKey] at h
  | cons a l ih =>
    simp only [getKey] at h
    split at h
    · rename_i hk; simp at h; subst hk; subst h; exact List.mem_cons_self
    · exact List.mem_cons_of_mem _ (ih h)

/-- Every entry of a window cell is sound when all are: one not listed is empty (R49). -/
theorem sound_windowCell {s : State} (h : CellsSound s) (c : Nat) : ∀ e ∈ windowCell s c, e.Sound := by
  intro e he
  unfold windowCell at he
  cases hg : getKey c s.cx.window with
  | none =>
    rw [hg] at he
    simp only [Option.getD, emptyCell, List.mem_replicate] at he
    rw [he.2]; exact CellEntry.sound_empty
  | some v => rw [hg] at he; exact h.window _ (getKey_mem hg) e he

theorem mem_modify {α : Type} {f : α → α} {i : Nat} {l : List α} {e : α} (h : e ∈ l.modify i f) : e ∈ l ∨ ∃ a ∈ l, e = f a := by
  induction l generalizing i with
  | nil => simp at h
  | cons a l ih =>
    cases i with
    | zero =>
      simp only [List.modify_zero_cons] at h
      rcases List.mem_cons.1 h with h | h
      · exact Or.inr ⟨a, List.mem_cons_self, h⟩
      · exact Or.inl (List.mem_cons_of_mem _ h)
    | succ i =>
      simp only [List.modify_succ_cons] at h
      rcases List.mem_cons.1 h with h | h
      · exact Or.inl (h ▸ List.mem_cons_self)
      · rcases ih h with h | ⟨b, hb, h⟩
        · exact Or.inl (List.mem_cons_of_mem _ h)
        · exact Or.inr ⟨b, List.mem_cons_of_mem _ hb, h⟩

theorem markIncomplete_line (c : Nat) (s : State) : LineMove s (markIncomplete c s) :=
  setCa_line s _ rfl rfl (le_refl _) id id (fun h => by simpa using h) (fun h => ⟨le_refl _, h⟩) (fun h => ⟨le_refl _, h⟩)

/-- The cell accumulator's window put, every cell of it sound when all were. -/
theorem window_line (s : State) (w : List (Nat × List CellEntry)) (h : CellsSound s → ∀ c ∈ w, ∀ e ∈ c.2, e.Sound) :
    LineMove s { s with cx.window := w } :=
  ⟨rfl, .refl _, id, le_refl _, le_refl _, id, id, id, id, fun g => ⟨h g, g.staging⟩, fun a => ⟨le_refl _, a⟩, fun a => ⟨le_refl _, a⟩⟩

theorem takePair_line (delay : Nat) (p : State × Nat) (pair : Nat × Int) : LineMove p.1 (takePair delay p pair).1 := by
  unfold takePair
  dsimp only
  split
  · split
    · exact .refl _
    · split
      · refine .after (raise_line _ _) ?_
        split <;> first | exact .refl _ | exact markIncomplete_line _ _
      · refine window_line p.1 _ (fun g c hc e he => ?_)
        rcases mem_putKey hc with h | h
        · subst h
          rcases mem_modify he with h | ⟨a, ha, h⟩
          · exact sound_windowCell g _ e h
          · rw [h]; exact CellEntry.sound_addSample _ (sound_windowCell g _ a ha)
        · exact g.window c h e he
  · exact .refl _

theorem takeSet_line (pairs : List (Nat × Int)) (delay : Nat) (s : State) : LineMove s (takeSet pairs delay s).1 := by
  have all : ∀ (l : List (Nat × Int)) (p : State × Nat), LineMove p.1 (l.foldl (takePair delay) p).1 := by
    intro l
    induction l with
    | nil => exact fun p => .refl _
    | cons a l ih => exact fun p => .after (ih _) (takePair_line delay p a)
  unfold takeSet
  split
  · exact .refl s
  · exact all pairs (s, 0)

theorem retireFront_line (front : Nat) (s : State) : LineMove s (retireFront front s) := by
  have m : LineMove s { s with cx.front := some (front + 1), cx.window := s.cx.window.filter (fun e => e.1 != front) } :=
    ⟨rfl, .refl _, id, le_refl _, le_refl _, id, id, id, id, fun g => ⟨fun c hc => g.window c (List.mem_of_mem_filter hc), g.staging⟩,
      fun a => ⟨le_refl _, a⟩, fun a => ⟨le_refl _, a⟩⟩
  unfold retireFront
  refine .after (handReady_line _) ?_
  dsimp only
  split
  · split
    · rename_i hlt
      exact { m with
        staging := fun _ => by simp only [List.length_append, List.length_cons, List.length_nil]; omega
        sound := fun g => ⟨(m.sound g).window, fun c hc => by
          rcases List.mem_append.1 hc with h | h
          · exact g.staging c h
          · rw [List.mem_singleton.1 h]; exact sound_windowCell g front⟩ }
    · exact .after (markIncomplete_line _ _) m
  · exact m

theorem advanceCells_line (r : Nat) (s : State) : LineMove s (advanceCells r s) := by
  unfold advanceCells
  split
  · exact .refl s
  · split <;> first | exact retireFront_line _ _ | exact .refl s

end Sys2Proof.Machine
end

