-- ==== Sys2Proof/Laws/Store.lean ====
section
/-! SUPPORT. The sorted stores and the flash: every operation on the flash keeps its canonical form, and reads after writes. -/

namespace Sys2Proof.Machine

/-! ### Keyed stores -/

/-- Keys strictly rising. -/
def Rising {α : Type} (l : List (Nat × α)) : Prop := l.Pairwise (fun a b => a.1 < b.1)

theorem rising_putKey {α : Type} (k : Nat) (v : α) {l : List (Nat × α)} (h : Rising l) : Rising (putKey k v l) := by
  induction l with
  | nil => simp [putKey, Rising]
  | cons a l ih =>
    unfold Rising at h ih ⊢
    rw [List.pairwise_cons] at h
    simp only [putKey]
    split
    · rename_i hk
      refine List.pairwise_cons.2 ⟨fun b hb => ?_, List.pairwise_cons.2 h⟩
      rcases List.mem_cons.1 hb with hb | hb
      · subst hb; exact hk
      · exact hk.trans (h.1 b hb)
    · split
      · rename_i hk
        exact List.pairwise_cons.2 ⟨fun b hb => by subst hk; exact h.1 b hb, h.2⟩
      · rename_i hn hk
        refine List.pairwise_cons.2 ⟨fun b hb => ?_, ih h.2⟩
        rcases mem_putKey hb with hb | hb
        · subst hb; show a.1 < k; omega
        · exact h.1 b hb

theorem getKey_putKey_same {α : Type} (k : Nat) (v : α) (l : List (Nat × α)) : getKey k (putKey k v l) = some v := by
  induction l with
  | nil => simp [putKey, getKey]
  | cons a l ih =>
    simp only [putKey]
    split
    · simp [getKey]
    · split
      · simp [getKey]
      · simp only [getKey]; rw [if_neg (by assumption)]; exact ih

theorem getKey_putKey_other {α : Type} {j k : Nat} (v : α) (l : List (Nat × α)) (h : j ≠ k) :
    getKey j (putKey k v l) = getKey j l := by
  induction l with
  | nil => simp [putKey, getKey, h]
  | cons a l ih =>
    simp only [putKey]
    split
    · simp [getKey, h]
    · split
      · rename_i hk; simp only [getKey]; rw [if_neg h, if_neg (by rw [← hk]; exact h)]
      · simp only [getKey]; split <;> first | rfl | exact ih

theorem getKey_filter {α : Type} {j : Nat} (p : Nat → Bool) (l : List (Nat × α)) :
    getKey j (l.filter (fun e => p e.1)) = if p j then getKey j l else none := by
  induction l with
  | nil => simp [getKey]
  | cons a l ih =>
    by_cases hp : p a.1 = true
    · rw [List.filter_cons_of_pos (by exact hp)]
      simp only [getKey, ih]
      by_cases hj : j = a.1
      · subst hj; simp [hp]
      · simp [hj]
    · rw [List.filter_cons_of_neg (by exact hp), ih]
      by_cases hj : j = a.1
      · subst hj; simp [hp]
      · simp [getKey, hj]

theorem rising_putNat (n : Nat) {l : List Nat} (h : l.Pairwise (· < ·)) : (putNat n l).Pairwise (· < ·) := by
  have mem : ∀ {l : List Nat} {b : Nat}, b ∈ putNat n l → b = n ∨ b ∈ l := by
    intro l
    induction l with
    | nil => intro b hb; simp [putNat] at hb; exact Or.inl hb
    | cons m l ih =>
      intro b hb
      simp only [putNat] at hb
      split at hb
      · simpa using hb
      · split at hb
        · exact Or.inr hb
        · rcases List.mem_cons.1 hb with hb | hb
          · exact Or.inr (hb ▸ List.mem_cons_self)
          · rcases ih hb with hb | hb
            · exact Or.inl hb
            · exact Or.inr (List.mem_cons_of_mem _ hb)
  induction l with
  | nil => simp [putNat]
  | cons m l ih =>
    rw [List.pairwise_cons] at h
    simp only [putNat]
    split
    · rename_i hk
      refine List.pairwise_cons.2 ⟨fun b hb => ?_, List.pairwise_cons.2 h⟩
      rcases List.mem_cons.1 hb with hb | hb
      · subst hb; exact hk
      · exact hk.trans (h.1 b hb)
    · split
      · exact List.pairwise_cons.2 h
      · refine List.pairwise_cons.2 ⟨fun b hb => ?_, ih h.2⟩
        rcases mem hb with hb | hb
        · subst hb; omega
        · exact h.1 b hb

/-! ### The flash -/

theorem Flash.wf_iff (f : Flash) : f.wf = true ↔ Rising f.pages ∧ f.partlyErased.Pairwise (· < ·) := by
  unfold Flash.wf Rising
  simp

theorem Flash.wf_put {f : Flash} (seg page : Nat) (p : Page) (h : f.wf = true) : (f.put seg page p).wf = true := by
  rw [Flash.wf_iff] at h ⊢
  exact ⟨rising_putKey _ _ h.1, h.2⟩

theorem Flash.wf_eraseSeg {f : Flash} (seg : Nat) (h : f.wf = true) : (f.eraseSeg seg).wf = true := by
  rw [Flash.wf_iff] at h ⊢
  exact ⟨h.1.sublist List.filter_sublist, h.2.sublist List.filter_sublist⟩

theorem Flash.wf_cutErase {f : Flash} (seg : Nat) (h : f.wf = true) : (f.cutErase seg).wf = true := by
  rw [Flash.wf_iff] at h ⊢
  exact ⟨h.1.sublist List.filter_sublist, rising_putNat _ h.2⟩

/-- The page written is read back (R65). -/
theorem Flash.at_put_same (f : Flash) (seg page : Nat) (p : Page) : (f.put seg page p).at seg page = some p :=
  getKey_putKey_same _ _ _

/-- A write changes no other page (R65). -/
theorem Flash.at_put_other (f : Flash) {seg page seg' page' : Nat} (p : Page) (h : pageKey seg' page' ≠ pageKey seg page) :
    (f.put seg page p).at seg' page' = f.at seg' page' := getKey_putKey_other _ _ h

/-- After an erase every page of the segment is erased, and no other has changed (R76). -/
theorem Flash.at_eraseSeg (f : Flash) (seg seg' page : Nat) (h : page < 256) :
    (f.eraseSeg seg).at seg' page = if seg' = seg then none else f.at seg' page := by
  unfold Flash.eraseSeg Flash.at
  rw [getKey_filter (fun n => n / 256 != seg)]
  have : pageKey seg' page / 256 = seg' := by unfold pageKey; omega
  rw [this]
  by_cases hs : seg' = seg <;> simp [hs]

/-! ### Keep images (R85) -/

theorem stored_put {f : Flash} (seg page : Nat) {p : Page} (hp : p.imageHolds) (h : ∀ e ∈ f.pages, e.2.imageHolds) :
    ∀ e ∈ (f.put seg page p).pages, e.2.imageHolds := by
  intro e he
  rcases mem_putKey he with he | he
  · subst he; exact hp
  · exact h e he

theorem stored_eraseSeg {f : Flash} (seg : Nat) (h : ∀ e ∈ f.pages, e.2.imageHolds) : ∀ e ∈ (f.eraseSeg seg).pages, e.2.imageHolds :=
  fun e he => h e (List.mem_of_mem_filter he)

theorem stored_cutErase {f : Flash} (seg : Nat) (h : ∀ e ∈ f.pages, e.2.imageHolds) : ∀ e ∈ (f.cutErase seg).pages, e.2.imageHolds :=
  fun e he => h e (List.mem_of_mem_filter he)

end Sys2Proof.Machine
end

