-- ==== Sys2Proof/Laws/Kept.lean ====
section
/-! SUPPORT. Two relations between a state and the next that every move satisfies: Kept (the queue stands, the clock does not fall, every
bound is kept) and Steady (the node address stands, no flag is cleared, no sequence counter and no pulse total falls). -/

namespace Sys2Proof.Machine

/-! ### Kept -/

/-- What the bounds of Safety.lean look at. -/
def State.bounded (s : State) :=
  (s.pending, s.ar.scan, s.pp.station, s.pp.lock, s.pp.config.isSome, s.bi.queue, s.ar.writeQueue, s.ru.keeps, s.ru.tasks, s.ru.freezes,
    s.ar.keepWrite, s.flash, s.ca.entryQueue, s.ca.welds, s.ca.boundaries, s.ca.closing, s.cx.window, s.cx.staging, s.pe.contexts)

/-- The queue stands, the clock does not fall, and what held of the state's bounds holds on. -/
structure Kept (s t : State) : Prop where
  pending : t.pending = s.pending
  clock : s.now ≤ t.now
  modes : ModesAgree s → ModesAgree t
  control : ControlQueueHolds s → ControlQueueHolds t
  write : WriteQueueHolds s → WriteQueueHolds t
  retention : RetentionHolds s → RetentionHolds t
  assembler : AssemblerHolds s → AssemblerHolds t
  relays : RelaysHold s → RelaysHold t
  staging : StagingHolds s → StagingHolds t
  sound : CellsSound s → CellsSound t
  flash : FlashCanonical s → FlashCanonical t

namespace Kept

/-- What the bounds look at stands, and the clock does not fall. -/
theorem ofBounded {s t : State} (h : t.bounded = s.bounded) (hn : s.now ≤ t.now) : Kept s t := by
  unfold State.bounded at h
  simp only [Prod.mk.injEq] at h
  obtain ⟨h1, h2, h3, h4, h5, h6, h7, h8, h9, h10, h11, h12, h13, h14, h15, h16, h17, h18, h19⟩ := h
  refine ⟨h1, hn, fun h => ?_, fun h => ?_, fun h => ?_, fun h => ?_, fun h => ?_, fun h => ?_, fun h => ?_, fun h => ?_, fun h => ?_⟩
  · exact ⟨by rw [h2, h3]; exact h.scan, by rw [h4, h3]; exact h.lock, by rw [h3, h5]; exact h.config⟩
  · exact ⟨by rw [h6]; exact h.frames, by unfold countClass; rw [h6]; exact h.general⟩
  · unfold WriteQueueHolds at *; rw [h7]; exact h
  · exact ⟨by rw [h8]; exact h.keeps, by rw [h9]; exact h.tasks, by rw [h10]; exact h.freezes, by rw [h11]; exact h.written,
      by rw [h12]; exact h.stored⟩
  · exact ⟨by rw [h13]; exact h.entryQueue, by rw [h14]; exact h.welds, by rw [h15]; exact h.boundaries, by rw [h16]; exact h.closing⟩
  · unfold RelaysHold ctxAt at *; rw [h19]; exact h
  · unfold StagingHolds at *; rw [h18]; exact h
  · exact ⟨by rw [h17]; exact h.window, by rw [h18]; exact h.staging⟩
  · unfold FlashCanonical at *; rw [h12]; exact h

theorem refl (s : State) : Kept s s := ofBounded rfl (le_refl _)

theorem trans {s t u : State} (h : Kept s t) (g : Kept t u) : Kept s u :=
  ⟨g.pending.trans h.pending, h.clock.trans g.clock, g.modes ∘ h.modes, g.control ∘ h.control, g.write ∘ h.write,
    g.retention ∘ h.retention, g.assembler ∘ h.assembler, g.relays ∘ h.relays, g.staging ∘ h.staging, g.sound ∘ h.sound,
    g.flash ∘ h.flash⟩

/-- The same, the last move first. -/
theorem after {s t u : State} (g : Kept t u) (h : Kept s t) : Kept s u := h.trans g

theorem ofBus {s t : State} (h : BusMove s t) : Kept s t where
  pending := h.pending
  clock := le_of_eq h.now.symm
  modes := fun g => ⟨by rw [h.scan, h.station]; exact g.scan, by rw [h.lock, h.station]; exact g.lock,
    by rw [h.station, h.config]; exact g.config⟩
  control := fun g => ⟨h.control g.frames, h.general g.general⟩
  write := h.write
  retention := fun g => ⟨h.keeps g.keeps, h.tasks g.tasks, h.freezes.trans g.freezes, by rw [h.keepWrite]; exact g.written,
    by rw [h.flash]; exact g.stored⟩
  assembler := fun g => ⟨by rw [h.ca]; exact g.entryQueue, by rw [h.ca]; exact g.welds, by rw [h.ca]; exact g.boundaries,
    by rw [h.ca]; exact g.closing⟩
  relays := h.relays
  staging := by unfold StagingHolds; rw [h.cx]; exact id
  sound := fun g => ⟨by rw [h.cx]; exact g.window, by rw [h.cx]; exact g.staging⟩
  flash := by unfold FlashCanonical; rw [h.flash]; exact id

theorem ofLine {s t : State} (h : LineMove s t) : Kept s t where
  pending := h.pending
  clock := le_of_eq h.now.symm
  modes := fun g => ⟨by rw [h.scan, h.station]; exact g.scan, by rw [h.lock, h.station]; exact g.lock,
    by rw [h.station, h.config]; exact g.config⟩
  control := fun g => ⟨by rw [h.bi]; exact g.frames, by unfold countClass; rw [h.bi]; exact g.general⟩
  write := h.write
  retention := fun g => ⟨by rw [h.keeps]; exact g.keeps, by rw [h.tasks]; exact g.tasks, h.freezes.trans g.freezes,
    by rw [h.keepWrite]; exact g.written, by rw [h.flash]; exact g.stored⟩
  assembler := fun g => ⟨h.entryQueue.trans g.entryQueue, h.welds g.welds, h.boundaries g.boundaries, h.closing g.closing⟩
  relays := by unfold RelaysHold ctxAt; rw [h.pe]; exact id
  staging := h.staging
  sound := h.sound
  flash := by unfold FlashCanonical; rw [h.flash]; exact id

theorem ofArchive {s t : State} (h : ArchiveMove s t) : Kept s t := ofBus (.ofArchive h)

end Kept

theorem settle_kept (s : State) : Kept s (settle s) := .ofBus (settle_move s)

theorem settleArchive_kept (s : State) : Kept s (settleArchive s) := .ofArchive (settleArchive_move s)

theorem advanceTo_kept (t : Nat) (s : State) : Kept s (advanceTo t s) := .ofBounded rfl (le_max_left _ _)

/-! ### Steady -/

/-- The node address stands, no flag is cleared, and neither a sequence counter nor the run coordinate's parts fall. -/
structure Steady (s t : State) : Prop where
  node : t.bi.node = s.bi.node
  flags : FlagsKept s t
  inSeq : s.ca.inSeq ≤ maxSeq → s.ca.inSeq ≤ t.ca.inSeq ∧ t.ca.inSeq ≤ maxSeq
  outSeq : s.ca.outSeq ≤ maxSeq → s.ca.outSeq ≤ t.ca.outSeq ∧ t.ca.outSeq ≤ maxSeq
  origin : t.tiu.runOrigin = s.tiu.runOrigin
  weight : t.tiu.exitWeight = s.tiu.exitWeight

/-- What Steady looks at. -/
def State.steady (s : State) := (s.bi.node, s.pp.flags, s.ca.inSeq, s.ca.outSeq, s.tiu.runOrigin, s.tiu.exitWeight)

namespace Steady

theorem ofSteady {s t : State} (h : t.steady = s.steady) : Steady s t := by
  unfold State.steady at h
  simp only [Prod.mk.injEq] at h
  obtain ⟨h1, h2, h3, h4, h5, h6⟩ := h
  exact ⟨h1, flagsKept_of_eq h2, by rw [h3]; exact fun a => ⟨le_refl _, a⟩, by rw [h4]; exact fun a => ⟨le_refl _, a⟩, h5, h6⟩

theorem refl (s : State) : Steady s s := ofSteady rfl

theorem trans {s t u : State} (h : Steady s t) (g : Steady t u) : Steady s u where
  node := g.node.trans h.node
  flags := h.flags.trans g.flags
  inSeq := fun a => ⟨(h.inSeq a).1.trans (g.inSeq (h.inSeq a).2).1, (g.inSeq (h.inSeq a).2).2⟩
  outSeq := fun a => ⟨(h.outSeq a).1.trans (g.outSeq (h.outSeq a).2).1, (g.outSeq (h.outSeq a).2).2⟩
  origin := g.origin.trans h.origin
  weight := g.weight.trans h.weight

/-- The same, the last move first. -/
theorem after {s t u : State} (g : Steady t u) (h : Steady s t) : Steady s u := h.trans g

theorem ofBus {s t : State} (h : BusMove s t) : Steady s t :=
  ⟨h.node, h.flags, by rw [h.ca]; exact fun a => ⟨le_refl _, a⟩, by rw [h.ca]; exact fun a => ⟨le_refl _, a⟩, by rw [h.tiu], by rw [h.tiu]⟩

theorem ofLine {s t : State} (h : LineMove s t) : Steady s t :=
  ⟨by rw [h.bi], h.flags, h.inSeq, h.outSeq, by rw [h.tiu], by rw [h.tiu]⟩

theorem ofArchive {s t : State} (h : ArchiveMove s t) : Steady s t := ofBus (.ofArchive h)

end Steady

theorem settle_steady (s : State) : Steady s (settle s) := .ofBus (settle_move s)

theorem settleArchive_steady (s : State) : Steady s (settleArchive s) := .ofArchive (settleArchive_move s)

/-! ### Both -/

/-- What every move of the station but RESET, READ-EVENTS, START and the scan does. -/
structure Moves (s t : State) : Prop where
  kept : Kept s t
  steady : Steady s t

namespace Moves

theorem refl (s : State) : Moves s s := ⟨.refl s, .refl s⟩

theorem trans {s t u : State} (h : Moves s t) (g : Moves t u) : Moves s u := ⟨h.kept.trans g.kept, h.steady.trans g.steady⟩

/-- The same, the last move first. -/
theorem after {s t u : State} (g : Moves t u) (h : Moves s t) : Moves s u := h.trans g

theorem ofBus {s t : State} (h : BusMove s t) : Moves s t := ⟨.ofBus h, .ofBus h⟩

theorem ofLine {s t : State} (h : LineMove s t) : Moves s t := ⟨.ofLine h, .ofLine h⟩

theorem ofArchive {s t : State} (h : ArchiveMove s t) : Moves s t := ⟨.ofArchive h, .ofArchive h⟩

/-- Neither relation looks at what changed. -/
theorem ofEq {s t : State} (h : t.bounded = s.bounded) (g : t.steady = s.steady) (hn : t.now = s.now) : Moves s t :=
  ⟨.ofBounded h (le_of_eq hn.symm), .ofSteady g⟩

theorem ite {s t u : State} (b : Prop) [Decidable b] (h : Moves s t) (g : Moves s u) : Moves s (if b then t else u) := by
  split <;> assumption

end Moves

theorem settle_moves (s : State) : Moves s (settle s) := ⟨settle_kept s, settle_steady s⟩

theorem settleArchive_moves (s : State) : Moves s (settleArchive s) := ⟨settleArchive_kept s, settleArchive_steady s⟩

theorem advanceTo_moves (t : Nat) (s : State) : Moves s (advanceTo t s) := ⟨advanceTo_kept t s, .ofSteady rfl⟩

theorem raise_moves (a : Attention) (s : State) : Moves s (raise a s) := .ofArchive (raise_move a s)

theorem respond_moves (code : Byte) (fs : List Byte) (r : PortResult) (n : Nat) (d : List Byte) (s : State) :
    Moves s (respond code fs r n d s) := .ofEq rfl rfl rfl

theorem refuse_moves (code : Byte) (fs : List Byte) (n : Nat) (r : Reason) (s : State) : Moves s (refuse code fs n r s) :=
  .ofEq rfl rfl rfl

theorem accept_moves (code : Byte) (fs d : List Byte) (s : State) : Moves s (accept code fs d s) := .ofEq rfl rfl rfl

end Sys2Proof.Machine
end

