-- ==== Sys2Proof/Laws/Commands.lean ====
section
/-! SUPPORT. One lemma for each command's meaning: it answers a next state, and the move it makes. RESET, START, RESTART, READ_EVENTS,
the scan and the commands that write the flash have theirs in Station.lean. -/

namespace Sys2Proof.Machine

/-- A meaning answers a next state that a move reaches. -/
def Answers (o : Host.Outcome State Fault Refusal) (s : State) : Prop := ∃ t, o = .next t ∧ Moves s t

theorem answers {s t : State} (h : Moves s t) : Answers (.next t) s := ⟨t, rfl, h⟩

/-! ### Line inputs -/

theorem evaluateKinds_moves (s : State) : Moves s (evaluateKinds s) := by
  have h1 : ∀ (b : Prop) [Decidable b] (u : State), Moves u (if b then exitWeld u else u) :=
    fun b _ u => .ite b (.ofLine (exitWeld_line u)) (.refl u)
  have h2 : ∀ (b : Prop) [Decidable b] (u : State), Moves u (if b then exitCut u else u) :=
    fun b _ u => .ite b (.ofLine (exitCut_line u)) (.refl u)
  have h3 : ∀ (b : Prop) [Decidable b] (u : State), Moves u (if b then stripBreak u else u) :=
    fun b _ u => .ite b (.ofLine (stripBreak_line u)) (.refl u)
  have h4 : ∀ (b : Prop) [Decidable b] (u : State), Moves u (if b then fireEntryWeld u else u) :=
    fun b _ u => .ite b (.after (.ofLine (entryWeld_line _ _ _)) (.ofEq rfl rfl rfl)) (.refl u)
  unfold evaluateKinds
  exact .after (h4 _ _) <| .after (h3 _ _) <| .after (h2 _ _) <| .after (h1 _ _) (.ofEq rfl rfl rfl)

theorem takeChange_moves (k : Fin 12) (s : State) : Moves s (takeChange k s) := by
  unfold takeChange
  dsimp only
  split
  · exact .after (settleArchive_moves _) <| .after (evaluateKinds_moves _) (.ofEq rfl rfl rfl)
  · exact .ofEq rfl rfl rfl

theorem execRawInputChange_answers (k : Fin 12) (l : Bool) (s : State) : Answers (execRawInputChange k l s) s := by
  refine answers ?_
  split
  · exact .refl s
  · split
    · exact .ofEq rfl rfl rfl
    · split
      · exact .after (takeChange_moves _ _) (.ofEq rfl rfl rfl)
      · exact .ofEq rfl rfl rfl

theorem execFilteredChange_answers (k : Fin 12) (s : State) : Answers (execFilteredChange k s) s := by
  refine answers ?_
  split
  · exact .refl s
  · exact .after (takeChange_moves _ _) (advanceTo_moves _ _)

theorem countExitPulse_moves (s : State) : Moves s (countExitPulse s) := by
  unfold countExitPulse
  split <;> exact .ofEq rfl rfl rfl

theorem advanceTrack_moves (r : Nat) (s : State) : Moves s (advanceTrack r s) :=
  .after (settleArchive_moves _) <| .after (.ofLine (advanceCells_line _ _)) (.ofLine (advanceCoils_line _ _))

theorem execExitPulse_answers (b : Bool) (s : State) : Answers (execExitPulse b s) s := by
  refine answers ?_
  split
  · split
    · exact .after (advanceTrack_moves _ _) (countExitPulse_moves s)
    · exact countExitPulse_moves s
  · exact .refl s

theorem execEntryPulse_answers (b : Bool) (s : State) : Answers (execEntryPulse b s) s := by
  refine answers ?_
  split <;> exact .ofEq rfl rfl rfl

/-! ### The process port -/

theorem execPeekEvents_answers (fs : List Byte) (s : State) : Answers (execPeekEvents fs s) s :=
  answers (.ite _ (accept_moves _ _ _ _) (refuse_moves _ _ _ _ _))

theorem execSetEnables_answers (fs : List Byte) (s : State) : Answers (execSetEnables fs s) s :=
  answers (.ite _ (.after (accept_moves _ _ _ _) (.ofEq rfl rfl rfl)) (refuse_moves _ _ _ _ _))

theorem execReadState_answers (fs : List Byte) (s : State) : Answers (execReadState fs s) s :=
  answers (.ite _ (accept_moves _ _ _ _) (refuse_moves _ _ _ _ _))

theorem execReadLastCoil_answers (fs : List Byte) (s : State) : Answers (execReadLastCoil fs s) s :=
  answers (.ite _ (refuse_moves _ _ _ _ _) (.ite _ (refuse_moves _ _ _ _ _) (accept_moves _ _ _ _)))

theorem execUnknownCommand_answers (c : Byte) (fs : List Byte) (s : State) : Answers (execUnknownCommand c fs s) s :=
  answers (.ite _ (.refl s) (refuse_moves _ _ _ _ _))

theorem execTransactionAbort_answers (b : List Byte) (s : State) : Answers (execTransactionAbort b s) s := answers (.ofEq rfl rfl rfl)

/-- An accepted CONFIGURE changes the configuration held and the filter time. -/
theorem configure_moves (c : Configuration) (s : State) :
    Moves s { s with pp.config := some c, tiu.filterMs := c.filterMs } :=
  ⟨{ Kept.refl s with
      modes := fun g => ⟨g.scan, g.lock, fun _ => rfl⟩
      control := fun g => ⟨g.frames, g.general⟩
      retention := fun g => ⟨g.keeps, g.tasks, g.freezes, g.written, g.stored⟩
      assembler := fun g => ⟨g.entryQueue, g.welds, g.boundaries, g.closing⟩
      sound := fun g => ⟨g.window, g.staging⟩ }, .ofSteady rfl⟩

theorem execConfigure_answers (fs : List Byte) (s : State) : Answers (execConfigure fs s) s := by
  refine answers ?_
  split
  · exact refuse_moves _ _ _ _ _
  · exact refuse_moves _ _ _ _ _
  · split
    · exact refuse_moves _ _ _ _ _
    · exact .after (accept_moves _ _ _ _) (configure_moves _ s)

theorem execNameExit_answers (fs : List Byte) (s : State) : Answers (execNameExit fs s) s := by
  refine answers ?_
  split
  · exact refuse_moves _ _ _ _ _
  · split
    · exact refuse_moves _ _ _ _ _
    · dsimp only
      split
      · exact refuse_moves _ _ _ _ _
      · split
        · exact refuse_moves _ _ _ _ _
        · exact .after (accept_moves _ _ _ _) (.ofEq rfl rfl rfl)

theorem announce_moves (i : CoilId) (s : State) : Moves s (announce i s).2 := by
  unfold announce
  split
  · exact .refl s
  · split
    · exact .refl s
    · rename_i h
      exact ⟨{ Kept.refl s with
        control := fun g => ⟨g.frames, g.general⟩
        retention := fun g => ⟨g.keeps, g.tasks, g.freezes, g.written, g.stored⟩
        assembler := fun g => ⟨by simp only [List.length_append, List.length_cons, List.length_nil]; omega, g.welds, g.boundaries,
          g.closing⟩
        modes := fun g => ⟨g.scan, g.lock, g.config⟩
        sound := fun g => ⟨g.window, g.staging⟩ }, .ofSteady rfl⟩

theorem execAnnounce_answers (fs : List Byte) (s : State) : Answers (execAnnounce fs s) s := by
  refine answers ?_
  split
  · exact refuse_moves _ _ _ _ _
  · split
    · exact refuse_moves _ _ _ _ _
    · split
      · exact refuse_moves _ _ _ _ _
      · split
        · exact refuse_moves _ _ _ _ _
        · exact .after (respond_moves _ _ _ _ _ _) (announce_moves _ s)

theorem execSample_answers (fs : List Byte) (s : State) : Answers (execSample fs s) s := by
  refine answers ?_
  split
  · exact refuse_moves _ _ _ _ _
  · dsimp only
    split
    · exact refuse_moves _ _ _ _ _
    · exact .after (accept_moves _ _ _ _) (.ofLine (takeSet_line _ _ s))

/-! ### Freezes and amendments -/

theorem freeze_moves (i : CoilId) (s : State) : Moves s (freeze i s).2 := by
  unfold freeze
  split
  · exact .refl s
  · split
    · exact .refl s
    · split
      · exact .refl s
      · split
        · exact .refl s
        · rename_i h
          refine .after (settle_moves _) <| .after (.ofArchive (handItem_move _ _)) ?_
          exact ⟨{ Kept.refl s with
            control := fun g => ⟨g.frames, g.general⟩
            retention := fun g => ⟨g.keeps, g.tasks, by simp only [List.length_append, List.length_cons, List.length_nil]; omega,
              g.written, g.stored⟩
            assembler := fun g => ⟨g.entryQueue, g.welds, g.boundaries, g.closing⟩
            modes := fun g => ⟨g.scan, g.lock, g.config⟩
            sound := fun g => ⟨g.window, g.staging⟩ }, .ofSteady rfl⟩

theorem execFreeze_answers (fs : List Byte) (s : State) : Answers (execFreeze fs s) s := by
  refine answers ?_
  split
  · exact refuse_moves _ _ _ _ _
  · split
    · exact refuse_moves _ _ _ _ _
    · split
      · exact refuse_moves _ _ _ _ _
      · exact .after (respond_moves _ _ _ _ _ _) (freeze_moves _ s)

theorem lockAmend_moves (c : LockCause) (s : State) : Moves s (lockAmend c s) := .ofArchive (lockAmend_move c s)

theorem openAmend_moves (a : Amending) (l : Loc) (s : State) : Moves s (openAmend a l s) := .ofEq rfl rfl rfl

theorem amendOpen_moves (kind : AmendKind) (i : CoilId) (seq : Nat) (s : State) : Moves s (amendOpen kind i seq s).2 := by
  unfold amendOpen openOutput openInput
  repeat' split
  all_goals first | exact .refl s | exact lockAmend_moves _ s | exact openAmend_moves _ _ s

theorem execAmendOpen_answers (fs : List Byte) (s : State) : Answers (execAmendOpen fs s) s := by
  refine answers ?_
  split
  · exact refuse_moves _ _ _ _ _
  · split
    · exact refuse_moves _ _ _ _ _
    · split
      · exact .after (respond_moves _ _ _ _ _ _) (amendOpen_moves _ _ _ s)
      · exact refuse_moves _ _ _ _ _

/-- The amendment's state put alone. -/
theorem setAmend_moves (a : AmendState) (s : State) : Moves s { s with ru.amend := a } := .ofEq rfl rfl rfl

theorem amendRename_moves (i : CoilId) (s : State) : Moves s (amendRename i s).2 := by
  unfold amendRename renameOpen
  dsimp only
  repeat' split
  all_goals first | exact .refl s | exact setAmend_moves _ s

theorem execAmendRename_answers (fs : List Byte) (s : State) : Answers (execAmendRename fs s) s := by
  refine answers ?_
  split
  · exact refuse_moves _ _ _ _ _
  · split
    · exact refuse_moves _ _ _ _ _
    · split
      · exact refuse_moves _ _ _ _ _
      · exact .after (respond_moves _ _ _ _ _ _) (amendRename_moves _ s)

theorem closeAmend_moves (s : State) : Moves s (closeAmend s) := .ofEq rfl rfl rfl

theorem amendCommit_moves (s : State) : Moves s (amendCommit s).2 := by
  unfold amendCommit commitOpen
  repeat' split
  all_goals first
    | exact .refl s
    | exact closeAmend_moves s
    | exact lockAmend_moves _ s
    | exact .after (settle_moves _) <| .after (.ofArchive (handItem_move _ _)) (setAmend_moves _ s)

theorem execAmendCommit_answers (fs : List Byte) (s : State) : Answers (execAmendCommit fs s) s :=
  answers (.ite _ (refuse_moves _ _ _ _ _) (.ite _ (refuse_moves _ _ _ _ _) (.after (respond_moves _ _ _ _ _ _) (amendCommit_moves s))))

theorem amendCancel_moves (s : State) : Moves s (amendCancel s).2 := by
  unfold amendCancel
  split <;> first | exact .refl s | exact closeAmend_moves s

theorem execAmendCancel_answers (fs : List Byte) (s : State) : Answers (execAmendCancel fs s) s :=
  answers (.ite _ (refuse_moves _ _ _ _ _) (.ite _ (refuse_moves _ _ _ _ _) (.after (respond_moves _ _ _ _ _ _) (amendCancel_moves s))))

theorem amendClear_moves (s : State) : Moves s (amendClear s).2 := by
  unfold amendClear
  split <;> first | exact .refl s | exact setAmend_moves _ s

theorem execAmendClear_answers (fs : List Byte) (s : State) : Answers (execAmendClear fs s) s :=
  answers (.ite _ (refuse_moves _ _ _ _ _) (.ite _ (refuse_moves _ _ _ _ _) (.after (respond_moves _ _ _ _ _ _) (amendClear_moves s))))

/-! ### Page reads and erases that write no page -/

theorem execDataPageWrite_answers (s : State) : Answers (execDataPageWrite s) s := by
  refine answers ?_
  split
  · refine .after (settle_moves _) ?_
    exact ⟨{ Kept.refl s with
      control := fun g => ⟨g.frames, g.general⟩
      write := fun g => le_trans (length_drop_le _ _) g
      retention := fun g => ⟨g.keeps, g.tasks, g.freezes, g.written, g.stored⟩
      assembler := fun g => ⟨g.entryQueue, g.welds, g.boundaries, g.closing⟩
      modes := fun g => ⟨g.scan, g.lock, g.config⟩
      sound := fun g => ⟨g.window, g.staging⟩ }, .ofSteady rfl⟩
  · exact .refl s

theorem execPageReadStart_answers (s : State) : Answers (execPageReadStart s) s := by
  refine answers ?_
  split <;> exact .ofEq rfl rfl rfl

theorem completeRead_moves (r : Reading) (failed : Bool) (take : Option Page → State → State) (s : State)
    (h : ∀ p u, Moves u (take p u)) : Moves s (completeRead r failed take s) := by
  have m : Moves s (advanceTo (r.began + pageReadTime) { s with ar.reading := none }) :=
    .after (advanceTo_moves _ _) (.ofEq rfl rfl rfl)
  unfold completeRead
  dsimp only
  split
  · exact m
  · exact .after (settle_moves _) <| .after (h _ _) m

theorem execRecordReadComplete_answers (failed : Bool) (s : State) : Answers (execRecordReadComplete failed s) s := by
  refine answers ?_
  repeat' split
  all_goals first | exact .refl s | exact completeRead_moves _ _ _ s (fun p u => .ofBus (takeRecordPage_move _ p u))

theorem execCellPageReadComplete_answers (failed : Bool) (s : State) : Answers (execCellPageReadComplete failed s) s := by
  refine answers ?_
  repeat' split
  all_goals first | exact .refl s | exact completeRead_moves _ _ _ s (fun p u => .ofBus (takeCellPage_move _ p u))

theorem takeAmendPage_moves (seg : Nat) (p : Option Page) (s : State) : Moves s (takeAmendPage seg p s) := by
  unfold takeAmendPage
  repeat' split
  all_goals first | exact .refl s | exact lockAmend_moves _ s | exact setAmend_moves _ s

theorem execAmendReadComplete_answers (failed : Bool) (s : State) : Answers (execAmendReadComplete failed s) s := by
  refine answers ?_
  repeat' split
  all_goals first | exact .refl s | exact completeRead_moves _ _ _ s (fun p u => takeAmendPage_moves _ p u)

theorem markErasing_moves (n : Nat) (s : State) : Moves s (markErasing n s) := by
  unfold markErasing
  split <;> exact .ofEq rfl rfl rfl

theorem execEraseBegin_answers (s : State) : Answers (execEraseBegin s) s := by
  refine answers ?_
  split
  · exact .after (markErasing_moves _ _) (.ofEq rfl rfl rfl)
  · exact .refl s

theorem execEraseSuspendOrder_answers (s : State) : Answers (execEraseSuspendOrder s) s := by
  refine answers ?_
  split
  · exact .refl s
  · rename_i e _
    dsimp only
    split
    · exact (advanceTo_moves (max s.now (e.since + eraseRunTime)) s).trans (.ofEq rfl rfl rfl)
    · exact .refl s

theorem execEraseSuspendComplete_answers (s : State) : Answers (execEraseSuspendComplete s) s := by
  refine answers ?_
  split
  · exact .refl s
  · split
    · exact .refl s
    · exact .refl s
    · dsimp only
      split <;> exact .ofEq rfl rfl rfl

theorem execEraseResume_answers (s : State) : Answers (execEraseResume s) s := by
  refine answers ?_
  split <;> exact .ofEq rfl rfl rfl

theorem execStagingAgeExpiry_answers (s : State) : Answers (execStagingAgeExpiry s) s := by
  refine answers ?_
  split <;> first | exact .refl s | exact advanceTo_moves _ s

/-! ### Frames received -/

theorem endCarrier_moves (s : State) : Moves s (endCarrier s) := by
  unfold endCarrier
  split <;> exact .ofEq rfl rfl rfl

theorem hearSource_moves (b : Byte) (s : State) : Moves s (hearSource b s) := by
  unfold hearSource
  split <;> exact .ofEq rfl rfl rfl

theorem receive_moves (kind : FrameKind) (f : Frame) (s : State) : Moves s (receive kind f s) := by
  have m : Moves s (hearSource f.src (endCarrier s)) := .after (hearSource_moves _ _) (endCarrier_moves s)
  unfold receive
  dsimp only
  split
  · split
    · exact .after (settle_moves _) <| .after (.ofBus (handOver_move _ _ _ _ _)) m
    · exact m
  · exact endCarrier_moves s

theorem execSeek_answers (f : Frame) (s : State) : Answers (execSeek f s) s := answers (receive_moves _ f s)
theorem execOwn_answers (f : Frame) (s : State) : Answers (execOwn f s) s := answers (receive_moves _ f s)
theorem execPull_answers (f : Frame) (s : State) : Answers (execPull f s) s := answers (receive_moves _ f s)
theorem execBins_answers (f : Frame) (s : State) : Answers (execBins f s) s := answers (receive_moves _ f s)
theorem execMark_answers (f : Frame) (s : State) : Answers (execMark f s) s := answers (receive_moves _ f s)
theorem execDone_answers (f : Frame) (s : State) : Answers (execDone f s) s := answers (receive_moves _ f s)
theorem execWait_answers (f : Frame) (s : State) : Answers (execWait f s) s := answers (receive_moves _ f s)
theorem execGo_answers (f : Frame) (s : State) : Answers (execGo f s) s := answers (receive_moves _ f s)
theorem execStop_answers (f : Frame) (s : State) : Answers (execStop f s) s := answers (receive_moves _ f s)
theorem execKeep_answers (f : Frame) (s : State) : Answers (execKeep f s) s := answers (receive_moves _ f s)
theorem execUnkeep_answers (f : Frame) (s : State) : Answers (execUnkeep f s) s := answers (receive_moves _ f s)
theorem execKept_answers (f : Frame) (s : State) : Answers (execKept f s) s := answers (receive_moves _ f s)

theorem execFrameDiscarded_answers (d : Bool) (b : List Byte) (s : State) : Answers (execFrameDiscarded d b s) s :=
  answers (.ite _ (.after (hearSource_moves _ _) (endCarrier_moves s)) (endCarrier_moves s))

/-! ### Windows and timers -/

theorem execLocateWindowExpiry_answers (h : LocateHolder) (s : State) : Answers (execLocateWindowExpiry h s) s := by
  refine answers ?_
  split
  · exact .refl s
  · dsimp only
    refine .after (settle_moves _) ?_
    split
    · exact .after (.ofBus (slotLocated_move _ _ _)) (advanceTo_moves _ s)
    · exact .after (.ofBus (taskLocated_move _ _)) (advanceTo_moves _ s)

theorem execReplyWindowExpiry_answers (s : State) : Answers (execReplyWindowExpiry s) s := by
  refine answers ?_
  split
  · exact .refl s
  · exact .after (settle_moves _) <| .after (.ofBus (failTask_move _)) (advanceTo_moves _ s)

theorem addCount_relay (st : SegStatus) (x : PullContext) : ((addCount st x).dropFetch).relay = x.relay := rfl

theorem execSilenceTimeout_answers (k : Fin 8) (s : State) : Answers (execSilenceTimeout k s) s := by
  refine answers ?_
  split
  · rename_i t x _ _
    have m : Moves s (stopSlot k (advanceTo (t + silenceTime) s)) := .after (.ofBus (stopSlot_move _ _)) (advanceTo_moves _ s)
    dsimp only
    refine .after (settle_moves _) ?_
    split
    · exact m
    · exact .after (.ofBus (nextSegment_move _ _)) <| .after (.ofBus (onCtx_move _ _ _ fun _ h => h)) m
  · exact .refl s

theorem execDrainTimeout_answers (k : Fin 8) (s : State) : Answers (execDrainTimeout k s) s := by
  refine answers ?_
  split
  · exact .refl s
  · exact .after (settle_moves _) <| .after (.ofBus (freeSlot_move _ _)) (advanceTo_moves _ s)

theorem execPauseLimit_answers (c : Fin 6) (s : State) : Answers (execPauseLimit c s) s := by
  refine answers ?_
  split
  · exact .refl s
  · exact .after (settle_moves _) <| .after (.ofBus (endContext_move _ _ _)) (advanceTo_moves _ s)

theorem execRelayRoomResume_answers (c : Fin 6) (s : State) : Answers (execRelayRoomResume c s) s :=
  answers (.ite _ (.after (settle_moves _) (.ofBus (continueLocal_move _ _))) (.refl s))

/-! ### Access and transmission -/

theorem startTransmit_moves (f : OutFrame) (b : Bool) (s : State) : Moves s (startTransmit f b s) := .ofEq rfl rfl rfl

theorem selectFrame_moves (s : State) : Moves s (selectFrame s) := by
  unfold selectFrame
  split
  · exact startTransmit_moves _ _ _
  · split
    · exact .refl s
    · split
      · exact .refl s
      · rename_i c _ x hx
        dsimp only
        exact .after (startTransmit_moves _ _ _) ((Moves.ofBus (formFrame_move hx)).trans (.ofEq rfl rfl rfl))

theorem execAccessWon_answers (s : State) : Answers (execAccessWon s) s := by
  refine answers ?_
  split
  · exact .refl s
  · split
    · exact .refl s
    · exact .after (settle_moves _) <| .after (selectFrame_moves _) (advanceTo_moves _ s)

theorem execLoopbackDataFrame_answers (c : Fin 6) (s : State) : Answers (execLoopbackDataFrame c s) s := by
  refine answers ?_
  split
  · split
    · exact .refl s
    · rename_i x hx
      dsimp only
      exact .after (settle_moves _) <| .after (.ofBus (looped_move _ _)) <| .after (.ofBus (report_move _ _)) (.ofBus (formFrame_move hx))
  · exact .refl s

theorem execFrameSent_answers (s : State) : Answers (execFrameSent s) s := by
  refine answers ?_
  split
  · exact .refl s
  · rename_i t _
    dsimp only
    exact .after (settle_moves _) <| .after (.ofBus (finishTransmit_move _))
      ((advanceTo_moves (t.began + frameTime t.bytes) s).trans (.ofEq rfl rfl rfl))

theorem execReadbackMismatch_answers (s : State) : Answers (execReadbackMismatch s) s := by
  refine answers ?_
  split
  · exact .refl s
  · exact .after (settle_moves _) <| .after (.ofBus (finishTransmit_move _)) <| .after (raise_moves _ _) (.ofEq rfl rfl rfl)

theorem execCarrierSeen_answers (s : State) : Answers (execCarrierSeen s) s := answers (.ofEq rfl rfl rfl)

end Sys2Proof.Machine
end

