-- ==== Sys2Proof/Laws/PerInstr.lean ====
section
/-! SUPPORT. The statements made command by command: the family Form, which says that the bytes a well-formed command carries fit the
length that precedes them (R180, R219), and that no word spells the command (no row of the table gives bits). -/

namespace Sys2Proof.Laws.Form

/-- The field bytes of a command of the process port; none for another command. -/
def fieldsOf : Instr → List Byte
  | .readEvents fields => fields
  | .peekEvents fields => fields
  | .setEnables fields => fields
  | .readState fields => fields
  | .configure fields => fields
  | .start fields => fields
  | .restart fields => fields
  | .readLastCoil fields => fields
  | .announce fields => fields
  | .nameExit fields => fields
  | .sample fields => fields
  | .freeze fields => fields
  | .amendOpen fields => fields
  | .amendRename fields => fields
  | .amendCommit fields => fields
  | .amendCancel fields => fields
  | .amendClear fields => fields
  | .unknownCommand _ fields => fields
  | .reset _ _ | .rawInputChange _ _ | .filteredChange _ | .exitPulse _ | .entryPulse _ | .transactionAbort _
  | .scanPageRead _ | .scanEnd | .dataPageWrite | .pageWriteComplete | .pageReadStart | .recordReadComplete _
  | .cellPageReadComplete _ | .amendReadComplete _ | .keepImageWrite | .keepImageWriteComplete | .eraseBegin
  | .eraseSuspendOrder | .eraseSuspendComplete | .eraseResume | .eraseComplete | .seek _ | .own _ | .pull _ | .bins _
  | .mark _ | .done _ | .wait _ | .go _ | .stop _ | .keep _ | .unkeep _ | .kept _ | .frameDiscarded _ _ | .locateWindowExpiry _
  | .replyWindowExpiry | .silenceTimeout _ | .drainTimeout _ | .pauseLimit _ | .stagingAgeExpiry | .relayRoomResume _
  | .accessWon | .loopbackDataFrame _ | .frameSent | .readbackMismatch | .carrierSeen => []

/-- The payload of a received frame; none for another command. -/
def payloadOf : Instr → List Byte
  | .seek frame => frame.payload
  | .own frame => frame.payload
  | .pull frame => frame.payload
  | .bins frame => frame.payload
  | .mark frame => frame.payload
  | .done frame => frame.payload
  | .wait frame => frame.payload
  | .go frame => frame.payload
  | .stop frame => frame.payload
  | .keep frame => frame.payload
  | .unkeep frame => frame.payload
  | .kept frame => frame.payload
  | .reset _ _ | .rawInputChange _ _ | .filteredChange _ | .exitPulse _ | .entryPulse _ | .readEvents _ | .peekEvents _
  | .setEnables _ | .readState _ | .configure _ | .start _ | .restart _ | .readLastCoil _ | .announce _ | .nameExit _
  | .sample _ | .freeze _ | .amendOpen _ | .amendRename _ | .amendCommit _ | .amendCancel _ | .amendClear _
  | .unknownCommand _ _ | .transactionAbort _ | .scanPageRead _ | .scanEnd | .dataPageWrite | .pageWriteComplete
  | .pageReadStart | .recordReadComplete _ | .cellPageReadComplete _ | .amendReadComplete _ | .keepImageWrite
  | .keepImageWriteComplete | .eraseBegin | .eraseSuspendOrder | .eraseSuspendComplete | .eraseResume | .eraseComplete
  | .frameDiscarded _ _ | .locateWindowExpiry _ | .replyWindowExpiry | .silenceTimeout _ | .drainTimeout _ | .pauseLimit _
  | .stagingAgeExpiry | .relayRoomResume _ | .accessWon | .loopbackDataFrame _ | .frameSent | .readbackMismatch
  | .carrierSeen => []

/-- What Form says of a command. -/
def Statement (i : Instr) : Prop :=
  (i.wellFormed = true → (fieldsOf i).length < 65536 ∧ (payloadOf i).length ≤ 240) ∧ ∀ nbits w, decodeTableWord nbits w ≠ some i

theorem ofPort {i : Instr} (hp : payloadOf i = []) (hw : i.wellFormed = true → (fieldsOf i).length < 65536) : Statement i :=
  ⟨fun h => ⟨hw h, by simp [hp]⟩, fun _ _ h => by simp [decodeTableWord] at h⟩

theorem ofFrame {i : Instr} (hf : fieldsOf i = []) (hw : i.wellFormed = true → (payloadOf i).length ≤ 240) : Statement i :=
  ⟨fun h => ⟨by simp [hf], hw h⟩, fun _ _ h => by simp [decodeTableWord] at h⟩

theorem ofEvent {i : Instr} (hf : fieldsOf i = []) (hp : payloadOf i = []) : Statement i :=
  ⟨fun _ => ⟨by simp [hf], by simp [hp]⟩, fun _ _ h => by simp [decodeTableWord] at h⟩

theorem reset (strap : BitVec 5) (raw : BitVec 12) : Statement (.reset strap raw) := ofEvent rfl rfl
theorem rawInputChange (input : Fin 12) (level : Bool) : Statement (.rawInputChange input level) := ofEvent rfl rfl
theorem filteredChange (input : Fin 12) : Statement (.filteredChange input) := ofEvent rfl rfl
theorem exitPulse (forward : Bool) : Statement (.exitPulse forward) := ofEvent rfl rfl
theorem entryPulse (forward : Bool) : Statement (.entryPulse forward) := ofEvent rfl rfl
theorem readEvents (fields : List Byte) : Statement (.readEvents fields) := ofPort rfl of_decide_eq_true
theorem peekEvents (fields : List Byte) : Statement (.peekEvents fields) := ofPort rfl of_decide_eq_true
theorem setEnables (fields : List Byte) : Statement (.setEnables fields) := ofPort rfl of_decide_eq_true
theorem readState (fields : List Byte) : Statement (.readState fields) := ofPort rfl of_decide_eq_true
theorem configure (fields : List Byte) : Statement (.configure fields) := ofPort rfl of_decide_eq_true
theorem start (fields : List Byte) : Statement (.start fields) := ofPort rfl of_decide_eq_true
theorem restart (fields : List Byte) : Statement (.restart fields) := ofPort rfl of_decide_eq_true
theorem readLastCoil (fields : List Byte) : Statement (.readLastCoil fields) := ofPort rfl of_decide_eq_true
theorem announce (fields : List Byte) : Statement (.announce fields) := ofPort rfl of_decide_eq_true
theorem nameExit (fields : List Byte) : Statement (.nameExit fields) := ofPort rfl of_decide_eq_true
theorem sample (fields : List Byte) : Statement (.sample fields) := ofPort rfl of_decide_eq_true
theorem freeze (fields : List Byte) : Statement (.freeze fields) := ofPort rfl of_decide_eq_true
theorem amendOpen (fields : List Byte) : Statement (.amendOpen fields) := ofPort rfl of_decide_eq_true
theorem amendRename (fields : List Byte) : Statement (.amendRename fields) := ofPort rfl of_decide_eq_true
theorem amendCommit (fields : List Byte) : Statement (.amendCommit fields) := ofPort rfl of_decide_eq_true
theorem amendCancel (fields : List Byte) : Statement (.amendCancel fields) := ofPort rfl of_decide_eq_true
theorem amendClear (fields : List Byte) : Statement (.amendClear fields) := ofPort rfl of_decide_eq_true
theorem unknownCommand (code : Byte) (fields : List Byte) : Statement (.unknownCommand code fields) :=
  ofPort rfl (fun h => by simp only [Instr.wellFormed, fieldsWellFormed, Bool.and_eq_true, decide_eq_true_eq] at h; exact h.2)
theorem transactionAbort (bytes : List Byte) : Statement (.transactionAbort bytes) := ofEvent rfl rfl
theorem scanPageRead (failed : Bool) : Statement (.scanPageRead failed) := ofEvent rfl rfl
theorem scanEnd : Statement .scanEnd := ofEvent rfl rfl
theorem dataPageWrite : Statement .dataPageWrite := ofEvent rfl rfl
theorem pageWriteComplete : Statement .pageWriteComplete := ofEvent rfl rfl
theorem pageReadStart : Statement .pageReadStart := ofEvent rfl rfl
theorem recordReadComplete (failed : Bool) : Statement (.recordReadComplete failed) := ofEvent rfl rfl
theorem cellPageReadComplete (failed : Bool) : Statement (.cellPageReadComplete failed) := ofEvent rfl rfl
theorem amendReadComplete (failed : Bool) : Statement (.amendReadComplete failed) := ofEvent rfl rfl
theorem keepImageWrite : Statement .keepImageWrite := ofEvent rfl rfl
theorem keepImageWriteComplete : Statement .keepImageWriteComplete := ofEvent rfl rfl
theorem eraseBegin : Statement .eraseBegin := ofEvent rfl rfl
theorem eraseSuspendOrder : Statement .eraseSuspendOrder := ofEvent rfl rfl
theorem eraseSuspendComplete : Statement .eraseSuspendComplete := ofEvent rfl rfl
theorem eraseResume : Statement .eraseResume := ofEvent rfl rfl
theorem eraseComplete : Statement .eraseComplete := ofEvent rfl rfl
theorem seek (frame : Frame) : Statement (.seek frame) := ofFrame rfl of_decide_eq_true
theorem own (frame : Frame) : Statement (.own frame) := ofFrame rfl of_decide_eq_true
theorem pull (frame : Frame) : Statement (.pull frame) := ofFrame rfl of_decide_eq_true
theorem bins (frame : Frame) : Statement (.bins frame) := ofFrame rfl of_decide_eq_true
theorem mark (frame : Frame) : Statement (.mark frame) := ofFrame rfl of_decide_eq_true
theorem done (frame : Frame) : Statement (.done frame) := ofFrame rfl of_decide_eq_true
theorem wait (frame : Frame) : Statement (.wait frame) := ofFrame rfl of_decide_eq_true
theorem go (frame : Frame) : Statement (.go frame) := ofFrame rfl of_decide_eq_true
theorem stop (frame : Frame) : Statement (.stop frame) := ofFrame rfl of_decide_eq_true
theorem keep (frame : Frame) : Statement (.keep frame) := ofFrame rfl of_decide_eq_true
theorem unkeep (frame : Frame) : Statement (.unkeep frame) := ofFrame rfl of_decide_eq_true
theorem kept (frame : Frame) : Statement (.kept frame) := ofFrame rfl of_decide_eq_true
theorem frameDiscarded (delimited : Bool) (bytes : List Byte) : Statement (.frameDiscarded delimited bytes) := ofEvent rfl rfl
theorem locateWindowExpiry (holder : LocateHolder) : Statement (.locateWindowExpiry holder) := ofEvent rfl rfl
theorem replyWindowExpiry : Statement .replyWindowExpiry := ofEvent rfl rfl
theorem silenceTimeout (slot : Fin 8) : Statement (.silenceTimeout slot) := ofEvent rfl rfl
theorem drainTimeout (slot : Fin 8) : Statement (.drainTimeout slot) := ofEvent rfl rfl
theorem pauseLimit (context : Fin 6) : Statement (.pauseLimit context) := ofEvent rfl rfl
theorem stagingAgeExpiry : Statement .stagingAgeExpiry := ofEvent rfl rfl
theorem relayRoomResume (context : Fin 6) : Statement (.relayRoomResume context) := ofEvent rfl rfl
theorem accessWon : Statement .accessWon := ofEvent rfl rfl
theorem loopbackDataFrame (context : Fin 6) : Statement (.loopbackDataFrame context) := ofEvent rfl rfl
theorem frameSent : Statement .frameSent := ofEvent rfl rfl
theorem readbackMismatch : Statement .readbackMismatch := ofEvent rfl rfl
theorem carrierSeen : Statement .carrierSeen := ofEvent rfl rfl

end Sys2Proof.Laws.Form
end

