-- ==== Sys2Proof/Laws/Received.lean ====
section
/-! SUPPORT. A received frame that passes its tests is handed over and settled; what hearing it changes: the bus interface's silence
count and last-source register alone. -/

namespace Sys2Proof.Machine

theorem heard_eq (f : Frame) (s : State) :
    heard f s = { s with
      bi.silence := if s.bi.tx.isNone then some s.now else s.bi.silence
      bi.lastSource := if f.src.toNat ≤ 31 then senderOf f else s.bi.lastSource } := by
  unfold heard hearSource endCarrier
  split <;> split <;> rfl

@[simp] theorem heard_now (f : Frame) (s : State) : (heard f s).now = s.now := by rw [heard_eq]
@[simp] theorem heard_ar (f : Frame) (s : State) : (heard f s).ar = s.ar := by rw [heard_eq]
@[simp] theorem heard_ru (f : Frame) (s : State) : (heard f s).ru = s.ru := by rw [heard_eq]
@[simp] theorem heard_pe (f : Frame) (s : State) : (heard f s).pe = s.pe := by rw [heard_eq]
@[simp] theorem heard_pp (f : Frame) (s : State) : (heard f s).pp = s.pp := by rw [heard_eq]
@[simp] theorem heard_ca (f : Frame) (s : State) : (heard f s).ca = s.ca := by rw [heard_eq]
@[simp] theorem heard_cx (f : Frame) (s : State) : (heard f s).cx = s.cx := by rw [heard_eq]
@[simp] theorem heard_tiu (f : Frame) (s : State) : (heard f s).tiu = s.tiu := by rw [heard_eq]
@[simp] theorem heard_flash (f : Frame) (s : State) : (heard f s).flash = s.flash := by rw [heard_eq]
@[simp] theorem heard_node (f : Frame) (s : State) : (heard f s).bi.node = s.bi.node := by rw [heard_eq]
@[simp] theorem heard_queue (f : Frame) (s : State) : (heard f s).bi.queue = s.bi.queue := by rw [heard_eq]
@[simp] theorem heard_offers (f : Frame) (s : State) : (heard f s).bi.offers = s.bi.offers := by rw [heard_eq]
@[simp] theorem heard_looped (f : Frame) (s : State) : (heard f s).bi.looped = s.bi.looped := by rw [heard_eq]
@[simp] theorem heard_tx (f : Frame) (s : State) : (heard f s).bi.tx = s.bi.tx := by rw [heard_eq]

theorem frameCommand_receives (kind : FrameKind) (f : Frame) (s : State) :
    exec (frameCommand kind f) s = .next (receive kind f s) := by cases kind <;> rfl

/-- A frame that passes is handed over to its block on the state that has heard it. -/
theorem frame_handed_over {kind : FrameKind} {f : Frame} {s : State} (h : Passes kind f s) :
    exec (frameCommand kind f) s = .next (settle (handOver kind (senderOf f) f.tag f.payload (heard f s))) := by
  rw [frameCommand_receives]
  have e : receive kind f s
      = if isForUs (heard f s).bi.node kind f then settle (handOver kind (senderOf f) f.tag f.payload (heard f s)) else heard f s := by
    unfold receive
    simp only [h.1, if_true]
    rfl
  rw [e, heard_node, h.2, if_pos rfl]

/-- With no looped frame, what is settled is the archive alone. -/
theorem settle_eq {s : State} (h : s.bi.looped = []) : settle s = settleArchive s := by
  unfold settle
  have : drainLooped 64 s = s := by unfold drainLooped; rw [h]
  rw [this]

/-- Nothing is settled in a quiet state. -/
theorem settleArchive_of_quiet {s : State} (h : Quiet s) : settleArchive s = s := by
  have h1 : placeMoment s = s := by
    unfold placeMoment
    split
    · rfl
    · simp [h.directory]
  have h2 : dropPlaceless s = s := by unfold dropPlaceless directoryStuck; simp [h.directory]
  have h3 : raiseConditions s = s := by
    have hq : ¬ 64 ≤ s.ar.writeQueue.length := by have := h.queue; omega
    unfold raiseConditions archiveLowHolds archiveFullHolds directoryStuck
    simp [h.directory, h.stage, hq]
  unfold settleArchive
  rw [h1, h2, h3]

end Sys2Proof.Machine
end

