-- ==== Sys2Proof/Laws/Station.lean ====
section
/-! SUPPORT. The meanings that Commands.lean leaves: the writes and erases of the flash, READ_EVENTS, START, RESTART, the scan and RESET,
each with the next state it answers and the bounds it keeps. -/

namespace Sys2Proof.Machine

/-! ### Keep images and erases -/

theorem execKeepImageWrite_answers (s : State) : Answers (execKeepImageWrite s) s := by
  refine answers ?_
  split
  · exact ⟨{ Kept.refl s with
      control := fun g => ⟨g.frames, g.general⟩
      retention := fun g => ⟨g.keeps, g.tasks, g.freezes, fun w hw => by cases hw; exact g.keeps, g.stored⟩
      assembler := fun g => ⟨g.entryQueue, g.welds, g.boundaries, g.closing⟩
      modes := fun g => ⟨g.scan, g.lock, g.config⟩
      sound := fun g => ⟨g.window, g.staging⟩ }, .ofSteady rfl⟩
  · exact .refl s

theorem completeImage_moves (w : KeepWrite) (s : State) (h : RetentionHolds s → w.entries.length ≤ 64) : Moves s (completeImage w s) :=
  ⟨{ Kept.refl s with
      control := fun g => ⟨g.frames, g.general⟩
      retention := fun g => ⟨g.keeps, g.tasks, g.freezes, fun _ hw => (by cases hw), stored_put _ _ (h g) g.stored⟩
      assembler := fun g => ⟨g.entryQueue, g.welds, g.boundaries, g.closing⟩
      modes := fun g => ⟨g.scan, g.lock, g.config⟩
      sound := fun g => ⟨g.window, g.staging⟩
      flash := fun g => Flash.wf_put _ _ _ g }, .ofSteady rfl⟩

theorem execKeepImageWriteComplete_answers (s : State) : Answers (execKeepImageWriteComplete s) s := by
  refine answers ?_
  split
  · exact .refl s
  · rename_i w hw
    exact .after (completeImage_moves w _ (fun g => g.written w hw)) (advanceTo_moves _ s)

theorem completeErase_moves (n : Nat) (s : State) : Moves s (completeErase n s) := by
  have m : Moves s { s with flash := s.flash.eraseSeg n, ar.erase := none } :=
    ⟨{ Kept.refl s with
      control := fun g => ⟨g.frames, g.general⟩
      retention := fun g => ⟨g.keeps, g.tasks, g.freezes, g.written, stored_eraseSeg _ g.stored⟩
      assembler := fun g => ⟨g.entryQueue, g.welds, g.boundaries, g.closing⟩
      modes := fun g => ⟨g.scan, g.lock, g.config⟩
      sound := fun g => ⟨g.window, g.staging⟩
      flash := fun g => Flash.wf_eraseSeg _ g }, .ofSteady rfl⟩
  unfold completeErase
  dsimp only
  split
  · exact m.trans (.ofEq rfl rfl rfl)
  · exact m.trans (.ofEq rfl rfl rfl)
  · refine .after (.ofLine (reclaim_line _)) ?_
    have l : Moves s (stageAfterErase
        { s with flash := s.flash.eraseSeg n, ar.erase := none, ar.segs := s.ar.segs.filter (fun g => g.num != n) }) :=
      .after (.ofLine (stageAfterErase_line _)) (m.trans (.ofEq rfl rfl rfl))
    split
    · exact .after (.ofLine (activate_line _)) l
    · exact l

theorem execEraseComplete_answers (s : State) : Answers (execEraseComplete s) s := by
  refine answers ?_
  split
  · exact .refl s
  · split
    · exact .after (settle_moves _) <| .after (completeErase_moves _ _) (advanceTo_moves _ s)
    · exact .refl s

/-! ### Data pages -/

theorem endCommit_move (k : AmendKind) (n : Nat) (b : Bool) (s : State) : ArchiveMove s (endCommit k n b s) := by
  unfold endCommit
  split
  · split
    · exact ⟨rfl, flagsKept_raise _ _, id, le_refl _⟩
    · exact lockAmend_move _ s
  · exact .refl s

theorem fileItem_move (seg page : Nat) (s : State) (p : PageItem × Nat) : ArchiveMove s (fileItem seg page s p) := by
  unfold fileItem
  dsimp only
  split
  · exact .refl s
  · split <;> first | exact .refl s | exact ⟨rfl, .refl _, id, le_refl _⟩
  · split <;> first | exact .refl s | exact ⟨rfl, .refl _, id, le_refl _⟩
  · exact ⟨rfl, .refl _, id, List.length_erase_le⟩
  · refine ArchiveMove.trans ?_ (endCommit_move _ _ _ _)
    exact ⟨rfl, .refl _, id, le_refl _⟩
  · refine ArchiveMove.trans ?_ (endCommit_move _ _ _ _)
    exact ⟨rfl, .refl _, id, le_refl _⟩

theorem fullSegment_line (seg : Nat) (s : State) : LineMove s (fullSegment seg s) := by
  unfold fullSegment
  split
  · exact .refl s
  · split
    · exact .after (activate_line _) (setAr_line s _ rfl id)
    · exact .refl s

theorem completePage_moves (w : PageWrite) (s : State) : Moves s (completePage w s) := by
  unfold completePage
  split
  · exact .ofEq rfl rfl rfl
  · rename_i g _
    have m : Moves s { s with
        flash := s.flash.put w.seg w.page (.data g.seq w.items)
        ar.segs := putSeg { g with written := w.page + 1, cells := rangeWith g.cells w.items } s.ar.segs
        ar.pageWrite := none
        cx.staging := s.cx.staging.drop w.cells } :=
      ⟨{ Kept.refl s with
        control := fun g => ⟨g.frames, g.general⟩
        retention := fun g => ⟨g.keeps, g.tasks, g.freezes, g.written, stored_put _ _ trivial g.stored⟩
        assembler := fun g => ⟨g.entryQueue, g.welds, g.boundaries, g.closing⟩
        modes := fun g => ⟨g.scan, g.lock, g.config⟩
        staging := fun h => le_trans (length_drop_le _ _) h
        sound := fun h => ⟨h.window, fun c hc => h.staging c (List.mem_of_mem_drop hc)⟩
        flash := fun h => Flash.wf_put _ _ _ h }, .ofSteady rfl⟩
    have f := m.trans (.ofArchive (ArchiveMove.foldl (fileItem w.seg w.page) (fileItem_move _ _) w.items.zipIdx _))
    have r := f.trans (u := fillFirstBlocks (refreshSets _)) (.ofArchive ⟨rfl, .refl _, id, le_refl _⟩)
    exact .after (.ofLine (momentIf_line _ _)) <| .after (.ofLine (fullSegment_line _ _)) <| .after (.ofLine (handReady_line _)) r

theorem execPageWriteComplete_answers (s : State) : Answers (execPageWriteComplete s) s := by
  refine answers ?_
  split
  · exact .refl s
  · exact .after (settle_moves _) <| .after (completePage_moves _ _) (advanceTo_moves _ s)

/-! ### READ_EVENTS (R208) -/

/-- READ_EVENTS keeps every bound; it clears flags, and sets again those whose conditions hold. -/
theorem execReadEvents_kept (fs : List Byte) (s : State) : ∃ t, execReadEvents fs s = .next t ∧ Kept s t := by
  refine ⟨_, rfl, ?_⟩
  split
  · exact .after (.ofArchive (raiseConditions_move _)) (.ofBounded rfl (le_refl _))
  · exact .ofBounded rfl (le_refl _)

/-! ### START and RESTART (R204, R205) -/

/-- Tracking begins from an empty line (R41, R42). -/
theorem beginTracking_kept (n d : Nat) (s : State) : Kept s (beginTracking n d s) :=
  .after (.ofLine (openCoilsAt_line _ _))
    { Kept.refl s with
      control := fun g => ⟨g.frames, g.general⟩
      retention := fun g => ⟨g.keeps, g.tasks, g.freezes, g.written, g.stored⟩
      assembler := fun _ => ⟨Nat.zero_le _, Nat.zero_le _, Nat.zero_le _, Nat.zero_le _⟩
      modes := fun g => ⟨g.scan, g.lock, g.config⟩
      sound := fun g => ⟨g.window, g.staging⟩ }

/-- The cell accumulator begins with an empty window and an empty or shortened staging buffer (R62, R63). -/
theorem cells_kept (s : State) (x : Cx) (hw : x.window = []) (hl : s.cx.staging.length ≤ 512 → x.staging.length ≤ 512)
    (hs : (∀ c ∈ s.cx.staging, ∀ e ∈ c.entries, e.Sound) → ∀ c ∈ x.staging, ∀ e ∈ c.entries, e.Sound) :
    Kept s { s with cx := x } :=
  { Kept.refl s with
    control := fun g => ⟨g.frames, g.general⟩
    retention := fun g => ⟨g.keeps, g.tasks, g.freezes, g.written, g.stored⟩
    assembler := fun g => ⟨g.entryQueue, g.welds, g.boundaries, g.closing⟩
    modes := fun g => ⟨g.scan, g.lock, g.config⟩
    staging := hl
    sound := fun g => ⟨(by rw [hw]; exact fun _ h => (by cases h)), hs g.staging⟩ }

theorem startCells_kept (ch : List Channel) (p a : Nat) (s : State) : Kept s (startCells ch p a s) :=
  cells_kept s _ rfl (fun _ => Nat.zero_le _) (fun _ _ h => by cases h)

theorem restartCells_kept (s : State) : Kept s (restartCells s) := by
  refine cells_kept s _ rfl (fun h => ?_) (fun h c hc e he => ?_)
  · simp only [List.length_map, List.length_take]; omega
  · obtain ⟨d, hd, rfl⟩ := List.mem_map.1 hc
    exact h d (List.mem_of_mem_take hd) e he

/-- START in CONFIG keeps every bound: the scan is over, and the lock and RUN come together (R203, R204). -/
theorem startStation_kept {s : State} (c : Configuration) (h : s.pp.station = .config) (hc : s.pp.config = some c) :
    Kept s (startStation c s) := by
  have m : Kept s (takeBaseline { s with
      pp.lock := true, pp.station := .run, tiu.pairs := c.pairs, tiu.exitWeight := c.exitWeight, tiu.entryWeight := c.entryWeight }) :=
    { Kept.refl s with
      control := fun g => ⟨g.frames, g.general⟩
      retention := fun g => ⟨g.keeps, g.tasks, g.freezes, g.written, g.stored⟩
      assembler := fun g => ⟨g.entryQueue, g.welds, g.boundaries, g.closing⟩
      modes := fun g => ⟨by have := g.scan; rw [h] at this; exact this, rfl, fun _ => by show s.pp.config.isSome = true; rw [hc]; rfl⟩
      sound := fun g => ⟨g.window, g.staging⟩ }
  exact .after (.ofLine (activateIfNone_line _)) <| .after (beginTracking_kept _ _ _) <| .after (startCells_kept _ _ _ _) m

theorem execStart_kept (fs : List Byte) (s : State) : ∃ t, execStart fs s = .next t ∧ Kept s t := by
  refine ⟨_, rfl, ?_⟩
  split
  · exact (refuse_moves _ _ _ _ s).kept
  · rename_i hs
    split
    · exact (refuse_moves _ _ _ _ s).kept
    · split
      · exact (refuse_moves _ _ _ _ s).kept
      · rename_i c hc
        exact .after (accept_moves _ _ _ _).kept <| .after (settle_kept _) (startStation_kept c (by simpa using hs) hc)

/-- RESTART frees the contexts (R157). -/
theorem restartPulls_moves (s : State) : Moves s (restartPulls s) :=
  ⟨{ Kept.refl s with
      control := fun g => ⟨g.frames, g.general⟩
      retention := fun g => ⟨g.keeps, g.tasks, g.freezes, g.written, g.stored⟩
      assembler := fun g => ⟨g.entryQueue, g.welds, g.boundaries, g.closing⟩
      modes := fun g => ⟨g.scan, g.lock, g.config⟩
      relays := fun _ c x h => by
        simp only [ctxAt, restartPulls, Pe.atReset, Vector.get_eq_getElem, Vector.getElem_replicate] at h
        cases h
      sound := fun g => ⟨g.window, g.staging⟩ }, .ofSteady rfl⟩

/-- RESTART leaves at most the frame in the transmit path (R196). -/
theorem restartBus_moves (s : State) : Moves s (restartBus s) := by
  have one : (restartBus s).bi.queue.length ≤ 1 := by
    unfold restartBus
    dsimp only
    split
    · split <;> simp
    · simp
  have cnt : countClass .general (restartBus s) ≤ 1 := le_trans List.countP_le_length one
  exact ⟨{ Kept.refl s with
      control := fun _ => ⟨le_trans one (by omega), le_trans cnt (by omega)⟩
      retention := fun g => ⟨g.keeps, g.tasks, g.freezes, g.written, g.stored⟩
      assembler := fun g => ⟨g.entryQueue, g.welds, g.boundaries, g.closing⟩
      modes := fun g => ⟨g.scan, g.lock, g.config⟩
      sound := fun g => ⟨g.window, g.staging⟩ }, .ofSteady rfl⟩

theorem takeBaseline_moves (s : State) : Moves s (takeBaseline s) := .ofEq rfl rfl rfl

theorem beginTracking_moves (n d : Nat) (s : State) : Moves s (beginTracking n d s) :=
  ⟨beginTracking_kept n d s, .after (.ofLine (openCoilsAt_line _ _)) (.ofSteady rfl)⟩

theorem restartCells_moves (s : State) : Moves s (restartCells s) := ⟨restartCells_kept s, .ofSteady rfl⟩

theorem restartStation_moves (s : State) : Moves s (restartStation s) :=
  .after (raise_moves _ _) <| .after (.ofLine (reclaim_line _)) <| .after (.ofLine (activateIfNone_line _)) <|
    .after (.ofBus (dropTasks_move _)) <| .after (beginTracking_moves _ _ _) <| .after (restartCells_moves _) <|
    .after (takeBaseline_moves _) <| .after (restartBus_moves _) (restartPulls_moves s)

theorem execRestart_answers (fs : List Byte) (s : State) : Answers (execRestart fs s) s :=
  answers (.ite _ (refuse_moves _ _ _ _ _) (.ite _ (refuse_moves _ _ _ _ _)
    (.after (accept_moves _ _ _ _) <| .after (settle_moves _) (restartStation_moves s))))

/-! ### The scan (R87 to R89) -/

theorem mem_scanView {f : Flash} {failed : List Nat} {e : Nat × Page} (h : e ∈ scanView f failed) : e.2 = .torn ∨ e ∈ f.pages := by
  unfold scanView at h
  suffices ∀ (l : List Nat) (ps : List (Nat × Page)), e ∈ l.foldl (fun ps k => putKey k .torn ps) ps → e.2 = .torn ∨ e ∈ ps from
    this failed f.pages h
  intro l
  induction l with
  | nil => exact fun ps h => Or.inr h
  | cons k l ih =>
    intro ps h
    rcases ih _ h with h | h
    · exact Or.inl h
    · rcases mem_putKey h with h | h
      · exact Or.inl (by rw [h])
      · exact Or.inr h

theorem mem_writtenRun {view : List (Nat × Page)} {seg fuel n : Nat} {p : Page} (h : p ∈ writtenRun view seg fuel n) :
    ∃ k, (k, p) ∈ view := by
  induction fuel generalizing n with
  | zero => cases h
  | succ fuel ih =>
    unfold writtenRun at h
    split at h
    · rename_i q hq
      rcases List.mem_cons.1 h with h | h
      · exact ⟨_, h ▸ getKey_mem hq⟩
      · exact ih h
    · cases h

/-- The image restored is a page of the view (R87). -/
theorem newestImage_stored {view : List (Nat × Page)} {i : Nat × List KeepEntry × Fin 2}
    (h : newestImage view = some i) (hv : ∀ e ∈ view, e.2.imageHolds) : i.2.1.length ≤ 64 := by
  have mem : ∀ seg, ∀ j ∈ imagesOf view seg, j.2.1.length ≤ 64 := by
    intro seg j hj
    obtain ⟨p, hp, hj⟩ := List.mem_filterMap.1 hj
    split at hj
    · cases hj
      obtain ⟨k, hk⟩ := mem_writtenRun hp
      exact hv _ hk
    · cases hj
    · cases hj
  have fold : ∀ (l : List (Nat × List KeepEntry × Fin 2)) (b : Option (Nat × List KeepEntry × Fin 2)),
      (∀ j ∈ l, j.2.1.length ≤ 64) → (∀ j, b = some j → j.2.1.length ≤ 64) →
      ∀ j, l.foldl (fun best i =>
        match best with
        | none => some i
        | some b => if b.1 ≤ i.1 then some i else some b) b = some j → j.2.1.length ≤ 64 := by
    intro l
    induction l with
    | nil => exact fun b _ hb j hj => hb j hj
    | cons a l ih =>
      intro b hl hb j hj
      refine ih _ (fun x hx => hl x (List.mem_cons_of_mem _ hx)) (fun x hx => ?_) j hj
      have ha := hl a List.mem_cons_self
      dsimp only at hx
      split at hx
      · cases hx; exact ha
      · split at hx
        · cases hx; exact ha
        · exact hb x (by rw [hx])
  unfold newestImage at h
  refine fold _ none (fun j hj => ?_) (fun j hj => by cases hj) i h
  rcases List.mem_append.1 hj with hj | hj
  · exact mem 0 j hj
  · exact mem 1 j hj

/-- The tables built keep every bound (R87, R88). -/
theorem buildTables_kept {view : List (Nat × Page)} {s : State} (hv : (∀ e ∈ s.flash.pages, e.2.imageHolds) → ∀ e ∈ view, e.2.imageHolds) :
    Kept s (buildTables view s) := by
  have m : Kept s { s with ru.keeps := (newestImage view).elim [] (fun i => i.2.1) } :=
    { Kept.refl s with
      control := fun g => ⟨g.frames, g.general⟩
      retention := fun g => by
        refine ⟨?_, g.tasks, g.freezes, g.written, g.stored⟩
        show ((newestImage view).elim [] (fun i => i.2.1)).length ≤ 64
        cases hi : newestImage view with
        | none => simp
        | some i => exact newestImage_stored hi (hv g.stored)
      assembler := fun g => ⟨g.entryQueue, g.welds, g.boundaries, g.closing⟩
      modes := fun g => ⟨g.scan, g.lock, g.config⟩
      sound := fun g => ⟨g.window, g.staging⟩ }
  exact m.trans (.ofBounded (by simp only [State.bounded, buildTables, refreshSets]) (le_refl _))

theorem scanView_stored {f : Flash} (failed : List Nat) (h : ∀ e ∈ f.pages, e.2.imageHolds) : ∀ e ∈ scanView f failed, e.2.imageHolds := by
  intro e he
  rcases mem_scanView he with he | he
  · rw [he]; trivial
  · exact h e he

/-- The pages read so far are pages of the view. -/
theorem mem_read {b : Bool} {seg page : Nat} {view : List (Nat × Page)} {e : Nat × Page}
    (h : e ∈ if b then view else scanBefore seg page view) : e ∈ view := by
  split at h
  · exact h
  · exact List.mem_of_mem_filter h

theorem execScanPageRead_kept (failed : Bool) (s : State) : ∃ t, execScanPageRead failed s = .next t ∧ Kept s t := by
  refine ⟨_, rfl, ?_⟩
  split
  · exact .refl s
  · rename_i c hc
    split
    · exact .refl s
    · dsimp only
      have m : ∀ d : Scan, Kept s { s with ar.scan := some d } := fun d =>
        { Kept.refl s with
          control := fun g => ⟨g.frames, g.general⟩
          retention := fun g => ⟨g.keeps, g.tasks, g.freezes, g.written, g.stored⟩
          assembler := fun g => ⟨g.entryQueue, g.welds, g.boundaries, g.closing⟩
          modes := fun g => ⟨by have := g.scan; rw [hc] at this; exact this, g.lock, g.config⟩
          sound := fun g => ⟨g.window, g.staging⟩ }
      exact .after (buildTables_kept fun h e he => scanView_stored _ h e (mem_read he)) <| .after (advanceTo_kept _ _) (m _)

theorem execScanEnd_kept (s : State) : ∃ t, execScanEnd s = .next t ∧ Kept s t := by
  refine ⟨_, rfl, ?_⟩
  split
  · exact .refl s
  · rename_i c hc
    dsimp only
    refine .after (settle_kept _) <| .after (raise_moves _ _).kept ?_
    have b : Kept s (buildTables (scanView s.flash c.failed) (advanceTo
        (c.began + pageReadTime * scanReadsLeft (scanView s.flash c.failed) s.flash.partlyErased c) s)) :=
      .after (buildTables_kept (fun h => scanView_stored _ h)) (advanceTo_kept _ _)
    exact { b with
      control := fun g => ⟨(b.control g).frames, (b.control g).general⟩
      retention := fun g => ⟨(b.retention g).keeps, (b.retention g).tasks, (b.retention g).freezes, (b.retention g).written,
        (b.retention g).stored⟩
      assembler := fun g => ⟨(b.assembler g).entryQueue, (b.assembler g).welds, (b.assembler g).boundaries, (b.assembler g).closing⟩
      modes := fun g => by
        have hs : s.pp.station = .scan := by have := g.scan; rw [hc] at this; simpa using this.symm
        exact ⟨rfl, by have := g.lock; rw [hs] at this; exact this, fun h => by cases h⟩
      sound := fun g => ⟨(b.sound g).window, (b.sound g).staging⟩ }

/-! ### RESET (R200) -/

theorem flashAfterReset_wf {s : State} (h : s.flash.wf = true) : (flashAfterReset s).wf = true := by
  unfold flashAfterReset
  cases s.ar.pageWrite <;> cases s.ar.keepWrite <;> cases s.ar.erase <;> dsimp only <;>
    first
      | exact h
      | exact Flash.wf_put _ _ _ h
      | exact Flash.wf_put _ _ _ (Flash.wf_put _ _ _ h)
      | exact Flash.wf_cutErase _ h
      | exact Flash.wf_cutErase _ (Flash.wf_put _ _ _ h)
      | exact Flash.wf_cutErase _ (Flash.wf_put _ _ _ (Flash.wf_put _ _ _ h))

theorem flashAfterReset_stored {s : State} (h : ∀ e ∈ s.flash.pages, e.2.imageHolds) :
    ∀ e ∈ (flashAfterReset s).pages, e.2.imageHolds := by
  have p : ∀ {f : Flash} (seg page : Nat), (∀ e ∈ f.pages, e.2.imageHolds) → ∀ e ∈ (f.put seg page .torn).pages, e.2.imageHolds :=
    fun seg page hf => stored_put seg page (p := .torn) trivial hf
  unfold flashAfterReset
  cases s.ar.pageWrite <;> cases s.ar.keepWrite <;> cases s.ar.erase <;> dsimp only <;>
    first
      | exact h
      | exact p _ _ h
      | exact p _ _ (p _ _ h)
      | exact stored_cutErase _ h
      | exact stored_cutErase _ (p _ _ h)
      | exact stored_cutErase _ (p _ _ (p _ _ h))

theorem execReset_kept (strap : BitVec 5) (raw : BitVec 12) (s : State) : ∃ t, execReset strap raw s = .next t ∧ Kept s t := by
  refine ⟨_, rfl, ?_⟩
  exact {
    pending := rfl
    clock := le_refl _
    modes := fun _ => ⟨rfl, rfl, fun h => by cases h⟩
    control := fun _ => ⟨Nat.zero_le _, Nat.zero_le _⟩
    write := fun _ => Nat.zero_le _
    retention := fun g => ⟨Nat.zero_le _, Nat.zero_le _, Nat.zero_le _, fun _ h => (by cases h), flashAfterReset_stored g.stored⟩
    assembler := fun _ => ⟨Nat.zero_le _, Nat.zero_le _, Nat.zero_le _, Nat.zero_le _⟩
    relays := fun _ c x h => by
      simp only [ctxAt, State.afterReset, Pe.atReset, Vector.get_eq_getElem, Vector.getElem_replicate] at h
      cases h
    staging := fun _ => Nat.zero_le _
    sound := fun _ => ⟨fun c h => (by cases h), fun c h => (by cases h)⟩
    flash := fun g => flashAfterReset_wf g }

end Sys2Proof.Machine
end

