-- ==== Sys2Proof/Tests/Slice0.lean ====
section
/-! SUPPORT. The model's own tests: the ill-formed terms that WellFormed refuses, and for every statement with hypotheses concrete
states and operands that meet them, clause by clause, most of them at a boundary value. -/

namespace Sys2Proof.Tests

open Sys2Proof Sys2Proof.Machine

/-! ### WellFormed -/

/-- A field length of 65,536 does not fit the two length bytes. -/
theorem test_wellFormed_refuses_long_fields : (Instr.announce (List.replicate 65536 0)).wellFormed = false := by
  show decide ((List.replicate 65536 (0 : Byte)).length < 65536) = false
  rw [List.length_replicate]; rfl

theorem test_wellFormed_refuses_long_payload : (Instr.seek ⟨0, 1, 0, List.replicate 241 0, 0⟩).wellFormed = false := by
  decide +kernel

theorem test_wellFormed_refuses_known_code :
    (Instr.unknownCommand 0x01 []).wellFormed = false ∧ (Instr.unknownCommand 0x11 []).wellFormed = false
      ∧ (Instr.unknownCommand 0x00 []).wellFormed = true ∧ (Instr.unknownCommand 0x12 []).wellFormed = true := by decide

theorem test_wellFormed_refuses_complete_record :
    (Instr.transactionAbort [0x03, 0, 2, 1, 1]).wellFormed = false ∧ (Instr.transactionAbort [0x03, 0, 2, 1]).wellFormed = true := by
  decide

/-! ### States -/

/-- A configuration of one lane, pitch 10 cm, one channel and no lag. -/
def cfg : Configuration where
  lineName := [0x4C]
  pitch := 10
  exitWeight := 100
  entryWeight := 100
  dw := 0
  filterMs := 0
  pairs := ⟨⟨1, 1⟩, ⟨2, 2⟩, ⟨4, 4⟩, ⟨8, 8⟩, ⟨16, 16⟩⟩
  laneCount := 1
  allowance := 0
  channels := [⟨[0x54], 0, 0, 0⟩]

/-- Node 3 in CONFIG with the configuration held. -/
def inConfig : State := { State.reset with
  pp := { Pp.atReset with station := .config, config := some cfg }
  ar := { Ar.atReset 0 with scan := none }
  bi := .atReset 3 0
  now := 2000000 }

/-- Node 3 in RUN: one open coil from 0, nothing tracked, segment 2 ACTIVE. -/
def inRun : State := { inConfig with
  pp := { Pp.atReset with station := .run, config := some cfg, lock := true }
  tiu := { Tiu.atReset 0 with pairs := cfg.pairs, exitWeight := 100, entryWeight := 100 }
  ca := { Ca.atReset with openCoils := [⟨1, 1, 0, [⟨none, 0⟩], 0, .clear⟩], outSeq := 2, laneCount := 1 }
  cx := ⟨cfg.channels, 10, 0, some 0, [], []⟩
  ar := { Ar.atReset 0 with scan := none, segs := [⟨2, .active, 1, 0, []⟩], segSeq := 2 } }

/-- RUN with the exit pulse total given (100 pulses a metre: the run coordinate in centimetres). -/
def atTotal (n : BitVec 48) : State := { inRun with tiu.exitTotal := n }

/-- The state a command answers. -/
def after (c : Instr) (s : State) : State :=
  match exec c s with
  | .next t => t
  | .fault _ => s
  | .refused _ => s

/-- A frame with its CRC. -/
def sealed (kind : FrameKind) (f : Frame) : Frame := { f with crc := frameCrc (receivedBytes kind f) }

/-! ### The machine and its invariants -/

theorem test_queue_empties : ∃ s : State, s.pending = [] ∧ ownEvents s = [] := ⟨{ inRun with now := 0 }, by decide +kernel⟩

theorem test_one_own_event : ∃ s : State, s.pending = [] ∧ ownEvents s = [.scanPageRead false] :=
  ⟨{ State.reset with now := 100 }, by decide +kernel⟩

theorem test_two_own_events : ∃ s : State, s.pending = [] ∧ ownEvents s = [.filteredChange 0, .filteredChange 11] :=
  ⟨{ inRun with tiu.changes := (inRun.tiu.changes.set 0 (some ⟨0, 0⟩)).set 11 (some ⟨0, 0⟩) }, by decide +kernel⟩

theorem test_invariants_hold_in_run :
    ModesAgree inRun ∧ FlashCanonical inRun ∧ CellsSound inRun ∧ ConditionsFlagged inRun ∧ CountersInRange inRun := by
  refine ⟨⟨by decide, by decide, by decide⟩, ?_, ⟨?_, ?_⟩, ⟨?_, ?_⟩, ⟨by decide, by decide⟩⟩
  · unfold FlashCanonical; decide +kernel
  · intro c h; cases h
  · intro c h; cases h
  · intro _ h; revert h; decide +kernel
  · intro _ h; revert h; decide +kernel

theorem test_bounds_hold_in_run : Bounded inRun := by
  refine ⟨⟨by decide, by decide⟩, by unfold WriteQueueHolds; decide, ⟨by decide, by decide, by decide, ?_, ?_⟩,
    ⟨by decide, by decide, by decide, by decide⟩, ?_, by unfold StagingHolds; decide⟩
  · intro w h; cases h
  · intro e h; cases h
  · intro c x h
    have free : ∀ c, ctxAt inRun c = none := by decide
    rw [free] at h; cases h

theorem test_steps_from_run :
    ∃ t, step { inRun with pending := [.exitPulse true] } = .next t ∧ inRun.pp.station = .run ∧ inRun.pp.lock = true := ⟨_, rfl, by decide⟩

/-- The buffer of a command taken is gone after the next idle step (R197). -/
theorem test_buffer_is_released :
    ∃ t, step { inRun with pp.buffer := some ⟨0x02, [], [0, 0, 0, 0, 0]⟩ } = .next t ∧ t.pp.buffer = none :=
  ⟨idle { inRun with pp.buffer := some ⟨0x02, [], [0, 0, 0, 0, 0]⟩ }, rfl, by decide +kernel⟩

theorem test_response_is_driven_after_two_bytes :
    [0, 1, 2, 3, 4].map (drivenByte ⟨0x05, [], [0x81, 7]⟩) = [0, 0, 0x81, 7, (0 : Byte)] := by decide

theorem test_flag_stands_before_a_command : flagSet .busFault (raise .busFault inRun) = true := by decide

/-! ### Arithmetic -/

theorem test_normalise_at_its_bounds :
    normalise 0 1 256 1 = some (1, 1, false) ∧ normalise 5 700 256 600 = some (600, 256, true) ∧ normalise 5 600 3 600 = some (600, 3, false) := by
  decide

/-- Below, above and inside the bins of a rising and of a falling grid, at the bounds of a bin. -/
theorem test_bin_clauses :
    (∃ g : Grid, 1 ≤ g.n ∧ Int.fdiv (-1 - g.o) g.s < g.f ∧ (g.f : Int) + g.n ≤ Int.fdiv (2560 - g.o) g.s
        ∧ 0 < g.s ∧ g.o + g.s * (0 : Nat) ≤ 0 ∧ 2559 < g.o + g.s * ((9 : Nat) + 1) ∧ g.f ≤ 0 ∧ 9 < g.f + g.n)
      ∧ (∃ g : Grid, 1 ≤ g.n ∧ g.s < 0 ∧ g.o + g.s * ((2 : Nat) + 1) < 1793 ∧ 2048 ≤ g.o + g.s * (2 : Nat) ∧ g.f ≤ 2 ∧ 2 < g.f + g.n) :=
  ⟨⟨⟨0, 256, 0, 10, 0, 2560⟩, by decide⟩, ⟨⟨2560, -256, 2, 1, 0, 2560⟩, by decide⟩⟩

/-- Halves on both sides of 0, a step that rounds to 0, and the ends of the range. -/
theorem test_rounding_clauses :
    [roundDiv 5 2, roundDiv (-5) 2, roundDiv 4 3, roundDiv (-1) 3] = [3, -3, 1, 0]
      ∧ [hopStep (-1) 3, hopStep 1 3, hopStep (-5) 2] = [-1, 1, -3] ∧ hold48 (2 ^ 47) = 2 ^ 47 - 1 ∧ hold48 (-(2 ^ 47) - 1) = -(2 ^ 47) := by
  decide

/-- An output record over [c0, c1) of pitch 10 with one segment. -/
def coilRecord (c0 c1 : Nat) : OutputRecord := ⟨1, [0x41], none, c0, c1, [⟨some 1, 0, c1 - c0⟩], 0, .clear, 0, 10⟩

/-- A cell owned and included, one owned outside the clip on either side, one not owned. -/
theorem test_cell_clauses :
    (∃ (g : Grid) (accums : List (List Accum)), g.n = accums.length ∧ 1 ≤ g.n
        ∧ ownsCell 5 1000 10 0 = true ∧ g.u0 ≤ cellCentre 5 1000 10 0 ∧ cellCentre 5 1000 10 0 < g.u1 ∧ (accums[1]?).isSome = true)
      ∧ (∃ g : Grid, ownsCell 0 1000 10 0 = true ∧ cellCentre 0 1000 10 0 < g.u0)
      ∧ (∃ g : Grid, ownsCell 0 1000 10 99 = true ∧ g.u1 ≤ cellCentre 0 1000 10 99) ∧ ownsCell 0 1000 10 100 = false := by
  refine ⟨⟨⟨0, 128000, 0, 2, 0, 254720⟩, [[.zero], [.zero]], ?_⟩, ⟨⟨0, 128000, 0, 2, 1281, 256000⟩, ?_⟩,
    ⟨⟨0, 128000, 0, 2, 0, 254720⟩, ?_⟩, ?_⟩ <;> decide

/-- The partial cell at a coil's head, and one wholly inside. -/
theorem test_cell_centre_clauses :
    0 < 10 ∧ ownsCell 5 1000 10 0 = true ∧ cellCentre 5 1000 10 0 = 128 * 5 ∧ ownsCell 5 1000 10 7 = true
      ∧ cellCentre 5 1000 10 7 = 128 * (15 * 10 - 2 * 5) := by decide

/-- The eighth segment of an OVERFLOW coil ends at w1 − c0, the seventh does not. -/
theorem test_segment_end_clauses :
    [7, 6].map (fun index => segmentEnd { coilRecord 0 1000 with flags.overflow := true } index ⟨some 1, 0, 1000⟩
      (some ⟨1, ⟨2, 0, 1⟩, 0, [0x49], 900, 0, 800, false, false⟩)) = [800, (1000 : Int)] := by decide

/-- A count of 0, a count that just fits and one that just does not, one that would fit after a refusal, and the bounds kept. -/
theorem test_accumulator_clauses :
    (∃ e : CellEntry, e.count = 0)
      ∧ (∃ (a : Accum) (e : CellEntry), 0 < e.count ∧ e.least = some 3 ∧ e.greatest = some 3 ∧ e.Sound ∧ a.count + e.count ≤ 4294967295
          ∧ a.refused = false ∧ (a.count = 0 → a.sum = 0)
          ∧ (0 < a.count → ∃ lo hi, a.least = some lo ∧ a.greatest = some hi ∧ lo * a.count ≤ a.sum ∧ a.sum ≤ hi * a.count)
          ∧ 0 < (a.addEntry e).count)
      ∧ (∃ (a : Accum) (e : CellEntry), 4294967295 < a.count + e.count)
      ∧ (∃ (a : Accum) (e : CellEntry), a.refused = true ∧ a.count + e.count ≤ 4294967295 ∧ a.saturated = true ∧ (a.addEntry e).count = a.count) := by
  refine ⟨⟨.empty, rfl⟩, ⟨⟨1, 4294967294, some 0, some 0, 0, false, false⟩, ⟨1, 3, some 3, some 3, false⟩, ?_⟩,
    ⟨⟨1, 4294967295, some 0, some 0, 0, false, false⟩, ⟨1, 3, some 3, some 3, false⟩, by decide⟩,
    ⟨⟨1, 7, some 0, some 0, 0, true, true⟩, ⟨1, 3, some 3, some 3, false⟩, by decide⟩⟩
  refine ⟨by decide, rfl, rfl, ⟨by decide, by decide, fun _ => ⟨3, 3, rfl, rfl, by decide⟩⟩, by decide, rfl, by decide,
    fun _ => ⟨0, 0, rfl, rfl, by decide⟩, by decide⟩

/-! ### The line -/

theorem test_pulse_clauses :
    inConfig.pp.station ≠ .run ∧ inRun.pp.station = .run ∧ (atTotal (BitVec.allOnes 48 - 1)).tiu.exitTotal ≠ BitVec.allOnes 48
      ∧ (∃ s : State, s.pp.station = .run ∧ s.tiu.entryCount < 2 ^ 32 - 1)
      ∧ (∃ s : State, s.pp.station = .run ∧ s.tiu.entryCount = 2 ^ 32 - 1)
      ∧ (atTotal (BitVec.allOnes 48)).tiu.exitTotal = BitVec.allOnes 48 :=
  ⟨by decide, by decide, by decide, ⟨{ inRun with tiu.entryCount := 2 ^ 32 - 2 }, by decide⟩,
    ⟨{ inRun with tiu.entryCount := 2 ^ 32 - 1 }, by decide⟩, by decide⟩

/-- A pulse that raises the run coordinate up to the front cell's end, one that stays below it, and one that leaves the run coordinate
as it is (200 pulses a metre). -/
theorem test_advance_clauses :
    (∃ s u : State, s.pp.station = .run ∧ s.tiu.exitTotal ≠ BitVec.allOnes 48 ∧ u = { s with tiu.exitTotal := s.tiu.exitTotal + 1 }
        ∧ runCoord u ≤ runCoord s)
      ∧ ∀ n : BitVec 48, n = 8 ∨ n = 9 → ∃ s u : State, s = atTotal n ∧ s.pp.station = .run ∧ s.tiu.exitTotal ≠ BitVec.allOnes 48
          ∧ u = { s with tiu.exitTotal := s.tiu.exitTotal + 1 } ∧ runCoord s < runCoord u ∧ (∀ b ∈ s.ca.boundaries, runCoord u < b.w)
          ∧ (∀ c0, openStart s = some c0 → runCoord u < c0 + 4000000) ∧ s.ca.closing = [] ∧ s.cx.front = some 0
          ∧ (n = 8 → runCoord u < (0 + 1) * s.cx.pitch + s.cx.allowance)
          ∧ (n = 9 → (0 + 1) * s.cx.pitch + s.cx.allowance ≤ runCoord u ∧ s.ar.stage = .normal ∧ s.cx.staging.length < 512) := by
  refine ⟨⟨{ inRun with tiu.exitWeight := 200 }, _, by decide, by decide, rfl, by decide⟩, ?_⟩
  intro n h
  rcases h with rfl | rfl
  · exact ⟨_, _, rfl, by decide, by decide, rfl, by decide, by decide, by intro c h; cases h; decide, by decide, by decide, by decide, by decide⟩
  · exact ⟨_, _, rfl, by decide, by decide, rfl, by decide, by decide, by intro c h; cases h; decide, by decide, by decide, by decide, by decide⟩

/-- The front cell retiring with 512 staged, and in RECORD-ONLY and FULL. -/
theorem test_dropped_cell_clauses (n : Nat) (stage : Stage) (h : n = 512 ∧ stage = .normal ∨ n = 0 ∧ (stage = .recordOnly ∨ stage = .full)) :
    ∃ s u : State, s = { atTotal 9 with ar.stage := stage, cx.staging := List.replicate n ⟨0, 25, [], 0, false⟩ }
      ∧ s.pp.station = .run ∧ s.tiu.exitTotal ≠ BitVec.allOnes 48 ∧ u = { s with tiu.exitTotal := s.tiu.exitTotal + 1 }
      ∧ runCoord s < runCoord u ∧ s.ca.boundaries = [] ∧ (∀ c0, openStart s = some c0 → runCoord u < c0 + 4000000) ∧ s.ca.closing = []
      ∧ s.cx.front = some 0 ∧ (0 + 1) * s.cx.pitch + s.cx.allowance ≤ runCoord u ∧ s.cx.staging.length = n := by
  rcases h with ⟨rfl, rfl⟩ | ⟨rfl, rfl | rfl⟩ <;>
    exact ⟨_, _, rfl, rfl, by decide, rfl, by decide, rfl, fun c0 e => by cases e; decide, rfl, rfl, by decide, List.length_replicate⟩

/-- A boundary due and one that is not; the length limit reached by a coil whose last cell is in the window; a closing coil whose last
cell is the retiring one, dropped in RECORD-ONLY; and a pulse past the total's width, which leaves the run coordinate at its greatest. -/
theorem test_advance_further_clauses :
    (∃ (s u : State) (b : Boundary) (later : List Boundary) (f : InputCoil), s.pp.station = .run ∧ s.tiu.exitTotal ≠ BitVec.allOnes 48
        ∧ u = { s with tiu.exitTotal := s.tiu.exitTotal + 1 } ∧ runCoord s < runCoord u ∧ s.cx.front = some 100
        ∧ s.ca.boundaries = b :: later ∧ b.w = runCoord u ∧ (∀ x ∈ later, x.w = runCoord u + 1) ∧ later.length = 1
        ∧ s.ca.exitCoil = none ∧ tableEntry s b.starting = some f ∧ openStart s = some 0
        ∧ runCoord u < 0 + 4000000 ∧ runCoord u < (100 + 1) * s.cx.pitch + s.cx.allowance)
      ∧ (∃ (s u : State) (o : OpenCoil) (last : OpenSegment), s.pp.station = .run ∧ s.tiu.exitTotal ≠ BitVec.allOnes 48
        ∧ u = { s with tiu.exitTotal := s.tiu.exitTotal + 1 } ∧ runCoord s < runCoord u ∧ s.cx.front = some 399998
        ∧ s.ca.boundaries = [] ∧ s.ca.openCoils = [o] ∧ o.lane = 1 ∧ s.ca.laneCount = 1 ∧ o.c0 + 4000000 = runCoord u
        ∧ o.segments = [] ++ [last] ∧ last.t0 < runCoord u - o.c0 ∧ s.ca.closing = []
        ∧ writtenMark s < cellFrom (runCoord u) s.cx.pitch ∧ cellFrom o.c0 s.cx.pitch < cellFrom (runCoord u) s.cx.pitch
        ∧ runCoord u < (399998 + 1) * s.cx.pitch + s.cx.allowance)
      ∧ (∃ (s u : State) (r : OutputRecord), s.pp.station = .run ∧ s.tiu.exitTotal ≠ BitVec.allOnes 48
        ∧ u = { s with tiu.exitTotal := s.tiu.exitTotal + 1 } ∧ runCoord s < runCoord u ∧ s.cx.front = some 100 ∧ s.ca.boundaries = []
        ∧ openStart s = some 0 ∧ runCoord u < 0 + 4000000 ∧ s.ca.closing = [r] ∧ s.ar.stage = .recordOnly ∧ s.cx.staging = []
        ∧ s.ar.pageWrite = none ∧ directoryFull s = false ∧ s.ar.writeQueue.length < 64
        ∧ (100 + 1) * s.cx.pitch + s.cx.allowance ≤ runCoord u ∧ cellFrom r.c1 r.pitch = 100 + 1)
      ∧ runCoord (countExitPulse (atTotal (BitVec.allOnes 48))) = 2 ^ 40 - 1 := by
  refine ⟨⟨{ atTotal 999 with ca.boundaries := [⟨1000, 2, false⟩, ⟨1001, 2, true⟩], ca.table := [⟨2, [0x42], none, false, none, false⟩]
                              cx.front := some 100 }, _, _, _, _, rfl, by decide, rfl, by decide, rfl, rfl, by decide, by decide, by decide,
      rfl, rfl, rfl, by decide, by decide⟩,
    ⟨{ atTotal 3999999 with cx.front := some 399998, cx.allowance := 20 }, _, _, _, rfl, by decide, rfl, by decide, rfl, rfl, rfl, rfl, rfl,
      by decide, rfl, by decide, rfl, by decide, by decide, by decide⟩,
    ⟨{ atTotal 1009 with cx.front := some 100, ca.closing := [coilRecord 0 1010], ar.stage := .recordOnly }, _, _, rfl, by decide, rfl,
      by decide, rfl, rfl, rfl, by decide, rfl, rfl, rfl, rfl, by decide, by decide, by decide, by decide⟩, rfl⟩

/-- The raw level as it was, a departure from the filtered level with the filter on and off, and a return. -/
theorem test_raw_change_clauses :
    ∃ s : State, true = s.tiu.raw.getLsbD (0 : Fin 12) ∧ false ≠ s.tiu.raw.getLsbD (0 : Fin 12)
      ∧ false = s.tiu.filtered.getLsbD (0 : Fin 12) ∧ true ≠ s.tiu.raw.getLsbD (11 : Fin 12)
      ∧ true ≠ s.tiu.filtered.getLsbD (11 : Fin 12) ∧ s.tiu.filterMs ≠ 0 ∧ inRun.tiu.filterMs = 0
      ∧ true ≠ inRun.tiu.raw.getLsbD (11 : Fin 12) ∧ true ≠ inRun.tiu.filtered.getLsbD (11 : Fin 12) :=
  ⟨{ inRun with tiu.raw := 1, tiu.filterMs := 20 }, by decide⟩

/-- Inputs whose rise is pending, in a state. -/
def rising (k : Fin 12) (s : State) : State :=
  { s with tiu.raw := setInput k true s.tiu.raw, tiu.changes := s.tiu.changes.set k (some ⟨0, 0⟩) }

theorem test_filtered_change_in_and_outside_run :
    (∃ c, (rising 0 inConfig).tiu.changes.get 0 = some c ∧ inConfig.pp.station ≠ .run)
      ∧ (∃ c, (rising 0 inRun).tiu.changes.get 0 = some c ∧ inRun.pp.station = .run) := by decide

/-- RUN at 1,000 cm: the stretch is tracked, input coil 1 in the exit, its weld to coil 2 in transit. -/
def tracked : State := { atTotal 1000 with
  ca := { inRun.ca with
    inSeq := 3
    table := [⟨1, [0x49], some 900, false, some 0, false⟩, ⟨2, [], none, false, none, false⟩]
    entryCoil := some 2
    exitCoil := some 1
    welds := [⟨some 1, 2⟩]
    openCoils := [⟨1, 1, 0, [⟨some 1, 0⟩], 0, .clear⟩] } }

/-- The kinds that begin to match when input k's pending change is taken. -/
def risingKinds (k : Fin 12) (s : State) : PrevMatch :=
  let after := s.tiu.pairs.edges (setInput k (s.tiu.raw.getLsbD k) s.tiu.filtered)
  ⟨after.entryWeld && !s.tiu.prev.entryWeld, after.exitWeld && !s.tiu.prev.exitWeld,
    after.exitCut && !s.tiu.prev.exitCut, after.stripBreak && !s.tiu.prev.stripBreak⟩

theorem fires_of (k : Fin 12) (s : State) (kinds : PrevMatch)
    (h : s.pp.station = .run ∧ (s.tiu.changes.get k).isSome = true ∧ kinds = risingKinds k s) : Fires k s kinds :=
  ⟨h.1, h.2.1, fun _ e => e ▸ h.2.2⟩

/-- One change that makes all four edge kinds fire. -/
theorem test_several_kinds_clauses :
    ∃ (s : State) (c : PendingChange), Fires 0 s ⟨true, true, true, true⟩ ∧ s.tiu.changes.get 0 = some c :=
  ⟨rising 0 { inRun with tiu.pairs := ⟨⟨1, 1⟩, ⟨1, 1⟩, ⟨1, 1⟩, ⟨1, 1⟩, ⟨0, 0⟩⟩ }, _, fires_of _ _ _ (by decide), rfl⟩

/-- An exit weld and a cut in one change: the weld's coil passes first and is the new coil's first parent (R5, R29). -/
theorem test_exit_weld_goes_before_the_cut :
    ((after (.filteredChange 1) (rising 1 { tracked with
        tiu.pairs := ⟨⟨0, 0⟩, ⟨2, 2⟩, ⟨2, 2⟩, ⟨0, 0⟩, ⟨0, 0⟩⟩
        ca.table := [⟨1, [0x49], some 900, false, some 0, false⟩, ⟨2, [0x4A], none, false, none, false⟩] })).ca.openCoils.map
      (fun o => (o.c0, o.segments.map (fun x => (x.ref, x.t0))))) = [(1000, [(some 2, 0)])] := by decide +kernel

/-- Four boundaries held; and a passage at the start of the last segment, of a seventh, and past the eighth. -/
theorem test_forced_boundary_and_passage_clauses :
    (∃ (s : State) (weld : Weld) (rest : List Weld) (o : Boundary) (others : List Boundary) (f : InputCoil),
        Fires 1 s ⟨false, true, false, false⟩ ∧ s.ca.welds = weld :: rest ∧ s.ca.boundaries = o :: others ∧ others.length = 3
          ∧ 0 < s.ca.dw ∧ (∀ b ∈ others, runCoord s < b.w) ∧ s.ca.exitCoil = none ∧ tableEntry s o.starting = some f)
      ∧ (∀ n, n = 1 ∨ n = 7 ∨ n = 8 → ∃ (c : OpenCoil) (earlier : List OpenSegment) (last : OpenSegment),
          c.segments = earlier ++ [last] ∧ c.segments.length = n ∧ 10 - c.c0 = last.t0 ∧ 11 - c.c0 ≠ last.t0) := by
  refine ⟨⟨rising 1 { tracked with ca.dw := 1, ca.exitCoil := none, ca.boundaries := List.replicate 4 ⟨1001, 2, false⟩ }, _, _, _, _, _,
      fires_of _ _ _ (by decide), rfl, rfl, rfl, by decide, by decide, rfl, rfl⟩, ?_⟩
  rintro n (rfl | rfl | rfl)
  · exact ⟨⟨1, 1, 5, [⟨none, 5⟩], 0, .clear⟩, [], ⟨none, 5⟩, rfl, rfl, by decide, by decide⟩
  · exact ⟨⟨1, 1, 5, List.replicate 6 ⟨none, 0⟩ ++ [⟨none, 5⟩], 0, .clear⟩, _, ⟨none, 5⟩, rfl, rfl, by decide, by decide⟩
  · exact ⟨⟨1, 1, 5, List.replicate 7 ⟨none, 0⟩ ++ [⟨none, 5⟩], 255, .clear⟩, _, ⟨none, 5⟩, rfl, rfl, by decide, by decide⟩

theorem test_exit_weld_clauses :
    (∃ s, Fires 1 s ⟨false, true, false, false⟩ ∧ s.ca.welds = [])
      ∧ (∃ s weld rest, Fires 1 s ⟨false, true, false, false⟩ ∧ s.ca.welds = weld :: rest ∧ s.ca.boundaries.length < 4
          ∧ s.ca.boundaries.length = 3 ∧ 0 < s.ca.dw ∧ (∀ b ∈ s.ca.boundaries, runCoord s < b.w))
      ∧ (∀ id : CoilId, id = [0x49] ∨ id = [] → ∃ s weld rest seq lin w0 e f more, Fires 1 s ⟨false, true, false, false⟩
          ∧ s.ca.welds = weld :: rest ∧ s.ca.boundaries = [] ∧ s.ca.dw = 0 ∧ s.ca.exitCoil = some seq ∧ s.ca.table = e :: f :: more
          ∧ e.seq = seq ∧ f.seq = weld.starting ∧ e.seq ≠ f.seq ∧ e.lin = some lin ∧ e.w0 = some w0 ∧ e.id = id ∧ Quiet s) := by
  refine ⟨⟨rising 1 inRun, fires_of _ _ _ (by decide), by decide⟩, ?_, ?_⟩
  · exact ⟨rising 1 { tracked with ca.dw := 1, ca.boundaries := List.replicate 3 ⟨1001, 2, false⟩ }, _, _,
      fires_of _ _ _ (by decide), rfl, by decide⟩
  · intro id h
    rcases h with rfl | rfl <;>
      exact ⟨rising 1 { tracked with ca.table := [⟨1, _, some 900, false, some 0, false⟩, ⟨2, [], none, false, none, false⟩] },
        _, _, _, _, _, _, _, _, fires_of _ _ _ (by decide), rfl, rfl, rfl, rfl, rfl, rfl, rfl, by decide, rfl, rfl, rfl,
        ⟨by decide, by decide, by decide⟩⟩

/-- Entry weld with an entry length of 0 and one of 4,000,000 cm and above, before and after the first weld, and with 8 in transit. -/
theorem test_entry_weld_clauses :
    (∃ s, Fires 0 s ⟨true, false, false, false⟩ ∧ s.ca.welds.length < 8 ∧ entryLength s.tiu = (0, false) ∧ s.ca.entryCoil = none)
      ∧ (∃ s others e, Fires 0 s ⟨true, false, false, false⟩ ∧ s.ca.welds.length < 8
          ∧ s.ca.entryCoil = some e.seq ∧ s.ca.table = others ++ [e])
      ∧ (∃ s weld rest, Fires 0 s ⟨true, false, false, false⟩ ∧ s.ca.welds = weld :: rest ∧ rest.length = 7)
      ∧ (∃ t : Tiu, 0 < t.entryWeight ∧ 4000000 * t.entryWeight ≤ t.entryCount * 100 ∧ t.entryCount * 100 < (4000000 + 1) * t.entryWeight)
      ∧ (∃ t : Tiu, 0 < t.entryWeight ∧ 4000001 * t.entryWeight ≤ t.entryCount * 100 ∧ t.entryCount * 100 < (4000001 + 1) * t.entryWeight) := by
  refine ⟨⟨rising 0 inRun, fires_of _ _ _ (by decide), by decide, by decide, by decide⟩, ?_, ?_,
    ⟨{ inRun.tiu with entryCount := 4000000 }, by decide⟩, ⟨{ inRun.tiu with entryCount := 4000001 }, by decide⟩⟩
  · exact ⟨rising 0 tracked, [⟨1, [0x49], some 900, false, some 0, false⟩], ⟨2, [], none, false, none, false⟩,
      fires_of _ _ _ (by decide), by decide, rfl, rfl⟩
  · exact ⟨rising 0 { tracked with ca.welds := List.replicate 8 ⟨some 1, 2⟩ }, _, _, fires_of _ _ _ (by decide), rfl, rfl⟩

/-- At the open coils' start and above it, for a cut and for a strip break; and one lane whose last cell is not written, named and not. -/
theorem test_cut_clauses :
    (∃ s, Fires 2 s ⟨false, false, true, false⟩ ∧ openStart s = some 0 ∧ runCoord s ≤ 0)
      ∧ (∃ s, Fires 2 s ⟨false, false, true, false⟩ ∧ openStart s = some 0 ∧ 0 < runCoord s ∧ s.ca.outSeq ≤ 2 ^ 32 - 1)
      ∧ (∃ s, Fires 3 s ⟨false, false, false, true⟩ ∧ openStart s = some 0 ∧ runCoord s ≤ 0)
      ∧ (∃ s, Fires 3 s ⟨false, false, false, true⟩ ∧ openStart s = some 0 ∧ 0 < runCoord s)
      ∧ (∀ (id : CoilId) (broken : Bool), id = [0x41] ∨ id = [] → ∃ k s o last earlier, Fires k s ⟨false, false, !broken, broken⟩ ∧ s.ca.openCoils = [o]
          ∧ o.lane = 1 ∧ s.ca.laneCount = 1 ∧ o.c0 < runCoord s ∧ o.segments = earlier ++ [last] ∧ last.t0 < runCoord s - o.c0
          ∧ s.ca.closing = [] ∧ writtenMark s < cellFrom (runCoord s) s.cx.pitch
          ∧ cellFrom o.c0 s.cx.pitch < cellFrom (runCoord s) s.cx.pitch ∧ laneName s 1 = id ∧ isDuplicate s (laneName s 1) = false) := by
  refine ⟨⟨rising 2 inRun, fires_of _ _ _ (by decide), by decide⟩, ⟨rising 2 (atTotal 1), fires_of _ _ _ (by decide), by decide⟩,
    ⟨rising 3 inRun, fires_of _ _ _ (by decide), by decide⟩, ⟨rising 3 (atTotal 1), fires_of _ _ _ (by decide), by decide⟩, ?_⟩
  intro id broken h
  refine ⟨if broken then 3 else 2, rising (if broken then 3 else 2) { tracked with ca.names := tracked.ca.names.set 0 id },
    ⟨1, 1, 0, [⟨some 1, 0⟩], 0, .clear⟩, ⟨some 1, 0⟩, [], ?_⟩
  cases broken <;> rcases h with rfl | rfl <;> exact ⟨fires_of _ _ _ (by decide), by decide⟩

/-! ### The process port -/

theorem test_enables_clauses :
    (∃ (s : State) (a : Attention), s.pp.enables.getLsbD a.bit = true ∧ flagSet a s = true)
      ∧ State.reset.ar.scan.isSome = true ∧ State.reset.pp.enables = State.reset.pp.enables
      ∧ (∃ t, exec .scanEnd State.reset = .next t) ∧ (∃ t, exec (.restart []) inRun = .next t)
      ∧ (∃ t, exec (.reset 31 0xFFF) inRun = .next t) ∧ (∃ t, exec (.peekEvents []) inRun = .next t) :=
  ⟨⟨raise .ready inRun, .ready, by decide⟩, by decide, rfl, ⟨_, rfl⟩, ⟨_, rfl⟩, ⟨_, rfl⟩, ⟨_, rfl⟩⟩

/-- Names and counts at their greatest, and the last coil absent, on the closing list, and handed over. -/
theorem test_state_and_last_coil_clauses :
    (Bounded inRun ∧ ∀ c, inRun.pp.config = some c → c.lineName.length ≤ 16 ∧ c.laneCount ≤ 8 ∧ c.channels.length ≤ 16)
      ∧ inRun.ca.lastCoil = none
      ∧ (∃ (s : State) (l r : OutputRecord), s.pp.station = .run ∧ s.ca.lastCoil = some l ∧ r ∈ s.ca.closing ∧ r.id = l.id ∧ (∀ x ∈ s.ca.closing, x.id = l.id → x = r))
      ∧ (∃ (s : State) (l : OutputRecord), s.pp.station = .run ∧ s.ca.lastCoil = some l ∧ ∀ x ∈ s.ca.closing, x.id ≠ l.id) := by
  refine ⟨⟨test_bounds_hold_in_run, ?_⟩, rfl, ?_, ?_⟩
  · intro c h; cases h; decide
  · exact ⟨{ inRun with ca.lastCoil := some (coilRecord 0 10), ca.closing := [coilRecord 0 10] }, _, coilRecord 0 10, by decide, rfl, by decide⟩
  · exact ⟨{ inRun with ca.lastCoil := some (coilRecord 0 10) }, _, by decide, rfl, by decide⟩

/-- A CONFIGURE record of no channel and one of 16, each with every field at FFH but the names' lengths. -/
def configureFields (channels : Nat) : List Byte :=
  countedBytes (List.replicate 16 0x4C) ++ List.replicate 31 0xFF ++ [BitVec.ofNat 8 channels]
    ++ (List.replicate channels (List.replicate 8 0x54 ++ List.replicate 5 0xFF)).flatten

theorem test_configure_clauses (channels : Nat) (h : channels = 0 ∨ channels = 16) : ∃ fields name, fields = configureFields channels
    ∧ inConfig.pp.station = .config ∧ natAt fields 48 1 = channels ∧ natAt fields 48 1 ≤ 16
    ∧ fields.length = 49 + 13 * natAt fields 48 1 ∧ countedId (slice fields 0 17) = some name ∧ name ≠ []
    ∧ (∀ i, i < natAt fields 48 1 → ∃ ch, filledId (slice fields (49 + 13 * i) 8) = some ch ∧ ch ≠ []) := by
  refine ⟨_, List.replicate 16 0x4C, rfl, by decide, ?_⟩
  rcases h with rfl | rfl
  · refine ⟨by decide +kernel, by decide +kernel, by decide +kernel, by decide +kernel, by decide, ?_⟩
    intro i h
    have zero : natAt (configureFields 0) 48 1 = 0 := by decide +kernel
    omega
  · refine ⟨by decide +kernel, by decide +kernel, by decide +kernel, by decide +kernel, by decide, ?_⟩
    intro i h
    refine ⟨List.replicate 8 0x54, ?_, by decide⟩
    have sixteen : natAt (configureFields 16) 48 1 = 16 := by decide +kernel
    have all : ∀ i, i < 16 → filledId (slice (configureFields 16) (49 + 13 * i) 8) = some (List.replicate 8 0x54) := by decide +kernel
    exact all i (sixteen ▸ h)

/-- The fields that differ from their clamped values: with every field at FFH the pitch, the weights, D_w, the filter time, the lane count,
the allowance, and of each channel the unit and the lag (the scale FFH is −1). -/
theorem test_configure_counts_the_clamped_fields :
    ((configOf (configureFields 0)).map (fun p => p.2)) = some 7 ∧ ((configOf (configureFields 16)).map (fun p => p.2)) = some 39 := by
  decide +kernel

theorem test_start_and_lock_clauses :
    State.reset.pp.station = .scan ∧ inRun.pp.station = .run ∧ inConfig.pp.station = .config ∧ inConfig.pp.config = some cfg
      ∧ inConfig.ca.outSeq ≤ 2 ^ 32 - 1 ∧ { inConfig with pp.config := none }.pp.config = none ∧ inRun.ca.outSeq ≤ 2 ^ 32 - 1 := by decide

/-- ANNOUNCE with an entry queue of 3 and of 4, an ID held, absent and malformed; NAME_EXIT of lanes 0, 1 and one too many. -/
theorem test_announce_and_name_clauses :
    (∃ (s : State) (id : CoilId), s.pp.station = .run ∧ (countedBytes id).length = 17 ∧ countedId (countedBytes id) = some id ∧ id ≠ []
        ∧ s.ca.entryQueue.length = 3 ∧ id ∉ s.ca.entryQueue
        ∧ { s with ca.entryQueue := s.ca.entryQueue ++ [id] }.ca.entryQueue.length = 4
        ∧ id ∈ { s with ca.entryQueue := s.ca.entryQueue ++ [id] }.ca.entryQueue)
      ∧ countedId (countedBytes []) = some [] ∧ (countedBytes []).length = 17
      ∧ countedId (List.replicate 17 (0xFF : Byte)) = none ∧ (List.replicate 17 (0xFF : Byte)).length = 17
      ∧ (∀ lane : Byte, ((lane :: countedBytes []).length = 18 ∧ countedId ((lane :: countedBytes []).drop 1) = some []
          ∧ natAt (lane :: countedBytes []) 0 1 = lane.toNat)) ∧ inRun.ca.laneCount = 1 := by
  refine ⟨⟨{ inRun with ca.entryQueue := [[0x41], [0x42], [0x43]] }, List.replicate 16 0x44, ?_⟩, ?_⟩
  · decide +kernel
  · decide +kernel
/-- SAMPLE: the halted line, a channel beyond the configured ones, no reading, a late sample below 0 and just below the front, and one
in the front cell's first centimetre. -/
theorem test_sample_clauses :
    (∃ s : State, s.pp.station = .run ∧ s.tiu.halted = true) ∧ inRun.cx.channels[1]? = none
      ∧ (∀ fields : List Byte, fields = [1, 0, 0x80, 0] → natAt fields 0 1 = 1 ∧ fields.length = 4 ∧ intAt fields 2 2 = -32768)
      ∧ (∀ (fields : List Byte) (cell : Int), (fields = [1, 0, 0, 7, 0, 21] ∧ cell = -1) ∨ (fields = [1, 0, 0, 7, 0, 1] ∧ cell = 1)
          ∨ (fields = [1, 0, 0, 7, 0, 0] ∧ cell = 2) →
          ∃ (s : State) (ch : Channel), s.pp.station = .run ∧ natAt fields 0 1 = 1 ∧ fields.length = 6 ∧ natAt fields 1 1 = 0
            ∧ intAt fields 2 2 ≠ -32768 ∧ s.tiu.halted = false ∧ s.cx.channels[0]? = some ch ∧ s.cx.front = some 2 ∧ 0 < s.cx.pitch
            ∧ cell * s.cx.pitch ≤ (runCoord s : Int) + ch.lag - natAt fields 4 2
            ∧ (runCoord s : Int) + ch.lag - natAt fields 4 2 < (cell + 1) * s.cx.pitch) := by
  refine ⟨⟨{ inRun with tiu.halted := true }, by decide⟩, by decide, by rintro _ rfl; decide, ?_⟩
  rintro _ _ (⟨rfl, rfl⟩ | ⟨rfl, rfl⟩ | ⟨rfl, rfl⟩) <;>
    exact ⟨{ atTotal 20 with cx.front := some 2 }, ⟨[0x54], 0, 0, 0⟩, by decide +kernel⟩

/-- An entry with no sample, one below its greatest count and one at it. -/
theorem test_sample_entry_clauses :
    (∃ s e, (windowCell s 0)[0]? = some e ∧ e.count = 0) ∧ (∃ s e lo hi, (windowCell s 0)[0]? = some e ∧ 0 < e.count ∧ e.count < 65535
        ∧ e.least = some lo ∧ e.greatest = some hi) ∧ (∃ s e, (windowCell s 0)[0]? = some e ∧ 65535 ≤ e.count) :=
  ⟨⟨inRun, .empty, by decide⟩, ⟨{ inRun with cx.window := [(0, [⟨65534, 0, some 0, some 0, false⟩])] }, _, 0, 0, rfl, by decide⟩,
    ⟨{ inRun with cx.window := [(0, [⟨65535, 0, some 0, some 0, false⟩])] }, _, rfl, by decide⟩⟩

/-- The directory entries of an output coil and of its input. -/
def outEntry : OutEntry := ⟨[0x41], 1, ⟨2, 0, 0⟩, 0, 0, 1000, none, .clear, some ⟨2, 0, 2⟩, [some 1], [2], [], 10⟩
def inEntry : InEntry := ⟨1, ⟨2, 0, 1⟩, 0, [0x49], 900, 0, 1000, false, false⟩

/-- The page that holds their records and the coil's first two cells. -/
def storedPage : Page := .data 1 [.item (.output (coilRecord 0 1000)), .item (.input ⟨1, [0x49], 900, 0, 1000, false, false, false, 0⟩),
  .cells 10 0 [[⟨1, 7, some 7, some 7, false⟩], [.empty]]]

/-- RUN with one stored coil cut from one stored input. -/
def stored : State := { atTotal 1000 with
  ar := { inRun.ar with segs := [⟨2, .active, 1, 1, [⟨10, 0, 1⟩]⟩], outs := [outEntry], ins := [inEntry] }
  flash := ⟨[(512, storedPage)], []⟩
  ca := { inRun.ca with openCoils := [⟨1, 2, 1000, [⟨none, 0⟩], 0, .clear⟩], inSeq := 2, outSeq := 3 }
  cx := { inRun.cx with front := some 100 } }

/-- Under commit, unknown, frozen, with 64 freezes pending, and with 63. -/
theorem test_freeze_clauses :
    (∃ s, s.pp.station = .run ∧ underCommit s [0x41] = true) ∧ outById inRun [0x41] = none ∧ underCommit inRun [0x41] = false
      ∧ (countedBytes [0x41]).length = 17 ∧ countedId (countedBytes [0x41]) = some [0x41]
      ∧ (∃ s e, s.pp.station = .run ∧ underCommit s [0x41] = false ∧ outById s [0x41] = some e ∧ isFrozen s e = true)
      ∧ (∃ s e, s.pp.station = .run ∧ underCommit s [0x41] = false ∧ outById s [0x41] = some e ∧ isFrozen s e = false
          ∧ 64 ≤ s.ru.freezes.length)
      ∧ (∃ s e, s.pp.station = .run ∧ underCommit s [0x41] = false ∧ outById s [0x41] = some e ∧ isFrozen s e = false
          ∧ s.ru.freezes.length = 63 ∧ Quiet s ∧ s.bi.looped = []) := by
  refine ⟨⟨{ inRun with ar.writeQueue := [.amendedOutput (coilRecord 0 10) [0x42]] }, by decide⟩, by decide, by decide, by decide +kernel,
    by decide +kernel, ⟨{ stored with ru.freezes := [1] }, outEntry, by decide⟩,
    ⟨{ stored with ru.freezes := List.replicate 64 9 }, outEntry, by decide +kernel⟩,
    ⟨{ stored with ru.freezes := List.replicate 63 9 }, outEntry, by decide, by decide, by decide, by decide +kernel, by decide +kernel,
      ⟨by decide, by decide, by decide⟩, by decide⟩⟩

/-- The amendment of the stored output, of the stored input, and a state in which one is open. -/
def amending : Amending := ⟨.output, 1, [0x41], [0x42], some (.output (coilRecord 0 1000))⟩
def amendingInput : Amending := ⟨.input, 1, [0x49], [], some (.input ⟨1, [0x49], 900, 0, 1000, false, false, false, 0⟩)⟩
def opened (a : Amending) : State := { stored with ru.amend := .opened a }

/-- AMEND_OPEN fields: the kind, an ID and a sequence. -/
def openFields (kind : Byte) (id : CoilId) (seq : Nat) : List Byte := kind :: (countedBytes id ++ beBytes 4 seq)

theorem test_amend_state_clauses :
    (openFields 1 [0x41] 1).length = 22 ∧ AmendKind.ofCode (byteAt (openFields 1 [0x41] 1) 0) = some .output
      ∧ AmendKind.ofCode (byteAt (openFields 2 [0x41] 1) 0) = some .input ∧ countedId (slice (openFields 1 [0x41] 1) 1 17) = some [0x41]
      ∧ (countedBytes []).length = 17 ∧ countedId (countedBytes []) = some [] ∧ stored.pp.station = .run
      ∧ (∃ s : State, s.pp.station = .run ∧ s.ru.amend = .closed) ∧ (∃ s : State, s.pp.station = .run ∧ s.ru.amend = .opened amending)
      ∧ (∃ s : State, s.pp.station = .run ∧ s.ru.amend = .committing amending)
      ∧ (∃ s : State, s.pp.station = .run ∧ s.ru.amend = .locked .mismatch) := by
  refine ⟨by decide +kernel, by decide, by decide, by decide +kernel, by decide +kernel, by decide +kernel, rfl, ⟨stored, by decide⟩,
    ⟨opened amending, by decide⟩, ⟨{ stored with ru.amend := .committing amending }, by decide⟩,
    ⟨{ stored with ru.amend := .locked .mismatch }, by decide⟩⟩

/-- The rows of R103's two tables: each state has the record unless the row says otherwise. -/
theorem test_amend_open_clauses :
    (byteAt (openFields 1 [0x42] 1) 0 = 1 ∧ byteAt (openFields 2 [0x49] 2) 0 = 2 ∧ natAt (openFields 2 [0x49] 2) 18 4 = 2
        ∧ natAt (openFields 1 [0x41] (2 ^ 32 - 1)) 18 4 = 2 ^ 32 - 1)
      ∧ stored.ru.amend = .closed ∧ outById stored [0x42] = none ∧ inBySeq stored 2 = none
      ∧ outById stored [0x41] = some outEntry ∧ outUnderCommit stored [0x41] 1 = false ∧ isFrozen stored outEntry = false
      ∧ isKept stored [0x41] = false
      ∧ (∃ s, s.ru.amend = .closed ∧ outById s [0x41] = some outEntry ∧ outUnderCommit s [0x41] 1 = false ∧ isFrozen s outEntry = true)
      ∧ (∃ s, s.ru.amend = .closed ∧ outById s [0x41] = some outEntry ∧ outUnderCommit s [0x41] 1 = false ∧ isFrozen s outEntry = false
          ∧ isKept s [0x41] = true)
      ∧ (∃ s, s.ru.amend = .closed ∧ outById s [0x41] = some outEntry ∧ outUnderCommit s [0x41] 2 = true)
      ∧ (∃ s, s.ru.amend = .closed ∧ outById s [0x41] = none ∧ outUnderCommit s [0x41] 1 = true ∧ outUnderCommit s [0x41] 2 = false)
      ∧ inBySeq stored 1 = some inEntry ∧ inUnderCommit stored 1 = false ∧ inEntry.id ≠ [0x41]
      ∧ (∀ o ∈ namingOuts stored 1, isFrozen stored o = false ∧ isKept stored o.id = false)
      ∧ (∃ s, s.ru.amend = .closed ∧ inBySeq s 1 = some inEntry ∧ inUnderCommit s 1 = false ∧ ∃ o ∈ namingOuts s 1, isFrozen s o = true)
      ∧ (∃ s, s.ru.amend = .closed ∧ inBySeq s 1 = some inEntry ∧ inUnderCommit s 1 = false
          ∧ (∀ o ∈ namingOuts s 1, isFrozen s o = false) ∧ ∃ o ∈ namingOuts s 1, isKept s o.id = true)
      ∧ (∃ s, s.ru.amend = .closed ∧ inBySeq s 1 = none ∧ inUnderCommit s 1 = true)
      ∧ outUnderCommit stored [0x42] 1 = false ∧ inUnderCommit stored 2 = false := by
  refine ⟨by decide +kernel, by decide, by decide, by decide, by decide, by decide, by decide, by decide,
    ⟨{ stored with ru.freezes := [1] }, by decide⟩, ⟨{ stored with ru.keeps := [⟨[0x41], 4, 9, false⟩] }, by decide⟩,
    ⟨{ stored with ar.writeQueue := [.amendedOutput (coilRecord 0 1000) [0x41]] }, by decide⟩,
    ⟨{ stored with ar.writeQueue := [.amendedOutput (coilRecord 0 1000) [0x41]], ar.outs := [] }, by decide⟩,
    by decide, by decide, by decide, by decide,
    ⟨{ stored with ru.freezes := [1] }, by decide⟩, ⟨{ stored with ru.keeps := [⟨[0x41], 4, 9, false⟩] }, by decide⟩,
    ⟨{ stored with ar.writeQueue := [.amendedInput ⟨1, [0x49], 900, 0, 1000, false, false, false, 0⟩], ar.ins := [] }, by decide⟩,
    by decide, by decide⟩

/-- Renames to the present ID, to a free one, to a duplicate and to none; commits by each row of R106's table. -/
theorem test_rename_and_commit_clauses :
    (opened amending).pp.station = .run ∧ (opened amending).ru.amend = .opened amending ∧ amending.kind = .output
      ∧ isDuplicate (opened amending) [0x43] = false ∧ [0x41] = amending.openedId ∧ [0x42] = amending.newId
      ∧ (∃ s : State, s.ru.amend = .opened amending ∧ isDuplicate s [0x44] = true ∧ [0x44] ≠ amending.newId ∧ [0x44] ≠ amending.openedId)
      ∧ amendPresent { opened amending with ar.outs := [] } amending = false
      ∧ amendPresent (opened { amending with copy := none }) { amending with copy := none } = true
      ∧ (∀ a, a = amending ∨ a = amendingInput → amendPresent (opened a) a = true ∧ a.copy.isSome = true ∧ Quiet (opened a)
          ∧ (a.kind = .input ∨ isDuplicate (opened a) a.newId = false) ∧ (opened a).bi.looped = []
          ∧ (∀ e ∈ guardOuts (opened a) a, isFrozen (opened a) e = false ∧ isKept (opened a) e.id = false))
      ∧ (∃ s : State, s.ru.amend = .opened amending ∧ amendPresent s amending = true ∧ ∃ e ∈ guardOuts s amending, isFrozen s e = true)
      ∧ (∃ s : State, s.ru.amend = .opened amending ∧ amendPresent s amending = true ∧ (∀ e ∈ guardOuts s amending, isFrozen s e = false)
          ∧ ∃ e ∈ guardOuts s amending, isKept s e.id = true)
      ∧ (∃ s : State, s.ru.amend = .opened amending ∧ amendPresent s amending = true ∧ amending.newId ≠ amending.openedId
          ∧ isDuplicate s amending.newId = true ∧ (∀ e ∈ guardOuts s amending, isFrozen s e = false ∧ isKept s e.id = false)) := by
  refine ⟨by decide, rfl, rfl, by decide, rfl, rfl, ⟨{ opened amending with ca.closing := [{ coilRecord 1000 1001 with id := [0x44] }] }, rfl, by decide⟩,
    by decide, by decide, ?_, ⟨{ opened amending with ru.freezes := [1] }, rfl, by decide⟩,
    ⟨{ opened amending with ru.keeps := [⟨[0x41], 4, 9, false⟩] }, rfl, by decide⟩,
    ⟨{ opened amending with ca.closing := [{ coilRecord 1000 1001 with id := [0x42] }] }, rfl, by decide⟩⟩
  rintro a (rfl | rfl) <;> exact ⟨by decide, by decide, ⟨by decide, by decide, by decide⟩, by decide, rfl, by decide⟩

/-- The codes either side of the commands, and field lengths that no command has. -/
theorem test_refused_record_clauses :
    (17 : Nat) < (0x12 : Byte).toNat ∧ 17 < (0xFF : Byte).toNat ∧ inRun.pp.station ≠ .config ∧ inConfig.pp.station ≠ .run
      ∧ ([0] : List Byte).length ≠ 0 ∧ ([0] : List Byte).length ≠ 2 ∧ ([2, 0, 0, 0] : List Byte).length ≠ 1 + 3 * natAt [2, 0, 0, 0] 0 1
      ∧ ([2, 0, 0, 0] : List Byte).length ≠ 3 + 3 * natAt [2, 0, 0, 0] 0 1 ∧ ([] : List Byte).length ≠ 49 + 13 * natAt [] 48 1 := by decide
/-! ### Reset, the scan and the flash -/

/-- A reset with a page and an image being written, and the pages around them. -/
theorem test_reset_clauses :
    ∃ (s : State) (w : PageWrite) (k : KeepWrite), s.ar.pageWrite = some w ∧ w.page = 255 ∧ s.ar.keepWrite = some k ∧ k.page < 256
      ∧ (∀ w, s.ar.pageWrite = some w → w.page < 256) ∧ (∀ w, s.ar.keepWrite = some w → w.page < 256) := by
  refine ⟨{ stored with ar.pageWrite := some ⟨2, 255, [], 0, 0⟩, ar.keepWrite := some ⟨0, 255, 1, [], 0⟩ }, _, _, rfl, by decide, rfl,
    by decide, ?_, ?_⟩ <;> (intro w h; cases h; decide)

/-- The scan at an erased page, at the last segment, at a segment's last page, at a torn first page, at a failed read of an erased page,
and in the middle of a segment. -/
theorem test_scan_page_clauses :
    (∃ c : Scan, State.reset.ar.scan = some c ∧ c.done = false ∧ c.failed = [] ∧ State.reset.flash.at c.seg c.page = none ∧ c.seg ≠ 1)
      ∧ (∃ (s : State) (c : Scan), s.ar.scan = some c ∧ c.done = false ∧ c.failed = [] ∧ s.flash.at c.seg c.page = none ∧ c.seg = 1)
      ∧ (∀ page : Nat, page = 0 ∨ page = 1 ∨ page = 254 ∨ page = 255 → ∃ (s : State) (c : Scan), s.ar.scan = some c ∧ c.done = false
          ∧ s.flash.at c.seg c.page ≠ none ∧ c.page = page)
      ∧ (∃ (s : State) (c : Scan), s.ar.scan = some c ∧ c.done = false ∧ c.seg * 256 + c.page ∈ c.failed ∧ c.page < 255) := by
  refine ⟨⟨_, rfl, by decide⟩, ⟨{ State.reset with ar.scan := some ⟨1, 0, 0, [], false⟩ }, _, rfl, by decide⟩, ?_,
    ⟨{ State.reset with ar.scan := some ⟨2, 0, 0, [512], false⟩ }, _, rfl, by decide⟩⟩
  rintro page (rfl | rfl | rfl | rfl)
  · exact ⟨{ State.reset with flash := ⟨[(512, .torn)], []⟩ }, _, rfl, by decide⟩
  · exact ⟨{ State.reset with flash := ⟨[(512, storedPage), (513, .torn)], []⟩, ar.scan := some ⟨2, 1, 0, [], false⟩ }, _, rfl, by decide⟩
  · exact ⟨{ State.reset with flash := ⟨[(512, storedPage), (766, .torn)], []⟩, ar.scan := some ⟨2, 254, 0, [], false⟩ }, _, rfl, by decide⟩
  · exact ⟨{ State.reset with flash := ⟨[(767, .torn)], []⟩, ar.scan := some ⟨2, 255, 0, [], false⟩ }, _, rfl, by decide⟩

/-- Keep images behind a torn first page count, and their segment is STALE (R87). -/
def imageBehindATornPage : State :=
  { State.reset with
    flash := ⟨[(0, .torn), (1, .keep 5 [⟨[0x41], 4, 9, false⟩]), (256, .keep 4 [])], []⟩
    ar.scan := some ⟨1, 0, 0, [], true⟩ }

theorem test_image_behind_a_torn_page :
    (∀ j, j ≤ 1 → imageBehindATornPage.flash.at (0 : Fin 2) j ≠ none)
      ∧ imageBehindATornPage.flash.at (0 : Fin 2) 1 = some (.keep 5 [⟨[0x41], 4, 9, false⟩])
      ∧ imageBehindATornPage.flash.at (0 : Fin 2) 0 = some .torn ∧ imageBehindATornPage.bi.looped = []
      ∧ (after .scanEnd imageBehindATornPage).ru.keeps = [⟨[0x41], 4, 9, false⟩]
      ∧ (after .scanEnd imageBehindATornPage).ar.imageSeq = 6
      ∧ (after .scanEnd imageBehindATornPage).ar.keepSegs.map (fun k => k.state) = #v[.stale, .stale] := by
  decide +kernel

/-- The scan's end with an output record, an input record and a cell block found, and with nothing found. -/
theorem test_scan_end_clauses :
    (∃ (s : State) (c : Scan) (items : List (PageItem × Loc)), s.ar.scan = some c
        ∧ items = scanItems (scanView s.flash c.failed) (scanSegs (scanView s.flash c.failed) s.flash.partlyErased)
        ∧ items.map (fun i => i.2) = [⟨2, 0, 0⟩, ⟨2, 0, 1⟩, ⟨2, 0, 2⟩]
        ∧ (items[0]?.map (fun i => i.1)) = some (.item (.output (coilRecord 0 1000)))
        ∧ (items[1]?.map (fun i => i.1)) = some (.item (.input ⟨1, [0x49], 900, 0, 1000, false, false, false, 0⟩))
        ∧ ∀ j ∈ items, ∀ p n b, j.1 = .cells p n b → 0 < p)
      ∧ (State.reset.flash = ⟨[], []⟩ ∧ State.reset.bi.looped = [] ∧ State.reset.ar.writeQueue = []) := by
  refine ⟨⟨{ State.reset with flash := stored.flash, ar.scan := some ⟨1, 0, 0, [], true⟩ }, ⟨1, 0, 0, [], true⟩,
    [(.item (.output (coilRecord 0 1000)), ⟨2, 0, 0⟩), (.item (.input ⟨1, [0x49], 900, 0, 1000, false, false, false, 0⟩), ⟨2, 0, 1⟩),
      (.cells 10 0 [[⟨1, 7, some 7, some 7, false⟩], [.empty]], ⟨2, 0, 2⟩)], rfl, by decide +kernel, rfl, rfl, rfl, ?_⟩, rfl, rfl, rfl⟩
  intro j h p n b e
  simp only [List.mem_cons, List.not_mem_nil, or_false] at h
  rcases h with rfl | rfl | rfl <;> cases e
  decide

/-- RUN with cells staged: the cell at the head retired at the moment given. -/
def staged (retired : Nat) : State :=
  { stored with cx.staging := [⟨98, 10, [.empty], retired, true⟩, ⟨99, 10, [.empty], retired, true⟩] }

theorem test_page_write_clauses :
    (canWriteData (staged 0) = true ∧ activeSeg (staged 0) = some ⟨2, .active, 1, 1, [⟨10, 0, 1⟩]⟩)
      ∧ (∃ cell rest, (staged 1999999).cx.staging = cell :: rest)
      ∧ (∃ (s : State) (w : PageWrite) (g : SegEntry), s.ar.pageWrite = some w ∧ segEntry s w.seg = some g ∧ w.page = 255)
      ∧ (∃ (s : State) (w : PageWrite) (g : SegEntry) (r : OutputRecord), s.ar.pageWrite = some w ∧ segEntry s w.seg = some g ∧ w.page = 254 ∧ w.items = [.item (.output r)]
          ∧ needsPlace s (.output r) = true ∧ s.ca.closing = [] ∧ s.bi.looped = [] ∧ 5 ≤ freeCount s
          ∧ s.ar.outs.length + s.ar.ins.length < 16000 ∧ s.ar.writeQueue = []) := by
  refine ⟨by decide +kernel, ⟨_, _, rfl⟩, ⟨{ stored with ar.pageWrite := some ⟨2, 255, [], 0, 0⟩ }, _, _, rfl, rfl, rfl⟩,
    ⟨{ stored with ar.pageWrite := some ⟨2, 254, [.item (.output { coilRecord 1000 1500 with seq := 2, id := [0x42] })], 0, 0⟩ },
      _, _, _, rfl, rfl, rfl, rfl, by decide +kernel⟩⟩

/-- A page of two freeze marks and of staged cells with a gap and a change of pitch (R65, R67). -/
def gathering : State :=
  { stored with
    ar.writeQueue := [.freezeMark 1 [0x41], .freezeMark 2 [0x42]]
    cx.staging := [⟨97, 10, [.empty], 0, true⟩, ⟨98, 10, [.empty], 0, true⟩, ⟨100, 10, [.empty], 0, true⟩, ⟨101, 25, [.empty], 0, true⟩] }

theorem test_page_is_formed :
    canWriteData gathering = true ∧ (activeSeg gathering).isSome = true
      ∧ (after .dataPageWrite gathering).ar.pageWrite = some ⟨2, 1, [.item (.freezeMark 1 [0x41]), .item (.freezeMark 2 [0x42]),
          .cells 10 97 [[.empty], [.empty]], .cells 10 100 [[.empty]], .cells 25 101 [[.empty]]], 4, 2000000⟩ := by decide +kernel

/-- A segment of another pitch alone stays out of a coil's set, though their run extents overlap (R58, R59, R69). -/
theorem test_segment_of_another_pitch_is_left_out :
    segSetOf [⟨2, .used, 1, 1, [⟨100, 420, 839⟩]⟩, ⟨3, .used, 2, 1, [⟨200, 300, 420⟩]⟩, ⟨4, .used, 3, 1, [⟨200, 0, 9⟩, ⟨100, 400, 420⟩]⟩] []
      { outEntry with c0 := 42000, c1 := 84062, pitch := 100, loc := ⟨2, 0, 0⟩ } = [2, 4] := by decide

/-- A context of node 5 that has asked for the stored coil with the origin form over its whole length, at RESOLVE. -/
def resolving : PullContext :=
  { PullContext.admitted 5 0x1234 [0x41] (.origin 0 1000 4) 7 0 with entry := some outEntry, pin := some [2] }

/-- The same context in LOCAL with one bin that takes the whole coil and all its own records placed but for the cells. -/
def readingCells : PullContext :=
  { resolving with
    phase := .localRecords
    record := some (coilRecord 0 1000)
    grid := some ⟨0, 256000, 0, 1, 0, 256000⟩
    accums := [[.zero]]
    readAt := some (2, 0) }

def withContext (x : PullContext) : State := setCtx 0 (some x) stored
def reading (reader : Reader) (discarded : Bool) (s : State) : State := { s with ar.reading := some ⟨⟨2, 0, reader⟩, 0, discarded⟩ }

theorem test_record_read_clauses :
    ∃ r x e seq items record grid clamped, (reading (.record 0) false (withContext resolving)).ar.reading = some r ∧ r.discarded = false
      ∧ r.request.reader = .record 0 ∧ ctxAt (reading (.record 0) false (withContext resolving)) 0 = some x ∧ x.entry = some e
      ∧ (withContext resolving).bi.looped = [] ∧ (withContext resolving).flash.at r.request.seg r.request.page = some (.data seq items)
      ∧ items[e.loc.place]? = some (.item (.output record)) ∧ record.seq = e.seq
      ∧ x.form.gridOn (record.c1 - record.c0) = some (grid, clamped) ∧ x.relay = [] ∧ x.placed = 0 :=
  ⟨_, _, _, _, _, _, _, _, rfl, rfl, rfl, rfl, rfl, rfl, rfl, rfl, rfl, rfl, rfl, rfl⟩

/-- A LEVEL record at the greatest values of its fields. -/
theorem test_level_record_clauses :
    ∃ (s : State) (x : PullContext) (r : OutputRecord) (g : Grid), x.level = 7 ∧ r.id.length = 16 ∧ r.c1 - r.c0 = 4000000 ∧ r.pitch = 200
      ∧ s.cx.channels.length = 16 ∧ r.segments.length = 8 ∧ r.lane.getD 0 = 8 ∧ g.n = 256 :=
  ⟨{ stored with cx.channels := List.replicate 16 ⟨[0x54], 0, 0, 0⟩ }, resolving,
    { coilRecord 0 4000000 with id := List.replicate 16 0x41, pitch := 200, segments := List.replicate 8 ⟨none, 0, 1⟩, lane := some 8 },
    ⟨0, 256, 0, 256, 0, 256⟩, by decide⟩

/-- The last cell not reached with another page to come, and the last cell reached. -/
theorem test_cell_page_clauses :
    (∃ (s : State) (r : Reading) (x : PullContext) (e : OutEntry) (record : OutputRecord) (grid : Grid) (items : List PageItem)
        (blocks : List (Nat × List (List CellEntry))) (accums : List (List Accum)) (seg page : Nat), s.ar.reading = some r ∧ r.discarded = false
        ∧ r.request.reader = .cells 0 ∧ ctxAt s 0 = some x ∧ x.entry = some e ∧ x.record = some record ∧ x.grid = some grid
        ∧ items = (dataItems (s.flash.at r.request.seg r.request.page)).getD [] ∧ blocks = blocksOf record.pitch items
        ∧ accums = blocks.foldl (fun a b => addBlock grid record b.1 b.2 a) x.accums
        ∧ (∀ b ∈ blocks, b.1 + b.2.length < cellFrom record.c1 record.pitch) ∧ nextCellPage s x e record = some (seg, page))
      ∧ (∃ (s : State) (r : Reading) (x : PullContext) (e : OutEntry) (record : OutputRecord) (grid : Grid) (items : List PageItem)
        (blocks : List (Nat × List (List CellEntry))), s.ar.reading = some r ∧ r.discarded = false
        ∧ r.request.reader = .cells 0 ∧ ctxAt s 0 = some x ∧ x.entry = some e ∧ x.record = some record ∧ x.grid = some grid
        ∧ items = (dataItems (s.flash.at r.request.seg r.request.page)).getD [] ∧ blocks = blocksOf record.pitch items
        ∧ (∃ b ∈ blocks, cellFrom record.c1 record.pitch ≤ b.1 + b.2.length) ∧ s.bi.looped = [])
      ∧ nextCellPage (withContext readingCells) readingCells outEntry (coilRecord 0 1000) = none := by
  refine ⟨⟨{ reading (.cells 0) false (withContext readingCells) with ar.segs := [⟨2, .active, 1, 2, [⟨10, 0, 99⟩]⟩] },
      _, _, _, _, _, _, _, _, 2, 1, rfl, rfl, rfl, rfl, rfl, rfl, rfl, rfl, rfl, rfl, by decide, by decide +kernel⟩,
    ⟨reading (.cells 0) false (withContext { readingCells with record := some (coilRecord 0 20) }),
      _, _, _, _, _, _, _, rfl, rfl, rfl, rfl, rfl, rfl, rfl, rfl, rfl, by decide, rfl⟩, by decide⟩

theorem test_read_clauses :
    (∃ (s : State) (r : ReadRequest) (rest : List ReadRequest), canReadStart s = true ∧ s.ar.readQueue = r :: rest)
      ∧ (∀ reader, ∃ r, (reading reader true stored).ar.reading = some r ∧ r.discarded = true ∧ r.request.reader = reader)
      ∧ (∀ a, a = amending ∨ a = amendingInput → ∃ r seq items, (reading .amend false (opened a)).ar.reading = some r
          ∧ r.discarded = false ∧ r.request.reader = .amend ∧ (opened a).ru.amend = .opened a
          ∧ (opened a).flash.at r.request.seg r.request.page = some (.data seq items)
          ∧ ((∃ e record, a.kind = .output ∧ amendedEntry (opened a) a = some e ∧ items[e.loc.place]? = some (.item (.output record))
                ∧ record.seq = a.seq)
            ∨ (∃ e record, a.kind = .input ∧ inBySeq (opened a) a.seq = some e ∧ items[e.loc.place]? = some (.item (.input record))
                ∧ record.seq = a.seq))) := by
  refine ⟨⟨{ stored with ar.readQueue := [⟨2, 0, .amend⟩] }, _, _, by decide +kernel, rfl⟩, fun _ => ⟨_, rfl, rfl, rfl⟩, ?_⟩
  rintro a (rfl | rfl)
  · exact ⟨_, _, _, rfl, rfl, rfl, rfl, rfl, .inl ⟨_, _, rfl, rfl, rfl, rfl⟩⟩
  · exact ⟨_, _, _, rfl, rfl, rfl, rfl, rfl, .inr ⟨_, _, rfl, rfl, rfl, rfl⟩⟩

/-- RUN with an image ready and the keep segments as given. -/
def keepSegsAre (a b : KeepSeg) : State :=
  { stored with ar.keepReady := true, ar.keepSegs := (stored.ar.keepSegs.set 0 a).set 1 b }

theorem test_keep_image_clauses :
    (∀ p : Nat × KeepSegState, p ∈ [(255, .spare), (256, .spare), (256, .erasing)] → ∃ s : State, interfaceFree s = true
        ∧ s.ar.keepReady = true ∧ (s.ar.keepSegs.get 0).state = .current ∧ (s.ar.keepSegs.get (1 - 0)).state ≠ .current
        ∧ (s.ar.keepSegs.get 0).written = p.1 ∧ (s.ar.keepSegs.get (1 - 0)).state = p.2)
      ∧ (∃ (s : State) (w : KeepWrite), s.ar.keepWrite = some w ∧ w.page = 255 ∧ (s.ar.keepSegs.get (1 - w.seg)).state = .current) := by
  constructor
  · intro p h
    simp only [List.mem_cons, List.not_mem_nil, or_false] at h
    rcases h with rfl | rfl | rfl
    · exact ⟨keepSegsAre ⟨.current, 255⟩ ⟨.spare, 0⟩, by decide⟩
    · exact ⟨keepSegsAre ⟨.current, 256⟩ ⟨.spare, 0⟩, by decide⟩
    · exact ⟨keepSegsAre ⟨.current, 256⟩ ⟨.erasing, 9⟩, by decide⟩
  · exact ⟨{ keepSegsAre ⟨.spare, 0⟩ ⟨.current, 256⟩ with ar.keepWrite := some ⟨0, 255, 1, [], 0⟩ }, _, rfl, by decide⟩

/-- RUN at 2 s with a segment's erase in the phase given. -/
def erasing (seg : Nat) (phase : ErasePhase) (total since : Nat) : State :=
  { stored with
    ar.erase := some ⟨seg, phase, total, since⟩
    ar.segs := stored.ar.segs ++ [⟨3, .erasing, 0, 9, []⟩] }

theorem test_erase_clauses :
    (∃ s : State, canEraseBegin s = true ∧ ∃ n ∈ eraseCandidates s, n = 1) ∧ (∃ s : State, canEraseBegin s = true ∧ ∃ n ∈ eraseCandidates s, n = 2)
      ∧ (∃ (s : State) (e : Erase) (t : Nat), s.ar.erase = some e ∧ e.phase = .running ∧ somethingWaits s = true ∧ t = max s.now (e.since + 5000)
          ∧ t + 1 = e.since + (400000 - e.total))
      ∧ (∃ (s : State) (e : Erase) (t ordered complete : Nat), s.ar.erase = some e ∧ e.phase = .suspending ordered complete ∧ t = min s.now (ordered + 200)
          ∧ t + 1 = e.since + (400000 - e.total))
      ∧ (∃ (s : State) (e : Erase), s.ar.erase = some e ∧ e.phase = .suspended ∧ interfaceFree s = true ∧ somethingWaits s = false)
      ∧ (∃ (s : State) (e : Erase), s.ar.erase = some e ∧ e.phase = .running ∧ 2 ≤ e.seg ∧ s.bi.looped = [] ∧ s.ar.stage = .normal
          ∧ s.ar.activationWaits = false)
      ∧ (∃ (s : State) (e : Erase), s.ar.erase = some e ∧ e.phase = .running ∧ e.seg = 1) := by
  refine ⟨⟨{ stored with ar.keepSegs := stored.ar.keepSegs.set 1 ⟨.stale, 256⟩ }, by decide +kernel, 1, by decide, rfl⟩,
    ⟨{ stored with ar.segs := [⟨2, .chosen, 1, 256, []⟩] }, by decide +kernel, 2, by decide, rfl⟩,
    ⟨{ erasing 3 .running 0 1600001 with ar.readQueue := [⟨2, 0, .amend⟩] }, _, _, rfl, rfl, by decide, rfl, by decide⟩,
    ⟨erasing 3 (.suspending 1999900 2000050) 0 1600001, _, _, _, _, rfl, rfl, rfl, by decide⟩,
    ⟨erasing 3 .suspended 5000 1000000, _, rfl, rfl, by decide +kernel⟩, ⟨erasing 3 .running 0 1600000, _, rfl, rfl, by decide⟩,
    ⟨erasing 1 .running 0 1600000, _, rfl, rfl, rfl⟩⟩

theorem test_quiet_clauses : Quiet inRun ∧ inRun.bi.looped = [] ∧ (∃ t, exec .dataPageWrite (staged 0) = .next t) :=
  ⟨⟨by decide, by decide, by decide⟩, rfl, ⟨_, rfl⟩⟩
/-! ### The bus -/

/-- A frame from node 5 to node 3 with a tag and its CRC. -/
def heardFrame (kind : FrameKind) (payload : List Byte) : Frame := sealed kind ⟨3, 5, 0x1234, payload, 0⟩

/-- KEEP and UNKEEP payloads for coil [0x41] from keep number 9 of node 4. -/
def keepFields (id : CoilId) : List Byte := countedBytes id ++ [4, 0, 9]

/-- An ORIGIN PULL and a MAPPED one whose grid has a step of 0. -/
def pullFields (level : Byte) (id : CoilId) : List Byte := [1] ++ countedBytes id ++ [level, 0] ++ beBytes 4 0 ++ beBytes 4 1000 ++ beBytes 2 4
def badPull (id : CoilId) : List Byte := [2] ++ countedBytes id ++ List.replicate 34 0

theorem sealed_matches (kind : FrameKind) (f : Frame) : crcMatches kind (sealed kind f) = true := by
  simp [crcMatches, sealed, receivedBytes]

/-- The kinds with payloads of the lengths they have, at the bounds of their bytes. -/
def heardFrames : List (FrameKind × List Byte) :=
  [(.seek, countedBytes [0x41]), (.own, countedBytes [0x41] ++ [1, 0, 0, 0, 0, 0]), (.pull, pullFields 7 [0x41]), (.pull, pullFields 8 [0x41]),
    (.pull, badPull [0x41]), (.bins, List.replicate 28 0x11), (.mark, [0, 0, 0, 0]), (.done, List.replicate 17 0), (.wait, []), (.go, []),
    (.stop, []), (.keep, keepFields [0x41]), (.unkeep, keepFields [0x41]), (.kept, countedBytes [0x41] ++ [5])]

theorem test_frames_pass : ∀ p ∈ heardFrames, Passes p.1 (heardFrame p.1 p.2) inRun := by
  intro p h
  refine ⟨sealed_matches _ _, ?_⟩
  revert p
  decide +kernel

/-- A frame with a wrong CRC, one for another node, sources 0 and 31, and six bytes with and without their CRC. -/
theorem test_discarded_frame_clauses :
    crcMatches .go ⟨3, 5, 0, [], 0⟩ = false
      ∧ (crcMatches .go (sealed .go ⟨4, 31, 0, [], 0⟩) = true ∧ isForUs 3 .go (sealed .go ⟨4, 31, 0, [], 0⟩) = false)
      ∧ (crcMatches .go (sealed .go ⟨3, 0, 0, [], 0⟩) = true ∧ isForUs 3 .go (sealed .go ⟨3, 0, 0, [], 0⟩) = false)
      ∧ (6 ≤ (List.replicate 6 (0x1F : Byte)).length ∧ (byteAt (List.replicate 6 (0x1F : Byte)) 1).toNat ≤ 31
          ∧ (0 : Word16) ≠ frameCrc (List.replicate 6 0x1F))
      ∧ (crcMatches .go (sealed .go ⟨3, 32, 0, [], 0⟩) = true ∧ 31 < (32 : Byte).toNat ∧ 31 < (byteAt (List.replicate 6 (0x20 : Byte)) 1).toNat) := by
  decide +kernel

/-- The four statuses of SEEK's answer and no answer; outside RUN, and from the own node. -/
theorem test_seek_clauses :
    countedId (countedBytes [0x41]) = some [0x41] ∧ ownStatus stored [0x41] = some (.stored, 1000) ∧ outById stored [0x41] = some outEntry
      ∧ (∃ s r, outById s [0x42] = none ∧ closingById s [0x42] = some r)
      ∧ (∃ s c, outById s [0x42] = none ∧ closingById s [0x42] = none ∧ openByName s [0x42] = some c)
      ∧ (∃ s, outById s [0x42] = none ∧ closingById s [0x42] = none ∧ openByName s [0x42] = none ∧ [0x42] ∈ s.ar.expired)
      ∧ ownStatus inRun [0x42] = none ∧ outById inRun [0x42] = none ∧ closingById inRun [0x42] = none ∧ openByName inRun [0x42] = none
      ∧ inConfig.pp.station ≠ .run ∧ stored.pp.station = .run
      ∧ senderOf (heardFrame .seek (countedBytes [0x41])) ≠ stored.bi.node ∧ senderOf ⟨0, 3, 0, [], 0⟩ = stored.bi.node := by
  refine ⟨by decide +kernel, by decide, by decide,
    ⟨{ stored with ca.closing := [{ coilRecord 1000 1500 with id := [0x42] }] }, _, by decide, rfl⟩,
    ⟨{ stored with ca.names := stored.ca.names.set 0 [0x42] }, ⟨1, 2, 1000, [⟨none, 0⟩], 0, .clear⟩, by decide, by decide, by decide⟩,
    ⟨{ stored with ar.expired := [[0x42]] }, by decide⟩, by decide, by decide, by decide, by decide, by decide, rfl, by decide, by decide⟩

/-- A slot in a phase, of context 0, for owner 5 and the tag of the frames above. -/
def slotIn (phase : SlotPhase) (owner : Option Node) : FetchSlot :=
  ⟨some 0, 0x1234, [0x41], ⟨0, 256, 0, 1, 0, 256⟩, 900, false, false, owner, phase⟩

/-- A context that has fetched its last segment, with that slot. -/
def fetching (phase : SlotPhase) (owner : Option Node) : State :=
  setCtx 0 (some { readingCells with phase := .segments, cursor := 1, slot := some 7, tag := 0x0777 })
    (setSlot 7 (some (slotIn phase owner)) stored)

/-- The head task, a KEEP or UNKEEP for parent [0x41], in a phase. -/
def headTask (kind : TaskKind) (phase : TaskPhase) : State :=
  { stored with ru.tasks := [⟨[0x41], 4, 9, kind, [0x42]⟩], ru.head := some ⟨0x1234, phase⟩ }

/-- A locate that collects, with a first and with a second answer of node 5; the task's locate likewise; another tag. -/
theorem test_own_clauses :
    countedId ((countedBytes [0x41] ++ [1, 0, 0, 0, 0, (0 : Byte)]).take 17) = some [0x41]
      ∧ byteAt (countedBytes [0x41] ++ [1, 0, 0, 0, 0, (0 : Byte)]) 17 = OwnStatus.code .stored
      ∧ (∃ x l, slotAt (fetching (.seeking (some ⟨some 0, []⟩)) none) 7 = some x ∧ x.phase = .seeking (some l) ∧ x.tag = 0x1234
          ∧ x.parent = [0x41] ∧ l.began.isSome = true ∧ (∀ b ∈ l.answers, b.node ≠ 5))
      ∧ (∃ x l, slotAt (fetching (.seeking (some ⟨some 0, [⟨5, .stored, 0⟩]⟩)) none) 7 = some x ∧ x.phase = .seeking (some l)
          ∧ x.tag = 0x1234 ∧ x.parent = [0x41] ∧ l.began.isSome = true ∧ (∃ b ∈ l.answers, b.node = 5))
      ∧ (∃ h task rest l, (headTask .keep (.locating ⟨some 0, []⟩)).ru.head = some h
          ∧ (headTask .keep (.locating ⟨some 0, []⟩)).ru.tasks = task :: rest ∧ h.phase = .locating l ∧ h.tag = 0x1234
          ∧ task.parent = [0x41] ∧ l.began.isSome = true)
      ∧ (slotIn (.seeking none) none).tag ≠ 0x1235 := by
  refine ⟨by decide +kernel, by decide, ⟨_, _, rfl, rfl, rfl, rfl, rfl, by decide⟩, ⟨_, _, rfl, rfl, rfl, rfl, rfl, by decide⟩,
    ⟨_, _, _, _, rfl, rfl, rfl, rfl, rfl, rfl⟩, by decide⟩

/-- A state with every context active. -/
def allContextsActive : State := { stored with pe.contexts := Vector.replicate 6 (some resolving) }

/-- Levels 7 and 8; the requester's own context held, all contexts held, and context 5 alone free; a coil stored, with a grid and
without, and one of each other status. -/
theorem test_pull_clauses :
    natAt (pullFields 7 [0x41]) 18 1 = 7 ∧ natAt (pullFields 8 [0x41]) 18 1 = 8 ∧ countedId (slice (pullFields 7 [0x41]) 1 17) = some [0x41]
      ∧ countedId (slice (badPull [0x41]) 1 17) = some [0x41]
      ∧ (∃ c x, ctxAt allContextsActive c = some x ∧ x.requester = 5 ∧ x.tag = 0x1234)
      ∧ (∃ s : State, s.pp.station = .run ∧ (∀ c x, ctxAt s c = some x → x.requester ≠ (5 : Node) ∨ x.tag ≠ 0x1234)
          ∧ ∀ c, (ctxAt s c).isSome = true)
      ∧ (∃ s : State, s.pp.station = .run ∧ (∀ c x, ctxAt s c = some x → x.requester ≠ (5 : Node) ∨ x.tag ≠ 0x1234)
          ∧ ctxAt s 5 = none ∧ (∀ d, d < 5 → (ctxAt s d).isSome = true) ∧ outById s [0x41] = some outEntry)
      ∧ ((pullForm (pullFields 7 [0x41])).gridOn 1000).isSome = true ∧ (pullForm (badPull [0x41])).gridOn 1000 = none
      ∧ (∃ s st len, ownStatus s [0x42] = some (st, len) ∧ outById s [0x42] = none
          ∧ (st, DoneStatus.expired) ∈ [(OwnStatus.closing, DoneStatus.closing), (.opened, .opened), (.expired, .expired)])
      ∧ ownStatus stored [0x42] = none ∧ outById stored [0x42] = none := by
  have other : ∀ (s : State), (∀ c, ((ctxAt s c).all fun x => x.tag == 0x0777) = true) →
      ∀ c x, ctxAt s c = some x → x.requester ≠ (5 : Node) ∨ x.tag ≠ 0x1234 := by
    intro s h c x e
    have := h c
    rw [e] at this
    right
    intro t
    simp [t] at this
  refine ⟨by decide +kernel, by decide +kernel, by decide +kernel, by decide +kernel, ⟨0, resolving, rfl, rfl, rfl⟩,
    ⟨{ stored with pe.contexts := Vector.replicate 6 (some { resolving with tag := 0x0777 }) }, rfl, ?_, by decide⟩,
    ⟨{ stored with pe.contexts := (Vector.replicate 6 (some { resolving with tag := 0x0777 })).set 5 none }, rfl, ?_, rfl, by decide, rfl⟩,
    by decide +kernel, by decide +kernel, ⟨{ stored with ar.expired := [[0x42]] }, .expired, 0, by decide⟩, by decide, by decide⟩
  · exact other _ (by decide)
  · exact other _ (by decide)

/-- What a PULLING slot holds, with the relay mark given. -/
def pulling (relayOpen : Bool) : SlotPhase := .pulling ⟨255, 3, burstSeed, .running, some 0, relayOpen⟩

/-- A buffer one short of the bound; records of levels 0, 1 and 7 and of kinds 1, 2 and 3, by their first byte. -/
theorem test_bins_and_mark_clauses :
    slotFor stored 5 0x1234 = none
      ∧ (∃ s k x p c y, slotFor s 5 0x1234 = some k ∧ slotAt s k = some x ∧ x.phase = .pulling p ∧ p.relayOpen = true ∧ x.context = some c
          ∧ ctxAt s c = some y ∧ y.level = 0 ∧ y.relay.length = 46)
      ∧ (∃ s k x p c y, slotFor s 5 0x1234 = some k ∧ slotAt s k = some x ∧ x.phase = .pulling p ∧ p.relayOpen = false ∧ x.context = some c
          ∧ ctxAt s c = some y ∧ y.level = 7 ∧ y.relay.length < 47)
      ∧ (List.replicate 28 (0x11 : Byte)).length = 28
      ∧ (∀ b : Byte, b = 0x11 ∨ b = 0x17 ∨ b = 0x21 ∨ b = 0x37 → (0 < b.toNat % 16 ∧ b.toNat % 16 ≤ 7
          ∧ (b.toNat / 16 = 1 ∨ b.toNat / 16 = 2 ∨ b.toNat / 16 = 3)))
      ∧ (byteAt [255, 3, 0x3A, (0x5C : Byte)] 0 = 255 ∧ natAt [255, 3, 0x3A, (0x5C : Byte)] 1 1 = 3
          ∧ natAt [255, 3, 0x3A, (0x5C : Byte)] 2 2 = burstSeed.toNat) := by
  refine ⟨by decide, ⟨setCtx 0 (some { readingCells with level := 0, relay := List.replicate 46 [] }) (fetching (pulling true) (some 5)),
      _, _, _, _, _, rfl, rfl, rfl, rfl, rfl, rfl, rfl, rfl⟩,
    ⟨fetching (pulling false) (some 5), _, _, _, _, _, rfl, rfl, rfl, rfl, rfl, rfl, rfl, by decide⟩, by decide, ?_, by decide⟩
  rintro b (rfl | rfl | rfl | rfl) <;> decide

/-- RUN with the slot's flow as given, a buffer of n records, and m frames in the control queue. -/
def flowing (flow : Flow) (n m : Nat) : State :=
  let s := setCtx 0 (some { readingCells with phase := .segments, cursor := 1, slot := some 7, level := 0, relay := List.replicate n [] })
    (fetching (.pulling ⟨255, 3, burstSeed, flow, some 0, true⟩) (some 5))
  { s with bi.queue := List.replicate m (refusalDone 5 0 .busy 0) }

/-- Buffers of 47 and 63 in RUNNING with a queue of 31 and 32 frames, and a full one in WAITED. -/
theorem test_watermark_and_full_buffer_clauses :
    (∀ n m flow, (n, m, flow) ∈ [(47, 31, Flow.running), (63, 32, .running), (64, 0, .waited)] → ∃ s k x p c y, s = flowing flow n m
        ∧ slotFor s 5 0x1234 = some k ∧ slotAt s k = some x ∧ x.phase = .pulling p ∧ p.flow = flow ∧ p.relayOpen = true
        ∧ x.context = some c ∧ ctxAt s c = some y ∧ y.level = 0 ∧ y.relay.length = n ∧ s.bi.queue.length = m
        ∧ (5 : Node) ≠ s.bi.node) := by
  intro n m flow _
  exact ⟨_, _, _, _, _, _, rfl, rfl, rfl, rfl, rfl, rfl, rfl, rfl, rfl, List.length_replicate, List.length_replicate, (by decide : (5 : Node) ≠ 3)⟩

/-- A BINS frame formed at 24 and at 25 records in each flow state, the burst open and not. -/
theorem test_drain_watermark_clauses :
    ∀ n m flow, n = 24 ∨ n = 25 → ∃ s x k y p, s = flowing flow n m ∧ ctxAt s 0 = some x ∧ x.slot = some k ∧ slotAt s k = some y
      ∧ y.phase = .pulling p ∧ p.flow = flow ∧ x.relay ≠ [] ∧ (∀ b, x.burst = some b → b.frames ≠ 16) ∧ x.relay.length = n
      ∧ s.bi.node ≠ 0 ∧ y.owner.getD 0 ≠ s.bi.node ∧ s.bi.queue.length = m := by
  rintro n m flow (rfl | rfl) <;>
    exact ⟨_, _, _, _, _, rfl, rfl, rfl, rfl, rfl, rfl, by decide, fun b e => (by cases e), List.length_replicate, (by decide : (3 : Node) ≠ 0),
      (by decide : (5 : Node) ≠ 3), List.length_replicate⟩

/-- A MARK that carries 0 or more than 128 records fails its count check (R216). -/
theorem test_mark_count_out_of_range :
    markFault ⟨255, 0, burstSeed, .running, none, false⟩ 255 0 burstSeed.toNat = .burstCount
      ∧ markFault ⟨255, 129, burstSeed, .running, none, false⟩ 255 129 burstSeed.toNat = .burstCount
      ∧ markFault ⟨255, 128, burstSeed, .running, none, false⟩ 255 128 burstSeed.toNat = .none := by decide

theorem test_done_clauses :
    (∃ s k x left, slotFor s 5 0x1234 = some k ∧ slotAt s k = some x ∧ s.pe.waiting = [] ∧ s.bi.looped = [] ∧ x.phase = .draining left)
      ∧ (∃ s k x p c y g r, slotFor s 5 0x1234 = some k ∧ slotAt s k = some x ∧ s.pe.waiting = [] ∧ s.bi.looped = []
          ∧ x.phase = .pulling p ∧ x.context = some c ∧ ctxAt s c = some y ∧ y.grid = some g ∧ y.record = some r
          ∧ r.segments.length ≤ y.cursor ∧ r.further = 0 ∧ x.estimated = false ∧ x.long = false)
      ∧ (∀ st : Byte, ∃ payload, payload = st :: List.replicate 16 (0 : Byte) ∧ payload.length = 17 ∧ byteAt payload 0 = st) :=
  ⟨⟨fetching (.draining (some 0)) (some 5), _, _, _, rfl, rfl, rfl, rfl, rfl⟩,
    ⟨fetching (pulling false) (some 5), _, _, _, _, _, _, _, rfl, rfl, rfl, rfl, rfl, rfl, rfl, rfl, rfl, by decide, rfl, rfl, rfl⟩,
    fun st => ⟨_, rfl, rfl, rfl⟩⟩

/-- The context of the frames' source and tag, paused and not; with its fetch PULLING and with none; the other way to its end. -/
theorem test_wait_and_stop_clauses :
    ctxFor stored 5 0x1234 = none ∧ (∃ c x, ctxFor (withContext resolving) 5 0x1234 = some c ∧ ctxAt (withContext resolving) c = some x
        ∧ x.slot = none ∧ (withContext resolving).bi.node ≠ 0 ∧ x.requester ≠ (withContext resolving).bi.node
        ∧ (withContext resolving).bi.queue.length < 32)
      ∧ (∃ s x, ctxAt s 0 = some x ∧ x.paused = some 0 ∧ x.slot = none)
      ∧ (∃ s x k y p, ctxAt s 0 = some x ∧ x.paused = some 0 ∧ x.slot = some k ∧ slotAt s k = some y ∧ y.phase = .pulling p ∧ s.bi.node ≠ 0
          ∧ y.owner.getD 0 ≠ s.bi.node ∧ x.requester ≠ s.bi.node ∧ s.bi.queue.length < 31) := by
  refine ⟨by decide, ⟨_, _, rfl, rfl, rfl, by decide, by decide, by decide⟩, ⟨withContext { resolving with paused := some 0 }, _, rfl, rfl, rfl⟩,
    ⟨setCtx 0 (some { readingCells with slot := some 7, paused := some 0 }) (fetching (pulling false) (some 5)), _, _, _, _,
      rfl, rfl, rfl, rfl, rfl, by decide⟩⟩

/-- Renames under commit; keeps held, not held with 64 and 63 entries; nothing that propagates. -/
theorem test_keep_clauses :
    (countedId ((keepFields [0x41]).take 17) = some [0x41] ∧ natAt (keepFields [0x41]) 17 1 ≤ 31 ∧ natAt (keepFields [0x41]) 18 2 = 9)
      ∧ (∃ s : State, s.pp.station = .run ∧ underRename s [0x41] = true)
      ∧ (∃ s : State, s.pp.station = .run ∧ underRename s [0x42] = false ∧ outById s [0x42] = none ∧ [0x42] ∈ s.ar.expired
          ∧ hasKeep s [0x42] 4 9 = false)
      ∧ (∃ s : State, s.pp.station = .run ∧ underRename s [0x41] = false ∧ outById s [0x41] = some outEntry ∧ hasKeep s [0x41] 4 9 = true)
      ∧ (∃ s : State, s.pp.station = .run ∧ underRename s [0x41] = false ∧ outById s [0x41] = some outEntry ∧ hasKeep s [0x41] 4 9 = false
          ∧ s.ru.keeps.length = 64)
      ∧ (∃ (s : State) (e : OutEntry), s.pp.station = .run ∧ underRename s [0x41] = false ∧ outById s [0x41] = some e
          ∧ hasKeep s [0x41] 4 9 = false ∧ s.ru.keeps.length = 63 ∧ (∀ r ∈ e.refs, r = none) ∧ s.ru.tasks = [])
      ∧ (∃ s : State, s.pp.station = .run ∧ hasKeep s [0x42] 4 9 = true ∧ outById s [0x42] = none) := by
  refine ⟨by decide +kernel, ⟨{ stored with ar.writeQueue := [.amendedOutput (coilRecord 0 1000) [0x43]] }, rfl, by decide⟩,
    ⟨{ stored with ar.expired := [[0x42]] }, by decide⟩, ⟨{ stored with ru.keeps := [⟨[0x41], 4, 9, false⟩] }, by decide⟩,
    ⟨{ stored with ru.keeps := List.replicate 64 ⟨[0x43], 4, 9, false⟩ }, by decide +kernel⟩,
    ⟨{ stored with ru.keeps := List.replicate 63 ⟨[0x43], 4, 9, false⟩, ar.outs := [{ outEntry with refs := [none] }] }, { outEntry with refs := [none] },
      by decide +kernel⟩,
    ⟨{ stored with ru.keeps := [⟨[0x42], 4, 9, false⟩] }, by decide⟩⟩

/-- RUN with the coil's input in the directory, with no task, one, 15 and 16. -/
theorem test_keep_propagates_clauses :
    ∀ n head, n = 0 ∨ n = 1 ∨ n = 15 ∨ n = 16 → ∃ (s : State) (e : OutEntry), s.ru.tasks.length = n ∧ s.ru.head = head
      ∧ s.pp.station = .run ∧ underRename s [0x41] = false ∧ outById s [0x41] = some e ∧ hasKeep s [0x41] 4 9 = false
      ∧ s.ru.keeps.length < 64 ∧ reclaimDemand s = false ∧ senderOf (heardFrame .keep (keepFields [0x41])) ≠ s.bi.node
      ∧ s.bi.looped = [] ∧ parentIds s e = [[0x49]] := by
  intro n head _
  exact ⟨{ stored with ru.tasks := List.replicate n ⟨[0x43], 4, 9, .unkeep, [0x42]⟩, ru.head := head }, outEntry, List.length_replicate, rfl,
    rfl, rfl, rfl, rfl, (by decide : (0 : Nat) < 64), (by decide +kernel : reclaimDemand stored = false),
    (by decide : senderOf (heardFrame .keep (keepFields [0x41])) ≠ (3 : Node)), rfl, rfl⟩

theorem test_kept_clauses :
    (∀ kind, ∃ h task owner began, (headTask kind (.awaiting 5 (some 0))).ru.head = some h
        ∧ (headTask kind (.awaiting 5 (some 0))).ru.tasks = [task] ∧ h.phase = .awaiting owner began ∧ began = some 0
        ∧ stored.bi.looped = [] ∧ owner = senderOf (heardFrame .kept (countedBytes [0x41] ++ [5])) ∧ h.tag = 0x1234
        ∧ countedId ((countedBytes [0x41] ++ [(5 : Byte)]).take 17) = some task.parent ∧ task.kind = kind) :=
  fun _ => ⟨_, _, _, _, rfl, rfl, rfl, rfl, rfl, (by decide : (5 : Node) = senderOf _), rfl,
    (by decide +kernel : _ = some [(0x41 : Byte)]), rfl⟩

/-! ### Windows, timers, streams and access -/

/-- Two answers, one expired and one of each other status, and none. -/
theorem test_outcome_clauses :
    (∀ st : OwnStatus, st ≠ .expired → ∃ (l : Locate) (a : OwnAnswer), l.answers.filter (fun a => a.status ≠ .expired) = [a] ∧ a.status = st)
      ∧ (∃ l : Locate, 2 ≤ (l.answers.filter (fun a => a.status ≠ .expired)).length)
      ∧ (∃ l : Locate, l.answers.filter (fun a => a.status ≠ .expired) = [] ∧ l.answers ≠ [])
      ∧ (∃ l : Locate, l.answers.filter (fun a => a.status ≠ .expired) = [] ∧ l.answers = []) := by
  refine ⟨?_, ⟨⟨some 0, [⟨4, .stored, 1⟩, ⟨5, .stored, 1⟩]⟩, by decide⟩, ⟨⟨some 0, [⟨4, .expired, 0⟩]⟩, by decide⟩, ⟨⟨some 0, []⟩, by decide⟩⟩
  intro st h
  exact ⟨⟨some 0, [⟨4, .expired, 0⟩, ⟨5, st, 1⟩]⟩, ⟨5, st, 1⟩, by cases st <;> first | rfl | exact absurd rfl h, rfl⟩

theorem test_locate_window_clauses :
    (∃ s x c y owner l, slotAt s 7 = some x ∧ x.phase = .seeking (some l) ∧ l.began = some 0 ∧ x.context = some c ∧ ctxAt s c = some y
        ∧ l.outcome = .located owner)
      ∧ (∀ kind, ∃ s h task rest owner l, s = headTask kind (.locating ⟨some 0, [⟨5, .stored, 1000⟩]⟩) ∧ s.ru.head = some h
        ∧ s.ru.tasks = task :: rest ∧ h.phase = .locating l ∧ l.began = some 0 ∧ l.outcome = .located owner ∧ task.kind = kind)
      ∧ (∃ s x c y st g r l, slotAt s 7 = some x ∧ x.phase = .seeking (some l) ∧ l.began = some 0 ∧ x.context = some c ∧ ctxAt s c = some y
        ∧ l.outcome = .failed st ∧ y.grid = some g ∧ y.record = some r ∧ r.segments.length ≤ y.cursor ∧ r.further = 0
        ∧ s.pe.waiting = [] ∧ s.bi.looped = []) :=
  ⟨⟨fetching (.seeking (some ⟨some 0, [⟨5, .stored, 1000⟩]⟩)) none, _, _, _, _, _, rfl, rfl, rfl, rfl, rfl, rfl⟩,
    fun _ => ⟨_, _, _, _, _, _, rfl, rfl, rfl, rfl, rfl, rfl, rfl⟩,
    ⟨fetching (.seeking (some ⟨some 0, []⟩)) none, _, _, _, _, _, _, _, rfl, rfl, rfl, rfl, rfl, rfl, rfl, rfl, by decide, rfl, rfl, rfl⟩⟩

theorem test_task_locate_fails_clauses :
    ∀ kind, ∃ s h task l st, s = headTask kind (.locating ⟨some 0, []⟩) ∧ s.ru.head = some h ∧ s.ru.tasks = [task]
      ∧ h.phase = .locating l ∧ l.began = some 0 ∧ l.outcome = .failed st ∧ s.bi.looped = [] ∧ task.kind = kind :=
  fun _ => ⟨_, _, _, _, _, rfl, rfl, rfl, rfl, rfl, rfl, rfl, rfl⟩

theorem test_silence_and_drain_clauses :
    (∃ s x p began c y g r, slotAt s 7 = some x ∧ s.bi.looped = [] ∧ x.phase = .pulling p ∧ p.silence = some began ∧ x.context = some c
        ∧ ctxAt s c = some y ∧ y.grid = some g ∧ y.record = some r ∧ r.segments.length ≤ y.cursor ∧ s.bi.node ≠ 0
        ∧ x.owner.getD 0 ≠ s.bi.node ∧ s.bi.queue.length < 32)
      ∧ (∃ s x left, slotAt s 7 = some x ∧ s.bi.looped = [] ∧ x.phase = .draining (some left) ∧ s.pe.waiting = []) :=
  ⟨⟨fetching (pulling false) (some 5), _, _, _, _, _, _, _, rfl, rfl, rfl, rfl, rfl, rfl, rfl, rfl, by decide, by decide, by decide, by decide⟩,
    ⟨fetching (.draining (some 0)) (some 5), _, _, rfl, rfl, rfl, rfl⟩⟩

/-- One record of room with records left to place; a burst with nothing left and one of 16 frames; a burst going on, one to open, and
DONE; a context of the own node with a frame ready. -/
theorem test_stream_clauses :
    (∃ s x room, ctxAt s 0 = some x ∧ x.phase = .localRecords ∧ room = 64 - x.relay.length ∧ room = 1
        ∧ x.placed + room < (ownRecords s x).length)
      ∧ (∃ x b, ctxAt (withContext x) 0 = some x ∧ x.slot = none ∧ x.burst = some b ∧ x.relay = [])
      ∧ (∃ x b, ctxAt (withContext x) 0 = some x ∧ x.slot = none ∧ x.burst = some b ∧ b.frames = 16 ∧ x.relay ≠ [])
      ∧ (∃ x b, ctxAt (withContext x) 0 = some x ∧ x.slot = none ∧ x.burst = some b ∧ b.frames ≠ 16 ∧ x.relay ≠ [])
      ∧ (∃ x, ctxAt (withContext x) 0 = some x ∧ x.slot = none ∧ x.burst = none ∧ x.relay ≠ [])
      ∧ (∃ x, ctxAt (withContext x) 0 = some x ∧ x.slot = none ∧ x.burst = none ∧ x.relay = [] ∧ x.frameReady = true
          ∧ x.requester = (withContext x).bi.node ∧ (withContext x).bi.node ≠ 0) := by
  refine ⟨⟨withContext { readingCells with relay := List.replicate 63 [] }, _, _, rfl, rfl, rfl, by decide +kernel, by decide +kernel⟩,
    ⟨{ resolving with burst := some ⟨1, 8, 0⟩ }, _, rfl, rfl, rfl, rfl⟩,
    ⟨{ resolving with burst := some ⟨16, 128, 0⟩, relay := [[]] }, _, rfl, rfl, rfl, rfl, by decide⟩,
    ⟨{ resolving with burst := some ⟨15, 120, 0⟩, relay := [[]] }, _, rfl, rfl, rfl, by decide, by decide⟩,
    ⟨{ resolving with relay := [[]] }, rfl, rfl, rfl, by decide⟩,
    ⟨{ resolving with phase := .closing, requester := 3 }, rfl, rfl, rfl, rfl, by decide, by decide, by decide⟩⟩

/-- CHAN and BIN records at the bounds of their fields, the bin empty and not. -/
theorem test_record_layout_clauses :
    (∃ ch : Channel, ch.name.length = 8 ∧ ch.scale = -3)
      ∧ (∃ a : Accum, a.cells < 2 ^ 32 ∧ a.count = 2 ^ 32 - 1 ∧ (∀ v, a.least = some v ∨ a.greatest = some v → -32768 ≤ v ∧ v ≤ 32767)
          ∧ -(2 ^ 47) ≤ a.sum ∧ a.sum = 2 ^ 47 - 1)
      ∧ (∃ a : Accum, a.count = 0 ∧ (∀ v, a.least = some v ∨ a.greatest = some v → -32768 ≤ v ∧ v ≤ 32767) ∧ a.sum = 0) := by
  refine ⟨⟨⟨List.replicate 8 0x54, 0, -3, 0⟩, by decide⟩,
    ⟨⟨1, 2 ^ 32 - 1, some (-32768), some 32767, 2 ^ 47 - 1, false, false⟩, by decide, rfl, ?_, by decide, rfl⟩,
    ⟨.zero, rfl, ?_, rfl⟩⟩
  · rintro v (h | h) <;> cases h <;> decide
  · rintro v (h | h) <;> cases h

/-- The own slot to come and one that has passed; a strap of 0; a control frame, a data frame, and nothing to send. -/
theorem test_access_clauses :
    (∃ (s : State) (t : Nat), s.bi.silence = some t ∧ t + 10 + 10 * (s.bi.node - s.bi.lastSource - 1).toNat < s.now ∧ s.bi.node ≠ 0 ∧ s.bi.tx = none
        ∧ s.bi.queue = [] ∧ ∀ c, hasDataFor s c = false)
      ∧ (∃ (s : State) (t : Nat), s.bi.silence = some t ∧ s.now = t + 10 + 10 * (s.bi.node - s.bi.lastSource - 1).toNat
        ∧ ownSlotStart s t s.now = s.now ∧ s.bi.node ≠ 0 ∧ s.bi.tx = none)
      ∧ (∃ (s : State) (t : Nat), s.bi.silence = some t ∧ s.now = t ∧ ownSlotStart s t s.now = t + 30 ∧ s.bi.node ≠ 0 ∧ s.bi.tx = none)
      ∧ (∃ (s : State) (t : Nat), s.bi.silence = some t ∧ s.bi.node = 0)
      ∧ (∃ (s : State) (t : Nat) (f : OutFrame) (rest : List OutFrame), s.bi.silence = some t ∧ s.bi.node ≠ 0 ∧ s.bi.tx = none ∧ s.bi.queue = f :: rest)
      ∧ (∃ (s : State) (t : Nat) (c : Fin 6) (x : PullContext), s.bi.silence = some t ∧ s.bi.node ≠ 0 ∧ s.bi.tx = none ∧ s.bi.queue = [] ∧ nextDataCtx s = some c ∧ ctxAt s c = some x)
      ∧ (∃ s : State, s.bi.silence = none) := by
  refine ⟨⟨inRun, _, rfl, by decide, by decide, rfl, rfl, by decide⟩, ⟨{ inRun with now := 30 }, _, rfl, by decide⟩,
    ⟨{ inRun with now := 0 }, _, rfl, by decide⟩, ⟨State.reset, _, rfl, rfl⟩,
    ⟨{ inRun with bi.queue := [refusalDone 5 0 .busy 0] }, _, _, _, rfl, by decide, rfl, rfl⟩,
    ⟨withContext { resolving with phase := .closing }, _, 0, _, rfl, by decide, rfl, rfl, by decide, rfl⟩,
    ⟨{ inRun with bi.silence := none }, rfl⟩⟩

/-- Classes at and below their bounds; a control frame and a data frame in the transmit path. -/
theorem test_offer_and_sent_clauses :
    State.reset.bi.node = 0 ∧ (∃ (f : OutFrame) (s : State), s.bi.node ≠ 0 ∧ f.dest = s.bi.node)
      ∧ (∀ n cls, (n, cls) ∈ [(31, FrameClass.context), (32, .context), (19, .general), (20, .general)] → ∃ (f : OutFrame) (s : State),
          s.bi.node ≠ 0 ∧ f.dest ≠ s.bi.node ∧ f.cls = cls ∧ s.bi.queue.length = n)
      ∧ (∀ control, ∃ (s : State) (x : Transmit), s.bi.tx = some x ∧ x.frame.owner = .nobody ∧ x.control = control ∧ s.bi.offers = []) := by
  refine ⟨by decide, ⟨refusalDone 3 0 .busy 0, inRun, by decide⟩, ?_,
    fun control => ⟨{ inRun with bi.tx := some ⟨refusalDone 5 0 .busy 0, [], control, 0⟩ }, _, rfl, rfl, rfl, rfl⟩⟩
  intro n cls _
  exact ⟨⟨5, .own, 0, [], cls, .nobody⟩, { inRun with bi.queue := List.replicate n (refusalDone 5 0 .busy 0) }, (by decide : (3 : Node) ≠ 0), (by decide : (5 : Node) ≠ 3),
    rfl, List.length_replicate⟩

/-! ### Forced boundaries, several lanes, activation, stages, reclaim and the walk of a fetch -/

/-- A ninth weld with boundaries pending, two of them at the greatest position, and with none pending. -/
theorem test_ninth_weld_clauses :
    (∃ s weld rest w, Fires 0 s ⟨true, false, false, false⟩ ∧ s.ca.welds = weld :: rest ∧ rest.length = 7 ∧ s.ca.boundaries.length < 4
        ∧ (∀ b ∈ s.ca.boundaries, runCoord s < b.w ∧ b.w ≤ w) ∧ (∃ b ∈ s.ca.boundaries, b.w = w))
      ∧ (∃ s weld rest f, Fires 0 s ⟨true, false, false, false⟩ ∧ s.ca.welds = weld :: rest ∧ rest.length = 7 ∧ s.ca.boundaries = []
        ∧ s.ca.exitCoil = none ∧ tableEntry s weld.starting = some f) := by
  refine ⟨⟨rising 0 { tracked with ca.welds := List.replicate 8 ⟨some 1, 2⟩, ca.boundaries := [⟨1001, 2, false⟩, ⟨1002, 2, false⟩, ⟨1002, 2, true⟩] },
      _, _, 1002, fires_of _ _ _ (by decide), rfl, rfl, by decide⟩,
    ⟨rising 0 { tracked with ca.welds := List.replicate 8 ⟨some 1, 2⟩, ca.exitCoil := none }, _, _, _, fires_of _ _ _ (by decide), rfl, rfl, rfl, rfl, rfl⟩⟩

/-- A cut and a break of one lane and of eight, two of them under one pending name. -/
theorem test_cut_of_several_lanes_clauses : ∀ n broken, n = 1 ∨ n = 8 → ∃ (k : Fin 12) (s : State) (coils : List OpenCoil),
    Fires k s ⟨false, false, !broken, broken⟩ ∧ s.ca.openCoils = coils ∧ coils ≠ [] ∧ coils.length = n ∧ (∀ o ∈ coils, o.c0 = 0)
      ∧ coils.map (fun o => o.lane) = (List.range coils.length).map (fun i => i + 1) ∧ 0 < runCoord s ∧ s.ca.closing = []
      ∧ writtenMark s < cellFrom (runCoord s) s.cx.pitch ∧ cellFrom 0 s.cx.pitch < cellFrom (runCoord s) s.cx.pitch
      ∧ (directoryNames s ++ heldNames s).length < 9000000 ∧ laneName s 1 = [0x41] ∧ laneName s 2 = [0x41] := by
  rintro n broken (rfl | rfl)
  · refine ⟨if broken then 3 else 2, rising (if broken then 3 else 2) { tracked with ca.names := (tracked.ca.names.set 0 [0x41]).set 1 [0x41] }, _, ?_, rfl, ?_⟩
    · cases broken <;> exact fires_of _ _ _ (by decide)
    · cases broken <;> decide
  · refine ⟨if broken then 3 else 2, rising (if broken then 3 else 2) { tracked with
        ca.names := (tracked.ca.names.set 0 [0x41]).set 1 [0x41]
        ca.laneCount := 8
        ca.openCoils := (List.range 8).map (fun i => ⟨i + 1, i + 1, 0, [⟨some 1, 0⟩], 0, .clear⟩) }, _, ?_, rfl, ?_⟩
    · cases broken <;> exact fires_of _ _ _ (by decide)
    · cases broken <;> decide

/-- A table of n USED segments from number 2 on, all with the cell range given. -/
def crowd (n : Nat) (cells : List CellRange) : List SegEntry := (List.range n).map (fun i => ⟨i + 2, .used, i + 1, 256, cells⟩)

/-- RUN with such a table behind the entries given. -/
def crowded (heads : List SegEntry) (n : Nat) (cells : List CellRange) (s : State) : State := { s with ar.segs := heads ++ crowd n cells }

theorem crowded_leaves (heads : List SegEntry) (n : Nat) (cells : List CellRange) (s : State) :
    freeCount (crowded heads n cells s) = 4094 - (heads.length + n) := by
  simp [freeCount, crowd, crowded]

/-- With cells at or above an open coil's start, no segment of the crowd is eligible. -/
theorem crowd_is_live (s : State) (heads : List SegEntry) (n c0 : Nat) (r : CellRange) (h : c0 ∈ liveStarts (crowded heads n [r] s))
    (above : 2 * c0 ≤ (2 * r.highest + 1) * r.pitch) : ∀ g ∈ crowd n [r], eligible (crowded heads n [r] s) g = false := by
  intro g hg
  obtain ⟨i, _, rfl⟩ := List.mem_map.mp hg
  have : holdsLiveCells (crowded heads n [r] s) ⟨i + 2, .used, i + 1, 256, [r]⟩ = true := by
    simp only [holdsLiveCells, List.any_cons, List.any_nil, Bool.or_false, List.any_eq_true, decide_eq_true_eq]
    exact ⟨c0, h, above⟩
  simp [eligible, this]

theorem crowd_is_used (n : Nat) (cells : List CellRange) : (crowd n cells).any (fun e => e.state == .chosen || e.state == .erasing) = false := by
  simp [crowd]

/-- Nothing is in hand and nothing eligible: no hope. -/
theorem crowd_has_no_hope (s : State) (n c0 : Nat) (r : CellRange) (h : c0 ∈ liveStarts (crowded [] n [r] s))
    (above : 2 * c0 ≤ (2 * r.highest + 1) * r.pitch) : reclaimHope (crowded [] n [r] s) = false := by
  have none : lowestEligible (crowded [] n [r] s) = none :=
    List.find?_eq_none.mpr fun g hg => by simp [crowd_is_live s [] n c0 r h above g ((mem_bySeq _ _).mp hg)]
  simp only [reclaimHope, none, Option.isSome_none, Bool.or_false]
  exact crowd_is_used n [r]

/-- One eligible segment before the crowd is the choice. -/
theorem crowd_leaves_the_choice (s : State) (g : SegEntry) (n c0 : Nat) (r : CellRange) (h : c0 ∈ liveStarts (crowded [g] n [r] s))
    (above : 2 * c0 ≤ (2 * r.highest + 1) * r.pitch) (this : eligible (crowded [g] n [r] s) g = true) :
    lowestEligible (crowded [g] n [r] s) = some g := by
  have found : ((bySeq (crowded [g] n [r] s).ar.segs).find? (eligible (crowded [g] n [r] s))).isSome = true :=
    List.find?_isSome.mpr ⟨g, (mem_bySeq _ _).mpr (List.mem_cons_self ..), this⟩
  obtain ⟨e, he⟩ := Option.isSome_iff_exists.mp found
  have mem := (mem_bySeq _ _).mp (List.mem_of_find?_eq_some he)
  have good := List.find?_some he
  rcases List.mem_cons.mp mem with rfl | mem
  · exact he
  · rw [crowd_is_live s [g] n c0 r h above e mem] at good; cases good

/-- The cells that keep a crowd from being eligible, and a segment about to be erased. -/
def liveCells : CellRange := ⟨10, 0, 5000⟩
def chosenSeg : SegEntry := ⟨4000, .chosen, 9, 256, []⟩

/-- Each row of the activation table, with an amended item of each kind in the write queue under a commit. -/
theorem test_activation_clauses :
    (∃ s, freeCount s = 2) ∧ (∃ s, freeCount s = 1 ∧ reclaimHope s = true) ∧ (∃ s, freeCount s = 1 ∧ reclaimHope s = false)
      ∧ (∃ s, freeCount s = 0 ∧ reclaimHope s = true ∧ s.ar.stage = .recordOnly) ∧ (∃ s, freeCount s = 0 ∧ s.ar.stage ≠ .recordOnly)
      ∧ (∃ s a r, freeCount s = 0 ∧ reclaimHope s = false ∧ s.ar.stage = .recordOnly ∧ s.ru.amend = .committing a ∧ a.seq = InputRecord.seq r
          ∧ a.kind = .input ∧ .amendedInput r ∈ s.ar.writeQueue)
      ∧ (∃ s a r old, freeCount s = 0 ∧ reclaimHope s = false ∧ s.ar.stage = .recordOnly ∧ s.ru.amend = .committing a
          ∧ a.seq = OutputRecord.seq r ∧ a.kind = .output ∧ .amendedOutput r old ∈ s.ar.writeQueue)
      ∧ activeSeg inConfig = none ∧ (activeSeg { inConfig with ar.segs := [⟨2, .active, 1, 0, []⟩] }).isSome = true := by
  refine ⟨⟨crowded [] 4092 [] inRun, crowded_leaves ..⟩,
    ⟨crowded [chosenSeg] 4092 [] inRun, crowded_leaves .., rfl⟩,
    ⟨crowded [] 4093 [liveCells] inRun, crowded_leaves .., crowd_has_no_hope _ _ 0 _ (by decide) (by decide)⟩,
    ⟨crowded [chosenSeg] 4093 [] { inRun with ar.stage := .recordOnly }, crowded_leaves .., rfl, rfl⟩,
    ⟨crowded [] 4094 [] inRun, crowded_leaves .., by decide⟩,
    ⟨crowded [] 4094 [liveCells] { inRun with
        ar.stage := .recordOnly, ar.writeQueue := [.amendedInput ⟨1, [0x49], 900, 0, 1000, false, false, false, 0⟩]
        ru.amend := .committing amendingInput },
      _, ⟨1, [0x49], 900, 0, 1000, false, false, false, 0⟩, crowded_leaves .., crowd_has_no_hope _ _ 0 _ (by decide) (by decide), rfl, rfl, rfl, rfl,
      List.mem_singleton_self _⟩,
    ⟨crowded [] 4094 [liveCells] { inRun with
        ar.stage := .recordOnly, ar.writeQueue := [.amendedOutput (coilRecord 0 1000) [0x41]], ru.amend := .committing amending },
      _, coilRecord 0 1000, [0x41], crowded_leaves .., crowd_has_no_hope _ _ 0 _ (by decide) (by decide), rfl, rfl, rfl, rfl,
      List.mem_singleton_self _⟩, by decide, by decide⟩

/-- FULL; a table with a gap, and the number put there and another one. -/
theorem test_table_clauses :
    (∃ s : State, s.ar.stage = .full) ∧ (crowd 2 [] ++ [chosenSeg]).Pairwise (fun a b => a.num < b.num)
      ∧ lowestFree 2 (crowd 2 [] ++ [chosenSeg]) = 4 ∧ (3 : Nat) < 4 ∧ (5 : Nat) ≠ chosenSeg.num :=
  ⟨⟨{ inRun with ar.stage := .full }, rfl⟩, by decide⟩

/-- A segment's last page in NORMAL and in RECORD-ONLY, with a record that needs a place and with none. -/
theorem test_last_page_clauses : ∀ stage items, stage = Stage.normal ∨ stage = .recordOnly →
    ∃ (s : State) (w : PageWrite) (g : SegEntry), s.ar.pageWrite = some w ∧ segEntry s w.seg = some g ∧ w.page = 255 ∧ s.ca.closing = []
      ∧ w.items = items ∧ s.ar.stage = stage :=
  fun stage items _ => ⟨{ stored with ar.pageWrite := some ⟨2, 255, items, 0, 0⟩, ar.stage := stage }, _, _, rfl, rfl, rfl, rfl, rfl, rfl⟩

/-- An erase that completes in each stage, with 1 segment and with 2 FREE after it, an activation waiting or not. -/
theorem test_stage_moves_clauses : ∀ stage waits n, n = 4093 ∨ n = 4092 → ∃ (s u : State) (e : Erase), s.ar.erase = some e ∧ e.phase = .running
    ∧ 2 ≤ e.seg ∧ s.ar.stage = stage ∧ s.ar.activationWaits = waits ∧ freeCount u = 4094 - n
    ∧ u = { s with
        now := max s.now (e.since + (400000 - e.total))
        flash := s.flash.eraseSeg e.seg
        ar.erase := none
        ar.segs := s.ar.segs.filter (fun g => g.num != e.seg) } := by
  intro stage waits n h
  refine ⟨crowded [⟨4099, .erasing, 0, 9, []⟩] n [] { stored with
      ar.erase := some ⟨4099, .running, 0, 1600000⟩, ar.stage := stage, ar.activationWaits := waits },
    _, ⟨4099, .running, 0, 1600000⟩, rfl, rfl, by decide, rfl, rfl, ?_, rfl⟩
  have others : (crowd n []).filter (fun g => g.num != 4099) = crowd n [] := List.filter_eq_self.mpr fun g hg => by
    obtain ⟨i, hi, rfl⟩ := List.mem_map.mp hg
    have := List.mem_range.mp hi
    simp only [bne_iff_ne, ne_eq]
    omega
  simp only [freeCount, crowded, List.cons_append, List.nil_append, List.filter_cons, bne_self_eq_false, Bool.false_eq_true, if_false, others]
  simp [crowd]

/-- A choice that is due, with and without entries that leave and with a waiting amendment read of the segment; and none due. -/
theorem test_reclaim_choice_clauses :
    (∀ outs, outs = [] ∨ outs = [outEntry] → ∃ (s : State) (g : SegEntry) (r : ReadRequest) (a : Amending), lowestEligible s = some g
        ∧ s.ar.outs = outs ∧ reclaimDemand s = true ∧ freeCount s = 3 ∧ reclaimInHand s = false ∧ r ∈ s.ar.readQueue ∧ r.reader = .amend
        ∧ r.seg = g.num ∧ s.ru.amend = .opened a ∧ g.num ∈ outEntry.segSet)
      ∧ reclaimDemand stored = false ∧ (∃ s, reclaimInHand s = true) ∧ lowestEligible inConfig = none := by
  refine ⟨fun outs h => ⟨crowded [⟨2, .used, 5000, 256, []⟩] 4090 [liveCells] { opened amending with ar.outs := outs, ar.readQueue := [⟨2, 0, .amend⟩] },
      ⟨2, .used, 5000, 256, []⟩, ⟨2, 0, .amend⟩, amending, ?_, rfl, ?_, crowded_leaves .., ?_, List.mem_singleton_self _, rfl, rfl, rfl, by decide⟩,
    by decide +kernel, ⟨crowded [chosenSeg] 0 [] inRun, rfl⟩, by decide⟩
  · refine crowd_leaves_the_choice _ _ _ 1000 _ (List.mem_cons_self ..) (by decide) ?_
    rcases h with rfl | rfl <;> rfl
  · simp only [reclaimDemand, crowded_leaves]; rfl
  · simp only [reclaimInHand, crowded, List.cons_append, List.nil_append, List.any_cons, crowd_is_used]; rfl

/-- A context whose fetch PULLS or SEEKS with its only segment still to come, at the depth given, the slots below 7 taken or not, and n
frames in the control queue. -/
def walking (phase : SlotPhase) (depth n : Nat) (crowdedSlots : Bool) : State :=
  let slots := if crowdedSlots then Vector.replicate 8 (some { slotIn (.draining none) none with context := none, tag := 0 }) else Vector.replicate 8 none
  let s := setCtx 0 (some { readingCells with phase := .segments, slot := some 7, tag := 0x0777, depth := depth })
    (setSlot 7 (some (slotIn phase (some 5))) { stored with pe.slots := slots })
  { s with bi.queue := List.replicate n (refusalDone 5 0 .busy 0) }

/-- The next segment DEPTH, and fetched; a slot below the freed one FREE, and none; the queue with a free place, and full. -/
theorem test_walk_clauses :
    ∀ n, n = 31 ∨ n = 32 → ∀ used, ∃ s x p y r g ends, s = walking (pulling false) 1 n used ∧ slotFor s 5 0x1234 = some 7 ∧ slotAt s 7 = some x
      ∧ x.phase = .pulling p ∧ x.context = some 0 ∧ ctxAt s 0 = some y ∧ y.record = some r ∧ y.grid = some g ∧ s.pe.waiting = []
      ∧ s.bi.looped = [] ∧ ends = segmentEnds s y.depth g r y.cursor
      ∧ ends = [] ++ .fetch ⟨[0x49], 900, ⟨0, 230400, 0, 1, 0, 230400⟩, false, false⟩ :: [] ∧ ([] : List Settled).all Settled.unfetched = true
      ∧ (segmentEnds (walking (pulling false) 0 n used) 0 g r y.cursor).all Settled.unfetched = true
      ∧ (slotAt s 0).isNone = !used ∧ s.bi.queue.length = n := by
  rintro n (rfl | rfl) (_ | _) <;>
    exact ⟨_, _, _, _, _, _, _, rfl, rfl, rfl, rfl, rfl, rfl, rfl, rfl, rfl, rfl, rfl, by decide, rfl, by decide, by decide, List.length_replicate⟩

/-- A locate that has failed, with context 1 waiting for a slot. -/
def waitingBehind (depth n : Nat) : State :=
  setCtx 1 (some { resolving with phase := .segments, tag := 0x0778, fetch := some ⟨[0x4A], 900, ⟨0, 256, 0, 1, 0, 256⟩, false, false⟩ })
    { walking (.seeking (some ⟨some 0, []⟩)) depth n true with pe.waiting := [1] }

/-- A failed locate with another context waiting, the own next segment DEPTH and fetched. -/
theorem test_waiting_context_clauses :
    ∀ depth n, depth = 0 ∨ depth = 1 → n = 31 ∨ n = 32 → ∃ s x l y w r g next ends st, s.bi.queue.length = n ∧ slotAt s 7 = some x ∧ x.phase = .seeking (some l)
      ∧ l.began = some 0 ∧ x.context = some 0 ∧ ctxAt s 0 = some y ∧ l.outcome = .failed st ∧ y.grid = some g ∧ y.record = some r
      ∧ s.pe.waiting = 1 :: [] ∧ ctxAt s 1 = some w ∧ w.fetch = some next ∧ s.bi.looped = [] ∧ s.bi.node ≠ 0
      ∧ ends = segmentEnds s y.depth g r y.cursor ∧ (∀ m, slotAt s m ≠ none)
      ∧ (depth = 0 → ends.all Settled.unfetched = true) ∧ (depth = 1 → ends = [] ++ .fetch ⟨[0x49], 900, ⟨0, 230400, 0, 1, 0, 230400⟩, false, false⟩ :: []) := by
  intro depth n hd hn
  refine ⟨waitingBehind depth n, _, _, _, _, _, _, _, _, _, List.length_replicate, rfl, rfl, rfl, rfl, rfl, rfl, rfl, rfl, rfl, rfl, rfl, rfl,
    (by decide : (3 : Node) ≠ 0), rfl, ?_⟩
  rcases hd with rfl | rfl <;> rcases hn with rfl | rfl <;> decide

/-- The rows of R145: an empty clip and one of a fine unit, no reference, PENDING in the table and in the write queue, EXPIRED, an absent
ID, a mapped clip that rounds to nothing, and one that does not. -/
theorem test_settle_clauses :
    (∃ (g : Grid) (t0 t1 : Int), min g.u1 (256 * t1) = max g.u0 (256 * t0))
      ∧ (∃ (g : Grid) (t0 t1 : Int), min g.u1 (256 * t1) = max g.u0 (256 * t0) + 1)
      ∧ (⟨none, 0, 1000⟩ : ParentSegment).ref = none
      ∧ (∃ s, isPending s 1 = true ∧ ∃ e ∈ s.ca.table, e.seq = 1) ∧ (∃ s, isPending s 1 = true ∧ ∃ i, .input i ∈ awaiting s ∧ i.seq = 1)
      ∧ isPending stored 2 = false ∧ inBySeq stored 2 = none ∧ isPending stored 1 = false ∧ inBySeq stored 1 = some inEntry ∧ inEntry.id ≠ []
      ∧ (∃ s e, isPending s 1 = false ∧ inBySeq s 1 = some e ∧ e.id = [])
      ∧ (∃ s e q, isPending s 1 = false ∧ inBySeq s 1 = some e ∧ e.id ≠ []
          ∧ q = (HopData.mk 0 0 1000 e.w0 e.w1 e.lin).hop ⟨0, 256, 0, 1, 0, 256⟩ ∧ q.u1 = q.u0)
      ∧ (∃ q, q = (HopData.mk 0 0 1000 inEntry.w0 inEntry.w1 inEntry.lin).hop ⟨0, 256, 0, 1, 0, 1⟩ ∧ q.u1 = q.u0 + 1) := by
  refine ⟨⟨⟨0, 256, 0, 1, 0, 256⟩, 1, 2, by decide⟩, ⟨⟨0, 256, 0, 1, 0, 257⟩, 1, 2, by decide⟩, rfl, ⟨tracked, by decide⟩,
    ⟨{ stored with ar.writeQueue := [.input ⟨1, [0x49], 900, 0, 1000, false, false, false, 0⟩] }, by decide,
      ⟨1, [0x49], 900, 0, 1000, false, false, false, 0⟩, by decide, rfl⟩,
    by decide, by decide, by decide, by decide, by decide,
    ⟨{ stored with ar.ins := [{ inEntry with id := [] }] }, { inEntry with id := [] }, by decide⟩,
    ⟨{ stored with ar.ins := [{ inEntry with lin := 1 }] }, { inEntry with lin := 1 }, _, by decide, by decide, by decide, rfl, by decide⟩,
    ⟨_, rfl, by decide⟩⟩

/-- The reports of each kind to a slot and to a task in the phase that takes them, and to a block with another tag or none. -/
theorem test_report_clauses :
    (∀ kind phase, (kind, phase) ∈ [(FrameKind.seek, SlotPhase.seeking (some ⟨none, []⟩)), (.pull, .seeking none), (.stop, .draining none),
        (.go, .pulling ⟨0, 0, burstSeed, .releasing, none, false⟩), (.wait, .seeking none)] →
        ∃ (f : OutFrame) (s : State) (x : FetchSlot), f.owner = .slot 7 ∧ slotAt s 7 = some x ∧ x.tag = f.tag ∧ f.kind = kind ∧ x.phase = phase)
      ∧ (∀ kind phase, (kind, phase) ∈ [(FrameKind.seek, TaskPhase.locating ⟨none, []⟩), (.keep, .awaiting 5 none), (.unkeep, .awaiting 5 none)] →
        ∃ (f : OutFrame) (s : State) (h : TaskHead), f.owner = .task ∧ s.ru.head = some h ∧ h.tag = f.tag ∧ f.kind = kind ∧ h.phase = phase)
      ∧ (∃ (f : OutFrame), f.owner = .slot 7 ∧ slotAt stored 7 = none ∧ (slotIn (.seeking none) none).tag ≠ f.tag)
      ∧ (∃ f : OutFrame, f.owner = .context 5 ∧ f.kind = .done) ∧ (∃ f : OutFrame, f.owner = .nobody) :=
  ⟨fun kind phase _ => ⟨⟨5, kind, 0x1234, [], .context, .slot 7⟩, fetching phase none, _, rfl, rfl, rfl, rfl, rfl⟩,
    fun kind phase _ => ⟨⟨5, kind, 0x1234, [], .general, .task⟩, headTask .keep phase, _, rfl, rfl, rfl, rfl, rfl⟩,
    ⟨⟨5, .seek, 0, [], .context, .slot 7⟩, rfl, by decide, by decide⟩, ⟨⟨5, .done, 0, [], .context, .context 5⟩, rfl, rfl⟩,
    ⟨refusalDone 5 0 .busy 0, rfl⟩⟩

/-- A place freed with 20 and with 32 frames queued: an offer of the general class behind no other, and a WAIT owed behind one that
its class turns away; no offer that enters; and a data frame. -/
theorem test_admission_clauses :
    (∃ (s : State) (x : Transmit) (f : OutFrame), s.bi.tx = some x ∧ x.control = true ∧ s.bi.offers = [] ++ f :: [] ∧ s.bi.queue.length = 20
        ∧ enters f (s.bi.queue.length - 1) = true ∧ f.kind ≠ .wait)
      ∧ (∃ (s : State) (x : Transmit) (g f : OutFrame) (y : FetchSlot) (p : Pulling), s.bi.tx = some x ∧ x.control = true
        ∧ s.bi.offers = [g] ++ f :: [] ∧ s.bi.queue.length = 32 ∧ enters g (s.bi.queue.length - 1) = false
        ∧ enters f (s.bi.queue.length - 1) = true ∧ f.kind = .wait ∧ f.owner = .slot 7 ∧ slotAt s 7 = some y ∧ y.phase = .pulling p
        ∧ p.flow = .waitOwed ∧ x.frame.owner = .nobody)
      ∧ (∃ (s : State) (x : Transmit) (g : OutFrame), s.bi.tx = some x ∧ x.control = true ∧ s.bi.offers = [g] ∧ s.bi.queue.length = 21
        ∧ enters g (s.bi.queue.length - 1) = false)
      ∧ (∃ (s : State) (x : Transmit), s.bi.tx = some x ∧ x.control = false) := by
  refine ⟨⟨{ flowing .running 0 20 with bi.tx := some ⟨refusalDone 5 0 .busy 0, [], true, 0⟩, bi.offers := [⟨5, .seek, 0, [], .general, .task⟩] },
      _, _, rfl, rfl, rfl, rfl, by decide, by decide⟩,
    ⟨{ flowing .waitOwed 0 32 with
        bi.tx := some ⟨refusalDone 5 0 .busy 0, [], true, 0⟩
        bi.offers := [⟨5, .seek, 0, [], .general, .task⟩, ⟨5, .wait, 0, [], .context, .slot 7⟩] },
      _, _, _, _, _, rfl, rfl, rfl, rfl, by decide, by decide, rfl, rfl, rfl, rfl, rfl, rfl⟩,
    ⟨{ flowing .running 0 21 with bi.tx := some ⟨refusalDone 5 0 .busy 0, [], true, 0⟩, bi.offers := [⟨5, .seek, 0, [], .general, .task⟩] },
      _, _, rfl, rfl, rfl, rfl, by decide⟩,
    ⟨{ inRun with bi.tx := some ⟨refusalDone 5 0 .busy 0, [], false, 0⟩ }, _, rfl, rfl⟩⟩

/-- One pair and one more, and fifteen and one more, with and without a delay. -/
theorem test_several_pairs_clauses : ∀ n d, n = 1 ∨ n = 15 → d = 0 ∨ d = 2 → ∃ (first last delay : List Byte) (s : State),
    s.pp.station = .run ∧ 1 ≤ n ∧ n ≤ 15 ∧ first.length = 3 * n ∧ last.length = 3 ∧ delay.length = d := by
  intro n d hn _
  exact ⟨List.replicate (3 * n) 0, [0, 0, 7], List.replicate d 0, inRun, rfl, by omega, by omega, List.length_replicate, rfl, List.length_replicate⟩

/-- RESTART with an ACTIVE segment, no reclaim demanded, and a KEEP task whose source is held. -/
theorem test_restart_clauses :
    ∃ s : State, s.pp.station = .run ∧ s.ca.outSeq ≤ 2 ^ 32 - 1 ∧ (activeSeg s).isSome = true ∧ reclaimDemand s = false
      ∧ (∃ k ∈ s.ru.keeps, isTaskSource s k = true ∧ k.keptPartial = false) ∧ ∃ k ∈ s.ru.keeps, isTaskSource s k = false :=
  ⟨{ headTask .keep (.locating ⟨none, []⟩) with ru.keeps := [⟨[0x42], 4, 9, false⟩, ⟨[0x42], 4, 8, false⟩] }, by decide +kernel⟩

/-- A page before the last one with the item given, nothing else to settle. -/
def filing (items : List PageItem) (a : AmendState) : State :=
  { stored with ar.pageWrite := some ⟨2, 254, items, 0, 0⟩, ru.freezes := [1], ru.amend := a }

theorem filing_is_unhurried (items : List PageItem) (a : AmendState) : Unhurried (filing items a) :=
  ⟨rfl, rfl, rfl, (by decide : 5 ≤ freeCount stored), (by decide : (1 : Nat) + 1 < 16000)⟩

/-- Cells of a pitch held and of another; a new input record, a freeze mark; amended records whose entries are there and gone, their
commits in progress, and another amendment. -/
theorem test_filing_clauses :
    (∀ items a, ∃ w g, (filing items a).ar.pageWrite = some w ∧ segEntry (filing items a) w.seg = some g ∧ w.page = 254 ∧ w.items = items)
      ∧ needsPlace (filing [.item (.input ⟨2, [0x49], 900, 0, 1000, false, false, false, 0⟩)] .closed)
          (.input ⟨2, [0x49], 900, 0, 1000, false, false, false, 0⟩) = true
      ∧ (∃ e ∈ stored.ar.outs, some 1 ∈ e.refs ∧ e.seq = 1) ∧ (∃ r ∈ [(⟨10, 0, 1⟩ : CellRange)], r.pitch ≠ 25)
      ∧ stored.ar.outs.any (isAmended (coilRecord 0 1000) [0x41]) = true ∧ stored.ar.outs.any (isAmended (coilRecord 0 1000) [0x40]) = false
      ∧ (inBySeq stored 1).isSome = true ∧ (inBySeq stored 2).isSome = false
      ∧ amending.kind = .output ∧ amending.seq = (coilRecord 0 1000).seq ∧ amendingInput.kind = .input ∧ amendingInput.seq = 1 :=
  ⟨fun _ _ => ⟨_, _, rfl, rfl, rfl, rfl⟩, by decide⟩

/-- The page that ends the reading with room for all the own records left, and with room for all but one. -/
theorem test_last_cell_page_clauses : ∀ n, n = 61 ∨ n = 62 → ∃ (x : PullContext) (own : List RecordBytes),
    own = (ownRecords stored { x with accums := [[.zero]], cellsRead := true }).drop x.placed ∧ x.phase = .localRecords
      ∧ x.relay.length = n ∧ own.length = 3 ∧ nextCellPage (withContext x) x outEntry (coilRecord 0 1000) = none := by
  rintro n (rfl | rfl) <;>
    exact ⟨{ readingCells with relay := List.replicate _ [] }, _, rfl, rfl, List.length_replicate, by decide +kernel, by decide⟩

/-- No CURRENT keep segment: both SPARE, only the second, and neither. -/
theorem test_first_image_clauses : ∀ p : KeepSegState × KeepSegState, p ∈ [(.spare, .spare), (.stale, .spare), (.stale, .erasing)] →
    ∃ s : State, interfaceFree s = true ∧ s.ar.keepReady = true ∧ (∀ k : Fin 2, (s.ar.keepSegs.get k).state ≠ .current)
      ∧ (s.ar.keepSegs.get 0).state = p.1 ∧ (s.ar.keepSegs.get 1).state = p.2 := by
  intro p h
  refine ⟨keepSegsAre ⟨p.1, 0⟩ ⟨p.2, 0⟩, ?_⟩
  simp only [List.mem_cons, List.not_mem_nil, or_false] at h
  rcases h with rfl | rfl | rfl <;> decide

/-- A stopped context with its fetch PULLING and SEEKING, a queue of 30, 31 and 32 frames, and another context waiting or none. -/
theorem test_stopped_fetch_clauses : ∀ n, n = 30 ∨ n = 31 ∨ n = 32 →
    (∃ s x y p, s.bi.queue.length = n ∧ ctxFor s 5 0x0777 = some 0 ∧ ctxAt s 0 = some x ∧ x.slot = some 7 ∧ slotAt s 7 = some y
        ∧ y.phase = .pulling p ∧ s.bi.node ≠ 0 ∧ y.owner.getD 0 ≠ s.bi.node ∧ x.requester ≠ s.bi.node)
      ∧ (∃ s x y l, s.bi.queue.length = n ∧ ctxFor s 5 0x0777 = some 0 ∧ ctxAt s 0 = some x ∧ x.slot = some 7 ∧ slotAt s 7 = some y
        ∧ y.phase = .seeking l ∧ s.bi.node ≠ 0 ∧ x.requester ≠ s.bi.node ∧ s.pe.waiting.filter (fun d => d != 0) = [])
      ∧ ∃ s x y l w next, s.bi.queue.length = n ∧ ctxFor s 5 0x0777 = some 0 ∧ ctxAt s 0 = some x ∧ x.slot = some 7 ∧ slotAt s 7 = some y
        ∧ y.phase = .seeking l ∧ s.bi.node ≠ 0 ∧ x.requester ≠ s.bi.node ∧ s.pe.waiting.filter (fun d => d != 0) = 1 :: []
        ∧ ctxAt s 1 = some w ∧ w.fetch = some next := by
  rintro n (rfl | rfl | rfl) <;>
    exact ⟨⟨walking (pulling false) 1 _ true, _, _, _, List.length_replicate, rfl, rfl, rfl, rfl, rfl, (by decide : (3 : Node) ≠ 0),
        (by decide : (5 : Node) ≠ 3), (by decide : (5 : Node) ≠ 3)⟩,
      ⟨walking (.seeking none) 1 _ true, _, _, _, List.length_replicate, rfl, rfl, rfl, rfl, rfl, (by decide : (3 : Node) ≠ 0),
        (by decide : (5 : Node) ≠ 3), rfl⟩,
      ⟨waitingBehind 1 _, _, _, _, _, _, List.length_replicate, rfl, rfl, rfl, rfl, rfl, (by decide : (3 : Node) ≠ 0),
        (by decide : (5 : Node) ≠ 3), rfl, rfl, rfl⟩⟩

/-- UNKEEP of a stored coil with a parent, no task held, one, 15 and 16, the head worked or not. -/
theorem test_unkeep_propagates_clauses : ∀ n head, n = 0 ∨ n = 1 ∨ n = 15 ∨ n = 16 → ∃ (s : State) (e : OutEntry), s.ru.tasks.length = n
    ∧ s.ru.head = head ∧ s.pp.station = .run ∧ outById s [0x41] = some e ∧ hasKeep s [0x41] 4 9 = true ∧ reclaimDemand s = false
    ∧ senderOf (heardFrame .unkeep (keepFields [0x41])) ≠ s.bi.node ∧ s.bi.looped = [] ∧ parentIds s e = [[0x49]] := by
  intro n head _
  exact ⟨{ stored with
      ru.tasks := List.replicate n ⟨[0x43], 4, 9, .unkeep, [0x42]⟩, ru.keeps := [⟨[0x41], 4, 9, false⟩], ru.head := head },
    outEntry, List.length_replicate, rfl, rfl, rfl, rfl, (by decide +kernel : reclaimDemand stored = false),
    (by decide : senderOf (heardFrame .unkeep (keepFields [0x41])) ≠ (3 : Node)), rfl, rfl⟩

/-- Of segments that share the highest sequence one alone becomes ACTIVE (R64, log entry 54). -/
theorem test_one_segment_is_activated :
    (activateHighest [⟨2, .used, 5, 256, []⟩, ⟨3, .used, 5, 9, []⟩, ⟨4, .used, 5, 9, []⟩]).map (fun g => g.state) = [.used, .active, .used] := by
  decide

/-! ### The spec's worked examples -/

theorem test_run_coordinate_example :
    [0, 12, 13, 25, 10000].map (runCoordOf { inRun.tiu with exitWeight := 1250, runOrigin := 8406300 })
      = [8406300, 8406300, 8406301, 8406302, 8407100] := by decide

theorem test_entry_length_example :
    entryLength { inRun.tiu with entryWeight := 3200, entryCount := 3820800 } = (119400, false)
      ∧ entryLength { inRun.tiu with entryWeight := 100, entryCount := 4000001 } = (4000000, true) := by decide

theorem test_owning_cells_example :
    [5000, 5001, 5004].map (ownsCell 1000130 1000950 200) = [false, true, true] ∧ ownsCell 1000130 1000900 200 5004 = false
      ∧ cellCentre 1000130 1000950 200 5004 = 256 * 745 ∧ cellCentre 5060000 5160500 100 51604 = 256 * 100450 := by decide +kernel

theorem test_origin_grid_example :
    normalise 0 1200 3 1000 = some (1000, 3, true) ∧ originGrid 0 1000 3 = ⟨0, 85333, 0, 3, 0, 256000⟩
      ∧ (originGrid 0 1000 3).binOf 255999 = 2 ∧ normalise 250 253 8 1000 = some (253, 3, false) ∧ (originGrid 250 253 3).s = 256 := by
  decide +kernel

/-- The hop grids of worked case 1: inside station 12, and across to station 5. -/
theorem test_hop_example :
    (HopData.mk 0 0 120000 0 120000 119400).hop (originGrid 0 120000 4) = ⟨0, 7641600, 0, 4, 0, 30566400⟩
      ∧ ownerGrid ⟨0, 7641600, 0, 4, 0, 30566400⟩ 119400 119250 = ⟨30528000, -7632000, 0, 4, 0, 30528000⟩
      ∧ [73104, 73402, 73403, 73999, 74296].map (fun c =>
          (⟨30528000, -7632000, 0, 4, 0, 30528000⟩ : Grid).binOf (cellCentre 7310450 7429700 100 c)) = [3, 3, 2, 0, 0] := by decide +kernel

/-- Worked case 2: two parents share bin 1. -/
theorem test_straddled_bin_example :
    (HopData.mk 50000 0 45000 35000 95000 59700).hop (originGrid 0 120000 4) = ⟨3820800, 7641600, 0, 2, 3820800, 15283200⟩
      ∧ (HopData.mk 50000 45000 120000 95000 175000 79600).hop (originGrid 0 120000 4) = ⟨-11462400, 7641600, 1, 3, 0, 19104000⟩ := by
  decide +kernel

theorem test_station_name_example : stationName 7 413 = [0x53, 0x30, 0x37, 0x2D, 0x30, 0x30, 0x30, 0x30, 0x34, 0x31, 0x33] := by decide

end Sys2Proof.Tests
end

section
/-! PROOF. The encoder pulses (R9): which pulses the two commands ignore, what a counted one adds, and that an advance of the track leaves
the tracking input unit as it is. -/

namespace Sys2Proof.Machine

theorem exec_exitPulse (forward : Bool) (s : State) : exec (.exitPulse forward) s = execExitPulse forward s := rfl

theorem exec_entryPulse (forward : Bool) (s : State) : exec (.entryPulse forward) s = execEntryPulse forward s := rfl

/-- The guard of both pulse commands. -/
theorem pulseCounted_iff (forward : Bool) (s : State) :
    (forward && s.pp.station == .run) = true ↔ forward = true ∧ s.pp.station = .run := by
  rw [Bool.and_eq_true, beq_iff_eq]

/-! ### Ignored pulses -/

theorem exec_exitPulse_ignored {forward : Bool} {s : State} (h : ¬(forward = true ∧ s.pp.station = .run)) :
    exec (.exitPulse forward) s = .next s := by
  rw [exec_exitPulse, execExitPulse, if_neg (mt (pulseCounted_iff forward s).1 h)]

theorem exec_entryPulse_ignored {forward : Bool} {s : State} (h : ¬(forward = true ∧ s.pp.station = .run)) :
    exec (.entryPulse forward) s = .next s := by
  rw [exec_entryPulse, execEntryPulse, if_neg (mt (pulseCounted_iff forward s).1 h)]

/-! ### Counted pulses -/

theorem exec_exitPulse_counted {s : State} (h : s.pp.station = .run) :
    exec (.exitPulse true) s =
      .next (if runCoord s < runCoord (countExitPulse s) then advanceTrack (runCoord (countExitPulse s)) (countExitPulse s)
        else countExitPulse s) := by
  rw [exec_exitPulse, execExitPulse, if_pos ((pulseCounted_iff true s).2 ⟨rfl, h⟩)]

theorem exec_entryPulse_counted {s : State} (h : s.pp.station = .run) :
    exec (.entryPulse true) s = .next { s with tiu.entryCount := min (2 ^ 32 - 1) (s.tiu.entryCount + 1) } := by
  rw [exec_entryPulse, execEntryPulse, if_pos ((pulseCounted_iff true s).2 ⟨rfl, h⟩)]

theorem countExitPulse_of_ne {s : State} (h : s.tiu.exitTotal ≠ BitVec.allOnes 48) :
    countExitPulse s = { s with tiu.exitTotal := s.tiu.exitTotal + 1 } := if_neg h

/-- The coil assembler, the cell accumulator and the archive take an advance without touching the tracking input unit (R12). -/
@[simp] theorem advanceTrack_tiu (r : Nat) (s : State) : (advanceTrack r s).tiu = s.tiu :=
  calc (advanceTrack r s).tiu
    _ = (advanceCells r (advanceCoils r s)).tiu := (settleArchive_move _).tiu
    _ = (advanceCoils r s).tiu := (advanceCells_line r _).tiu
    _ = s.tiu := (advanceCoils_line r s).tiu

/-- A counted exit pulse leaves the tracking input unit as counting alone leaves it, whether or not the run coordinate rises. -/
theorem exec_exitPulse_counted_tiu {s : State} (h : s.pp.station = .run) :
    ∃ t, exec (.exitPulse true) s = .next t ∧ t.tiu = (countExitPulse s).tiu := by
  refine ⟨_, exec_exitPulse_counted h, ?_⟩
  split
  · exact advanceTrack_tiu _ _
  · rfl

/-- Settles O15: outside RUN and in reverse the guard fails; in RUN each count is read off below its own limit. -/
theorem pulsesCountForwardInRunAlone : Obligations.PulsesCountForwardInRunAlone := by
  unfold Obligations.PulsesCountForwardInRunAlone
  intro s
  refine ⟨fun forward outside => ?_, ?_, ?_, fun run below => ?_, fun run below => ?_⟩
  · have ignored : ¬(forward = true ∧ s.pp.station = .run) := fun counted => outside counted.2
    exact ⟨exec_exitPulse_ignored ignored, exec_entryPulse_ignored ignored⟩
  · exact exec_exitPulse_ignored (fun counted => Bool.false_ne_true counted.1)
  · exact exec_entryPulse_ignored (fun counted => Bool.false_ne_true counted.1)
  · obtain ⟨t, ht, htiu⟩ := exec_exitPulse_counted_tiu run
    rw [countExitPulse_of_ne below] at htiu
    exact ⟨t, ht, htiu⟩
  · have unclipped : min (2 ^ 32 - 1) (s.tiu.entryCount + 1) = s.tiu.entryCount + 1 := min_eq_right below
    rw [exec_entryPulse_counted run, unclipped]

end Sys2Proof.Machine
end

section
/-! PROOF. The attention flags and enables (R206 to R209): the words that hold one bit for each flag, the attention line read off them,
what the three commands on them do, and what a restart, a reset and the scan's end leave of them. -/

namespace Sys2Proof.Machine

theorem exec_setEnables (fields : List Byte) (s : State) : exec (.setEnables fields) s = execSetEnables fields s := rfl

theorem exec_restart (fields : List Byte) (s : State) : exec (.restart fields) s = execRestart fields s := rfl

theorem exec_scanEnd (s : State) : exec .scanEnd s = execScanEnd s := rfl

/-! ### One bit for each flag (R219) -/

theorem Attention.bit_lt (a : Attention) : a.bit < 10 := by cases a <;> decide

/-- The flag of a bit, which makes the ten bits and the ten flags one to one. -/
def Attention.ofBit : Nat → Attention
  | 0 => .ready
  | 1 => .coilClosed
  | 2 => .trackingFault
  | 3 => .lateSample
  | 4 => .archiveLow
  | 5 => .archiveFull
  | 6 => .amendDone
  | 7 => .amendLock
  | 8 => .busFault
  | _ => .inputClosed

theorem Attention.ofBit_bit (a : Attention) : ofBit a.bit = a := by cases a <;> rfl

theorem Attention.bit_ofBit {k : Nat} (h : k < 10) : (ofBit k).bit = k := by
  revert k
  decide

theorem Attention.bit_inj {a b : Attention} : a.bit = b.bit ↔ a = b :=
  (Function.LeftInverse.injective ofBit_bit).eq_iff

/-- A flag's word has that flag's bit alone. -/
theorem Attention.getLsbD_word (a b : Attention) : a.word.getLsbD b.bit = true ↔ b = a := by
  rw [word, BitVec.getLsbD_ofNat, decide_eq_true b.bit_lt, Bool.true_and, Nat.testBit_two_pow, decide_eq_true_eq, bit_inj, eq_comm]

/-- The line follows the flags and enables bit by bit (R207). -/
theorem attentionLine_iff (s : State) :
    attentionLine s = true ↔ ∃ a : Attention, flagSet a s = true ∧ s.pp.enables.getLsbD a.bit = true := by
  rw [attentionLine, bne_iff_ne]
  constructor
  · intro nonzero
    by_contra noneAsserts
    refine nonzero (BitVec.eq_of_getLsbD_eq fun k hk => ?_)
    have released : ¬(s.pp.flags.getLsbD k = true ∧ s.pp.enables.getLsbD k = true) := fun both =>
      noneAsserts ⟨.ofBit k, by rwa [flagSet, Attention.bit_ofBit hk]⟩
    simpa using released
  · rintro ⟨a, flag, enable⟩ zero
    have bit := congrArg (·.getLsbD a.bit) zero
    rw [flagSet] at flag
    simp [flag, enable] at bit

theorem attentionLine_of_flagSet {a : Attention} {s : State} (flag : flagSet a s = true)
    (enable : s.pp.enables.getLsbD a.bit = true) : attentionLine s = true :=
  (attentionLine_iff s).2 ⟨a, flag, enable⟩

/-! ### A word in two bytes -/

/-- Two bytes, most significant first, spell the word that they were made from. -/
theorem beNat_beBytes_two {v : Nat} (h : v < 65536) : beNat (beBytes 2 v) = v := by
  simp only [beNat, beBytes, List.nil_append, List.cons_append, List.foldl_cons, List.foldl_nil, BitVec.toNat_ofNat]
  omega

/-- The flags stand in bytes 1 and 2 of a response that carries the flags and enables. -/
theorem natAt_eventWords (s : State) : natAt (0x00 :: eventWords s) 1 2 = s.pp.flags.toNat :=
  beNat_beBytes_two (lt_trans s.pp.flags.isLt (by decide))

theorem natAt_two_bytes (hi lo : Byte) : natAt [hi, lo] 0 2 = hi.toNat * 256 + lo.toNat := by
  show (0 * 256 + hi.toNat) * 256 + lo.toNat = _
  rw [Nat.zero_mul, Nat.zero_add]

/-! ### READ_EVENTS and PEEK_EVENTS (R208, R209) -/

/-- The flags that R84 sets while their conditions hold. -/
def conditionFlags (s : State) : BitVec 10 :=
  (if archiveLowHolds s then Attention.archiveLow.word else 0) ||| (if archiveFullHolds s then Attention.archiveFull.word else 0)

theorem raise_if (holds : Bool) (a : Attention) (s : State) :
    (if holds then raise a s else s) = { s with pp.flags := s.pp.flags ||| (if holds then a.word else 0) } := by
  cases holds
  · simp
  · rfl

theorem archiveFullHolds_withFlags (flags : BitVec 10) (s : State) :
    archiveFullHolds { s with pp.flags := flags } = archiveFullHolds s := rfl

theorem raiseConditions_eq (s : State) : raiseConditions s = { s with pp.flags := s.pp.flags ||| conditionFlags s } := by
  simp only [raiseConditions, raise_if, archiveFullHolds_withFlags, conditionFlags, BitVec.or_assoc]

theorem getLsbD_conditionFlags (a : Attention) (s : State) : (conditionFlags s).getLsbD a.bit = true ↔
    (a = .archiveLow ∧ archiveLowHolds s = true) ∨ (a = .archiveFull ∧ archiveFullHolds s = true) := by
  have one (b : Attention) (holds : Bool) :
      (if holds then b.word else 0).getLsbD a.bit = true ↔ a = b ∧ holds = true := by
    cases holds
    · simp
    · simp [Attention.getLsbD_word]
  rw [conditionFlags, BitVec.getLsbD_or, Bool.or_eq_true, one, one]

/-- The state that READ_EVENTS leaves. -/
def eventsRead (s : State) : State :=
  { withResponse 0x01 [] (0x00 :: eventWords s) s with pp.flags := conditionFlags s }

theorem exec_readEvents (s : State) : exec (.readEvents []) s = .next (eventsRead s) := by
  calc exec (.readEvents []) s
    _ = .next (raiseConditions { withResponse 0x01 [] (0x00 :: eventWords s) s with pp.flags := 0 }) := rfl
    _ = .next { withResponse 0x01 [] (0x00 :: eventWords s) s with pp.flags := 0#10 ||| conditionFlags s } := by
      rw [raiseConditions_eq]; rfl
    _ = .next (eventsRead s) := by rw [BitVec.zero_or]; rfl

theorem flagSet_eventsRead (a : Attention) (s : State) : flagSet a (eventsRead s) = true ↔
    (a = .archiveLow ∧ archiveLowHolds s = true) ∨ (a = .archiveFull ∧ archiveFullHolds s = true) :=
  getLsbD_conditionFlags a s

/-- A flag raised before the read does not outlast it: the conditions do not look at the flags. -/
theorem eventsRead_raise_flags (a : Attention) (s : State) : (eventsRead (raise a s)).pp.flags = (eventsRead s).pp.flags := rfl

theorem exec_peekEvents (s : State) : exec (.peekEvents []) s = .next (withResponse 0x02 [] (0x00 :: eventWords s) s) := rfl

/-- Settles O23: READ_EVENTS leaves the flags of R84's conditions alone, and PEEK_EVENTS writes nothing but its response. -/
theorem eventsAreReadAndCleared : Obligations.EventsAreReadAndCleared := by
  unfold Obligations.EventsAreReadAndCleared
  refine ⟨fun s => ?_, fun s => ⟨exec_peekEvents s, fun a u peeked => ?_⟩⟩
  · refine ⟨eventsRead s, exec_readEvents s, rfl, fun a => flagSet_eventsRead a s, fun a => flagSet_raise_same a _, fun a => ?_⟩
    exact ⟨eventsRead (raise a s), exec_readEvents _, eventsRead_raise_flags a s, rfl⟩
  · rw [exec_peekEvents] at peeked
    cases peeked
    refine ⟨rfl, eventsRead _, _, exec_readEvents _, rfl, ?_⟩
    rw [natAt_eventWords]
    exact flagSet_raise_same a _

/-! ### SET_ENABLES, RESTART and the scan's end (R207) -/

theorem exec_setEnables_two_bytes (hi lo : Byte) (s : State) :
    exec (.setEnables [hi, lo]) s
      = .next (withResponse 0x03 [hi, lo] [0x00] { s with pp.enables := BitVec.ofNat 10 (hi.toNat * 256 + lo.toNat) }) := by
  rw [exec_setEnables, ← natAt_two_bytes]
  rfl

theorem beginTracking_enables (n d : Nat) (s : State) : (beginTracking n d s).pp.enables = s.pp.enables :=
  (openCoilsAt_line _ _).enables

/-- RESTART's blocks take their start without touching the enables. -/
theorem restartStation_enables (s : State) : (restartStation s).pp.enables = s.pp.enables := by
  simp only [restartStation, raise_pp_enables]
  rw [(reclaim_line _).enables, (activateIfNone_line _).enables, (dropTasks_move _).enables, beginTracking_enables]
  rfl

theorem exec_restart_enables {fields : List Byte} {s t : State} (h : exec (.restart fields) s = .next t) :
    t.pp.enables = s.pp.enables := by
  rw [exec_restart, execRestart] at h
  cases h
  split
  · exact refuse_pp_enables ..
  · split
    · exact refuse_pp_enables ..
    · rw [accept_pp_enables, (settle_move _).enables, restartStation_enables]

@[simp] theorem buildTables_pp (view : List (Nat × Page)) (s : State) : (buildTables view s).pp = s.pp := by
  simp only [buildTables, refreshSets_pp]

/-- The scan's end raises READY and settles (R89); what it sets up before that leaves the enables. -/
theorem exec_scanEnd_settles {s : State} (scanning : s.ar.scan.isSome = true) :
    ∃ u, exec .scanEnd s = .next (settle (raise .ready u)) ∧ u.pp.enables = s.pp.enables := by
  obtain ⟨c, hc⟩ := Option.isSome_iff_exists.1 scanning
  rw [exec_scanEnd, execScanEnd, hc]
  exact ⟨_, rfl, by simp only [buildTables_pp, advanceTo_pp]⟩

/-- No flag is cleared in what is settled after READY is raised. -/
theorem exec_scanEnd_attention {s t : State} (scanning : s.ar.scan.isSome = true) (h : exec .scanEnd s = .next t) :
    flagSet .ready t = true ∧ t.pp.enables = s.pp.enables := by
  obtain ⟨u, hu, enables⟩ := exec_scanEnd_settles scanning
  obtain rfl : settle (raise .ready u) = t := Host.Outcome.next.inj (hu.symm.trans h)
  exact ⟨(settle_move _).flags _ (flagSet_raise_same _ _), (settle_move _).enables.trans enables⟩

theorem attentionLine_reset : attentionLine State.reset = false := by decide

/-- At reset every enable is set but that of LATE-SAMPLE. -/
theorem reset_enables_iff (a : Attention) : State.reset.pp.enables.getLsbD a.bit = true ↔ a ≠ .lateSample := by
  cases a <;> decide

/-- Settles O24: the line is read off the two words by `attentionLine_iff`, and each command's effect on them is a lemma above. -/
theorem enablesDriveTheAttentionLine : Obligations.EnablesDriveTheAttentionLine := by
  unfold Obligations.EnablesDriveTheAttentionLine
  refine ⟨reset_enables_iff, fun s hi lo => exec_setEnables_two_bytes hi lo s, fun s t => exec_restart_enables, attentionLine_iff,
    fun strap raw s t reset => ?_, fun s a enable => ?_, fun s a flag => flag, fun s t scanning enables ended => ?_⟩
  · cases reset
    exact ⟨attentionLine_reset, rfl⟩
  · exact attentionLine_of_flagSet (flagSet_raise_same a s) enable
  · obtain ⟨ready, stand⟩ := exec_scanEnd_attention scanning ended
    refine attentionLine_of_flagSet ready ?_
    rw [stand, enables]
    exact (reset_enables_iff .ready).2 (by decide)

end Sys2Proof.Machine
end

section
/-! PROOF. The invariants (tier 3): every command answers a next state that keeps every bound, and so does the idle step. The commands
that Commands.lean and Station.lean answer for by a move are gathered in one lemma; the rest are RESET, READ_EVENTS, START and the scan. -/

namespace Sys2Proof.Machine

/-! ### Every command at once -/

/-- Every command but RESET, READ_EVENTS, START and the scan's two answers with a move. -/
theorem exec_answers (c : Instr) :
    (∃ strap raw, c = .reset strap raw) ∨ (∃ fs, c = .readEvents fs) ∨ (∃ fs, c = .start fs) ∨ (∃ f, c = .scanPageRead f)
      ∨ c = .scanEnd ∨ ∀ s, Answers (exec c s) s := by
  have moved : (∀ s, Answers (exec c s) s) →
      (∃ strap raw, c = .reset strap raw) ∨ (∃ fs, c = .readEvents fs) ∨ (∃ fs, c = .start fs) ∨ (∃ f, c = .scanPageRead f)
        ∨ c = .scanEnd ∨ ∀ s, Answers (exec c s) s := fun h => .inr (.inr (.inr (.inr (.inr h))))
  cases c with
  | reset strap raw => exact .inl ⟨strap, raw, rfl⟩
  | readEvents fs => exact .inr (.inl ⟨fs, rfl⟩)
  | start fs => exact .inr (.inr (.inl ⟨fs, rfl⟩))
  | scanPageRead f => exact .inr (.inr (.inr (.inl ⟨f, rfl⟩)))
  | scanEnd => exact .inr (.inr (.inr (.inr (.inl rfl))))
  | rawInputChange k l => exact moved (execRawInputChange_answers k l)
  | filteredChange k => exact moved (execFilteredChange_answers k)
  | exitPulse b => exact moved (execExitPulse_answers b)
  | entryPulse b => exact moved (execEntryPulse_answers b)
  | peekEvents fs => exact moved (execPeekEvents_answers fs)
  | setEnables fs => exact moved (execSetEnables_answers fs)
  | readState fs => exact moved (execReadState_answers fs)
  | configure fs => exact moved (execConfigure_answers fs)
  | restart fs => exact moved (execRestart_answers fs)
  | readLastCoil fs => exact moved (execReadLastCoil_answers fs)
  | announce fs => exact moved (execAnnounce_answers fs)
  | nameExit fs => exact moved (execNameExit_answers fs)
  | sample fs => exact moved (execSample_answers fs)
  | freeze fs => exact moved (execFreeze_answers fs)
  | amendOpen fs => exact moved (execAmendOpen_answers fs)
  | amendRename fs => exact moved (execAmendRename_answers fs)
  | amendCommit fs => exact moved (execAmendCommit_answers fs)
  | amendCancel fs => exact moved (execAmendCancel_answers fs)
  | amendClear fs => exact moved (execAmendClear_answers fs)
  | unknownCommand code fs => exact moved (execUnknownCommand_answers code fs)
  | transactionAbort bytes => exact moved (execTransactionAbort_answers bytes)
  | dataPageWrite => exact moved execDataPageWrite_answers
  | pageWriteComplete => exact moved execPageWriteComplete_answers
  | pageReadStart => exact moved execPageReadStart_answers
  | recordReadComplete f => exact moved (execRecordReadComplete_answers f)
  | cellPageReadComplete f => exact moved (execCellPageReadComplete_answers f)
  | amendReadComplete f => exact moved (execAmendReadComplete_answers f)
  | keepImageWrite => exact moved execKeepImageWrite_answers
  | keepImageWriteComplete => exact moved execKeepImageWriteComplete_answers
  | eraseBegin => exact moved execEraseBegin_answers
  | eraseSuspendOrder => exact moved execEraseSuspendOrder_answers
  | eraseSuspendComplete => exact moved execEraseSuspendComplete_answers
  | eraseResume => exact moved execEraseResume_answers
  | eraseComplete => exact moved execEraseComplete_answers
  | seek f => exact moved (execSeek_answers f)
  | own f => exact moved (execOwn_answers f)
  | pull f => exact moved (execPull_answers f)
  | bins f => exact moved (execBins_answers f)
  | mark f => exact moved (execMark_answers f)
  | done f => exact moved (execDone_answers f)
  | wait f => exact moved (execWait_answers f)
  | go f => exact moved (execGo_answers f)
  | stop f => exact moved (execStop_answers f)
  | keep f => exact moved (execKeep_answers f)
  | unkeep f => exact moved (execUnkeep_answers f)
  | kept f => exact moved (execKept_answers f)
  | frameDiscarded d b => exact moved (execFrameDiscarded_answers d b)
  | locateWindowExpiry h => exact moved (execLocateWindowExpiry_answers h)
  | replyWindowExpiry => exact moved execReplyWindowExpiry_answers
  | silenceTimeout k => exact moved (execSilenceTimeout_answers k)
  | drainTimeout k => exact moved (execDrainTimeout_answers k)
  | pauseLimit k => exact moved (execPauseLimit_answers k)
  | stagingAgeExpiry => exact moved execStagingAgeExpiry_answers
  | relayRoomResume k => exact moved (execRelayRoomResume_answers k)
  | accessWon => exact moved execAccessWon_answers
  | loopbackDataFrame k => exact moved (execLoopbackDataFrame_answers k)
  | frameSent => exact moved execFrameSent_answers
  | readbackMismatch => exact moved execReadbackMismatch_answers
  | carrierSeen => exact moved execCarrierSeen_answers

theorem exec_kept (c : Instr) (s : State) : ∃ t, exec c s = .next t ∧ Kept s t := by
  rcases exec_answers c with ⟨strap, raw, rfl⟩ | ⟨fs, rfl⟩ | ⟨fs, rfl⟩ | ⟨f, rfl⟩ | rfl | h
  · exact execReset_kept strap raw s
  · exact execReadEvents_kept fs s
  · exact execStart_kept fs s
  · exact execScanPageRead_kept f s
  · exact execScanEnd_kept s
  · obtain ⟨t, ht, m⟩ := h s
    exact ⟨t, ht, m.kept⟩

/-- Settles O3: no meaning faults, and each keeps the queue and the clock. -/
theorem everyCommandAnswersANextState : Obligations.EveryCommandAnswersANextState := by
  unfold Obligations.EveryCommandAnswersANextState
  intro c s
  obtain ⟨t, ht, k⟩ := exec_kept c s
  exact ⟨t, ht, k.pending, k.clock⟩

/-- Settles O1: the definition of a step on a queue that is not empty. -/
theorem stepRunsTheFrontCommand : Obligations.StepRunsTheFrontCommand := fun _ _ _ => rfl

/-! ### The step -/

/-- An idle step changes the clock, the queue, the count of free values and the port's buffer alone. -/
theorem idle_eq (s : State) :
    ∃ now free pending, idle s = { s with now := now, free := free, pending := pending, pp.buffer := none } := by
  unfold idle
  split
  · exact ⟨_, _, _, rfl⟩
  · exact ⟨_, _, _, rfl⟩
  · exact ⟨_, _, _, rfl⟩

/-- A step is an idle step, or the command at the front of the queue run on the rest. -/
theorem step_cases {s t : State} (h : step s = .next t) :
    (s.pending = [] ∧ t = idle s) ∨ ∃ i rest, s.pending = i :: rest ∧ exec i { s with pending := rest } = .next t := by
  unfold step at h
  split at h
  · rename_i hp
    exact .inl ⟨hp, (Host.Outcome.next.inj h).symm⟩
  · rename_i i rest hp
    exact .inr ⟨i, rest, hp, h⟩

/-- A property of states that no command loses and that looks neither at the clock, the count of free values and the queue nor at the
port's buffer outlasts every step. -/
theorem step_keeps {P : State → Prop} (idles : ∀ s now free pending, P s →
      P { s with now := now, free := free, pending := pending, pp.buffer := none })
    (queue : ∀ s rest, P s → P { s with pending := rest }) (runs : ∀ s t i, P s → exec i s = .next t → P t)
    {s t : State} (hs : P s) (h : step s = .next t) : P t := by
  rcases step_cases h with ⟨_, rfl⟩ | ⟨i, rest, _, h⟩
  · obtain ⟨now, free, pending, e⟩ := idle_eq s
    rw [e]
    exact idles s now free pending hs
  · exact runs _ t i (queue s rest hs) h

/-- A property that every command keeps by Kept outlasts every step. -/
theorem step_keeps_of_kept {P : State → Prop} (idles : ∀ s now free pending, P s →
      P { s with now := now, free := free, pending := pending, pp.buffer := none })
    (queue : ∀ s rest, P s → P { s with pending := rest }) (kept : ∀ s t, Kept s t → P s → P t)
    {s t : State} (hs : P s) (h : step s = .next t) : P t := by
  refine step_keeps idles queue (fun s t i hs h => ?_) hs h
  obtain ⟨u, hu, k⟩ := exec_kept i s
  obtain rfl : u = t := Host.Outcome.next.inj (hu.symm.trans h)
  exact kept s u k hs

theorem Kept.bounded {s t : State} (k : Kept s t) (h : Bounded s) : Bounded t :=
  ⟨k.control h.control, k.write h.write, k.retention h.retention, k.assembler h.assembler, k.relays h.relays, k.staging h.staging⟩

/-- Bounds and cells do not look at the clock, the queue or the port's buffer. -/
theorem Bounded.ofSame {s t : State} (h : Bounded s) (hb : t.bi = s.bi) (ha : t.ar = s.ar) (hr : t.ru = s.ru) (hf : t.flash = s.flash)
    (hc : t.ca = s.ca) (hp : t.pe = s.pe) (hx : t.cx = s.cx) : Bounded t := by
  obtain ⟨⟨h1, h2⟩, h3, ⟨h4, h5, h6, h7, h8⟩, ⟨h9, h10, h11, h12⟩, h13, h14⟩ := h
  refine ⟨⟨?_, ?_⟩, ?_, ⟨?_, ?_, ?_, ?_, ?_⟩, ⟨?_, ?_, ?_, ?_⟩, ?_, ?_⟩
  · rwa [hb]
  · rwa [countClass, hb]
  · rwa [WriteQueueHolds, ha]
  · rwa [hr]
  · rwa [hr]
  · rwa [hr]
  · rwa [ha]
  · rwa [hf]
  · rwa [hc]
  · rwa [hc]
  · rwa [hc]
  · rwa [hc]
  · unfold RelaysHold ctxAt at *; rwa [hp]
  · rwa [StagingHolds, hx]

/-- Settles O5: no command loses the agreement or the flash's form, and the idle step looks at neither. -/
theorem stepKeepsTheModesAndTheFlash : Obligations.StepKeepsTheModesAndTheFlash := by
  unfold Obligations.StepKeepsTheModesAndTheFlash
  refine ⟨fun s t hs h => ?_, fun s t hs h => ?_⟩
  · exact step_keeps_of_kept (fun s _ _ _ h => ⟨h.scan, h.lock, h.config⟩) (fun s _ h => ⟨h.scan, h.lock, h.config⟩)
      (fun _ _ k => k.modes) hs h
  · exact step_keeps_of_kept (P := FlashCanonical) (fun _ _ _ _ h => h) (fun _ _ h => h) (fun _ _ k => k.flash) hs h

/-- Settles O6: each bound is a part of Kept. -/
theorem stepKeepsTheBounds : Obligations.StepKeepsTheBounds := by
  unfold Obligations.StepKeepsTheBounds
  intro s t hs h
  exact step_keeps_of_kept (fun s _ _ _ h => h.ofSame rfl rfl rfl rfl rfl rfl rfl) (fun s _ h => h.ofSame rfl rfl rfl rfl rfl rfl rfl)
    (fun _ _ k => k.bounded) hs h

/-- Settles O7: samples, retirement and dropped cells keep every entry sound. -/
theorem stepKeepsTheCellsSound : Obligations.StepKeepsTheCellsSound := by
  unfold Obligations.StepKeepsTheCellsSound
  intro s t hs h
  exact step_keeps_of_kept (fun s _ _ _ h => ⟨h.window, h.staging⟩) (fun s _ h => ⟨h.window, h.staging⟩) (fun _ _ k => k.sound) hs h

/-! ### The state after reset -/

theorem ctxAt_reset (c : Fin 6) : ctxAt State.reset c = none := by
  simp only [ctxAt, State.reset, State.afterReset, Pe.atReset, Vector.get_eq_getElem, Vector.getElem_replicate]

/-- Settles O9: every collection is empty, the counters stand at 1 and the station is in SCAN. -/
theorem resetStateMeetsTheInvariants : Obligations.ResetStateMeetsTheInvariants := by
  unfold Obligations.ResetStateMeetsTheInvariants
  refine ⟨⟨rfl, rfl, fun h => nomatch h⟩, ?flash, ?bounded, ⟨fun _ h => (nomatch h), fun _ h => (nomatch h)⟩,
    ⟨by decide, by decide⟩, ⟨fun h => absurd rfl h, fun h => absurd rfl h⟩⟩
  case flash => show Flash.wf ⟨[], []⟩ = true; decide
  case bounded =>
    exact {
      control := ⟨by decide, by decide⟩
      write := Nat.zero_le _
      retention := ⟨by decide, by decide, by decide, fun _ h => (nomatch h), fun _ h => (nomatch h)⟩
      assembler := ⟨by decide, by decide, by decide, by decide⟩
      relays := fun c x h => by rw [ctxAt_reset] at h; cases h
      staging := Nat.zero_le _ }

end Sys2Proof.Machine
end

section
/-! PROOF. What stands until RESET or its own command: the node address, the configuration and its lock, the enables, the exit pulse
total, and in RUN the sequence counters and the run coordinate, which never fall. -/

namespace Sys2Proof.Machine

/-! ### The configuration, the enables and the exit pulse total -/

/-- The configuration held and taken, its lock, the enables and the exit pulse total. -/
def State.standing (s : State) :=
  (s.tiu.pairs, s.tiu.exitTotal, s.tiu.exitOver, s.cx.channels, s.pp.config, s.pp.lock, s.pp.enables)

theorem BusMove.standing {s t : State} (h : BusMove s t) : t.standing = s.standing := by
  unfold State.standing; rw [h.tiu, h.cx, h.config, h.lock, h.enables]

theorem LineMove.standing {s t : State} (h : LineMove s t) : t.standing = s.standing := by
  unfold State.standing; rw [h.tiu, h.channels, h.config, h.lock, h.enables]

theorem ArchiveMove.standing {s t : State} (h : ArchiveMove s t) : t.standing = s.standing := (BusMove.ofArchive h).standing

theorem settle_standing (s : State) : (settle s).standing = s.standing := (settle_move s).standing

theorem settleArchive_standing (s : State) : (settleArchive s).standing = s.standing := (settleArchive_move s).standing

theorem standing_ite {s t u : State} (b : Prop) [Decidable b] (h : t.standing = s.standing) (g : u.standing = s.standing) :
    (if b then t else u).standing = s.standing := by split <;> assumption

theorem evaluateKinds_standing (s : State) : (evaluateKinds s).standing = s.standing := by
  have weld : ∀ (b : Prop) [Decidable b] (u : State), (if b then exitWeld u else u).standing = u.standing :=
    fun b _ u => standing_ite b (exitWeld_line u).standing rfl
  have cut : ∀ (b : Prop) [Decidable b] (u : State), (if b then exitCut u else u).standing = u.standing :=
    fun b _ u => standing_ite b (exitCut_line u).standing rfl
  have strip : ∀ (b : Prop) [Decidable b] (u : State), (if b then stripBreak u else u).standing = u.standing :=
    fun b _ u => standing_ite b (stripBreak_line u).standing rfl
  have entry : ∀ (b : Prop) [Decidable b] (u : State), (if b then fireEntryWeld u else u).standing = u.standing :=
    fun b _ u => standing_ite b (entryWeld_line _ _ _).standing rfl
  unfold evaluateKinds
  dsimp only
  rw [entry, strip, cut, weld]
  rfl

theorem takeChange_standing (k : Fin 12) (s : State) : (takeChange k s).standing = s.standing := by
  unfold takeChange
  dsimp only
  split
  · rw [settleArchive_standing, evaluateKinds_standing]; rfl
  · rfl

theorem advanceTrack_standing (r : Nat) (s : State) : (advanceTrack r s).standing = s.standing := by
  unfold advanceTrack
  rw [settleArchive_standing, (advanceCells_line _ _).standing, (advanceCoils_line _ _).standing]

theorem receive_standing (kind : FrameKind) (f : Frame) (s : State) : (receive kind f s).standing = s.standing := by
  have carrier (s : State) : (endCarrier s).standing = s.standing := by unfold endCarrier; split <;> rfl
  have source (b : Byte) (s : State) : (hearSource b s).standing = s.standing := by unfold hearSource; split <;> rfl
  unfold receive
  dsimp only
  split
  · split
    · rw [settle_standing, (handOver_move _ _ _ _ _).standing, source, carrier]
    · rw [source, carrier]
  · exact carrier s

theorem completeRead_standing (r : Reading) (failed : Bool) (take : Option Page → State → State) (s : State)
    (h : ∀ p u, (take p u).standing = u.standing) : (completeRead r failed take s).standing = s.standing := by
  unfold completeRead
  dsimp only
  split
  · rfl
  · rw [settle_standing, h]; rfl

theorem completePage_standing (w : PageWrite) (s : State) : (completePage w s).standing = s.standing := by
  unfold completePage
  split
  · rfl
  · dsimp only
    rw [(momentIf_line _ _).standing, (fullSegment_line _ _).standing, (handReady_line _).standing]
    exact (ArchiveMove.foldl (fileItem w.seg w.page) (fileItem_move _ _) w.items.zipIdx _).standing

theorem completeErase_standing (n : Nat) (s : State) : (completeErase n s).standing = s.standing := by
  unfold completeErase
  dsimp only
  split
  · rfl
  · rfl
  · rw [(reclaim_line _).standing]
    split
    · rw [(activate_line _).standing, (stageAfterErase_line _).standing]; rfl
    · rw [(stageAfterErase_line _).standing]; rfl

theorem buildTables_standing (view : List (Nat × Page)) (s : State) : (buildTables view s).standing = s.standing := by
  simp only [State.standing, buildTables, refreshSets]

theorem restartStation_standing (s : State) : (restartStation s).standing = s.standing := by
  unfold restartStation beginTracking
  dsimp only
  rw [(raise_line _ _).standing, (reclaim_line _).standing, (activateIfNone_line _).standing, (dropTasks_move _).standing,
    (openCoilsAt_line _ _).standing]
  rfl

/-- START changes neither the configuration held nor the enables nor the exit pulse total; it is the one command that sets the lock. -/
theorem startStation_held (c : Configuration) (s : State) :
    (startStation c s).pp.enables = s.pp.enables ∧ (startStation c s).tiu.exitTotal = s.tiu.exitTotal
      ∧ (startStation c s).tiu.exitOver = s.tiu.exitOver := by
  unfold startStation beginTracking
  dsimp only
  rw [(activateIfNone_line _).enables, (activateIfNone_line _).tiu, (openCoilsAt_line _ _).enables, (openCoilsAt_line _ _).tiu]
  exact ⟨rfl, rfl, rfl⟩

theorem freeze_standing (i : CoilId) (s : State) : (freeze i s).2.standing = s.standing := by
  unfold freeze
  repeat' split
  all_goals first
    | rfl
    | (dsimp only; rw [settle_standing, (handItem_move _ _).standing]; rfl)

theorem amendOpen_standing (kind : AmendKind) (i : CoilId) (seq : Nat) (s : State) : (amendOpen kind i seq s).2.standing = s.standing := by
  unfold amendOpen openOutput openInput
  repeat' split
  all_goals rfl

theorem amendRename_standing (i : CoilId) (s : State) : (amendRename i s).2.standing = s.standing := by
  unfold amendRename renameOpen
  dsimp only
  repeat' split
  all_goals rfl

theorem amendCommit_standing (s : State) : (amendCommit s).2.standing = s.standing := by
  unfold amendCommit commitOpen
  repeat' split
  all_goals first
    | rfl
    | (dsimp only; rw [settle_standing, (handItem_move _ _).standing]; rfl)

theorem respond_standing (code : Byte) (fs : List Byte) (r : PortResult) (n : Nat) (d : List Byte) (s : State) :
    (respond code fs r n d s).standing = s.standing := rfl

theorem accept_standing (code : Byte) (fs d : List Byte) (s : State) : (accept code fs d s).standing = s.standing := rfl

theorem selectFrame_standing (s : State) : (selectFrame s).standing = s.standing := by
  unfold selectFrame
  split
  · rfl
  · split
    · rfl
    · split
      · rfl
      · rename_i x hx
        exact (formFrame_move hx).standing

theorem markErasing_standing (n : Nat) (s : State) : (markErasing n s).standing = s.standing := by
  unfold markErasing
  split <;> rfl

theorem takeAmendPage_standing (seg : Nat) (p : Option Page) (s : State) : (takeAmendPage seg p s).standing = s.standing := by
  unfold takeAmendPage
  repeat' split
  all_goals rfl

/-- A command that leaves what stands. -/
def Stands (c : Instr) : Prop := ∀ s t, exec c s = .next t → t.standing = s.standing

theorem stands_of {c : Instr} (f : State → State) (he : ∀ s, exec c s = .next (f s)) (h : ∀ s, (f s).standing = s.standing) : Stands c := by
  intro s t ht
  rw [he] at ht
  cases ht
  exact h s

theorem stands_frame (kind : FrameKind) (f : Frame) : Stands (frameCommand kind f) :=
  stands_of (receive kind f) (frameCommand_receives kind f) (receive_standing kind f)

/-- No command but RESET, EXIT_PULSE, SET_ENABLES, CONFIGURE and START changes what stands. -/
theorem exec_stands (c : Instr) :
    (∃ strap raw, c = .reset strap raw) ∨ (∃ b, c = .exitPulse b) ∨ (∃ fs, c = .setEnables fs) ∨ (∃ fs, c = .configure fs)
      ∨ (∃ fs, c = .start fs) ∨ Stands c := by
  have moved : Stands c → (∃ strap raw, c = .reset strap raw) ∨ (∃ b, c = .exitPulse b) ∨ (∃ fs, c = .setEnables fs)
      ∨ (∃ fs, c = .configure fs) ∨ (∃ fs, c = .start fs) ∨ Stands c := fun h => .inr (.inr (.inr (.inr (.inr h))))
  cases c with
  | reset strap raw => exact .inl ⟨strap, raw, rfl⟩
  | exitPulse b => exact .inr (.inl ⟨b, rfl⟩)
  | setEnables fs => exact .inr (.inr (.inl ⟨fs, rfl⟩))
  | configure fs => exact .inr (.inr (.inr (.inl ⟨fs, rfl⟩)))
  | start fs => exact .inr (.inr (.inr (.inr (.inl ⟨fs, rfl⟩))))
  | rawInputChange k l =>
    refine moved (stands_of _ (fun _ => rfl) fun s => ?_)
    exact standing_ite _ rfl (standing_ite _ rfl (standing_ite _ ((takeChange_standing k _).trans rfl) rfl))
  | filteredChange k =>
    refine moved (stands_of _ (fun _ => rfl) fun s => ?_)
    split
    · rfl
    · exact takeChange_standing k _
  | entryPulse b => exact moved (stands_of _ (fun _ => rfl) fun s => standing_ite _ rfl rfl)
  | readEvents fs =>
    exact moved (stands_of _ (fun _ => rfl) fun s => standing_ite _ (raiseConditions_move _).standing rfl)
  | peekEvents fs => exact moved (stands_of _ (fun _ => rfl) fun s => standing_ite _ rfl rfl)
  | readState fs => exact moved (stands_of _ (fun _ => rfl) fun s => standing_ite _ rfl rfl)
  | restart fs =>
    refine moved (stands_of _ (fun _ => rfl) fun s => standing_ite _ rfl (standing_ite _ rfl ?_))
    rw [accept_standing, settle_standing, restartStation_standing]
  | readLastCoil fs => exact moved (stands_of _ (fun _ => rfl) fun s => standing_ite _ rfl (standing_ite _ rfl rfl))
  | announce fs =>
    refine moved (stands_of _ (fun _ => rfl) fun s => standing_ite _ rfl (standing_ite _ rfl ?_))
    split
    · rfl
    · exact standing_ite _ rfl (by unfold announce; repeat' split
                                   all_goals rfl)
  | nameExit fs =>
    refine moved (stands_of _ (fun _ => rfl) fun s => standing_ite _ rfl (standing_ite _ rfl ?_))
    dsimp only
    split
    · rfl
    · exact standing_ite _ rfl rfl
  | sample fs =>
    exact moved (stands_of _ (fun _ => rfl) fun s => standing_ite _ rfl (standing_ite _ rfl (takeSet_line _ _ s).standing))
  | freeze fs =>
    refine moved (stands_of _ (fun _ => rfl) fun s => standing_ite _ rfl (standing_ite _ rfl ?_))
    split
    · rfl
    · exact freeze_standing _ s
  | amendOpen fs =>
    refine moved (stands_of _ (fun _ => rfl) fun s => standing_ite _ rfl (standing_ite _ rfl ?_))
    split
    · exact amendOpen_standing _ _ _ s
    · rfl
  | amendRename fs =>
    refine moved (stands_of _ (fun _ => rfl) fun s => standing_ite _ rfl (standing_ite _ rfl ?_))
    split
    · rfl
    · exact amendRename_standing _ s
  | amendCommit fs =>
    exact moved (stands_of _ (fun _ => rfl) fun s => standing_ite _ rfl (standing_ite _ rfl (amendCommit_standing s)))
  | amendCancel fs =>
    refine moved (stands_of _ (fun _ => rfl) fun s => standing_ite _ rfl (standing_ite _ rfl ?_))
    rw [respond_standing, amendCancel]
    split <;> rfl
  | amendClear fs =>
    refine moved (stands_of _ (fun _ => rfl) fun s => standing_ite _ rfl (standing_ite _ rfl ?_))
    rw [respond_standing, amendClear]
    split <;> rfl
  | unknownCommand code fs => exact moved (stands_of _ (fun _ => rfl) fun s => standing_ite _ rfl rfl)
  | transactionAbort bytes => exact moved (stands_of _ (fun _ => rfl) fun s => rfl)
  | scanPageRead f =>
    refine moved (stands_of _ (fun _ => rfl) fun s => ?_)
    split
    · rfl
    · split
      · rfl
      · exact buildTables_standing _ _
  | scanEnd =>
    refine moved (stands_of _ (fun _ => rfl) fun s => ?_)
    split
    · rfl
    · exact (settle_standing _).trans rfl
  | dataPageWrite =>
    refine moved (stands_of _ (fun _ => rfl) fun s => ?_)
    split
    · exact (settle_standing _).trans rfl
    · rfl
  | pageWriteComplete =>
    refine moved (stands_of _ (fun _ => rfl) fun s => ?_)
    split
    · rfl
    · exact (settle_standing _).trans (completePage_standing _ _)
  | pageReadStart =>
    refine moved (stands_of _ (fun _ => rfl) fun s => ?_)
    split <;> rfl
  | recordReadComplete f =>
    refine moved (stands_of _ (fun _ => rfl) fun s => ?_)
    repeat' split
    all_goals first | rfl | exact completeRead_standing _ _ _ s (fun p u => (takeRecordPage_move _ p u).standing)
  | cellPageReadComplete f =>
    refine moved (stands_of _ (fun _ => rfl) fun s => ?_)
    repeat' split
    all_goals first | rfl | exact completeRead_standing _ _ _ s (fun p u => (takeCellPage_move _ p u).standing)
  | amendReadComplete f =>
    refine moved (stands_of _ (fun _ => rfl) fun s => ?_)
    repeat' split
    all_goals first | rfl | exact completeRead_standing _ _ _ s (fun p u => takeAmendPage_standing _ p u)
  | keepImageWrite =>
    refine moved (stands_of _ (fun _ => rfl) fun s => ?_)
    split <;> rfl
  | keepImageWriteComplete =>
    refine moved (stands_of _ (fun _ => rfl) fun s => ?_)
    split <;> rfl
  | eraseBegin =>
    refine moved (stands_of _ (fun _ => rfl) fun s => ?_)
    split
    · exact (markErasing_standing _ _).trans rfl
    · rfl
  | eraseSuspendOrder =>
    refine moved (stands_of _ (fun _ => rfl) fun s => ?_)
    split
    · rfl
    · exact standing_ite _ rfl rfl
  | eraseSuspendComplete =>
    refine moved (stands_of _ (fun _ => rfl) fun s => ?_)
    split
    · rfl
    · split
      · rfl
      · rfl
      · exact standing_ite _ rfl rfl
  | eraseResume =>
    refine moved (stands_of _ (fun _ => rfl) fun s => ?_)
    split <;> rfl
  | eraseComplete =>
    refine moved (stands_of _ (fun _ => rfl) fun s => ?_)
    split
    · rfl
    · exact standing_ite _ ((settle_standing _).trans (completeErase_standing _ _)) rfl
  | seek f => exact moved (stands_frame .seek f)
  | own f => exact moved (stands_frame .own f)
  | pull f => exact moved (stands_frame .pull f)
  | bins f => exact moved (stands_frame .bins f)
  | mark f => exact moved (stands_frame .mark f)
  | done f => exact moved (stands_frame .done f)
  | wait f => exact moved (stands_frame .wait f)
  | go f => exact moved (stands_frame .go f)
  | stop f => exact moved (stands_frame .stop f)
  | keep f => exact moved (stands_frame .keep f)
  | unkeep f => exact moved (stands_frame .unkeep f)
  | kept f => exact moved (stands_frame .kept f)
  | frameDiscarded d b =>
    refine moved (stands_of _ (fun _ => rfl) fun s => ?_)
    have carrier : (endCarrier s).standing = s.standing := by unfold endCarrier; split <;> rfl
    refine standing_ite _ ?_ carrier
    rw [← carrier]
    unfold hearSource
    split <;> rfl
  | locateWindowExpiry h =>
    refine moved (stands_of _ (fun _ => rfl) fun s => ?_)
    split
    · rfl
    · refine (settle_standing _).trans ?_
      split
      · exact (slotLocated_move _ _ _).standing
      · exact (taskLocated_move _ _).standing
  | replyWindowExpiry =>
    refine moved (stands_of _ (fun _ => rfl) fun s => ?_)
    split
    · rfl
    · exact (settle_standing _).trans (failTask_move _).standing
  | silenceTimeout k =>
    refine moved (stands_of _ (fun _ => rfl) fun s => ?_)
    split
    · refine (settle_standing _).trans ?_
      split
      · exact (stopSlot_move _ _).standing
      · rename_i c _
        rw [(nextSegment_move _ _).standing, (onCtx_move c (fun y => (addCount .timeout y).dropFetch) _ fun _ h => h).standing]
        exact (stopSlot_move _ _).standing
    · rfl
  | drainTimeout k =>
    refine moved (stands_of _ (fun _ => rfl) fun s => ?_)
    split
    · rfl
    · exact (settle_standing _).trans (freeSlot_move _ _).standing
  | pauseLimit k =>
    refine moved (stands_of _ (fun _ => rfl) fun s => ?_)
    split
    · rfl
    · exact (settle_standing _).trans (endContext_move _ _ _).standing
  | stagingAgeExpiry =>
    refine moved (stands_of _ (fun _ => rfl) fun s => ?_)
    split <;> rfl
  | relayRoomResume k =>
    exact moved (stands_of _ (fun _ => rfl) fun s => standing_ite _ ((settle_standing _).trans (continueLocal_move _ _).standing) rfl)
  | accessWon =>
    refine moved (stands_of _ (fun _ => rfl) fun s => ?_)
    split
    · rfl
    · exact standing_ite _ rfl ((settle_standing _).trans (selectFrame_standing _))
  | loopbackDataFrame k =>
    refine moved (stands_of _ (fun _ => rfl) fun s => standing_ite _ ?_ rfl)
    split
    · rfl
    · rename_i x hx
      exact (settle_standing _).trans ((report_move _ _).standing.trans (formFrame_move hx).standing)
  | frameSent =>
    refine moved (stands_of _ (fun _ => rfl) fun s => ?_)
    split
    · rfl
    · exact (settle_standing _).trans (finishTransmit_move _).standing
  | readbackMismatch =>
    refine moved (stands_of _ (fun _ => rfl) fun s => ?_)
    split
    · rfl
    · exact (settle_standing _).trans (finishTransmit_move _).standing
  | carrierSeen => exact moved (stands_of _ (fun _ => rfl) fun s => rfl)

end Sys2Proof.Machine
end

section
/-! PROOF. O4 and O10, from what stands (State.standing), what every move but five keeps (Steady), and what those five do. -/

namespace Sys2Proof.Machine

/-! ### START and the scan -/

theorem startStation_bi (c : Configuration) (s : State) : (startStation c s).bi = s.bi := by
  unfold startStation beginTracking
  dsimp only
  rw [(activateIfNone_line _).bi, (openCoilsAt_line _ _).bi]
  rfl

theorem startStation_flags (c : Configuration) (s : State) : FlagsKept s (startStation c s) := fun k h =>
  (activateIfNone_line _).flags k ((openCoilsAt_line _ _).flags k h)

theorem exec_start (fields : List Byte) (s : State) : exec (.start fields) s = execStart fields s := rfl
theorem exec_scanPageRead (f : Bool) (s : State) : exec (.scanPageRead f) s = execScanPageRead f s := rfl

/-- START is refused, which fills the port's buffer alone, or in CONFIG begins the tracking and is settled. -/
theorem exec_start_cases {fields : List Byte} {s t : State} (h : exec (.start fields) s = .next t) :
    (∃ r, t = refuse 0x06 fields 0 r s)
      ∨ (s.pp.station = .config ∧ fields = [] ∧ ∃ c, s.pp.config = some c ∧ t = accept 0x06 [] [] (settle (startStation c s))) := by
  rw [exec_start, execStart] at h
  obtain rfl := Host.Outcome.next.inj h
  split
  · exact .inl ⟨_, rfl⟩
  · rename_i hs
    split
    · exact .inl ⟨_, rfl⟩
    · rename_i hf
      obtain rfl : fields = [] := by simpa using hf
      split
      · exact .inl ⟨_, rfl⟩
      · rename_i c hc
        exact .inr ⟨by simpa using hs, rfl, c, hc, rfl⟩

/-- The scan's page read does nothing, or builds tables from the pages read. -/
theorem exec_scanPageRead_cases {f : Bool} {s t : State} (h : exec (.scanPageRead f) s = .next t) :
    t = s ∨ ∃ c now view d, s.ar.scan = some c ∧ t = buildTables view { s with now := now, ar.scan := some d } := by
  rw [exec_scanPageRead, execScanPageRead] at h
  obtain rfl := Host.Outcome.next.inj h
  split
  · exact .inl rfl
  · rename_i c hc
    split
    · exact .inl rfl
    · exact .inr ⟨c, _, _, _, hc, rfl⟩

/-- The scan's end does nothing, or builds the tables, raises READY and is settled. -/
theorem exec_scanEnd_cases {s t : State} (h : exec .scanEnd s = .next t) :
    t = s ∨ ∃ c now view origin, s.ar.scan = some c ∧ t = settle (raise .ready { buildTables view { s with now := now } with
      ar := { (buildTables view { s with now := now }).ar with scan := none, expired := [], stage := .normal }
      tiu := { s.tiu with runOrigin := origin }
      pp := { s.pp with station := .config } }) := by
  rw [exec_scanEnd, execScanEnd] at h
  obtain rfl := Host.Outcome.next.inj h
  split
  · exact .inl rfl
  · rename_i c hc
    exact .inr ⟨c, _, _, _, hc, rfl⟩

theorem scan_of_run {s : State} (m : ModesAgree s) (h : s.pp.station = .run) : s.ar.scan = none := by
  have := m.scan
  rw [h] at this
  exact Option.not_isSome_iff_eq_none.1 (by rw [this]; decide)

theorem run_of_lock {s : State} (m : ModesAgree s) (h : s.pp.lock = true) : s.pp.station = .run := by
  have := m.lock
  rw [h] at this
  simpa using this.symm

/-! ### Node address and flags -/

theorem exec_node {c : Instr} {s t : State} (hr : ∀ strap raw, c ≠ .reset strap raw) (h : exec c s = .next t) :
    t.bi.node = s.bi.node := by
  rcases exec_answers c with ⟨strap, raw, rfl⟩ | ⟨fs, rfl⟩ | ⟨fs, rfl⟩ | ⟨f, rfl⟩ | rfl | m
  · exact absurd rfl (hr strap raw)
  · cases h
    dsimp only
    split
    · exact congrArg Bi.node (raiseConditions_move _).bi
    · rfl
  · rcases exec_start_cases h with ⟨r, rfl⟩ | ⟨_, _, c, _, rfl⟩
    · rfl
    · rw [accept_bi, (settle_move _).node, startStation_bi]
  · rcases exec_scanPageRead_cases h with rfl | ⟨c, now, view, d, _, rfl⟩
    · rfl
    · simp only [buildTables, refreshSets]
  · rcases exec_scanEnd_cases h with rfl | ⟨c, now, view, origin, _, rfl⟩
    · rfl
    · rw [(settle_move _).node]
      simp only [raise_bi, buildTables, refreshSets]
  · obtain ⟨u, hu, k⟩ := m s
    obtain rfl : u = t := Host.Outcome.next.inj (hu.symm.trans h)
    exact k.steady.node

theorem exec_flags_kept {c : Instr} {s t : State} (hr : ∀ strap raw, c ≠ .reset strap raw) (he : ∀ fields, c ≠ .readEvents fields)
    (h : exec c s = .next t) : FlagsKept s t := by
  rcases exec_answers c with ⟨strap, raw, rfl⟩ | ⟨fs, rfl⟩ | ⟨fs, rfl⟩ | ⟨f, rfl⟩ | rfl | m
  · exact absurd rfl (hr strap raw)
  · exact absurd rfl (he fs)
  · rcases exec_start_cases h with ⟨r, rfl⟩ | ⟨_, _, c, _, rfl⟩
    · exact .refl s
    · exact ((startStation_flags c s).trans (settle_move _).flags).trans (accept_moves _ _ _ _).steady.flags
  · rcases exec_scanPageRead_cases h with rfl | ⟨c, now, view, d, _, rfl⟩
    · exact .refl _
    · exact flagsKept_of_eq (by rw [buildTables_pp])
  · rcases exec_scanEnd_cases h with rfl | ⟨c, now, view, origin, _, rfl⟩
    · exact .refl _
    · refine FlagsKept.trans ?_ (settle_move _).flags
      exact FlagsKept.trans (t := { s with pp.station := .config }) (.refl s) (flagsKept_raise .ready _)
  · obtain ⟨u, hu, k⟩ := m s
    obtain rfl : u = t := Host.Outcome.next.inj (hu.symm.trans h)
    exact k.steady.flags

/-! ### Configuration and enables -/

theorem exec_configure (fields : List Byte) (s : State) : exec (.configure fields) s = execConfigure fields s := rfl

/-- CONFIGURE is refused in RUN. -/
theorem exec_configure_run {fields : List Byte} {s : State} (h : s.pp.station = .run) :
    exec (.configure fields) s = .next (refuse 0x05 fields 1 .locked s) := by
  rw [exec_configure, execConfigure, h]

theorem exec_start_run {fields : List Byte} {s : State} (h : s.pp.station = .run) :
    exec (.start fields) s = .next (refuse 0x06 fields 0 .wrongState s) := by
  rw [exec_start, execStart, h, if_pos (by decide)]

/-- What stands in RUN under every command but RESET and SET_ENABLES, the exit pulse total aside. -/
theorem exec_locked {c : Instr} {s t : State} (run : s.pp.station = .run) (hr : ∀ strap raw, c ≠ .reset strap raw)
    (h : exec c s = .next t) :
    t.pp.lock = s.pp.lock ∧ t.pp.config = s.pp.config ∧ t.tiu.pairs = s.tiu.pairs ∧ t.cx.channels = s.cx.channels := by
  rcases exec_stands c with ⟨strap, raw, rfl⟩ | ⟨b, rfl⟩ | ⟨fs, rfl⟩ | ⟨fs, rfl⟩ | ⟨fs, rfl⟩ | m
  · exact absurd rfl (hr strap raw)
  · have counted (u : State) : (countExitPulse u).tiu.pairs = u.tiu.pairs ∧ (countExitPulse u).cx = u.cx ∧ (countExitPulse u).pp = u.pp := by
      unfold countExitPulse; split <;> exact ⟨rfl, rfl, rfl⟩
    obtain ⟨hp, hx, hpp⟩ := counted s
    cases h
    split
    · split
      · have e := advanceTrack_standing (runCoord (countExitPulse s)) (countExitPulse s)
        simp only [State.standing, Prod.mk.injEq] at e
        obtain ⟨e1, _, _, e4, e5, e6, _⟩ := e
        rw [e1, e4, e5, e6, hp, hx, hpp]
        exact ⟨rfl, rfl, rfl, rfl⟩
      · rw [hp, hx, hpp]
        exact ⟨rfl, rfl, rfl, rfl⟩
    · exact ⟨rfl, rfl, rfl, rfl⟩
  · cases h
    dsimp only
    split <;> exact ⟨rfl, rfl, rfl, rfl⟩
  · rw [exec_configure_run run] at h
    cases h
    exact ⟨rfl, rfl, rfl, rfl⟩
  · rw [exec_start_run run] at h
    cases h
    exact ⟨rfl, rfl, rfl, rfl⟩
  · have e := m s t h
    simp only [State.standing, Prod.mk.injEq] at e
    obtain ⟨e1, _, _, e4, e5, e6, _⟩ := e
    exact ⟨e6, e5, e1, e4⟩

theorem exec_enables {c : Instr} {s t : State} (hr : ∀ strap raw, c ≠ .reset strap raw) (he : ∀ fields, c ≠ .setEnables fields)
    (h : exec c s = .next t) : t.pp.enables = s.pp.enables := by
  rcases exec_stands c with ⟨strap, raw, rfl⟩ | ⟨b, rfl⟩ | ⟨fs, rfl⟩ | ⟨fs, rfl⟩ | ⟨fs, rfl⟩ | m
  · exact absurd rfl (hr strap raw)
  · have counted : (countExitPulse s).pp = s.pp := by unfold countExitPulse; split <;> rfl
    cases h
    split
    · split
      · have e := advanceTrack_standing (runCoord (countExitPulse s)) (countExitPulse s)
        simp only [State.standing, Prod.mk.injEq] at e
        obtain ⟨_, _, _, _, _, _, e7⟩ := e
        rw [e7, counted]
      · rw [counted]
    · rfl
  · exact absurd rfl (he fs)
  · cases h
    dsimp only
    split
    · rfl
    · rfl
    · split <;> rfl
  · rcases exec_start_cases h with ⟨r, rfl⟩ | ⟨_, _, c, _, rfl⟩
    · rfl
    · rw [accept_pp_enables, (settle_move _).enables, (startStation_held c s).1]
  · have e := m s t h
    simp only [State.standing, Prod.mk.injEq] at e
    obtain ⟨_, _, _, _, _, _, e7⟩ := e
    exact e7

/-- Settles O4: the node address and the flags by the moves, the rest by what stands. -/
theorem whatStandsUntilResetOrItsCommand : Obligations.WhatStandsUntilResetOrItsCommand := by
  unfold Obligations.WhatStandsUntilResetOrItsCommand
  refine ⟨fun c s t hr h => exec_node hr h, fun c s t hr he h a ha => exec_flags_kept hr he h _ ha, fun c s t m hr h => ⟨fun lock => ?_,
    fun he => exec_enables hr he h⟩⟩
  have e := exec_locked (run_of_lock m lock) hr h
  rwa [lock] at e

/-! ### Sequence counters -/

/-- The counters that a scan sets are in range (R17). -/
theorem counterAbove_range (seqs : List Nat) : 1 ≤ counterAbove seqs ∧ counterAbove seqs ≤ 2 ^ 32 - 1 := by
  unfold counterAbove nextSeq
  omega

theorem buildTables_counters (view : List (Nat × Page)) (s : State) : CountersInRange (buildTables view s) :=
  ⟨counterAbove_range _, counterAbove_range _⟩

theorem Steady.counters {s t : State} (k : Steady s t) (h : CountersInRange s) : CountersInRange t :=
  ⟨⟨h.inputs.1.trans (k.inSeq h.inputs.2).1, (k.inSeq h.inputs.2).2⟩, ⟨h.outputs.1.trans (k.outSeq h.outputs.2).1, (k.outSeq h.outputs.2).2⟩⟩

theorem CountersInRange.ofCa {s t : State} (h : CountersInRange s) (e : t.ca = s.ca) : CountersInRange t := by
  obtain ⟨hi, ho⟩ := h
  exact ⟨by rwa [e], by rwa [e]⟩

theorem startStation_counters {c : Configuration} {s : State} (h : CountersInRange s) : CountersInRange (startStation c s) := by
  unfold startStation beginTracking
  dsimp only
  exact (Steady.ofLine (activateIfNone_line _)).counters ((Steady.ofLine (openCoilsAt_line _ _)).counters ⟨h.inputs, h.outputs⟩)

theorem exec_counters {c : Instr} {s t : State} (hs : CountersInRange s) (h : exec c s = .next t) : CountersInRange t := by
  rcases exec_answers c with ⟨strap, raw, rfl⟩ | ⟨fs, rfl⟩ | ⟨fs, rfl⟩ | ⟨f, rfl⟩ | rfl | m
  · cases h
    exact ⟨(by decide : 1 ≤ 1 ∧ 1 ≤ 2 ^ 32 - 1), (by decide : 1 ≤ 1 ∧ 1 ≤ 2 ^ 32 - 1)⟩
  · cases h
    dsimp only
    split
    · exact hs.ofCa (raiseConditions_move _).ca
    · exact hs.ofCa rfl
  · rcases exec_start_cases h with ⟨r, rfl⟩ | ⟨_, _, c, _, rfl⟩
    · exact hs.ofCa rfl
    · exact (startStation_counters hs).ofCa (by rw [accept_ca, (settle_move _).ca])
  · rcases exec_scanPageRead_cases h with rfl | ⟨c, now, view, d, _, rfl⟩
    · exact hs
    · exact buildTables_counters _ _
  · rcases exec_scanEnd_cases h with rfl | ⟨c, now, view, origin, _, rfl⟩
    · exact hs
    · exact (buildTables_counters view { s with now := now }).ofCa (settle_move _).ca
  · obtain ⟨u, hu, k⟩ := m s
    obtain rfl : u = t := Host.Outcome.next.inj (hu.symm.trans h)
    exact k.steady.counters hs

/-! ### The run coordinate -/

theorem runCoord_le (s : State) : runCoord s ≤ 2 ^ 40 - 1 := by
  unfold runCoord runCoordOf
  split <;> omega

/-- The run coordinate follows the total, the origin and the weight. -/
theorem runCoord_congr {s t : State} (ho : t.tiu.exitOver = s.tiu.exitOver) (ht : t.tiu.exitTotal = s.tiu.exitTotal)
    (hg : t.tiu.runOrigin = s.tiu.runOrigin) (hw : t.tiu.exitWeight = s.tiu.exitWeight) : runCoord t = runCoord s := by
  unfold runCoord runCoordOf
  rw [ho, ht, hg, hw]

/-- Counting a pulse does not lower the run coordinate: past the total's width it holds at its greatest (R11; log entry 8). -/
theorem runCoord_countExitPulse (s : State) : runCoord s ≤ runCoord (countExitPulse s) := by
  by_cases full : s.tiu.exitTotal = BitVec.allOnes 48
  · have held : runCoord (countExitPulse s) = 2 ^ 40 - 1 := by
      unfold countExitPulse runCoord
      rw [if_pos full]
      rfl
    rw [held]
    exact runCoord_le s
  · rw [countExitPulse_of_ne full]
    unfold runCoord runCoordOf
    dsimp only
    split
    · exact le_refl _
    · have below : s.tiu.exitTotal.toNat + 1 < 2 ^ 48 := by
        have hlt := s.tiu.exitTotal.isLt
        have hne : s.tiu.exitTotal.toNat ≠ 2 ^ 48 - 1 := fun e => full (BitVec.eq_of_toNat_eq (by rw [e, BitVec.toNat_allOnes]))
        omega
      have up : (s.tiu.exitTotal + 1).toNat = s.tiu.exitTotal.toNat + 1 := by
        rw [BitVec.toNat_add]
        exact Nat.mod_eq_of_lt below
      have quotient : s.tiu.exitTotal.toNat * 100 / s.tiu.exitWeight ≤ (s.tiu.exitTotal + 1).toNat * 100 / s.tiu.exitWeight :=
        Nat.div_le_div_right (by omega)
      omega

/-- In RUN no command but RESET lowers the run coordinate. -/
theorem exec_runCoord {c : Instr} {s t : State} (m : ModesAgree s) (run : s.pp.station = .run) (hr : ∀ strap raw, c ≠ .reset strap raw)
    (h : exec c s = .next t) : runCoord s ≤ runCoord t := by
  have scanless := scan_of_run m run
  rcases exec_answers c with ⟨strap, raw, rfl⟩ | ⟨fs, rfl⟩ | ⟨fs, rfl⟩ | ⟨f, rfl⟩ | rfl | moved
  · exact absurd rfl (hr strap raw)
  · cases h
    dsimp only
    split
    · have e := (raiseConditions_move { accept 0x01 fs (eventWords s) s with pp.flags := 0 }).tiu
      exact le_of_eq (runCoord_congr (by rw [e]; rfl) (by rw [e]; rfl) (by rw [e]; rfl) (by rw [e]; rfl)).symm
    · exact le_refl _
  · rw [exec_start_run run] at h
    cases h
    exact le_refl _
  · rcases exec_scanPageRead_cases h with rfl | ⟨c, _, _, _, hc, _⟩
    · exact le_refl _
    · rw [scanless] at hc; cases hc
  · rcases exec_scanEnd_cases h with rfl | ⟨c, _, _, _, hc, _⟩
    · exact le_refl _
    · rw [scanless] at hc; cases hc
  · obtain ⟨u, hu, k⟩ := moved s
    obtain rfl : u = t := Host.Outcome.next.inj (hu.symm.trans h)
    rcases exec_stands c with ⟨strap, raw, rfl⟩ | ⟨b, rfl⟩ | ⟨fs, rfl⟩ | ⟨fs, rfl⟩ | ⟨fs, rfl⟩ | stands
    · exact absurd rfl (hr strap raw)
    · cases b with
      | false => rw [exec_exitPulse_ignored (fun h => Bool.false_ne_true h.1)] at h; cases h; exact le_refl _
      | true =>
        obtain ⟨v, hv, tiu⟩ := exec_exitPulse_counted_tiu run
        obtain rfl : v = u := Host.Outcome.next.inj (hv.symm.trans h)
        exact (runCoord_countExitPulse s).trans (le_of_eq (runCoord_congr (by rw [tiu]) (by rw [tiu]) (by rw [tiu]) (by rw [tiu])).symm)
    · cases h
      dsimp only
      split <;> exact le_refl _
    · rw [exec_configure_run run] at h
      cases h
      exact le_refl _
    · rw [exec_start_run run] at h
      cases h
      exact le_refl _
    · have e := stands s u h
      simp only [State.standing, Prod.mk.injEq] at e
      obtain ⟨_, e2, e3, _⟩ := e
      exact le_of_eq (runCoord_congr e3 e2 k.steady.origin k.steady.weight).symm

/-- In RUN no command but RESET lowers a sequence counter. -/
theorem exec_counters_rise {c : Instr} {s t : State} (m : ModesAgree s) (hs : CountersInRange s) (run : s.pp.station = .run)
    (hr : ∀ strap raw, c ≠ .reset strap raw) (h : exec c s = .next t) : s.ca.inSeq ≤ t.ca.inSeq ∧ s.ca.outSeq ≤ t.ca.outSeq := by
  have scanless := scan_of_run m run
  have same {u : State} (e : u.ca = s.ca) : s.ca.inSeq ≤ u.ca.inSeq ∧ s.ca.outSeq ≤ u.ca.outSeq := by
    rw [e]; exact ⟨le_refl _, le_refl _⟩
  rcases exec_answers c with ⟨strap, raw, rfl⟩ | ⟨fs, rfl⟩ | ⟨fs, rfl⟩ | ⟨f, rfl⟩ | rfl | moved
  · exact absurd rfl (hr strap raw)
  · cases h
    dsimp only
    split
    · exact same (raiseConditions_move _).ca
    · exact same rfl
  · rw [exec_start_run run] at h
    cases h
    exact same rfl
  · rcases exec_scanPageRead_cases h with rfl | ⟨c, _, _, _, hc, _⟩
    · exact same rfl
    · rw [scanless] at hc; cases hc
  · rcases exec_scanEnd_cases h with rfl | ⟨c, _, _, _, hc, _⟩
    · exact same rfl
    · rw [scanless] at hc; cases hc
  · obtain ⟨u, hu, k⟩ := moved s
    obtain rfl : u = t := Host.Outcome.next.inj (hu.symm.trans h)
    exact ⟨(k.steady.inSeq hs.inputs.2).1, (k.steady.outSeq hs.outputs.2).1⟩

/-- Settles O10: the range outlasts every step, and in RUN neither counter nor run coordinate falls. -/
theorem countersKeepTheirRangeAndNeverFall : Obligations.CountersKeepTheirRangeAndNeverFall := by
  unfold Obligations.CountersKeepTheirRangeAndNeverFall
  refine ⟨fun s t hs h => ?_, fun c s t m hs run hr h => ?_⟩
  · exact step_keeps (fun s _ _ _ h => h.ofCa rfl) (fun s _ h => h.ofCa rfl) (fun s t i hs h => exec_counters hs h) hs h
  · obtain ⟨inputs, outputs⟩ := exec_counters_rise m hs run hr h
    exact ⟨inputs, outputs, exec_runCoord m run hr h⟩

end Sys2Proof.Machine
end

section
/-! PROOF. O8 (R84): a command that can make a condition begin ends by settling, which sets the flags of the conditions that hold; any
other command leaves what the conditions look at, and clears no flag. -/

namespace Sys2Proof.Machine

/-! ### What the conditions look at -/

/-- What the archive conditions look at: stage, write queue, tables, page write, keep list, contexts, and the starts of the coils. -/
def State.conditions (s : State) :=
  (s.ar.stage, s.ar.writeQueue, s.ar.outs, s.ar.ins, s.ar.segs, s.ar.pageWrite, s.ru.keeps, s.pe.contexts,
    s.ca.openCoils.map (fun o => o.c0), s.ca.closing.map (fun r => r.c0))

theorem directoryFull_congr {s t : State} (ho : t.ar.outs = s.ar.outs) (hi : t.ar.ins = s.ar.ins) (hp : t.ar.pageWrite = s.ar.pageWrite) :
    directoryFull t = directoryFull s := by
  unfold directoryFull placesUsed placesTaken needsPlace inBySeq
  simp only [ho, hi, hp]

theorem eligible_congr {s t : State} (h : t.conditions = s.conditions) : eligible t = eligible s := by
  simp only [State.conditions, Prod.mk.injEq] at h
  obtain ⟨_, hw, ho, _, _, hp, hk, hc, hopen, hclosing⟩ := h
  funext g
  unfold eligible keepHolds pinHolds pinnedSegs holdsLiveCells liveStarts awaitingOutputs awaiting outBySeq isKept ctxAt
  simp only [hw, ho, hp, hk, hc, hopen, hclosing]

theorem reclaimHope_congr {s t : State} (h : t.conditions = s.conditions) : reclaimHope t = reclaimHope s := by
  have he := eligible_congr h
  simp only [State.conditions, Prod.mk.injEq] at h
  obtain ⟨_, _, _, _, hs, _⟩ := h
  unfold reclaimHope reclaimInHand lowestEligible
  rw [he, hs]

theorem directoryStuck_congr {s t : State} (h : t.conditions = s.conditions) : directoryStuck t = directoryStuck s := by
  have hope := reclaimHope_congr h
  simp only [State.conditions, Prod.mk.injEq] at h
  obtain ⟨_, _, ho, hi, _, hp, _⟩ := h
  unfold directoryStuck
  rw [hope, directoryFull_congr ho hi hp]

theorem archiveLowHolds_congr {s t : State} (h : t.ar.stage = s.ar.stage) : archiveLowHolds t = archiveLowHolds s := by
  unfold archiveLowHolds; rw [h]

theorem archiveFullHolds_congr {s t : State} (h : t.conditions = s.conditions) : archiveFullHolds t = archiveFullHolds s := by
  have stuck := directoryStuck_congr h
  simp only [State.conditions, Prod.mk.injEq] at h
  obtain ⟨hs, hw, _⟩ := h
  unfold archiveFullHolds
  rw [stuck, hs, hw]

/-! ### Flagging moves -/

/-- A change that leaves the conditions flagged where they were. -/
def Flagging (s t : State) : Prop := ConditionsFlagged s → ConditionsFlagged t

/-- The conditions and the station state stand, and no flag is cleared. -/
theorem Flagging.ofSame {s t : State} (h : t.conditions = s.conditions) (hs : t.pp.station = s.pp.station) (hf : FlagsKept s t) :
    Flagging s t := by
  have stage : t.ar.stage = s.ar.stage := by
    simp only [State.conditions, Prod.mk.injEq] at h
    exact h.1
  intro g
  refine ⟨fun hn hl => ?_, fun hn hl => ?_⟩
  · rw [hs] at hn
    rw [archiveLowHolds_congr stage] at hl
    exact hf _ (g.low hn hl)
  · rw [hs] at hn
    rw [archiveFullHolds_congr h] at hl
    exact hf _ (g.full hn hl)

theorem Flagging.refl (s : State) : Flagging s s := id

theorem Flagging.trans {s t u : State} (h : Flagging s t) (g : Flagging t u) : Flagging s u := g ∘ h

theorem Flagging.ofFlagged {s t : State} (h : Flagged t) : Flagging s t := fun _ => ⟨fun _ => h.1, fun _ => h.2⟩

theorem Flagging.ite {s t u : State} (b : Prop) [Decidable b] (h : Flagging s t) (g : Flagging s u) :
    Flagging s (if b then t else u) := by split <;> assumption

theorem settle_flagging (s t : State) : Flagging s (settle t) := .ofFlagged (settle_flagged t)

theorem settleArchive_flagging (s t : State) : Flagging s (settleArchive t) := .ofFlagged (settleArchive_flagged t)

theorem respond_flagging (code : Byte) (fs : List Byte) (r : PortResult) (n : Nat) (d : List Byte) (s : State) :
    Flagging s (respond code fs r n d s) := .ofSame rfl rfl (.refl s)

theorem refuse_flagging (code : Byte) (fs : List Byte) (n : Nat) (r : Reason) (s : State) : Flagging s (refuse code fs n r s) :=
  respond_flagging _ _ _ _ _ s

theorem accept_flagging (code : Byte) (fs d : List Byte) (s : State) : Flagging s (accept code fs d s) := respond_flagging _ _ _ _ _ s

/-! ### Commands that do not settle -/

theorem takeChange_flagging (k : Fin 12) (s : State) : Flagging s (takeChange k s) := by
  unfold takeChange
  dsimp only
  split
  · exact settleArchive_flagging _ _
  · exact .ofSame rfl rfl (.refl s)

theorem markIncomplete_conditions (c : Nat) (s : State) : (markIncomplete c s).conditions = s.conditions := by
  have coils (p : OpenCoil → Bool) : (s.ca.openCoils.map (fun o => if p o then { o with flags := o.flags.setIncomplete } else o)).map
      (fun o => o.c0) = s.ca.openCoils.map (fun o => o.c0) := by
    rw [List.map_map]
    refine List.map_congr_left fun o _ => ?_
    simp only [Function.comp]
    split <;> rfl
  have closing (p : OutputRecord → Bool) : (s.ca.closing.map (fun r => if p r then { r with flags := r.flags.setIncomplete } else r)).map
      (fun r => r.c0) = s.ca.closing.map (fun r => r.c0) := by
    rw [List.map_map]
    refine List.map_congr_left fun r _ => ?_
    simp only [Function.comp]
    split <;> rfl
  simp only [State.conditions, markIncomplete, coils, closing]

theorem takePair_conditions (delay : Nat) (p : State × Nat) (pair : Nat × Int) : (takePair delay p pair).1.conditions = p.1.conditions := by
  unfold takePair
  dsimp only
  split
  · split
    · rfl
    · split
      · show State.conditions (if _ then p.1 else markIncomplete _ p.1) = _
        split
        · rfl
        · exact markIncomplete_conditions _ _
      · rfl
  · rfl

theorem takeSet_conditions (pairs : List (Nat × Int)) (delay : Nat) (s : State) : (takeSet pairs delay s).1.conditions = s.conditions := by
  have all (l : List (Nat × Int)) (p : State × Nat) : (l.foldl (takePair delay) p).1.conditions = p.1.conditions := by
    induction l generalizing p with
    | nil => rfl
    | cons a l ih => exact (ih _).trans (takePair_conditions delay p a)
  unfold takeSet
  split
  · rfl
  · exact all pairs (s, 0)

theorem takeSet_flagging (pairs : List (Nat × Int)) (delay : Nat) (s : State) : Flagging s (takeSet pairs delay s).1 :=
  .ofSame (takeSet_conditions _ _ s) (takeSet_line _ _ s).station (takeSet_line _ _ s).flags

theorem freeze_flagging (i : CoilId) (s : State) : Flagging s (freeze i s).2 := by
  unfold freeze
  repeat' split
  all_goals first | exact .refl s | exact settle_flagging _ _

theorem lockAmend_flagging (c : LockCause) (s : State) : Flagging s (lockAmend c s) := .ofSame rfl rfl (flagsKept_raise _ _)

theorem amendOpen_flagging (kind : AmendKind) (i : CoilId) (seq : Nat) (s : State) : Flagging s (amendOpen kind i seq s).2 := by
  unfold amendOpen openOutput openInput
  repeat' split
  all_goals first | exact .refl s | exact lockAmend_flagging _ s | exact .ofSame rfl rfl (.refl s)

theorem amendRename_flagging (i : CoilId) (s : State) : Flagging s (amendRename i s).2 := by
  unfold amendRename renameOpen
  dsimp only
  repeat' split
  all_goals first | exact .refl s | exact .ofSame rfl rfl (.refl s)

theorem amendCommit_flagging (s : State) : Flagging s (amendCommit s).2 := by
  unfold amendCommit commitOpen
  repeat' split
  all_goals first
    | exact .refl s
    | exact lockAmend_flagging _ s
    | exact settle_flagging _ _
    | exact .ofSame rfl rfl (.refl s)

theorem completeRead_flagging (r : Reading) (failed : Bool) (take : Option Page → State → State) (s : State) :
    Flagging s (completeRead r failed take s) := by
  unfold completeRead
  dsimp only
  split
  · exact .ofSame rfl rfl (.refl s)
  · exact settle_flagging _ _

theorem receive_flagging (kind : FrameKind) (f : Frame) (s : State) : Flagging s (receive kind f s) := by
  have carrier : Flagging s (endCarrier s) := by
    unfold endCarrier
    split
    · exact .ofSame rfl rfl (.refl s)
    · exact .refl s
  have source (u : State) : Flagging u (hearSource f.src u) := by
    unfold hearSource
    split
    · exact .ofSame rfl rfl (.refl u)
    · exact .refl u
  unfold receive
  dsimp only
  split
  · split
    · exact settle_flagging _ _
    · exact carrier.trans (source _)
  · exact carrier

/-- A segment that waits for erase and becomes ERASING leaves a reclaim in hand, if it was a data segment. -/
theorem markErasing_hope {n : Nat} {s : State} (h : n ∈ eraseCandidates s) :
    (markErasing n s).conditions = s.conditions ∨ reclaimHope (markErasing n s) = true := by
  unfold markErasing
  split
  · exact .inl rfl
  · exact .inl rfl
  · rename_i h0 h1
    have chosen : ∃ g ∈ s.ar.segs, g.state = .chosen ∧ g.num = n := by
      unfold eraseCandidates at h
      dsimp only at h
      split at h
      · obtain ⟨g, hg, rfl⟩ := List.mem_map.1 h
        obtain ⟨hg, hs⟩ := List.mem_filter.1 hg
        exact ⟨g, hg, by simpa using hs, rfl⟩
      · obtain ⟨k, _, rfl⟩ := List.mem_map.1 h
        have below : k.val < 2 := k.isLt
        have not0 : k.val ≠ 0 := h0
        have not1 : k.val ≠ 1 := h1
        omega
    obtain ⟨g, hg, _, rfl⟩ := chosen
    refine .inr ?_
    have inHand : reclaimInHand { s with ar.segs := s.ar.segs.map (fun d => if d.num = g.num then { d with state := .erasing } else d) } = true := by
      refine List.any_eq_true.2 ⟨{ g with state := .erasing }, List.mem_map.2 ⟨g, hg, by simp⟩, rfl⟩
    rw [reclaimHope, inHand, Bool.true_or]

theorem eraseTarget_mem {n : Nat} {s : State} (h : eraseTarget s = some n) : n ∈ eraseCandidates s := by
  unfold eraseTarget at h
  split at h
  · cases h
  · rename_i m e
    cases h
    rw [e]
    exact List.mem_singleton_self _
  · exact List.mem_of_getElem? h

/-- ERASE_BEGIN: a data segment's erase was a reclaim in hand before it began. -/
theorem eraseBegin_flagging {n : Nat} {s : State} (h : eraseTarget s = some n) (e : Erase) (k : Nat) :
    Flagging s (markErasing n { s with ar.erase := some e, free := k }) := by
  have target : n ∈ eraseCandidates { s with ar.erase := some e, free := k } := by
    have same : eraseCandidates { s with ar.erase := some e, free := k } = eraseCandidates s := rfl
    rw [same]
    exact eraseTarget_mem h
  have pp : (markErasing n { s with ar.erase := some e, free := k }).pp = s.pp := by unfold markErasing; split <;> rfl
  have stage : (markErasing n { s with ar.erase := some e, free := k }).ar.stage = s.ar.stage := by unfold markErasing; split <;> rfl
  have queue : (markErasing n { s with ar.erase := some e, free := k }).ar.writeQueue = s.ar.writeQueue := by
    unfold markErasing; split <;> rfl
  rcases markErasing_hope target with same | hope
  · exact .ofSame same (by rw [pp]) (flagsKept_of_eq (by rw [pp]))
  · intro g
    refine ⟨fun hn hl => ?_, fun hn hl => ?_⟩
    · rw [pp] at hn
      rw [archiveLowHolds_congr stage] at hl
      rw [flagSet, pp]
      exact g.low hn hl
    · rw [pp] at hn
      rw [archiveFullHolds, directoryStuck, hope, stage, queue] at hl
      rw [flagSet, pp]
      refine g.full hn ?_
      rw [archiveFullHolds]
      simp only [Bool.not_true, Bool.and_false, Bool.or_false] at hl
      rw [hl, Bool.true_or]

/-! ### Every command -/

/-- A command that leaves the conditions flagged, whatever the state. -/
def Flags (c : Instr) : Prop := ∀ s t, exec c s = .next t → Flagging s t

theorem flags_of {c : Instr} (f : State → State) (he : ∀ s, exec c s = .next (f s)) (h : ∀ s, Flagging s (f s)) : Flags c := by
  intro s t ht
  rw [he] at ht
  cases ht
  exact h s

theorem flags_frame (kind : FrameKind) (f : Frame) : Flags (frameCommand kind f) :=
  flags_of (receive kind f) (frameCommand_receives kind f) (receive_flagging kind f)

theorem exec_flags (c : Instr) :
    (∃ strap raw, c = .reset strap raw) ∨ (∃ fs, c = .start fs) ∨ (∃ f, c = .scanPageRead f) ∨ Flags c := by
  have moved : Flags c → (∃ strap raw, c = .reset strap raw) ∨ (∃ fs, c = .start fs) ∨ (∃ f, c = .scanPageRead f) ∨ Flags c :=
    fun h => .inr (.inr (.inr h))
  cases c with
  | reset strap raw => exact .inl ⟨strap, raw, rfl⟩
  | start fs => exact .inr (.inl ⟨fs, rfl⟩)
  | scanPageRead f => exact .inr (.inr (.inl ⟨f, rfl⟩))
  | rawInputChange k l =>
    refine moved (flags_of _ (fun _ => rfl) fun s => .ite _ (.refl s) (.ite _ (.ofSame rfl rfl (.refl s)) (.ite _ ?_ (.ofSame rfl rfl (.refl s)))))
    exact Flagging.trans (t := { s with tiu.raw := setInput k l s.tiu.raw }) (.ofSame rfl rfl (.refl s)) (takeChange_flagging k _)
  | filteredChange k =>
    refine moved (flags_of _ (fun _ => rfl) fun s => ?_)
    split
    · exact .refl s
    · rename_i c _
      exact Flagging.trans (t := advanceTo c.due s) (.ofSame rfl rfl (.refl s)) (takeChange_flagging k _)
  | exitPulse b =>
    refine moved (flags_of _ (fun _ => rfl) fun s => .ite _ (.ite _ (settleArchive_flagging _ _) ?_) (.refl s))
    unfold countExitPulse
    split <;> exact .ofSame rfl rfl (.refl s)
  | entryPulse b => exact moved (flags_of _ (fun _ => rfl) fun s => .ite _ (.ofSame rfl rfl (.refl s)) (.refl s))
  | readEvents fs => exact moved (flags_of _ (fun _ => rfl) fun s => .ite _ (.ofFlagged (raiseConditions_flagged _)) (refuse_flagging _ _ _ _ s))
  | peekEvents fs => exact moved (flags_of _ (fun _ => rfl) fun s => .ite _ (accept_flagging _ _ _ s) (refuse_flagging _ _ _ _ s))
  | setEnables fs => exact moved (flags_of _ (fun _ => rfl) fun s => .ite _ (.ofSame rfl rfl (.refl s)) (refuse_flagging _ _ _ _ s))
  | readState fs => exact moved (flags_of _ (fun _ => rfl) fun s => .ite _ (accept_flagging _ _ _ s) (refuse_flagging _ _ _ _ s))
  | configure fs =>
    refine moved (flags_of _ (fun _ => rfl) fun s => ?_)
    split
    · exact refuse_flagging _ _ _ _ s
    · exact refuse_flagging _ _ _ _ s
    · split
      · exact refuse_flagging _ _ _ _ s
      · exact .ofSame rfl rfl (.refl s)
  | restart fs =>
    refine moved (flags_of _ (fun _ => rfl) fun s => .ite _ (refuse_flagging _ _ _ _ s) (.ite _ (refuse_flagging _ _ _ _ s) ?_))
    exact (settle_flagging s _).trans (accept_flagging _ _ _ _)
  | readLastCoil fs =>
    exact moved (flags_of _ (fun _ => rfl) fun s => .ite _ (refuse_flagging _ _ _ _ s) (.ite _ (refuse_flagging _ _ _ _ s) (accept_flagging _ _ _ s)))
  | announce fs =>
    refine moved (flags_of _ (fun _ => rfl) fun s => .ite _ (refuse_flagging _ _ _ _ s) (.ite _ (refuse_flagging _ _ _ _ s) ?_))
    split
    · exact refuse_flagging _ _ _ _ s
    · refine .ite _ (refuse_flagging _ _ _ _ s) (Flagging.trans ?_ (respond_flagging _ _ _ _ _ _))
      unfold announce
      repeat' split
      all_goals first | exact .refl s | exact .ofSame rfl rfl (.refl s)
  | nameExit fs =>
    refine moved (flags_of _ (fun _ => rfl) fun s => .ite _ (refuse_flagging _ _ _ _ s) (.ite _ (refuse_flagging _ _ _ _ s) ?_))
    dsimp only
    split
    · exact refuse_flagging _ _ _ _ s
    · exact .ite _ (refuse_flagging _ _ _ _ s) (.ofSame rfl rfl (.refl s))
  | sample fs =>
    refine moved (flags_of _ (fun _ => rfl) fun s => .ite _ (refuse_flagging _ _ _ _ s) (.ite _ (refuse_flagging _ _ _ _ s) ?_))
    exact (takeSet_flagging _ _ s).trans (accept_flagging _ _ _ _)
  | freeze fs =>
    refine moved (flags_of _ (fun _ => rfl) fun s => .ite _ (refuse_flagging _ _ _ _ s) (.ite _ (refuse_flagging _ _ _ _ s) ?_))
    split
    · exact refuse_flagging _ _ _ _ s
    · exact (freeze_flagging _ s).trans (respond_flagging _ _ _ _ _ _)
  | amendOpen fs =>
    refine moved (flags_of _ (fun _ => rfl) fun s => .ite _ (refuse_flagging _ _ _ _ s) (.ite _ (refuse_flagging _ _ _ _ s) ?_))
    split
    · exact (amendOpen_flagging _ _ _ s).trans (respond_flagging _ _ _ _ _ _)
    · exact refuse_flagging _ _ _ _ s
  | amendRename fs =>
    refine moved (flags_of _ (fun _ => rfl) fun s => .ite _ (refuse_flagging _ _ _ _ s) (.ite _ (refuse_flagging _ _ _ _ s) ?_))
    split
    · exact refuse_flagging _ _ _ _ s
    · exact (amendRename_flagging _ s).trans (respond_flagging _ _ _ _ _ _)
  | amendCommit fs =>
    refine moved (flags_of _ (fun _ => rfl) fun s => .ite _ (refuse_flagging _ _ _ _ s) (.ite _ (refuse_flagging _ _ _ _ s) ?_))
    exact (amendCommit_flagging s).trans (respond_flagging _ _ _ _ _ _)
  | amendCancel fs =>
    refine moved (flags_of _ (fun _ => rfl) fun s => .ite _ (refuse_flagging _ _ _ _ s) (.ite _ (refuse_flagging _ _ _ _ s) ?_))
    refine Flagging.trans ?_ (respond_flagging _ _ _ _ _ _)
    unfold amendCancel
    split <;> exact .ofSame rfl rfl (.refl s)
  | amendClear fs =>
    refine moved (flags_of _ (fun _ => rfl) fun s => .ite _ (refuse_flagging _ _ _ _ s) (.ite _ (refuse_flagging _ _ _ _ s) ?_))
    refine Flagging.trans ?_ (respond_flagging _ _ _ _ _ _)
    unfold amendClear
    split <;> exact .ofSame rfl rfl (.refl s)
  | unknownCommand code fs => exact moved (flags_of _ (fun _ => rfl) fun s => .ite _ (.refl s) (refuse_flagging _ _ _ _ s))
  | transactionAbort bytes => exact moved (flags_of _ (fun _ => rfl) fun s => .ofSame rfl rfl (.refl s))
  | scanEnd =>
    refine moved (flags_of _ (fun _ => rfl) fun s => ?_)
    split
    · exact .refl s
    · exact settle_flagging _ _
  | dataPageWrite =>
    refine moved (flags_of _ (fun _ => rfl) fun s => ?_)
    split
    · exact settle_flagging _ _
    · exact .refl s
  | pageWriteComplete =>
    refine moved (flags_of _ (fun _ => rfl) fun s => ?_)
    split
    · exact .refl s
    · exact settle_flagging _ _
  | pageReadStart =>
    refine moved (flags_of _ (fun _ => rfl) fun s => ?_)
    split
    · exact .ofSame rfl rfl (.refl s)
    · exact .refl s
  | recordReadComplete f =>
    refine moved (flags_of _ (fun _ => rfl) fun s => ?_)
    repeat' split
    all_goals first | exact .refl s | exact completeRead_flagging _ _ _ s
  | cellPageReadComplete f =>
    refine moved (flags_of _ (fun _ => rfl) fun s => ?_)
    repeat' split
    all_goals first | exact .refl s | exact completeRead_flagging _ _ _ s
  | amendReadComplete f =>
    refine moved (flags_of _ (fun _ => rfl) fun s => ?_)
    repeat' split
    all_goals first | exact .refl s | exact completeRead_flagging _ _ _ s
  | keepImageWrite =>
    refine moved (flags_of _ (fun _ => rfl) fun s => ?_)
    split
    · exact .ofSame rfl rfl (.refl s)
    · exact .refl s
  | keepImageWriteComplete =>
    refine moved (flags_of _ (fun _ => rfl) fun s => ?_)
    split
    · exact .refl s
    · exact .ofSame rfl rfl (.refl s)
  | eraseBegin =>
    refine moved (flags_of _ (fun _ => rfl) fun s => ?_)
    split
    · rename_i h
      exact eraseBegin_flagging h _ _
    · exact .refl s
  | eraseSuspendOrder =>
    refine moved (flags_of _ (fun _ => rfl) fun s => ?_)
    split
    · exact .refl s
    · exact .ite _ (.ofSame rfl rfl (.refl s)) (.refl s)
  | eraseSuspendComplete =>
    refine moved (flags_of _ (fun _ => rfl) fun s => ?_)
    split
    · exact .refl s
    · split
      · exact .refl s
      · exact .refl s
      · exact .ite _ (.ofSame rfl rfl (.refl s)) (.refl s)
  | eraseResume =>
    refine moved (flags_of _ (fun _ => rfl) fun s => ?_)
    split
    · exact .ofSame rfl rfl (.refl s)
    · exact .refl s
  | eraseComplete =>
    refine moved (flags_of _ (fun _ => rfl) fun s => ?_)
    split
    · exact .refl s
    · exact .ite _ (settle_flagging _ _) (.refl s)
  | seek f => exact moved (flags_frame .seek f)
  | own f => exact moved (flags_frame .own f)
  | pull f => exact moved (flags_frame .pull f)
  | bins f => exact moved (flags_frame .bins f)
  | mark f => exact moved (flags_frame .mark f)
  | done f => exact moved (flags_frame .done f)
  | wait f => exact moved (flags_frame .wait f)
  | go f => exact moved (flags_frame .go f)
  | stop f => exact moved (flags_frame .stop f)
  | keep f => exact moved (flags_frame .keep f)
  | unkeep f => exact moved (flags_frame .unkeep f)
  | kept f => exact moved (flags_frame .kept f)
  | frameDiscarded d b =>
    refine moved (flags_of _ (fun _ => rfl) fun s => ?_)
    have carrier : Flagging s (endCarrier s) := by
      unfold endCarrier
      split
      · exact .ofSame rfl rfl (.refl s)
      · exact .refl s
    refine .ite _ (carrier.trans ?_) carrier
    unfold hearSource
    split
    · exact .ofSame rfl rfl (.refl _)
    · exact .refl _
  | locateWindowExpiry h =>
    refine moved (flags_of _ (fun _ => rfl) fun s => ?_)
    split
    · exact .refl s
    · exact settle_flagging _ _
  | replyWindowExpiry =>
    refine moved (flags_of _ (fun _ => rfl) fun s => ?_)
    split
    · exact .refl s
    · exact settle_flagging _ _
  | silenceTimeout k =>
    refine moved (flags_of _ (fun _ => rfl) fun s => ?_)
    split
    · exact settle_flagging _ _
    · exact .refl s
  | drainTimeout k =>
    refine moved (flags_of _ (fun _ => rfl) fun s => ?_)
    split
    · exact .refl s
    · exact settle_flagging _ _
  | pauseLimit k =>
    refine moved (flags_of _ (fun _ => rfl) fun s => ?_)
    split
    · exact .refl s
    · exact settle_flagging _ _
  | stagingAgeExpiry =>
    refine moved (flags_of _ (fun _ => rfl) fun s => ?_)
    split
    · exact .refl s
    · exact .ofSame rfl rfl (.refl s)
  | relayRoomResume k => exact moved (flags_of _ (fun _ => rfl) fun s => .ite _ (settle_flagging _ _) (.refl s))
  | accessWon =>
    refine moved (flags_of _ (fun _ => rfl) fun s => ?_)
    split
    · exact .refl s
    · exact .ite _ (.refl s) (settle_flagging _ _)
  | loopbackDataFrame k =>
    refine moved (flags_of _ (fun _ => rfl) fun s => .ite _ ?_ (.refl s))
    split
    · exact .refl s
    · exact settle_flagging _ _
  | frameSent =>
    refine moved (flags_of _ (fun _ => rfl) fun s => ?_)
    split
    · exact .refl s
    · exact settle_flagging _ _
  | readbackMismatch =>
    refine moved (flags_of _ (fun _ => rfl) fun s => ?_)
    split
    · exact .refl s
    · exact settle_flagging _ _
  | carrierSeen => exact moved (flags_of _ (fun _ => rfl) fun s => .ofSame rfl rfl (.refl s))

/-- The conditions flagged after every command; START settles, and RESET and the scan's page read end in SCAN. -/
theorem exec_flagged {c : Instr} {s t : State} (m : ModesAgree s) (hs : ConditionsFlagged s) (h : exec c s = .next t) :
    ConditionsFlagged t := by
  rcases exec_flags c with ⟨strap, raw, rfl⟩ | ⟨fs, rfl⟩ | ⟨f, rfl⟩ | flags
  · cases h
    exact ⟨fun hn => absurd rfl hn, fun hn => absurd rfl hn⟩
  · rcases exec_start_cases h with ⟨r, rfl⟩ | ⟨_, _, c, _, rfl⟩
    · exact refuse_flagging _ _ _ _ s hs
    · exact ((settle_flagging s _).trans (accept_flagging _ _ _ _)) hs
  · rcases exec_scanPageRead_cases h with rfl | ⟨c, now, view, d, hc, rfl⟩
    · exact hs
    · have scanning : s.pp.station = .scan := by
        have := m.scan
        rw [hc] at this
        simpa using this.symm
      have stands : (buildTables view { s with now := now, ar.scan := some d }).pp.station = .scan := by rw [buildTables_pp]; exact scanning
      exact ⟨fun hn => absurd stands hn, fun hn => absurd stands hn⟩
  · exact flags s t h hs

/-- Settles O8: by the case of each command, the agreement of scan and station carried along. -/
theorem stepKeepsTheConditionsFlagged : Obligations.StepKeepsTheConditionsFlagged := by
  unfold Obligations.StepKeepsTheConditionsFlagged
  intro s t m hs h
  rcases step_cases h with ⟨_, rfl⟩ | ⟨i, rest, _, h⟩
  · obtain ⟨now, free, pending, e⟩ := idle_eq s
    rw [e]
    exact Flagging.ofSame (s := s) rfl rfl (.refl s) hs
  · exact exec_flagged (s := { s with pending := rest }) ⟨m.scan, m.lock, m.config⟩ (Flagging.ofSame (s := s) rfl rfl (.refl s) hs) h

end Sys2Proof.Machine
end

section
/-! PROOF. O2: which own events are due, list by list, and what an idle step does with them. -/

namespace Sys2Proof.Machine

/-! ### Membership in the lists of own events -/

@[simp] theorem mem_eventIf (b : Bool) (i e : Instr) : e ∈ eventIf b i ↔ b = true ∧ e = i := by
  cases b <;> simp [eventIf]

theorem hasRun_iff (t : Option Nat) (time now : Nat) : hasRun t time now = true ↔ ∃ b, t = some b ∧ b + time ≤ now := by
  cases t <;> simp [hasRun]

theorem mem_allInputs (k : Fin 12) : k ∈ allInputs := by revert k; decide
theorem mem_allSlots (k : Fin 8) : k ∈ allSlots := by revert k; decide
theorem mem_allContexts (c : Fin 6) : c ∈ allContexts := by revert c; decide

/-- When each own event is due; no other command is one. -/
def DueEvent (s : State) : Instr → Prop
  | .filteredChange k => ∃ c, s.tiu.changes.get k = some c ∧ c.began + c.filterMs * 1000 ≤ s.now
  | .scanEnd => ∃ c, s.ar.scan = some c ∧ c.done = true
  | .scanPageRead f => f = false ∧ ∃ c, s.ar.scan = some c ∧ c.done = false ∧ c.began + 100 ≤ s.now
  | .pageWriteComplete => ∃ w, s.ar.pageWrite = some w ∧ w.began + 1000 ≤ s.now
  | .keepImageWriteComplete => ∃ w, s.ar.keepWrite = some w ∧ w.began + 1000 ≤ s.now
  | .recordReadComplete f => f = false ∧ ∃ r c, s.ar.reading = some r ∧ r.request.reader = .record c ∧ r.began + 100 ≤ s.now
  | .cellPageReadComplete f => f = false ∧ ∃ r c, s.ar.reading = some r ∧ r.request.reader = .cells c ∧ r.began + 100 ≤ s.now
  | .amendReadComplete f => f = false ∧ ∃ r, s.ar.reading = some r ∧ r.request.reader = .amend ∧ r.began + 100 ≤ s.now
  | .eraseBegin => canEraseBegin s = true
  | .eraseSuspendOrder => ∃ e, s.ar.erase = some e ∧ e.phase = .running ∧ somethingWaits s = true ∧ e.since + 5000 ≤ s.now
      ∧ s.now < e.since + (400000 - e.total)
  | .eraseSuspendComplete => ∃ e ordered complete, s.ar.erase = some e ∧ e.phase = .suspending ordered complete ∧ complete ≤ s.now
      ∧ ¬(e.since + (400000 - e.total) ≤ ordered + 200 ∧ e.since + (400000 - e.total) ≤ s.now)
  | .eraseResume => ∃ e, s.ar.erase = some e ∧ e.phase = .suspended ∧ interfaceFree s = true ∧ somethingWaits s = false
  | .eraseComplete => ∃ e, s.ar.erase = some e ∧ e.since + (400000 - e.total) ≤ s.now
      ∧ (e.phase = .running
          ∨ ∃ ordered complete, e.phase = .suspending ordered complete ∧ e.since + (400000 - e.total) ≤ ordered + 200)
  | .keepImageWrite => interfaceFree s = true ∧ keepImageReady s = true
  | .pageReadStart => canReadStart s = true
  | .dataPageWrite => canWriteData s = true
  | .locateWindowExpiry h => ∃ began l, runningLocate s h = some (began, l) ∧ began + 40000 ≤ s.now
  | .replyWindowExpiry => ∃ h owner began, s.ru.head = some h ∧ h.phase = .awaiting owner (some began) ∧ began + 200000 ≤ s.now
  | .silenceTimeout k => ∃ x p began, slotAt s k = some x ∧ x.phase = .pulling p ∧ p.silence = some began ∧ began + 1500000 ≤ s.now
  | .drainTimeout k => ∃ x left, slotAt s k = some x ∧ x.phase = .draining (some left) ∧ left + 1500000 ≤ s.now
  | .pauseLimit c => ∃ x began, ctxAt s c = some x ∧ x.paused = some began ∧ began + 5000000 ≤ s.now
  | .relayRoomResume c => canPlace s c = true
  | .loopbackDataFrame c => ∃ x, ctxAt s c = some x ∧ x.frameReady = true ∧ x.requester = s.bi.node ∧ s.bi.node ≠ 0
  | .accessWon => ∃ t, s.bi.silence = some t ∧ s.bi.node ≠ 0 ∧ s.bi.tx = none ∧ wantsBus s = true ∧ ownSlotStart s t s.now = s.now
  | .frameSent => ∃ t, s.bi.tx = some t ∧ t.began + 4 * (t.bytes.length + 2) ≤ s.now
  | _ => False

theorem mem_trackingEvents (s : State) (e : Instr) : e ∈ trackingEvents s ↔ ∃ k, e = .filteredChange k ∧ DueEvent s e := by
  simp only [trackingEvents, List.mem_flatMap, mem_allInputs, true_and, mem_eventIf, hasRun_iff, Option.map_eq_some_iff]
  constructor
  · rintro ⟨k, ⟨b, ⟨c, hc, rfl⟩, due⟩, rfl⟩
    exact ⟨k, rfl, c, hc, due⟩
  · rintro ⟨k, rfl, c, hc, due⟩
    exact ⟨k, ⟨_, ⟨c, hc, rfl⟩, due⟩, rfl⟩

theorem mem_scanEvents (s : State) (e : Instr) : e ∈ scanEvents s ↔ (e = .scanEnd ∨ ∃ f, e = .scanPageRead f) ∧ DueEvent s e := by
  unfold scanEvents
  cases hs : s.ar.scan with
  | none =>
    refine ⟨fun h => (nomatch h), ?_⟩
    rintro ⟨rfl | ⟨f, rfl⟩, due⟩ <;> simp [DueEvent, hs] at due
  | some c =>
    dsimp only
    cases hd : c.done with
    | true =>
      constructor
      · intro h
        obtain rfl : e = .scanEnd := by simpa using h
        exact ⟨.inl rfl, c, hs, hd⟩
      · rintro ⟨rfl | ⟨f, rfl⟩, due⟩
        · simp
        · obtain ⟨_, d, h, hn, _⟩ := due
          obtain rfl : c = d := by simpa [hs] using h
          simp [hd] at hn
    | false =>
      simp only [Bool.false_eq_true, if_false, mem_eventIf, decide_eq_true_eq]
      constructor
      · rintro ⟨due, rfl⟩
        exact ⟨.inr ⟨false, rfl⟩, rfl, c, hs, hd, due⟩
      · rintro ⟨rfl | ⟨f, rfl⟩, due⟩
        · obtain ⟨d, h, hn⟩ := due
          obtain rfl : c = d := by simpa [hs] using h
          simp [hd] at hn
        · obtain ⟨rfl, d, h, _, due⟩ := due
          obtain rfl : c = d := by simpa [hs] using h
          exact ⟨due, rfl⟩

theorem mem_readEvents (s : State) (e : Instr) : e ∈ readEvents s ↔
    ((∃ f, e = .recordReadComplete f) ∨ (∃ f, e = .cellPageReadComplete f) ∨ ∃ f, e = .amendReadComplete f) ∧ DueEvent s e := by
  unfold readEvents
  cases hs : s.ar.reading with
  | none =>
    refine ⟨fun h => (nomatch h), ?_⟩
    rintro ⟨⟨f, rfl⟩ | ⟨f, rfl⟩ | ⟨f, rfl⟩, due⟩ <;> simp [DueEvent, hs] at due
  | some r =>
    simp only [mem_eventIf, decide_eq_true_eq]
    constructor
    · rintro ⟨due, rfl⟩
      cases hr : r.request.reader with
      | record c => exact ⟨.inl ⟨false, rfl⟩, rfl, r, c, hs, hr, due⟩
      | cells c => exact ⟨.inr (.inl ⟨false, rfl⟩), rfl, r, c, hs, hr, due⟩
      | amend => exact ⟨.inr (.inr ⟨false, rfl⟩), rfl, r, hs, hr, due⟩
    · rintro ⟨⟨f, rfl⟩ | ⟨f, rfl⟩ | ⟨f, rfl⟩, due⟩
      · obtain ⟨rfl, q, c, h, hr, due⟩ := due
        obtain rfl : r = q := by simpa [hs] using h
        exact ⟨due, by rw [hr]⟩
      · obtain ⟨rfl, q, c, h, hr, due⟩ := due
        obtain rfl : r = q := by simpa [hs] using h
        exact ⟨due, by rw [hr]⟩
      · obtain ⟨rfl, q, h, hr, due⟩ := due
        obtain rfl : r = q := by simpa [hs] using h
        exact ⟨due, by rw [hr]⟩

theorem erase_none_of_canEraseBegin {s : State} (h : canEraseBegin s = true) : s.ar.erase = none := by
  unfold canEraseBegin at h
  simp only [Bool.and_eq_true, Option.isNone_iff_eq_none] at h
  exact h.1.2

/-- The five events of an erase. -/
def IsEraseEvent (e : Instr) : Prop :=
  e = .eraseBegin ∨ e = .eraseComplete ∨ e = .eraseSuspendOrder ∨ e = .eraseSuspendComplete ∨ e = .eraseResume

theorem canEraseResume_iff (s : State) : canEraseResume s = true ↔
    ∃ e, s.ar.erase = some e ∧ e.phase = .suspended ∧ interfaceFree s = true ∧ somethingWaits s = false := by
  unfold canEraseResume
  cases s.ar.erase <;> simp [and_assoc]

theorem mem_eraseEvents (s : State) (e : Instr) : e ∈ eraseEvents s ↔ IsEraseEvent e ∧ DueEvent s e := by
  unfold eraseEvents IsEraseEvent
  cases hs : s.ar.erase with
  | none =>
    simp only [mem_eventIf]
    constructor
    · rintro ⟨due, rfl⟩
      exact ⟨.inl rfl, due⟩
    · rintro ⟨rfl | rfl | rfl | rfl | rfl, due⟩
      · exact ⟨due, rfl⟩
      all_goals simp [DueEvent, hs] at due
  | some x =>
    have begun : ¬DueEvent s .eraseBegin := fun h => by
      have := erase_none_of_canEraseBegin h
      rw [hs] at this; cases this
    have completes : x.completes = x.since + (400000 - x.total) := rfl
    have run : eraseRunTime = 5000 := rfl
    simp only [completes, run, Erase.mayComplete]
    cases hp : x.phase with
    | running =>
      simp only [true_and]
      by_cases reached : x.since + (400000 - x.total) ≤ s.now
      · rw [if_pos reached]
        constructor
        · intro h
          obtain rfl : e = .eraseComplete := by simpa using h
          exact ⟨.inr (.inl rfl), x, hs, reached, .inl hp⟩
        · rintro ⟨rfl | rfl | rfl | rfl | rfl, due⟩
          · exact absurd due begun
          · simp
          · simp [DueEvent, hs] at due; omega
          · simp [DueEvent, hs, hp] at due
          · simp [DueEvent, hs, hp] at due
      · rw [if_neg reached]
        simp only [mem_eventIf, Bool.and_eq_true, decide_eq_true_eq]
        constructor
        · rintro ⟨⟨waits, ran⟩, rfl⟩
          exact ⟨.inr (.inr (.inl rfl)), x, hs, hp, waits, ran, by omega⟩
        · rintro ⟨rfl | rfl | rfl | rfl | rfl, due⟩
          · exact absurd due begun
          · simp [DueEvent, hs] at due; omega
          · obtain ⟨y, h, _, waits, ran, _⟩ := due
            obtain rfl : x = y := by simpa [hs] using h
            exact ⟨⟨waits, ran⟩, rfl⟩
          · simp [DueEvent, hs, hp] at due
          · simp [DueEvent, hs, hp] at due
    | suspending ordered complete =>
      simp only [decide_eq_true_eq]
      by_cases reached : x.since + (400000 - x.total) ≤ ordered + 200 ∧ x.since + (400000 - x.total) ≤ s.now
      · rw [if_pos reached]
        constructor
        · intro h
          obtain rfl : e = .eraseComplete := by simpa using h
          exact ⟨.inr (.inl rfl), x, hs, reached.2, .inr ⟨ordered, complete, hp, reached.1⟩⟩
        · rintro ⟨rfl | rfl | rfl | rfl | rfl, due⟩
          · exact absurd due begun
          · simp
          · simp [DueEvent, hs, hp] at due
          · obtain ⟨y, o, k, h, hy, _, still⟩ := due
            obtain rfl : x = y := by simpa [hs] using h
            rw [hp] at hy
            cases hy
            exact absurd reached still
          · simp [DueEvent, hs, hp] at due
      · rw [if_neg reached]
        simp only [mem_eventIf, decide_eq_true_eq]
        constructor
        · rintro ⟨ran, rfl⟩
          exact ⟨.inr (.inr (.inr (.inl rfl))), x, ordered, complete, hs, hp, ran, reached⟩
        · rintro ⟨rfl | rfl | rfl | rfl | rfl, due⟩
          · exact absurd due begun
          · obtain ⟨y, h, done, hr | ⟨o, k, hy, late⟩⟩ := due
            · obtain rfl : x = y := by simpa [hs] using h
              rw [hp] at hr; cases hr
            · obtain rfl : x = y := by simpa [hs] using h
              rw [hp] at hy
              cases hy
              exact absurd ⟨late, done⟩ reached
          · simp [DueEvent, hs, hp] at due
          · obtain ⟨y, o, k, h, hy, ran, _⟩ := due
            obtain rfl : x = y := by simpa [hs] using h
            rw [hp] at hy
            cases hy
            exact ⟨ran, rfl⟩
          · simp [DueEvent, hs, hp] at due
    | suspended =>
      simp only [Bool.false_eq_true, false_and, if_false, mem_eventIf, canEraseResume_iff]
      constructor
      · rintro ⟨due, rfl⟩
        exact ⟨.inr (.inr (.inr (.inr rfl))), due⟩
      · rintro ⟨rfl | rfl | rfl | rfl | rfl, due⟩
        · exact absurd due begun
        · simp [DueEvent, hs, hp] at due
        · simp [DueEvent, hs, hp] at due
        · simp [DueEvent, hs, hp] at due
        · exact ⟨due, rfl⟩

/-! ### Windows, timers and streams -/

theorem replyBegan_eq_some (s : State) (t : Nat) :
    replyBegan s = some t ↔ ∃ h owner, s.ru.head = some h ∧ h.phase = .awaiting owner (some t) := by
  unfold replyBegan
  cases hs : s.ru.head with
  | none => simp
  | some h => cases hp : h.phase <;> simp [hp]

theorem silenceBegan_eq_some (s : State) (k : Fin 8) (t : Nat) :
    silenceBegan s k = some t ↔ ∃ x p, slotAt s k = some x ∧ x.phase = .pulling p ∧ p.silence = some t := by
  unfold silenceBegan
  cases hs : slotAt s k with
  | none => simp
  | some x => cases hp : x.phase <;> simp [hp]

theorem drainBegan_eq_some (s : State) (k : Fin 8) (t : Nat) :
    drainBegan s k = some t ↔ ∃ x, slotAt s k = some x ∧ x.phase = .draining (some t) := by
  unfold drainBegan
  cases hs : slotAt s k with
  | none => simp
  | some x => cases hp : x.phase <;> simp [hp]

theorem pausedAt_eq_some (s : State) (c : Fin 6) (t : Nat) : pausedAt s c = some t ↔ ∃ x, ctxAt s c = some x ∧ x.paused = some t := by
  unfold pausedAt
  cases ctxAt s c <;> simp

theorem locateDue_iff (s : State) (h : LocateHolder) :
    hasRun ((runningLocate s h).map (fun l => l.1)) locateWindow s.now = true ↔ DueEvent s (.locateWindowExpiry h) := by
  simp only [hasRun_iff, Option.map_eq_some_iff, locateWindow, DueEvent]
  constructor
  · rintro ⟨b, ⟨⟨began, l⟩, hl, rfl⟩, due⟩
    exact ⟨began, l, hl, due⟩
  · rintro ⟨began, l, hl, due⟩
    exact ⟨began, ⟨(began, l), hl, rfl⟩, due⟩

theorem silenceDue_iff (s : State) (k : Fin 8) : hasRun (silenceBegan s k) silenceTime s.now = true ↔ DueEvent s (.silenceTimeout k) := by
  simp only [hasRun_iff, silenceBegan_eq_some, silenceTime, DueEvent]
  constructor
  · rintro ⟨b, ⟨x, p, hx, hp, hb⟩, due⟩; exact ⟨x, p, b, hx, hp, hb, due⟩
  · rintro ⟨x, p, b, hx, hp, hb, due⟩; exact ⟨b, ⟨x, p, hx, hp, hb⟩, due⟩

theorem drainDue_iff (s : State) (k : Fin 8) : hasRun (drainBegan s k) drainTime s.now = true ↔ DueEvent s (.drainTimeout k) := by
  simp only [hasRun_iff, drainBegan_eq_some, drainTime, DueEvent]
  constructor
  · rintro ⟨b, ⟨x, hx, hp⟩, due⟩; exact ⟨x, b, hx, hp, due⟩
  · rintro ⟨x, b, hx, hp, due⟩; exact ⟨b, ⟨x, hx, hp⟩, due⟩

theorem replyDue_iff (s : State) : hasRun (replyBegan s) replyWindow s.now = true ↔ DueEvent s .replyWindowExpiry := by
  simp only [hasRun_iff, replyBegan_eq_some, replyWindow, DueEvent]
  constructor
  · rintro ⟨b, ⟨h, owner, hh, hp⟩, due⟩; exact ⟨h, owner, b, hh, hp, due⟩
  · rintro ⟨h, owner, b, hh, hp, due⟩; exact ⟨b, ⟨h, owner, hh, hp⟩, due⟩

theorem pauseDue_iff (s : State) (c : Fin 6) : hasRun (pausedAt s c) pauseTime s.now = true ↔ DueEvent s (.pauseLimit c) := by
  simp only [hasRun_iff, pausedAt_eq_some, pauseTime, DueEvent]
  constructor
  · rintro ⟨b, ⟨x, hx, hp⟩, due⟩; exact ⟨x, b, hx, hp, due⟩
  · rintro ⟨x, b, hx, hp, due⟩; exact ⟨b, ⟨x, hx, hp⟩, due⟩

theorem hasLoopFor_iff (s : State) (c : Fin 6) : hasLoopFor s c = true ↔ DueEvent s (.loopbackDataFrame c) := by
  unfold hasLoopFor DueEvent
  cases hs : ctxAt s c <;> simp [hs, and_assoc]

theorem accessDue_iff (s : State) : accessDue s = true ↔ DueEvent s .accessWon := by
  unfold accessDue DueEvent
  cases s.bi.silence <;> simp [and_assoc]

/-- The events of windows and timers. -/
def IsTimerEvent (e : Instr) : Prop :=
  (∃ h, e = .locateWindowExpiry h) ∨ (∃ k, e = .silenceTimeout k) ∨ (∃ k, e = .drainTimeout k) ∨ e = .replyWindowExpiry
    ∨ ∃ c, e = .pauseLimit c

theorem mem_timerEvents (s : State) (e : Instr) : e ∈ timerEvents s ↔ IsTimerEvent e ∧ DueEvent s e := by
  simp only [timerEvents, List.mem_append, List.mem_flatMap, mem_eventIf, mem_allSlots, mem_allContexts, true_and, locateDue_iff,
    silenceDue_iff, drainDue_iff, replyDue_iff, pauseDue_iff, IsTimerEvent]
  constructor
  · rintro (((⟨k, (⟨due, rfl⟩ | ⟨due, rfl⟩) | ⟨due, rfl⟩⟩ | ⟨due, rfl⟩) | ⟨due, rfl⟩) | ⟨c, due, rfl⟩)
    · exact ⟨.inl ⟨_, rfl⟩, due⟩
    · exact ⟨.inr (.inl ⟨_, rfl⟩), due⟩
    · exact ⟨.inr (.inr (.inl ⟨_, rfl⟩)), due⟩
    · exact ⟨.inl ⟨_, rfl⟩, due⟩
    · exact ⟨.inr (.inr (.inr (.inl rfl))), due⟩
    · exact ⟨.inr (.inr (.inr (.inr ⟨_, rfl⟩))), due⟩
  · rintro ⟨⟨h, rfl⟩ | ⟨k, rfl⟩ | ⟨k, rfl⟩ | rfl | ⟨c, rfl⟩, due⟩
    · cases h with
      | slot k => exact .inl (.inl (.inl ⟨k, .inl (.inl ⟨due, rfl⟩)⟩))
      | task => exact .inl (.inl (.inr ⟨due, rfl⟩))
    · exact .inl (.inl (.inl ⟨k, .inl (.inr ⟨due, rfl⟩)⟩))
    · exact .inl (.inl (.inl ⟨k, .inr ⟨due, rfl⟩⟩))
    · exact .inl (.inr ⟨due, rfl⟩)
    · exact .inr ⟨c, due, rfl⟩

/-- The events of relay buffers, the loopback and the bus. -/
def IsStreamEvent (e : Instr) : Prop :=
  (∃ c, e = .relayRoomResume c) ∨ (∃ c, e = .loopbackDataFrame c) ∨ e = .accessWon ∨ e = .frameSent

theorem mem_frameSent (s : State) (e : Instr) :
    (e ∈ match s.bi.tx with
      | none => []
      | some t => eventIf (decide (t.began + frameTime t.bytes ≤ s.now)) .frameSent) ↔ e = .frameSent ∧ DueEvent s e := by
  cases hs : s.bi.tx with
  | none =>
    refine ⟨fun h => (nomatch h), ?_⟩
    rintro ⟨rfl, t, h, _⟩
    rw [hs] at h; cases h
  | some t =>
    have time : frameTime t.bytes = 4 * (t.bytes.length + 2) := Nat.mul_comm _ _
    simp only [mem_eventIf, decide_eq_true_eq]
    constructor
    · rintro ⟨due, rfl⟩
      exact ⟨rfl, t, hs, time ▸ due⟩
    · rintro ⟨rfl, u, h, due⟩
      obtain rfl : t = u := by simpa [hs] using h
      exact ⟨time ▸ due, rfl⟩

theorem mem_streamEvents (s : State) (e : Instr) : e ∈ streamEvents s ↔ IsStreamEvent e ∧ DueEvent s e := by
  unfold streamEvents
  rw [List.mem_append, List.mem_append]
  refine (or_congr .rfl (mem_frameSent s e)).trans ?_
  simp only [List.mem_flatMap, List.mem_append, mem_eventIf, mem_allContexts, true_and, hasLoopFor_iff, accessDue_iff, IsStreamEvent]
  constructor
  · rintro ((⟨c, ⟨due, rfl⟩ | ⟨due, rfl⟩⟩ | ⟨due, rfl⟩) | ⟨rfl, due⟩)
    · exact ⟨.inl ⟨_, rfl⟩, due⟩
    · exact ⟨.inr (.inl ⟨_, rfl⟩), due⟩
    · exact ⟨.inr (.inr (.inl rfl)), due⟩
    · exact ⟨.inr (.inr (.inr rfl)), due⟩
  · rintro ⟨⟨c, rfl⟩ | ⟨c, rfl⟩ | rfl | rfl, due⟩
    · exact .inl (.inl ⟨c, .inl ⟨due, rfl⟩⟩)
    · exact .inl (.inl ⟨c, .inr ⟨due, rfl⟩⟩)
    · exact .inl (.inr ⟨due, rfl⟩)
    · exact .inr ⟨rfl, due⟩

/-- The events of the flash interface. -/
def IsFlashEvent (e : Instr) : Prop :=
  e = .pageWriteComplete ∨ e = .keepImageWriteComplete
    ∨ ((∃ f, e = .recordReadComplete f) ∨ (∃ f, e = .cellPageReadComplete f) ∨ ∃ f, e = .amendReadComplete f)
    ∨ IsEraseEvent e ∨ e = .keepImageWrite ∨ e = .pageReadStart ∨ e = .dataPageWrite

theorem writeDue_iff (s : State) :
    hasRun (s.ar.pageWrite.map PageWrite.began) pageWriteTime s.now = true ↔ DueEvent s .pageWriteComplete := by
  simp only [hasRun_iff, Option.map_eq_some_iff, pageWriteTime, DueEvent]
  constructor
  · rintro ⟨b, ⟨w, hw, rfl⟩, due⟩; exact ⟨w, hw, due⟩
  · rintro ⟨w, hw, due⟩; exact ⟨w.began, ⟨w, hw, rfl⟩, due⟩

theorem imageDue_iff (s : State) :
    hasRun (s.ar.keepWrite.map KeepWrite.began) pageWriteTime s.now = true ↔ DueEvent s .keepImageWriteComplete := by
  simp only [hasRun_iff, Option.map_eq_some_iff, pageWriteTime, DueEvent]
  constructor
  · rintro ⟨b, ⟨w, hw, rfl⟩, due⟩; exact ⟨w, hw, due⟩
  · rintro ⟨w, hw, due⟩; exact ⟨w.began, ⟨w, hw, rfl⟩, due⟩

theorem mem_flashEvents (s : State) (e : Instr) : e ∈ flashEvents s ↔ IsFlashEvent e ∧ DueEvent s e := by
  simp only [flashEvents, List.mem_append, mem_eventIf, mem_readEvents, mem_eraseEvents, writeDue_iff, imageDue_iff, Bool.and_eq_true,
    IsFlashEvent]
  constructor
  · rintro ((((((⟨due, rfl⟩ | ⟨due, rfl⟩) | ⟨is, due⟩) | ⟨is, due⟩) | ⟨due, rfl⟩) | ⟨due, rfl⟩) | ⟨due, rfl⟩)
    · exact ⟨.inl rfl, due⟩
    · exact ⟨.inr (.inl rfl), due⟩
    · exact ⟨.inr (.inr (.inl is)), due⟩
    · exact ⟨.inr (.inr (.inr (.inl is))), due⟩
    · exact ⟨.inr (.inr (.inr (.inr (.inl rfl)))), due⟩
    · exact ⟨.inr (.inr (.inr (.inr (.inr (.inl rfl))))), due⟩
    · exact ⟨.inr (.inr (.inr (.inr (.inr (.inr rfl))))), due⟩
  · rintro ⟨rfl | rfl | is | is | rfl | rfl | rfl, due⟩
    · exact .inl (.inl (.inl (.inl (.inl (.inl ⟨due, rfl⟩)))))
    · exact .inl (.inl (.inl (.inl (.inl (.inr ⟨due, rfl⟩)))))
    · exact .inl (.inl (.inl (.inl (.inr ⟨is, due⟩))))
    · exact .inl (.inl (.inl (.inr ⟨is, due⟩)))
    · exact .inl (.inl (.inr ⟨due, rfl⟩))
    · exact .inl (.inr ⟨due, rfl⟩)
    · exact .inr ⟨due, rfl⟩

/-! ### All own events -/

/-- A command that can be due is in one of the five lists. -/
theorem dueEvent_listed {s : State} {e : Instr} (h : DueEvent s e) :
    (∃ k, e = .filteredChange k) ∨ (e = .scanEnd ∨ ∃ f, e = .scanPageRead f) ∨ IsFlashEvent e ∨ IsTimerEvent e ∨ IsStreamEvent e := by
  unfold IsFlashEvent IsEraseEvent IsTimerEvent IsStreamEvent
  unfold DueEvent at h
  split at h <;> first | exact h.elim | simp

theorem mem_ownEvents (s : State) (e : Instr) : e ∈ ownEvents s ↔ DueEvent s e := by
  simp only [ownEvents, List.mem_append, mem_trackingEvents, mem_scanEvents, mem_flashEvents, mem_timerEvents, mem_streamEvents]
  constructor
  · rintro ((((⟨_, _, due⟩ | ⟨_, due⟩) | ⟨_, due⟩) | ⟨_, due⟩) | ⟨_, due⟩) <;> exact due
  · intro due
    rcases dueEvent_listed due with ⟨k, hk⟩ | is | is | is | is
    · exact .inl (.inl (.inl (.inl ⟨k, hk, due⟩)))
    · exact .inl (.inl (.inl (.inr ⟨is, due⟩)))
    · exact .inl (.inl (.inr ⟨is, due⟩))
    · exact .inl (.inr ⟨is, due⟩)
    · exact .inr ⟨is, due⟩

/-! ### The idle step -/

theorem step_idle {s : State} (h : s.pending = []) : step s = .next (idle s) := by
  unfold step; rw [h]

/-- Of several events due, the free value names one. -/
theorem idle_several {s : State} (h : s.pending = []) (two : 2 ≤ (ownEvents s).length) :
    ∃ e ∈ ownEvents s, step s = .next { s with pending := [e], free := s.free + 1, pp.buffer := none } := by
  have below : Config.arrivalOrder s.free % (ownEvents s).length < (ownEvents s).length := Nat.mod_lt _ (by omega)
  refine ⟨(ownEvents s)[Config.arrivalOrder s.free % (ownEvents s).length], List.getElem_mem below, ?_⟩
  rw [step_idle h]
  unfold idle
  split
  · rename_i none; simp [none] at two
  · rename_i e one; simp [one] at two
  · rw [List.getElem?_eq_getElem below]
    rfl

/-- Settles O2: the idle step by the number of own events due; which are due by mem_ownEvents. -/
theorem emptyQueueTakesAnOwnEventOrAMicrosecond : Obligations.EmptyQueueTakesAnOwnEventOrAMicrosecond := by
  unfold Obligations.EmptyQueueTakesAnOwnEventOrAMicrosecond
  refine ⟨fun s hp => ⟨fun none => ?_, fun e one => ?_, idle_several hp⟩, fun s => ?_⟩
  · rw [step_idle hp, idle, none]; rfl
  · rw [step_idle hp, idle, one]; rfl
  · simp only [mem_ownEvents]
    refine ⟨fun k => .rfl, .rfl, fun f => .rfl, .rfl, .rfl, fun f => .rfl, fun f => .rfl, fun f => .rfl, .rfl, .rfl, .rfl, .rfl, .rfl, .rfl,
      .rfl, .rfl, fun h => .rfl, .rfl, fun k => .rfl, fun k => .rfl, fun c => .rfl, fun c => .rfl, fun c => .rfl, .rfl, .rfl,
      fun e due => ⟨?frame, ?_, ?_, ?_, ?_, ?_, ?_, ?_, ?_, ?_, fun x listed => ?port⟩⟩
    case frame =>
      rintro kind f rfl
      cases kind <;> exact due
    case port =>
      simp only [List.mem_cons, List.not_mem_nil, or_false] at listed
      rcases listed with rfl | rfl | rfl | rfl | rfl | rfl | rfl | rfl | rfl | rfl | rfl | rfl | rfl | rfl | rfl | rfl | rfl <;> exact due
    · rintro d b rfl; exact due
    · rintro k l rfl; exact due
    · exact fun f => ⟨by rintro rfl; exact due, by rintro rfl; exact due⟩
    · rintro strap raw rfl; exact due
    · rintro rfl; exact due
    · rintro rfl; exact due
    · rintro rfl; exact due
    · rintro x rfl; exact due
    · rintro c x rfl; exact due

end Sys2Proof.Machine
end

section
/-! PROOF. The arithmetic of the rules: the two remainders (O11), grids, bins and hops (O12), cells and coils (O13), accumulators (O14). -/

namespace Sys2Proof.Machine

/-! ### Remainders (R164, R181) -/

theorem crcBit_eq (g r : Word16) (b : Bool) : crcBit g r b = if r.getLsbD 15 ≠ b then (r <<< 1) ^^^ g else r <<< 1 := by
  have top : r.msb = r.getLsbD 15 := BitVec.msb_eq_getLsbD_last r
  simp only [crcBit, top, beq_iff_eq, ne_eq, ite_not]

theorem crcBytes_append (g r : Word16) (bs cs : List Byte) : crcBytes g r (bs ++ cs) = crcBytes g (crcBytes g r bs) cs :=
  List.foldl_append

theorem burstCrc_append (q : Word16) (rs : List RecordBytes) (r : RecordBytes) :
    burstCrc q (rs ++ [r]) = crcBytes 0x8005 (burstCrc q rs) r := by
  unfold burstCrc
  rw [List.foldl_append]
  rfl

/-- Settles O11: both remainders fold one bit rule over the bytes, and a record ends only where its bytes end. -/
theorem remaindersFollowTheBitRule : Obligations.RemaindersFollowTheBitRule := by
  unfold Obligations.RemaindersFollowTheBitRule
  refine ⟨crcBit_eq, rfl, fun bs b => crcBytes_append _ _ _ _, rfl, fun rs r b => ?_, fun rs => burstCrc_append _ _ _⟩
  rw [burstCrc_append, burstCrc_append, crcBytes_append]
  rfl

/-! ### Bins (R117) -/

/-- The bin of a position by the floor of its quotient. -/
theorem binOf_cases (g : Grid) (x : Int) (hn : 1 ≤ g.n) :
    (g.f ≤ g.binOf x ∧ g.binOf x < g.f + g.n) ∧ (Int.fdiv (x - g.o) g.s < g.f → g.binOf x = g.f)
      ∧ ((g.f : Int) + g.n ≤ Int.fdiv (x - g.o) g.s → g.binOf x = g.f + g.n - 1)
      ∧ ∀ j : Nat, g.f ≤ j → j < g.f + g.n → Int.fdiv (x - g.o) g.s = j → g.binOf x = j := by
  unfold Grid.binOf
  generalize Int.fdiv (x - g.o) g.s = q
  refine ⟨⟨?_, ?_⟩, fun h => ?_, fun h => ?_, fun j _ _ h => ?_⟩ <;> omega

/-- The floor of a quotient by a positive step. -/
theorem fdiv_pos_eq {y s : Int} {j : Int} (hs : 0 < s) (lo : s * j ≤ y) (hi : y < s * (j + 1)) : Int.fdiv y s = j := by
  rw [Int.fdiv_eq_ediv_of_nonneg _ hs.le]
  rw [mul_add, mul_one] at hi
  rw [mul_comm] at lo hi
  exact (Int.ediv_eq_iff_of_pos hs).2 ⟨lo, hi⟩

/-- The floor of a quotient by a negative step: both signs turned. -/
theorem fdiv_neg_eq {y s : Int} {j : Int} (hs : s < 0) (lo : s * (j + 1) < y) (hi : y ≤ s * j) : Int.fdiv y s = j := by
  rw [← Int.neg_fdiv_neg]
  exact fdiv_pos_eq (by omega) (by rw [Int.neg_mul]; omega) (by rw [Int.neg_mul]; omega)

theorem binOf_of_pos {g : Grid} {x : Int} {j : Nat} (hn : 1 ≤ g.n) (h1 : g.f ≤ j) (h2 : j < g.f + g.n) (hs : 0 < g.s)
    (lo : g.o + g.s * j ≤ x) (hi : x < g.o + g.s * (j + 1)) : g.binOf x = j :=
  (binOf_cases g x hn).2.2.2 j h1 h2 (fdiv_pos_eq hs (by omega) (by omega))

theorem binOf_of_neg {g : Grid} {x : Int} {j : Nat} (hn : 1 ≤ g.n) (h1 : g.f ≤ j) (h2 : j < g.f + g.n) (hs : g.s < 0)
    (lo : g.o + g.s * (j + 1) < x) (hi : x ≤ g.o + g.s * j) : g.binOf x = j :=
  (binOf_cases g x hn).2.2.2 j h1 h2 (fdiv_neg_eq hs (by omega) (by omega))

/-! ### The origin grid (R115, R116) -/

theorem normalise_eq_some {a b n len b' n' : Nat} {clamped : Bool} (h : normalise a b n len = some (b', n', clamped)) :
    b' = min b len ∧ n' = min n (b' - a) ∧ clamped = decide (len < b) ∧ a < b' ∧ 1 ≤ n ∧ n ≤ 256 := by
  unfold normalise at h
  split at h
  · cases h
  · dsimp only at h
    split at h
    · cases h
    · simp only [Option.some.injEq, Prod.mk.injEq] at h
      obtain ⟨rfl, rfl, rfl⟩ := h
      exact ⟨rfl, rfl, rfl, by omega, by omega, by omega⟩

/-- The rounded step of an origin grid of n bins over len cm, at least as many as bins. -/
theorem originStep_bounds {len n : Nat} (hn : 1 ≤ n) (hl : n ≤ len) :
    256 ≤ (256 * len + n / 2) / n ∧ 256 * len ≤ (256 * len + n / 2) / n * n + n / 2
      ∧ (256 * len + n / 2) / n * n ≤ 256 * len + n / 2 := by
  refine ⟨(Nat.le_div_iff_mul_le hn).2 (by omega), ?_, Nat.div_mul_le_self _ _⟩
  have split := Nat.div_add_mod (256 * len + n / 2) n
  have small := Nat.mod_lt (256 * len + n / 2) hn
  rw [Nat.mul_comm] at split
  omega

/-- Past its last bin's bound a position has the last bin. -/
theorem originGrid_binOf_past {a b' n' step : Nat} {x : Int} (hn : 1 ≤ n') (hs : 1 ≤ step) (e : step = (256 * (b' - a) + n' / 2) / n')
    (h : 256 * a + step * n' ≤ x) : (originGrid a b' n').binOf x = n' - 1 := by
  have quotient : (n' : Int) ≤ Int.fdiv (x - 256 * a) step := by
    rw [Int.fdiv_eq_ediv_of_nonneg _ (by omega)]
    exact (Int.le_ediv_iff_mul_le (by omega)).2 (by rw [Int.mul_comm]; omega)
  have last := (binOf_cases (originGrid a b' n') x hn).2.2.1
  unfold originGrid at last ⊢
  rw [← e] at last ⊢
  have := last (by simpa using quotient)
  simpa using this

/-! ### Rounding and ranges (R113, R114) -/

theorem roundDiv_bounds (p : Int) {q : Nat} (hq : 0 < q) :
    2 * (q * roundDiv p q - p).natAbs ≤ q ∧ (2 * (q * roundDiv p q - p).natAbs = q → p.natAbs < (q * roundDiv p q).natAbs) := by
  unfold roundDiv
  have below : (2 * p.natAbs + q) / (2 * q) * (2 * q) ≤ 2 * p.natAbs + q := Nat.div_mul_le_self _ _
  have above : 2 * p.natAbs + q < (2 * p.natAbs + q) / (2 * q) * (2 * q) + 2 * q := Nat.lt_div_mul_add (by omega)
  generalize (2 * p.natAbs + q) / (2 * q) = m at below above
  have split : m * (2 * q) = 2 * (q * m) := by ring
  rw [split] at below above
  have cast : ((q * m : Nat) : Int) = (q : Int) * m := Nat.cast_mul _ _
  dsimp only
  split
  · rw [Int.mul_neg, ← cast]
    omega
  · rw [← cast]
    omega

theorem roundDiv_neg (p : Int) {q : Nat} (hq : 0 < q) : roundDiv (-p) q = -roundDiv p q := by
  unfold roundDiv
  rw [Int.natAbs_neg]
  dsimp only
  rcases lt_trichotomy p 0 with h | rfl | h
  · rw [if_neg (by omega), if_pos h, neg_neg]
  · have : (2 * (0 : Int).natAbs + q) / (2 * q) = 0 := Nat.div_eq_of_lt (by simp; omega)
    simp only [this]
    simp
  · rw [if_pos (by omega), if_neg (by omega)]

theorem hopStep_of_ne {p : Int} {q : Nat} (h : roundDiv p q ≠ 0) : hopStep p q = hold48 (roundDiv p q) := if_neg h

theorem hopStep_of_eq {p : Int} {q : Nat} (h : roundDiv p q = 0) : hopStep p q = if p < 0 then -1 else 1 := if_pos h

theorem hold48_cases (v : Int) : (v < -(2 ^ 47) → hold48 v = -(2 ^ 47)) ∧ (2 ^ 47 ≤ v → hold48 v = 2 ^ 47 - 1)
    ∧ (-(2 ^ 47) ≤ v → v < 2 ^ 47 → hold48 v = v) := by
  unfold hold48
  refine ⟨fun h => ?_, fun h => ?_, fun h1 h2 => ?_⟩ <;> omega

/-- Settles O12: the origin grid by its step's bounds, the bins by the floor, the hops by their formulas. -/
theorem gridsAndBinsFollowTheirFormulas : Obligations.GridsAndBinsFollowTheirFormulas := by
  unfold Obligations.GridsAndBinsFollowTheirFormulas
  refine ⟨fun a b n len b' n' clamped h => ?origin, fun g x j hn => ?bin, fun p q hq => ?round, hold48_cases, ?hop,
    fun r index p i => rfl, fun g lin lp hl => ⟨rfl, roundDiv_neg _ hl⟩⟩
  case origin =>
    obtain ⟨hb, hn, hc, hab, h1, h256⟩ := normalise_eq_some h
    have bins : 1 ≤ n' ∧ n' ≤ 256 ∧ n' ≤ b' - a := by omega
    obtain ⟨wide, lower, upper⟩ := originStep_bounds bins.1 bins.2.2
    refine ⟨hb, hn, by rw [hc, decide_eq_true_eq], hab, bins.1, bins.2.1, _, rfl, rfl, wide, lower, upper, fun x hx => ?_⟩
    exact originGrid_binOf_past bins.1 (le_trans (by omega) wide) rfl hx
  case bin =>
    obtain ⟨range, low, high, _⟩ := binOf_cases g x hn
    exact ⟨range, low, high, fun h1 h2 hs lo hi => binOf_of_pos hn h1 h2 hs lo hi, fun h1 h2 hs lo hi => binOf_of_neg hn h1 h2 hs lo hi⟩
  case round =>
    obtain ⟨near, half⟩ := roundDiv_bounds p hq
    refine ⟨near, half, hopStep_of_ne, fun h => ⟨fun hp => ?_, fun hp => ?_⟩⟩
    · rw [hopStep_of_eq h, if_neg (by omega)]
    · rw [hopStep_of_eq h, if_pos hp]
  case hop =>
    rintro h g d x0 x1 w j0 j1 _ rfl rfl rfl rfl rfl rfl
    rfl

/-! ### Cells and coils (R59, R60, R119) -/

theorem cellFrom_le_iff {x p c : Nat} (hp : 0 < p) : cellFrom x p ≤ c ↔ 2 * x ≤ (2 * c + 1) * p := by
  have expand : (2 * c + 1) * p = 2 * p * c + p := by ring
  have expand' : 2 * p * (c + 1) = 2 * p * c + 2 * p := by ring
  rw [cellFrom, expand, ← Nat.lt_succ_iff, Nat.div_lt_iff_lt_mul (by omega), Nat.succ_eq_add_one, Nat.mul_comm (c + 1), expand']
  omega

theorem ownsCell_iff (c0 c1 p c : Nat) : ownsCell c0 c1 p c = true ↔ 2 * c0 ≤ (2 * c + 1) * p ∧ (2 * c + 1) * p < 2 * c1 := by
  simp [ownsCell]

theorem ownsCell_iff_cellFrom {c0 c1 p c : Nat} (hp : 0 < p) :
    ownsCell c0 c1 p c = true ↔ cellFrom c0 p ≤ c ∧ c < cellFrom c1 p := by
  rw [ownsCell_iff, cellFrom_le_iff hp, ← not_le (a := cellFrom c1 p), cellFrom_le_iff hp, not_le]

/-- The centre of an owned cell is the middle of the part of it that the coil holds. -/
theorem cellCentre_eq {c0 c1 p c : Nat} {e0 e1 : Int} (hp : 0 < p) (h : ownsCell c0 c1 p c = true)
    (h0 : e0 = max ((c : Int) * p) c0 - c0) (h1 : e1 = min (((c : Int) + 1) * p) c1 - c0) :
    cellCentre c0 c1 p c = 128 * (e0 + e1) ∧ 0 ≤ e0 ∧ e0 < e1 ∧ e1 ≤ (c1 : Int) - c0
      ∧ (c0 ≤ c * p → (c + 1) * p ≤ c1 → cellCentre c0 c1 p c = 128 * ((2 * (c : Int) + 1) * p - 2 * c0)) := by
  obtain ⟨from0, below1⟩ := (ownsCell_iff c0 c1 p c).1 h
  have start : (c : Int) * p = ((c * p : Nat) : Int) := (Nat.cast_mul _ _).symm
  have stop : ((c : Int) + 1) * p = ((c * p : Nat) : Int) + p := by rw [← start]; ring
  have stop' : (c + 1) * p = c * p + p := by ring
  have middle : (2 * c + 1) * p = 2 * (c * p) + p := by ring
  have middle' : (2 * (c : Int) + 1) * p = 2 * ((c * p : Nat) : Int) + p := by rw [← start]; ring
  rw [middle] at from0 below1
  rw [start] at h0
  rw [stop] at h1
  unfold cellCentre
  rw [stop', middle']
  generalize c * p = k at *
  refine ⟨?_, ?_, ?_, ?_, fun _ _ => ?_⟩ <;> omega

theorem includes_iff (g : Grid) (x : Int) : g.includes x = true ↔ g.u0 ≤ x ∧ x < g.u1 := by simp [Grid.includes]

theorem addCell_of_not {g : Grid} {r : OutputRecord} {accums : List (List Accum)} {cell : Nat} {entries : List CellEntry}
    (h : ¬(ownsCell r.c0 r.c1 r.pitch cell = true ∧ g.includes (cellCentre r.c0 r.c1 r.pitch cell) = true)) :
    addCell g r accums cell entries = accums := by
  unfold addCell
  rw [if_neg (by simpa using h)]

theorem addCell_of {g : Grid} {r : OutputRecord} {accums : List (List Accum)} {cell : Nat} {entries : List CellEntry}
    (ho : ownsCell r.c0 r.c1 r.pitch cell = true) (hi : g.includes (cellCentre r.c0 r.c1 r.pitch cell) = true) :
    addCell g r accums cell entries
      = accums.modify (g.binOf (cellCentre r.c0 r.c1 r.pitch cell) - g.f) (fun row => addEntries row entries) := by
  unfold addCell
  rw [if_pos (by simp [ho, hi])]

/-- Settles O13: ownership and centre by their bounds; an included cell modifies the row of its bin alone. -/
theorem cellsBelongToCoilsAndBins : Obligations.CellsBelongToCoilsAndBins := by
  unfold Obligations.CellsBelongToCoilsAndBins
  refine ⟨fun c0 c1 p c hp => ⟨ownsCell_iff c0 c1 p c, ownsCell_iff_cellFrom hp⟩, fun c0 c1 p c e0 e1 hp h h0 h1 => cellCentre_eq hp h h0 h1,
    ?_⟩
  rintro g r accums cell entries x hlen hn rfl
  refine ⟨fun owns lo hi j row hrow => ?_, fun out => addCell_of_not fun both => ?_⟩
  · have range := (binOf_cases g (cellCentre r.c0 r.c1 r.pitch cell) hn).1
    have place : g.binOf (cellCentre r.c0 r.c1 r.pitch cell) - g.f = j ↔ g.f + j = g.binOf (cellCentre r.c0 r.c1 r.pitch cell) := by omega
    rw [addCell_of owns ((includes_iff _ _).2 ⟨lo, hi⟩), List.getElem?_modify, hrow]
    simp only [place, Option.map_eq_map, Option.map_some]
  · obtain ⟨owns, inside⟩ := both
    obtain ⟨lo, hi⟩ := (includes_iff _ _).1 inside
    rcases out with out | out | out
    · rw [out] at owns; cases owns
    · omega
    · omega

/-! ### Accumulators (R129, R130) -/

theorem addEntry_excess_iff (a : Accum) (e : CellEntry) :
    (a.addEntry e).refused = true ↔ a.refused = true ∨ 4294967295 < a.count + e.count := by simp [Accum.addEntry]

theorem addEntry_refused {a : Accum} {e : CellEntry} (h : a.refused = true ∨ 4294967295 < a.count + e.count) :
    (a.addEntry e).count = a.count ∧ (a.addEntry e).sum = a.sum ∧ (a.addEntry e).saturated = true ∧ (a.addEntry e).refused = true := by
  have excess : (a.refused || decide (4294967295 < a.count + e.count)) = true := by simpa using h
  simp [Accum.addEntry, excess]

theorem addEntry_taken {a : Accum} {e : CellEntry} (hr : a.refused = false) (h : a.count + e.count ≤ 4294967295) :
    (a.addEntry e).count = a.count + e.count ∧ (a.addEntry e).sum = a.sum + e.sum
      ∧ (a.addEntry e).saturated = (a.saturated || e.sat) ∧ (a.addEntry e).refused = false := by
  have fits : (a.refused || decide (4294967295 < a.count + e.count)) = false := by simp [hr, h]
  simp [Accum.addEntry, fits]

theorem addEntry_empty {a : Accum} {e : CellEntry} (h : e.count = 0) :
    (a.addEntry e).least = a.least ∧ (a.addEntry e).greatest = a.greatest := by simp [Accum.addEntry, h]

theorem addEntry_widens {a : Accum} {e : CellEntry} {v w : Int} (h : 0 < e.count) (hv : e.least = some v) (hw : e.greatest = some w) :
    (a.addEntry e).least = some (a.least.elim v (fun x => min x v)) ∧ (a.addEntry e).greatest = some (a.greatest.elim w (fun x => max x w)) := by
  have some' : e.count ≠ 0 := by omega
  refine ⟨?_, ?_⟩
  · cases hl : a.least <;> simp [Accum.addEntry, some', hv, hl, lesser]
  · cases hg : a.greatest <;> simp [Accum.addEntry, some', hw, hg, greater]

/-- min × count ≤ sum ≤ max × count, where something is counted (R129). -/
def Bracketed (least greatest : Option Int) (count : Nat) (sum : Int) : Prop :=
  ∃ lo hi, least = some lo ∧ greatest = some hi ∧ lo * count ≤ sum ∧ sum ≤ hi * count

/-- Wider bounds bracket the same sum. -/
theorem bracket_widen {lo hi lo' hi' sum : Int} {n : Nat} (h1 : lo * n ≤ sum) (h2 : sum ≤ hi * n) (hl : lo' ≤ lo) (hh : hi ≤ hi') :
    lo' * n ≤ sum ∧ sum ≤ hi' * n :=
  ⟨(mul_le_mul_of_nonneg_right hl (by omega)).trans h1, h2.trans (mul_le_mul_of_nonneg_right hh (by omega))⟩

theorem addEntry_bracketed {a : Accum} {e : CellEntry} (sound : e.Sound) (zero : a.count = 0 → a.sum = 0)
    (bracket : 0 < a.count → Bracketed a.least a.greatest a.count a.sum) (pos : 0 < (a.addEntry e).count) :
    Bracketed (a.addEntry e).least (a.addEntry e).greatest (a.addEntry e).count (a.addEntry e).sum := by
  obtain ⟨_, ezero, ebracket⟩ := sound
  by_cases refused : a.refused = true ∨ 4294967295 < a.count + e.count
  · obtain ⟨hc, hs, _, _⟩ := addEntry_refused refused
    rw [hc] at pos ⊢
    rw [hs]
    obtain ⟨lo, hi, hlo, hhi, h1, h2⟩ := bracket pos
    rcases Nat.eq_zero_or_pos e.count with e0 | e0
    · obtain ⟨el, eg⟩ := addEntry_empty (a := a) e0
      exact ⟨lo, hi, el.trans hlo, eg.trans hhi, h1, h2⟩
    · obtain ⟨v, w, hv, hw, _, _⟩ := ebracket e0
      obtain ⟨el, eg⟩ := addEntry_widens (a := a) e0 hv hw
      rw [hlo] at el
      rw [hhi] at eg
      exact ⟨_, _, el, eg, bracket_widen h1 h2 (min_le_left _ _) (le_max_left _ _)⟩
  · obtain ⟨hc, hs, _, _⟩ := addEntry_taken (a := a) (e := e) (by simpa using (not_or.1 refused).1) (by omega)
    rw [hc] at pos ⊢
    rw [hs]
    rcases Nat.eq_zero_or_pos e.count with e0 | e0
    · obtain ⟨el, eg⟩ := addEntry_empty (a := a) e0
      obtain ⟨lo, hi, hlo, hhi, h1, h2⟩ := bracket (by omega)
      rw [e0, ezero e0, Nat.add_zero, Int.add_zero]
      exact ⟨lo, hi, el.trans hlo, eg.trans hhi, h1, h2⟩
    · obtain ⟨v, w, hv, hw, h3, h4⟩ := ebracket e0
      obtain ⟨el, eg⟩ := addEntry_widens (a := a) e0 hv hw
      rcases Nat.eq_zero_or_pos a.count with a0 | a0
      · refine ⟨_, _, el, eg, ?_⟩
        rw [a0, zero a0, Nat.zero_add, Int.zero_add]
        refine bracket_widen h3 h4 ?_ ?_
        · cases a.least <;> simp
        · cases a.greatest <;> simp
      · obtain ⟨lo, hi, hlo, hhi, h1, h2⟩ := bracket a0
        rw [hlo] at el
        rw [hhi] at eg
        refine ⟨_, _, el, eg, ?_⟩
        obtain ⟨l1, g1⟩ := bracket_widen h1 h2 (min_le_left lo v) (le_max_left hi w)
        obtain ⟨l2, g2⟩ := bracket_widen h3 h4 (min_le_right lo v) (le_max_right hi w)
        simp only [Option.elim_some]
        push_cast
        rw [mul_add, mul_add]
        exact ⟨by omega, by omega⟩

/-- Settles O14: refused or taken as a whole, and the bracket widened with min and max. -/
theorem accumulatorsTakeACellWhole : Obligations.AccumulatorsTakeACellWhole := by
  unfold Obligations.AccumulatorsTakeACellWhole
  refine fun a e => ⟨rfl, addEntry_empty, fun v w h hv hw => addEntry_widens h hv hw, addEntry_refused, addEntry_taken, fun h => ?_,
    fun sound zero bracket pos => addEntry_bracketed sound zero bracket pos⟩
  simp [Accum.addEntry, h]

end Sys2Proof.Machine
end

section
/-! PROOF. The tracking input unit (R1 to R6): a raw change and its pending change, a filtered change taken, and the edge kinds that fire
one after the other on what the one before left. -/

namespace Sys2Proof.Machine

theorem exec_rawInputChange (k : Fin 12) (level : Bool) (s : State) :
    exec (.rawInputChange k level) s = execRawInputChange k level s := rfl

theorem exec_filteredChange (k : Fin 12) (s : State) : exec (.filteredChange k) s = execFilteredChange k s := rfl

/-! ### Raw inputs (R1, R2) -/

theorem getLsbD_twoPow (k j : Fin 12) : (BitVec.ofNat 12 (2 ^ k.val)).getLsbD j = decide (j = k) := by
  rw [BitVec.getLsbD_ofNat, decide_eq_true j.isLt, Bool.true_and, Nat.testBit_two_pow]
  exact decide_eq_decide.2 ⟨fun h => Fin.ext h.symm, fun h => h ▸ rfl⟩

/-- An input put to a level has it, and the others stand. -/
theorem getLsbD_setInput (k j : Fin 12) (level : Bool) (v : BitVec 12) :
    (setInput k level v).getLsbD j = if j = k then level else v.getLsbD j := by
  unfold setInput
  by_cases h : j = k
  · cases level
    · rw [if_neg Bool.false_ne_true, BitVec.getLsbD_and, BitVec.getLsbD_not, getLsbD_twoPow]
      simp [h]
    · rw [if_pos rfl, BitVec.getLsbD_or, getLsbD_twoPow]
      simp [h]
  · cases level
    · rw [if_neg Bool.false_ne_true, BitVec.getLsbD_and, BitVec.getLsbD_not, getLsbD_twoPow]
      simp [h]
    · rw [if_pos rfl, BitVec.getLsbD_or, getLsbD_twoPow]
      simp [h]

/-- The pending change of an input is gone once the change is taken: what it was makes no difference. -/
theorem takeChange_setChange (k : Fin 12) (c : Option PendingChange) (s : State) :
    takeChange k { s with tiu.changes := s.tiu.changes.set k c } = takeChange k s := by
  unfold takeChange
  simp only [Vector.set_set]

theorem advanceTo_now (s : State) : advanceTo s.now s = s := by
  unfold advanceTo
  rw [max_self]

/-- With a filter time of 0 the pending change that begins now is due now. -/
theorem exec_filteredChange_atOnce (k : Fin 12) (s : State) :
    exec (.filteredChange k) { s with tiu.changes := s.tiu.changes.set k (some ⟨s.now, 0⟩) } = .next (takeChange k s) := by
  have pending : (s.tiu.changes.set k (some ⟨s.now, 0⟩)).get k = some (⟨s.now, 0⟩ : PendingChange) := by
    rw [Vector.get_eq_getElem]; exact Vector.getElem_set_self _
  have due : PendingChange.due ⟨s.now, 0⟩ = s.now := by simp [PendingChange.due]
  rw [exec_filteredChange, execFilteredChange]
  simp only [pending]
  rw [due]
  exact congrArg Host.Outcome.next
    ((congrArg (takeChange k) (advanceTo_now { s with tiu.changes := s.tiu.changes.set k (some ⟨s.now, 0⟩) })).trans
      (takeChange_setChange k _ s))

/-- Settles O17: the branches of RAW_INPUT_CHANGE, the last one by `exec_filteredChange_atOnce`. -/
theorem rawChangeBeginsOrAbandonsAPendingChange : Obligations.RawChangeBeginsOrAbandonsAPendingChange := by
  unfold Obligations.RawChangeBeginsOrAbandonsAPendingChange
  refine ⟨?_, getLsbD_setInput⟩
  rintro k level s u rfl
  simp only [exec_rawInputChange, execRawInputChange]
  refine ⟨fun same => by rw [if_pos same], fun change => ⟨fun back => ?_, fun away filtered => ?_, fun away unfiltered => ?_⟩⟩
  · rw [if_neg change, if_pos back]
  · rw [if_neg change, if_neg away, if_neg filtered]
  · rw [if_neg change, if_neg away, if_pos unfiltered]
    exact (exec_filteredChange_atOnce k { s with tiu.raw := setInput k level s.tiu.raw }).symm

/-! ### Matches (R3) -/

theorem MatchPair.isMatch_iff (p : MatchPair) (levels : BitVec 12) :
    p.isMatch levels = true ↔ p.mask ≠ 0 ∧ ∀ k : Fin 12, p.mask.getLsbD k = true → levels.getLsbD k = p.pattern.getLsbD k := by
  unfold MatchPair.isMatch
  rw [Bool.and_eq_true, bne_iff_ne, beq_iff_eq]
  refine and_congr_right fun _ => ⟨fun zero k masked => ?_, fun agree => BitVec.eq_of_getLsbD_eq fun k hk => ?_⟩
  · have bit : ((levels ^^^ p.pattern) &&& p.mask).getLsbD k = (0#12).getLsbD k := congrArg (fun v => v.getLsbD k) zero
    rw [BitVec.getLsbD_and, BitVec.getLsbD_xor, masked, Bool.and_true, BitVec.getLsbD_zero] at bit
    exact bne_eq_false_iff_eq.1 bit
  · have bit := agree ⟨k, hk⟩
    cases masked : p.mask.getLsbD k
    · simp [masked]
    · simp [bit masked]

/-! ### A filtered change (R1, R3 to R6) -/

/-- The state once a filtered change is taken in RUN: the kinds that are about to fire have not yet acted. -/
def changeTaken (k : Fin 12) (c : PendingChange) (s : State) : State :=
  let levels := setInput k (s.tiu.raw.getLsbD k) s.tiu.filtered
  { s with
    now := max s.now (c.began + c.filterMs * 1000)
    tiu.filtered := levels
    tiu.changes := s.tiu.changes.set k none
    tiu.prev := s.tiu.pairs.edges levels
    tiu.halted := s.tiu.pairs.lineHalt.isMatch levels }

/-- The kinds given act one after the other (R5). -/
def fireKinds (kinds : PrevMatch) (s : State) : State :=
  let s := if kinds.exitWeld then exitWeld s else s
  let s := if kinds.exitCut then exitCut s else s
  let s := if kinds.stripBreak then stripBreak s else s
  if kinds.entryWeld then fireEntryWeld s else s

theorem exec_filteredChange_of {k : Fin 12} {s : State} {c : PendingChange} (hc : s.tiu.changes.get k = some c) :
    exec (.filteredChange k) s = .next (takeChange k (advanceTo c.due s)) := by
  rw [exec_filteredChange, execFilteredChange, hc]

theorem takeChange_outside {k : Fin 12} {s : State} (h : s.pp.station ≠ .run) :
    takeChange k s = { s with
      tiu.filtered := setInput k (s.tiu.raw.getLsbD k) s.tiu.filtered
      tiu.changes := s.tiu.changes.set k none } := if_neg h

theorem takeChange_run {k : Fin 12} {s : State} (h : s.pp.station = .run) :
    takeChange k s = settleArchive (evaluateKinds { s with
      tiu.filtered := setInput k (s.tiu.raw.getLsbD k) s.tiu.filtered
      tiu.changes := s.tiu.changes.set k none }) := if_pos h

/-- A filtered change that makes the kinds given fire. -/
theorem exec_filteredChange_fires {k : Fin 12} {s : State} {kinds : PrevMatch} {c : PendingChange} (f : Fires k s kinds)
    (hc : s.tiu.changes.get k = some c) :
    exec (.filteredChange k) s = .next (settleArchive (fireKinds kinds (changeTaken k c s))) := by
  rw [exec_filteredChange_of hc, takeChange_run (s := advanceTo c.due s) f.run, f.rising _ rfl]
  rfl

/-- The kinds that begin to match at the levels given (R4). -/
def beginning (levels : BitVec 12) (s : State) : PrevMatch :=
  let after := s.tiu.pairs.edges levels
  ⟨after.entryWeld && !s.tiu.prev.entryWeld, after.exitWeld && !s.tiu.prev.exitWeld,
    after.exitCut && !s.tiu.prev.exitCut, after.stripBreak && !s.tiu.prev.stripBreak⟩

theorem fires_beginning {k : Fin 12} {s : State} {c : PendingChange} (hr : s.pp.station = .run) (hc : s.tiu.changes.get k = some c) :
    Fires k s (beginning (setInput k (s.tiu.raw.getLsbD k) s.tiu.filtered) s) :=
  ⟨hr, by rw [hc]; rfl, fun after h => by rw [h]; rfl⟩

/-! ### What firing leaves of the tracking input unit -/

theorem ite_tiu {b : Prop} [Decidable b] {s t : State} (h : LineMove s t) : (if b then t else s).tiu = s.tiu := by
  split
  · exact h.tiu
  · rfl

theorem ite_now {b : Prop} [Decidable b] {s t : State} (h : LineMove s t) : (if b then t else s).now = s.now := by
  split
  · exact h.now
  · rfl

theorem fireEntryWeld_tiu (s : State) : (fireEntryWeld s).tiu = { s.tiu with entryCount := 0 } := (entryWeld_line _ _ _).tiu

theorem fireEntryWeld_now (s : State) : (fireEntryWeld s).now = s.now := (entryWeld_line _ _ _).now

theorem fireKinds_tiu (kinds : PrevMatch) (s : State) :
    (fireKinds kinds s).tiu = { s.tiu with entryCount := if kinds.entryWeld then 0 else s.tiu.entryCount } := by
  have fired (u : State) : (if kinds.entryWeld then fireEntryWeld u else u).tiu
      = { u.tiu with entryCount := if kinds.entryWeld then 0 else u.tiu.entryCount } := by
    split
    · exact fireEntryWeld_tiu u
    · rfl
  unfold fireKinds
  dsimp only
  rw [fired, ite_tiu (stripBreak_line _), ite_tiu (exitCut_line _), ite_tiu (exitWeld_line _)]

theorem fireKinds_now (kinds : PrevMatch) (s : State) : (fireKinds kinds s).now = s.now := by
  have fired (u : State) : (if kinds.entryWeld then fireEntryWeld u else u).now = u.now := by
    split
    · exact fireEntryWeld_now u
    · rfl
  unfold fireKinds
  dsimp only
  rw [fired, ite_now (stripBreak_line _), ite_now (exitCut_line _), ite_now (exitWeld_line _)]

/-- Settles O18: the change taken, then the firing kinds in their order. -/
theorem filteredChangeEvaluatesTheKinds : Obligations.FilteredChangeEvaluatesTheKinds := by
  unfold Obligations.FilteredChangeEvaluatesTheKinds
  refine ⟨?taken, ?order, MatchPair.isMatch_iff⟩
  case taken =>
    rintro k s c levels hc rfl
    refine ⟨fun outside => ?_, fun run => ?_⟩
    · rw [exec_filteredChange_of hc, takeChange_outside (s := advanceTo c.due s) outside]
      rfl
    · refine ⟨_, exec_filteredChange_fires (fires_beginning run hc) hc, ?_, ?_⟩
      · rw [(settleArchive_move _).now, fireKinds_now]; rfl
      · rw [(settleArchive_move _).tiu, fireKinds_tiu]; rfl
  case order =>
    rintro k s s1 s2 s3 s4 s5 c levels kinds fires hc rfl rfl rfl rfl rfl rfl
    rw [exec_filteredChange_fires fires hc]
    rfl

end Sys2Proof.Machine
end

section
/-! SUPPORT. Which attention flags an operation may raise: those of the archive, in the shared operations of the archive and the bus side;
COIL-CLOSED, TRACKING-FAULT and INPUT-CLOSED besides, in the line's. -/

namespace Sys2Proof.Machine

/-! ### Flags that may change -/

theorem OnlyFlags.ofFlags {may : List Attention} {s t : State} (h : t.pp.flags = s.pp.flags) : OnlyFlags may s t := fun a _ => by
  rw [flagSet, h, flagSet]

theorem OnlyFlags.refl (may : List Attention) (s : State) : OnlyFlags may s s := fun _ _ => rfl

theorem OnlyFlags.trans {may : List Attention} {s t u : State} (h : OnlyFlags may s t) (g : OnlyFlags may t u) : OnlyFlags may s u :=
  fun a ha => (g a ha).trans (h a ha)

theorem OnlyFlags.after {may : List Attention} {s t u : State} (g : OnlyFlags may t u) (h : OnlyFlags may s t) : OnlyFlags may s u :=
  h.trans g

theorem OnlyFlags.mono {may more : List Attention} {s t : State} (h : OnlyFlags may s t) (sub : may ⊆ more) : OnlyFlags more s t :=
  fun a ha => h a fun m => ha (sub m)

theorem flagSet_raise_other {a b : Attention} (s : State) (h : b ≠ a) : flagSet b (raise a s) = flagSet b s := by
  have bit : a.word.getLsbD b.bit = false := by
    rw [Bool.eq_false_iff]
    exact fun set => h ((Attention.getLsbD_word a b).1 set)
  rw [flagSet, raise_flags, BitVec.getLsbD_or, bit, Bool.or_false, flagSet]

theorem raise_only {may : List Attention} {a : Attention} (s : State) (h : a ∈ may) : OnlyFlags may s (raise a s) :=
  fun _ hb => flagSet_raise_other s fun e => hb (e ▸ h)

theorem OnlyFlags.thenRaise {may : List Attention} {a : Attention} {s t : State} (g : OnlyFlags may s t) (h : a ∈ may) :
    OnlyFlags may s (raise a t) := g.trans (raise_only t h)

theorem OnlyFlags.foldl {may : List Attention} {α : Type} (f : State → α → State) (hf : ∀ s a, OnlyFlags may s (f s a)) (l : List α)
    (s : State) : OnlyFlags may s (l.foldl f s) := by
  induction l generalizing s with
  | nil => exact .refl _ s
  | cons a l ih => exact (hf s a).trans (ih _)

theorem OnlyFlags.ite {may : List Attention} {s t u : State} (b : Prop) [Decidable b] (h : OnlyFlags may s t) (g : OnlyFlags may s u) :
    OnlyFlags may s (if b then t else u) := by split <;> assumption

/-! ### The archive's operations -/

/-- The flags of the archive and of a locked amendment. -/
def archiveFlags : List Attention := [.archiveLow, .archiveFull, .amendLock]

theorem lockAmend_only (c : LockCause) (s : State) : OnlyFlags archiveFlags s (lockAmend c s) :=
  .after (raise_only _ (by decide)) (.ofFlags rfl)

theorem dropItem_only (w : WriteItem) (s : State) : OnlyFlags archiveFlags s (dropItem w s) := by
  unfold dropItem
  refine .after ?_ (raise_only (a := .archiveFull) s (by decide))
  cases w with
  | input r => exact .refl _ _
  | output r => exact .refl _ _
  | freezeMark n i => exact .ofFlags rfl
  | amendedInput r => exact .ite _ (lockAmend_only _ _) (.refl _ _)
  | amendedOutput r o => exact .ite _ (lockAmend_only _ _) (.refl _ _)

theorem failAmendRead_only (seg : Nat) (s : State) : OnlyFlags archiveFlags s (failAmendRead seg s) := by
  unfold failAmendRead
  refine .ite _ ?_ (.refl _ s)
  dsimp only
  split
  · exact .after (lockAmend_only _ _) (.ofFlags rfl)
  all_goals exact .ofFlags rfl

theorem chooseSegment_only (g : SegEntry) (s : State) : OnlyFlags archiveFlags s (chooseSegment g s) := by
  unfold chooseSegment
  exact .after (failAmendRead_only _ _) (.ofFlags rfl)

theorem reclaimMoment_only (s : State) : OnlyFlags archiveFlags s (reclaimMoment s) := by
  unfold reclaimMoment
  refine .ite _ ?_ (.refl _ s)
  split
  · exact chooseSegment_only _ s
  · exact .refl _ s

theorem momentIf_only (b : Bool) (s : State) : OnlyFlags archiveFlags s (momentIf b s) := .ite _ (reclaimMoment_only s) (.refl _ s)

theorem handItem_only (w : WriteItem) (s : State) : OnlyFlags archiveFlags s (handItem w s) := by
  unfold handItem
  refine .ite _ (dropItem_only w s) (.ite _ (dropItem_only w s) (.ite _ (dropItem_only w s) ?_))
  exact .ite _ (.after (raise_only _ (by decide)) (.ofFlags rfl)) (.ofFlags rfl)

theorem dropPlaceless_only (s : State) : OnlyFlags archiveFlags s (dropPlaceless s) := by
  unfold dropPlaceless
  exact .ite _ (.after (.foldl _ (fun s w => dropItem_only w s) _ _) (.ofFlags rfl)) (.refl _ s)

theorem placeMoment_only (s : State) : OnlyFlags archiveFlags s (placeMoment s) := by
  unfold placeMoment
  split
  · exact .refl _ s
  · exact .ite _ (reclaimMoment_only s) (.refl _ s)

theorem raiseConditions_only (s : State) : OnlyFlags archiveFlags s (raiseConditions s) := by
  have low : OnlyFlags archiveFlags s (if archiveLowHolds s then raise .archiveLow s else s) :=
    .ite _ (raise_only _ (by decide)) (.refl _ s)
  refine low.trans ?_
  unfold raiseConditions
  generalize (if archiveLowHolds s then raise .archiveLow s else s) = t
  exact .ite _ (raise_only _ (by decide)) (.refl _ t)

theorem settleArchive_only (s : State) : OnlyFlags archiveFlags s (settleArchive s) :=
  (placeMoment_only s).trans ((dropPlaceless_only _).trans (raiseConditions_only _))

/-! ### Handing over, stages and activation -/

theorem handCoil_only (r : OutputRecord) (s : State) : OnlyFlags archiveFlags s (handCoil r s) := by
  unfold handCoil
  exact .after (reclaimMoment_only _) <| .after (handItem_only _ _) (.ofFlags rfl)

theorem handReadyN_only (n : Nat) (s : State) : OnlyFlags archiveFlags s (handReadyN n s) := by
  induction n generalizing s with
  | zero => exact .refl _ s
  | succ n ih =>
    unfold handReadyN
    split
    · exact .refl _ s
    · exact .ite _ (.after (ih _) <| .after (handCoil_only _ _) (.ofFlags rfl)) (.refl _ s)

theorem handReady_only (s : State) : OnlyFlags archiveFlags s (handReady s) := handReadyN_only _ s

theorem enterRecordOnly_only (s : State) : OnlyFlags archiveFlags s (enterRecordOnly s) := by
  unfold enterRecordOnly
  exact .after (handReady_only _) <| .after (raise_only _ (by decide)) (.ofFlags rfl)

theorem enterFull_only (s : State) : OnlyFlags archiveFlags s (enterFull s) := by
  unfold enterFull
  exact .after (raise_only _ (by decide)) <| .after (.foldl _ (fun s w => dropItem_only w s) _ _) (.ofFlags rfl)

theorem activateLowest_only (s : State) : OnlyFlags archiveFlags s (activateLowest s) := .ofFlags rfl

theorem activate_only (s : State) : OnlyFlags archiveFlags s (activate s) := by
  unfold activate
  refine .after (reclaimMoment_only _) ?_
  dsimp only
  split
  · refine .ite _ (.ofFlags rfl) ?_
    split
    · exact .after (enterFull_only _) (.ofFlags rfl)
    all_goals exact .ofFlags rfl
  · exact .ite _ (activateLowest_only s) (.after (enterRecordOnly_only _) (activateLowest_only s))
  · exact activateLowest_only s

theorem activateIfNone_only (s : State) : OnlyFlags archiveFlags s (activateIfNone s) := .ite _ (activate_only s) (.refl _ s)

theorem stageAfterErase_only (s : State) : OnlyFlags archiveFlags s (stageAfterErase s) := by
  unfold stageAfterErase
  split
  · exact .refl _ s
  · exact .ite _ (.ofFlags rfl) (.refl _ s)
  · exact .ite _ (.after (enterRecordOnly_only _) (activateLowest_only s)) (.refl _ s)

/-! ### The line's operations -/

/-- The flags of the line, and the archive's. -/
def lineFlags : List Attention := [.coilClosed, .trackingFault, .archiveLow, .archiveFull, .amendLock, .inputClosed]

theorem OnlyFlags.toLine {s t : State} (h : OnlyFlags archiveFlags s t) : OnlyFlags lineFlags s t := h.mono (by decide)

theorem endExitCoil_only (b : Boundary) (s : State) : OnlyFlags (.inputClosed :: archiveFlags) s (endExitCoil b s) := by
  unfold endExitCoil
  split
  · exact .refl _ s
  · split
    · exact .refl _ s
    · refine .ite _ (.ofFlags rfl) (.after (raise_only _ (by decide)) ?_)
      exact .after ((handItem_only _ _).mono (by decide)) (.ofFlags rfl)

theorem passBoundary_only (b : Boundary) (s : State) : OnlyFlags (.inputClosed :: archiveFlags) s (passBoundary b s) :=
  .after (.ofFlags rfl) (endExitCoil_only b s)

theorem passAll_only (l : List Boundary) (s : State) : OnlyFlags (.inputClosed :: archiveFlags) s (passAll l s) := by
  induction l generalizing s with
  | nil => exact .refl _ s
  | cons b l ih => exact .after (ih _) <| .after (passBoundary_only _ _) (.ofFlags rfl)

theorem passDue_only (r : Nat) (s : State) : OnlyFlags (.inputClosed :: archiveFlags) s (passDue r s) := passAll_only _ s

theorem forceOldestBoundary_only (s : State) : OnlyFlags lineFlags s (forceOldestBoundary s) := by
  unfold forceOldestBoundary
  refine .ite _ ?_ (.refl _ s)
  split
  · exact .refl _ s
  · exact .after (raise_only _ (by decide)) <| .after ((passBoundary_only _ _).mono (by decide)) (.ofFlags rfl)

theorem enterBoundary_only (b : Boundary) (s : State) : OnlyFlags lineFlags s (enterBoundary b s) :=
  .after ((passDue_only _ _).mono (by decide)) <| .after (.ofFlags rfl) (forceOldestBoundary_only s)

theorem endEntryCoil_only (len : Nat) (sat : Bool) (s : State) : OnlyFlags [.trackingFault] s (endEntryCoil len sat s) := by
  unfold endEntryCoil
  split
  · exact .refl _ s
  · exact .ite _ (.after (raise_only _ (by decide)) (.ofFlags rfl)) (.ofFlags rfl)

theorem beginEntryCoil_only (s : State) : OnlyFlags [.trackingFault] s (beginEntryCoil s) := by
  unfold beginEntryCoil
  exact .ite _ (.after (raise_only _ (by decide)) (.ofFlags rfl)) (.ofFlags rfl)

theorem forceOldestWeld_only (s : State) : OnlyFlags lineFlags s (forceOldestWeld s) := by
  unfold forceOldestWeld
  refine .ite _ ?_ (.refl _ s)
  split
  · exact .refl _ s
  · exact .after (raise_only _ (by decide)) <| .after (enterBoundary_only _ _) (.ofFlags rfl)

theorem entryWeld_only (len : Nat) (sat : Bool) (s : State) : OnlyFlags lineFlags s (entryWeld len sat s) :=
  .after (.ofFlags rfl) <| .after (forceOldestWeld_only _) <|
    .after ((beginEntryCoil_only _).mono (by decide)) ((endEntryCoil_only _ _ s).mono (by decide))

theorem exitWeld_only (s : State) : OnlyFlags lineFlags s (exitWeld s) := by
  unfold exitWeld
  split
  · exact raise_only s (by decide)
  · exact .after (enterBoundary_only _ _) (.ofFlags rfl)

theorem openCoilsAt_only (may : List Attention) (c : Nat) (s : State) : OnlyFlags may s (openCoilsAt c s) :=
  .after (.foldl (openLane c) (fun _ _ => .ofFlags rfl) _ _) (.ofFlags rfl)

theorem finaliseOldest_only (s : State) : OnlyFlags archiveFlags s (finaliseOldest s) := by
  unfold finaliseOldest
  refine .ite _ ?_ (.refl _ s)
  split
  · exact .refl _ s
  · exact .after (handCoil_only _ _) (.ofFlags rfl)

theorem closeLane_only (c : Nat) (mark : CoilFlags → CoilFlags) (dir : List CoilId) (p : State × List CoilId) (o : OpenCoil) :
    OnlyFlags archiveFlags p.1 (closeLane c mark dir p o).1 :=
  .after (handReady_only _) <| .after (.ofFlags rfl) <| .after (finaliseOldest_only _) (.ofFlags rfl)

theorem closeLanes_only (c : Nat) (mark : CoilFlags → CoilFlags) (dir : List CoilId) (l : List OpenCoil) (p : State × List CoilId) :
    OnlyFlags archiveFlags p.1 (l.foldl (closeLane c mark dir) p).1 := by
  induction l generalizing p with
  | nil => exact .refl _ _
  | cons o l ih => exact .after (ih _) (closeLane_only c mark dir p o)

theorem cutCoils_only (c : Nat) (mark : CoilFlags → CoilFlags) (s : State) : OnlyFlags lineFlags s (cutCoils c mark s) :=
  .after (raise_only _ (by decide)) <| .after (openCoilsAt_only _ _ _) (closeLanes_only c mark _ _ (s, [])).toLine

theorem exitCut_only (s : State) : OnlyFlags lineFlags s (exitCut s) := .ite _ (cutCoils_only _ _ s) (.refl _ s)

theorem stripBreak_only (s : State) : OnlyFlags lineFlags s (stripBreak s) := .ite _ (cutCoils_only _ _ s) (.ofFlags rfl)

theorem advanceCoils_only (r : Nat) (s : State) : OnlyFlags lineFlags s (advanceCoils r s) := by
  refine .after ?_ ((passDue_only r s).mono (by decide))
  unfold advanceCoils
  generalize passDue r s = t
  dsimp only
  split
  · exact .refl _ t
  · exact .ite _ (cutCoils_only _ _ t) (.refl _ t)

theorem retireFront_only (front : Nat) (s : State) : OnlyFlags archiveFlags s (retireFront front s) := by
  unfold retireFront
  refine .after (handReady_only _) ?_
  exact .ite _ (.ite _ (.ofFlags rfl) (.ofFlags rfl)) (.ofFlags rfl)

theorem advanceCells_only (r : Nat) (s : State) : OnlyFlags archiveFlags s (advanceCells r s) := by
  unfold advanceCells
  split
  · exact .refl _ s
  · exact .ite _ (retireFront_only _ s) (.refl _ s)

theorem advanceTrack_only (r : Nat) (s : State) : OnlyFlags lineFlags s (advanceTrack r s) :=
  .after (settleArchive_only _).toLine <| .after (advanceCells_only _ _).toLine (advanceCoils_only r s)

theorem fireKinds_only (kinds : PrevMatch) (s : State) : OnlyFlags lineFlags s (fireKinds kinds s) := by
  have fires (b : Bool) {f : State → State} (hf : ∀ u, OnlyFlags lineFlags u (f u)) (u : State) :
      OnlyFlags lineFlags u (if b then f u else u) := .ite _ (hf u) (.refl _ u)
  have entry (u : State) : OnlyFlags lineFlags u (fireEntryWeld u) := .after (entryWeld_only _ _ _) (.ofFlags rfl)
  exact .after (fires _ entry _) <| .after (fires _ stripBreak_only _) <| .after (fires _ exitCut_only _) (fires _ exitWeld_only s)

end Sys2Proof.Machine
end

section
/-! PROOF. O22: what the line's four commands leave of the rest of the station. -/

namespace Sys2Proof.Machine

/-! ### The port but its flags, and the flash -/

/-- Nothing of the process port differs but the flags. -/
def PortStands (s t : State) : Prop := t.pp = { s.pp with flags := t.pp.flags }

theorem PortStands.refl (s : State) : PortStands s s := rfl

theorem PortStands.ofPp {s t : State} (h : t.pp = s.pp) : PortStands s t := by unfold PortStands; rw [h]

theorem PortStands.trans {s t u : State} (h : PortStands s t) (g : PortStands t u) : PortStands s u := by
  unfold PortStands at *
  rw [g, h]

/-- A move that leaves the port but for its flags. -/
theorem PortStands.ofCleared {s t : State} (h : { t.pp with flags := 0 } = { s.pp with flags := 0 }) : PortStands s t := by
  have e := congrArg (fun p => { p with flags := t.pp.flags }) h
  exact e

theorem ArchiveMove.port {s t : State} (m : ArchiveMove s t) : PortStands s t := .ofCleared (congrArg (fun u => u.pp) m.rest)

theorem LineMove.port {s t : State} (m : LineMove s t) : PortStands s t := .ofCleared (congrArg (fun u => u.pp) m.rest)

theorem BusMove.port {s t : State} (m : BusMove s t) : PortStands s t := .ofCleared (congrArg (fun u => u.pp) m.rest)

theorem FlashSame.ofFlash {s t : State} (h : t.flash = s.flash) : FlashSame s t := ⟨by rw [h], fun _ _ => by rw [h]⟩

/-! ### The frame of the line's commands -/

/-- Pulls, bus, flash, keep list, tasks and port stand, and no flag but the line's differs. -/
structure LineFrame (s t : State) : Prop where
  pe : t.pe = s.pe
  bi : t.bi = s.bi
  flash : t.flash = s.flash
  keeps : t.ru.keeps = s.ru.keeps
  tasks : t.ru.tasks = s.ru.tasks
  head : t.ru.head = s.ru.head
  port : PortStands s t
  only : OnlyFlags lineFlags s t

namespace LineFrame

theorem refl (s : State) : LineFrame s s := ⟨rfl, rfl, rfl, rfl, rfl, rfl, rfl, .refl _ s⟩

theorem trans {s t u : State} (h : LineFrame s t) (g : LineFrame t u) : LineFrame s u :=
  ⟨g.pe.trans h.pe, g.bi.trans h.bi, g.flash.trans h.flash, g.keeps.trans h.keeps, g.tasks.trans h.tasks, g.head.trans h.head,
    h.port.trans g.port, h.only.trans g.only⟩

theorem ofLine {s t : State} (m : LineMove s t) (only : OnlyFlags lineFlags s t) : LineFrame s t :=
  ⟨m.pe, m.bi, m.flash, m.keeps, m.tasks, congrArg (fun u => u.ru.head) m.rest, m.port, only⟩

theorem ofArchive {s t : State} (m : ArchiveMove s t) (only : OnlyFlags archiveFlags s t) : LineFrame s t :=
  .ofLine (.ofArchive m) only.toLine

/-- Inputs, clock and counts alone differ. -/
theorem ofTiu {s t : State} (pe : t.pe = s.pe) (bi : t.bi = s.bi) (flash : t.flash = s.flash) (ru : t.ru = s.ru) (pp : t.pp = s.pp) :
    LineFrame s t :=
  ⟨pe, bi, flash, by rw [ru], by rw [ru], by rw [ru], .ofPp pp, .ofFlags (by rw [pp])⟩

end LineFrame

theorem fireKinds_frame (kinds : PrevMatch) (s : State) : LineFrame s (fireKinds kinds s) := by
  have fires (b : Bool) {f : State → State} (hf : ∀ u, LineFrame u (f u)) (u : State) : LineFrame u (if b then f u else u) := by
    split
    · exact hf u
    · exact .refl u
  have entry (u : State) : LineFrame u (fireEntryWeld u) :=
    (LineFrame.ofTiu (s := u) (t := { u with tiu.entryCount := 0 }) rfl rfl rfl rfl rfl).trans
      (.ofLine (entryWeld_line (entryLength u.tiu).1 (entryLength u.tiu).2 _) (entryWeld_only _ _ _))
  have weld (u : State) : LineFrame u (exitWeld u) := .ofLine (exitWeld_line u) (exitWeld_only u)
  have cut (u : State) : LineFrame u (exitCut u) := .ofLine (exitCut_line u) (exitCut_only u)
  have strip (u : State) : LineFrame u (stripBreak u) := .ofLine (stripBreak_line u) (stripBreak_only u)
  exact (fires _ weld s).trans ((fires _ cut _).trans ((fires _ strip _).trans (fires _ entry _)))

theorem settleArchive_frame (s : State) : LineFrame s (settleArchive s) := .ofArchive (settleArchive_move s) (settleArchive_only s)

/-- The filtered level taken. -/
def filteredTaken (k : Fin 12) (s : State) : State :=
  { s with
    tiu.filtered := setInput k (s.tiu.raw.getLsbD k) s.tiu.filtered
    tiu.changes := s.tiu.changes.set k none }

/-- The present matches held as the previous ones, and the halt state recomputed (R4, R6). -/
def matched (s : State) : State :=
  { s with tiu.prev := s.tiu.pairs.edges s.tiu.filtered, tiu.halted := s.tiu.pairs.lineHalt.isMatch s.tiu.filtered }

theorem takeChange_frame (k : Fin 12) (s : State) : LineFrame s (takeChange k s) := by
  by_cases run : s.pp.station = .run
  · rw [takeChange_run run]
    refine LineFrame.trans ?_ (settleArchive_frame _)
    exact (LineFrame.ofTiu (s := s) (t := matched (filteredTaken k s)) rfl rfl rfl rfl rfl).trans
      (fireKinds_frame (beginning (filteredTaken k s).tiu.filtered (filteredTaken k s)) _)
  · rw [takeChange_outside run]
    exact .ofTiu rfl rfl rfl rfl rfl

theorem advanceTrack_frame (r : Nat) (s : State) : LineFrame s (advanceTrack r s) :=
  (LineFrame.ofLine (advanceCoils_line r s) (advanceCoils_only r s)).trans
    ((LineFrame.ofLine (advanceCells_line r _) (advanceCells_only r _).toLine).trans (settleArchive_frame _))

theorem countExitPulse_frame (s : State) : LineFrame s (countExitPulse s) := by
  unfold countExitPulse
  split <;> exact .ofTiu rfl rfl rfl rfl rfl

theorem rawInputChange_frame {k : Fin 12} {level : Bool} {s t : State} (h : exec (.rawInputChange k level) s = .next t) : LineFrame s t := by
  rw [exec_rawInputChange, execRawInputChange] at h
  obtain rfl := Host.Outcome.next.inj h
  split
  · exact .refl s
  · split
    · exact .ofTiu rfl rfl rfl rfl rfl
    · split
      · exact LineFrame.trans (t := { s with tiu.raw := setInput k level s.tiu.raw }) (.ofTiu rfl rfl rfl rfl rfl) (takeChange_frame k _)
      · exact .ofTiu rfl rfl rfl rfl rfl

theorem filteredChange_frame {k : Fin 12} {s t : State} (h : exec (.filteredChange k) s = .next t) : LineFrame s t := by
  rw [exec_filteredChange, execFilteredChange] at h
  obtain rfl := Host.Outcome.next.inj h
  split
  · exact .refl s
  · rename_i c _
    exact LineFrame.trans (t := advanceTo c.due s) (.ofTiu rfl rfl rfl rfl rfl) (takeChange_frame k _)

theorem exitPulse_frame {forward : Bool} {s t : State} (h : exec (.exitPulse forward) s = .next t) : LineFrame s t := by
  rw [exec_exitPulse, execExitPulse] at h
  obtain rfl := Host.Outcome.next.inj h
  split
  · split
    · exact (countExitPulse_frame s).trans (advanceTrack_frame _ _)
    · exact countExitPulse_frame s
  · exact .refl s

theorem entryPulse_frame {forward : Bool} {s t : State} (h : exec (.entryPulse forward) s = .next t) : LineFrame s t := by
  rw [exec_entryPulse, execEntryPulse] at h
  obtain rfl := Host.Outcome.next.inj h
  split
  · exact .ofTiu rfl rfl rfl rfl rfl
  · exact .refl s

/-- Settles O22: the frame of each of the four commands. -/
theorem lineCommandsLeaveTheRest : Obligations.LineCommandsLeaveTheRest := by
  unfold Obligations.LineCommandsLeaveTheRest
  intro c s t line h
  have frame : LineFrame s t := by
    rcases line with ⟨k, level, rfl⟩ | ⟨k, rfl⟩ | ⟨forward, rfl⟩ | ⟨forward, rfl⟩
    · exact rawInputChange_frame h
    · exact filteredChange_frame h
    · exact exitPulse_frame h
    · exact entryPulse_frame h
  obtain ⟨pe, bi, flash, keeps, tasks, head, port, only⟩ := frame
  exact ⟨pe, bi, keeps, tasks, head, port, .ofFlash flash, only⟩

end Sys2Proof.Machine
end

section
/-! PROOF. O60: what the bus's commands leave of the rest of the station. Most operations of the bus side leave the port as it is; the
others touch its flags by a moment of reclaim choice alone. -/

namespace Sys2Proof.Machine

/-! ### Operations that leave the port -/

theorem onCtx_pp (c : Fin 6) (f : PullContext → PullContext) (s : State) : (onCtx c f s).pp = s.pp := by
  unfold onCtx; split <;> rfl

theorem onSlot_pp (k : Fin 8) (f : FetchSlot → FetchSlot) (s : State) : (onSlot k f s).pp = s.pp := by
  unfold onSlot; split <;> rfl

theorem onPulling_pp (k : Fin 8) (f : Pulling → Pulling) (s : State) : (onPulling k f s).pp = s.pp := onSlot_pp _ _ s

theorem report_pp (f : OutFrame) (s : State) : (report f s).pp = s.pp := by
  unfold report
  split
  · rfl
  · exact onSlot_pp _ _ s
  · rfl
  · split <;> rfl

theorem send_pp (f : OutFrame) (s : State) : (send f s).pp = s.pp := by
  unfold send offer
  split
  · exact report_pp f s
  · split
    · exact report_pp f s
    · split
      · rfl
      · split <;> rfl

theorem admitOffer_pp (s : State) : (admitOffer s).pp = s.pp := by
  unfold admitOffer acceptedLater
  split
  · rfl
  · split
    · exact onPulling_pp _ _ _
    · rfl

theorem finishTransmit_pp (s : State) : (finishTransmit s).pp = s.pp := by
  unfold finishTransmit
  split
  · rfl
  · dsimp only
    split
    · rw [admitOffer_pp]; exact report_pp _ _
    · exact report_pp _ _

theorem startHead_pp (s : State) : (startHead s).pp = s.pp := by
  unfold startHead
  split
  · exact send_pp _ _
  · rfl

theorem beginFetch_pp (c : Fin 6) (k : Fin 8) (plan : FetchPlan) (s : State) : (beginFetch c k plan s).pp = s.pp := by
  unfold beginFetch
  dsimp only
  rw [send_pp, onCtx_pp]
  rfl

theorem takeSlot_pp (c : Fin 6) (plan : FetchPlan) (s : State) : (takeSlot c plan s).pp = s.pp := by
  unfold takeSlot
  split
  · exact beginFetch_pp _ _ _ s
  · exact onCtx_pp _ _ _

theorem freeSlot_pp (k : Fin 8) (s : State) : (freeSlot k s).pp = s.pp := by
  have promoted (u : State) : (promote k u).pp = u.pp := by
    unfold promote
    split
    · rfl
    · dsimp only
      split
      · rfl
      · split
        · rfl
        · exact beginFetch_pp _ _ _ _
  exact promoted _

theorem stopSlot_pp (k : Fin 8) (s : State) : (stopSlot k s).pp = s.pp := by
  unfold stopSlot
  split
  · rfl
  · exact send_pp _ _

theorem walk_pp (c : Fin 6) (depth : Nat) (g : Grid) (r : OutputRecord) (index : Nat) (l : List ParentSegment) (s : State) :
    (walk c depth g r index l s).pp = s.pp := by
  induction l generalizing index s with
  | nil => exact onCtx_pp _ _ s
  | cons p rest ih =>
    unfold walk
    dsimp only
    split
    · rw [ih, onCtx_pp]
    · rw [ih, onCtx_pp, onCtx_pp]
    · rw [takeSlot_pp, onCtx_pp]

theorem nextSegment_pp (c : Fin 6) (s : State) : (nextSegment c s).pp = s.pp := by
  unfold nextSegment
  split
  · rfl
  · split
    · exact walk_pp _ _ _ _ _ _ s
    · rfl

theorem finishFetch_pp (c : Fin 6) (k : Fin 8) (st : SegStatus) (s : State) : (finishFetch c k st s).pp = s.pp := by
  rw [finishFetch, nextSegment_pp, freeSlot_pp, onCtx_pp]

theorem slotLocated_pp (k : Fin 8) (o : LocateOutcome) (s : State) : (slotLocated k o s).pp = s.pp := by
  unfold slotLocated
  split
  · rfl
  · split
    · rfl
    · split
      · exact send_pp _ _
      · exact finishFetch_pp _ _ _ s
      · rfl

theorem stopFetch_pp (c : Fin 6) (s : State) : (stopFetch c s).pp = s.pp := by
  unfold stopFetch
  split
  · rfl
  · split
    · rfl
    · split
      · rfl
      · split
        · exact freeSlot_pp _ s
        · exact stopSlot_pp _ s
        · rfl

theorem takeSeek_pp (src : Node) (tag : Tag) (p : List Byte) (s : State) : (takeSeek src tag p s).pp = s.pp := by
  unfold takeSeek
  split
  · rfl
  · split
    · rfl
    · split
      · exact send_pp _ s
      · rfl

theorem takeOwn_pp (src : Node) (tag : Tag) (p : List Byte) (s : State) : (takeOwn src tag p s).pp = s.pp := by
  unfold takeOwn; split <;> rfl

theorem drainWatermark_pp (c : Fin 6) (s : State) : (drainWatermark c s).pp = s.pp := by
  unfold drainWatermark
  split
  · rfl
  · split
    · rfl
    · split
      · rfl
      · split
        · rfl
        · rfl
        · split
          · rfl
          · split
            · exact onPulling_pp _ _ _
            · rw [send_pp, onPulling_pp]
            · rfl
            · rfl

theorem formFrame_pp (c : Fin 6) (x : PullContext) (s : State) : (formFrame c x s).2.pp = s.pp := by
  have bins (b : OpenBurst) : (formBins c x b s).2.pp = s.pp := drainWatermark_pp _ _
  unfold formFrame
  split
  · split
    · rfl
    · exact bins _
  · split
    · rfl
    · exact bins _

theorem raiseWatermark_pp (k : Fin 8) (x : FetchSlot) (c : Fin 6) (s : State) : (raiseWatermark k x c s).pp = s.pp := by
  unfold raiseWatermark
  split
  · split
    · dsimp only
      split <;> exact (onPulling_pp _ _ _).trans (send_pp _ s)
    · rfl
  · rfl

theorem takeBins_pp (src : Node) (tag : Tag) (p : List Byte) (s : State) : (takeBins src tag p s).pp = s.pp := by
  unfold takeBins
  split
  · rfl
  · split
    · split
      · split
        · exact raiseWatermark_pp _ _ _ _
        · rfl
      · rfl
    · rfl

theorem takeMark_pp (src : Node) (tag : Tag) (p : List Byte) (s : State) : (takeMark src tag p s).pp = s.pp := by
  unfold takeMark
  split
  · rfl
  · split
    · split
      · exact onCtx_pp _ _ _
      · rfl
    · rfl

theorem takeDone_pp (src : Node) (tag : Tag) (p : List Byte) (s : State) : (takeDone src tag p s).pp = s.pp := by
  unfold takeDone
  split
  · rfl
  · split
    · split
      · rw [finishFetch_pp, onCtx_pp]
      · exact freeSlot_pp _ s
      · rfl
    · rfl

theorem takeWait_pp (src : Node) (tag : Tag) (s : State) : (takeWait src tag s).pp = s.pp := by
  unfold takeWait
  split
  · rfl
  · exact onCtx_pp _ _ s

theorem takeGo_pp (src : Node) (tag : Tag) (s : State) : (takeGo src tag s).pp = s.pp := by
  unfold takeGo
  split
  · rfl
  · exact onCtx_pp _ _ s

theorem OnlyFlags.ofPp {may : List Attention} {s t : State} (h : t.pp = s.pp) : OnlyFlags may s t := .ofFlags (by rw [h])

/-! ### Operations with a moment of reclaim choice -/

theorem keepChanged_only (s : State) : OnlyFlags archiveFlags s (keepChanged s) := .after (reclaimMoment_only _) (.ofFlags rfl)

theorem markPartial_only (i : CoilId) (n : Node) (k : Nat) (s : State) : OnlyFlags archiveFlags s (markPartial i n k s) := by
  unfold markPartial
  exact .ite _ (.after (keepChanged_only _) (.ofFlags rfl)) (.refl _ s)

theorem queueTask_only (t : Task) (s : State) : OnlyFlags archiveFlags s (queueTask t s) := by
  unfold queueTask
  refine .ite _ (.ofFlags rfl) ?_
  split
  · exact markPartial_only _ _ _ s
  · exact .refl _ s

theorem formTasks_only (e : OutEntry) (n : Node) (k : Nat) (kind : TaskKind) (s : State) :
    OnlyFlags archiveFlags s (formTasks e n k kind s) :=
  .after (.ofPp (startHead_pp _)) (.foldl _ (fun s _ => queueTask_only _ s) _ _)

theorem endTask_only (s : State) : OnlyFlags archiveFlags s (endTask s) := .ofPp (startHead_pp _)

theorem failTask_only (s : State) : OnlyFlags archiveFlags s (failTask s) := by
  unfold failTask
  split
  · exact .refl _ s
  · refine .after (endTask_only _) ?_
    split
    · exact markPartial_only _ _ _ s
    · exact .refl _ s

theorem taskLocated_only (o : LocateOutcome) (s : State) : OnlyFlags archiveFlags s (taskLocated o s) := by
  unfold taskLocated
  split
  · exact .ofPp (send_pp _ _)
  · exact failTask_only s
  · exact .refl _ s

theorem takeKeep_only (src : Node) (tag : Tag) (p : List Byte) (s : State) : OnlyFlags archiveFlags s (takeKeep src tag p s) := by
  unfold takeKeep
  refine .ite _ (.ofPp (send_pp _ s)) ?_
  dsimp only
  split
  · exact .ofPp (send_pp _ s)
  · exact .after (formTasks_only _ _ _ _ _) <| .after (.ofPp (send_pp _ _)) <| .after (keepChanged_only _) (.ofFlags rfl)

theorem takeUnkeep_only (src : Node) (tag : Tag) (p : List Byte) (s : State) : OnlyFlags archiveFlags s (takeUnkeep src tag p s) := by
  unfold takeUnkeep
  refine .ite _ (.ofPp (send_pp _ s)) ?_
  split
  · exact .ofPp (send_pp _ s)
  · refine .ite _ ?_ (.ofPp (send_pp _ s))
    dsimp only
    split
    · exact .after (.ofPp (send_pp _ _)) <| .after (keepChanged_only _) (.ofFlags rfl)
    · exact .after (formTasks_only _ _ _ _ _) <| .after (.ofPp (send_pp _ _)) <| .after (keepChanged_only _) (.ofFlags rfl)

theorem takeKept_only (src : Node) (tag : Tag) (p : List Byte) (s : State) : OnlyFlags archiveFlags s (takeKept src tag p s) := by
  unfold takeKept
  split
  · split
    · exact .ite _ (.ite _ (endTask_only s) (failTask_only s)) (.refl _ s)
    · exact .refl _ s
  · exact .refl _ s

theorem placeOwn_pp (c : Fin 6) (s : State) : (placeOwn c s).pp = s.pp := onCtx_pp _ _ s

theorem leaveLocal_only (c : Fin 6) (s : State) : OnlyFlags archiveFlags s (leaveLocal c s) :=
  .after (.ofPp (nextSegment_pp _ _)) <| .after (reclaimMoment_only _) <| .after (.ofPp (onCtx_pp _ _ _)) (.ofPp (onCtx_pp _ _ s))

theorem continueLocal_only (c : Fin 6) (s : State) : OnlyFlags archiveFlags s (continueLocal c s) := by
  refine .trans (.ofPp (placeOwn_pp c s)) ?_
  unfold continueLocal
  generalize placeOwn c s = t
  dsimp only
  split
  · exact .refl _ t
  · exact .ite _ (leaveLocal_only _ t) (.refl _ t)

theorem endCellReading_only (c : Fin 6) (s : State) : OnlyFlags archiveFlags s (endCellReading c s) :=
  .after (continueLocal_only _ _) (.ofPp (onCtx_pp _ _ s))

theorem askCells_only (c : Fin 6) (s : State) : OnlyFlags archiveFlags s (askCells c s) := by
  unfold askCells
  split
  · exact .refl _ s
  · split
    · split
      · exact endCellReading_only _ s
      · exact .ofPp (onCtx_pp _ _ _)
    · exact .refl _ s

theorem takeCellPage_only (c : Fin 6) (p : Option Page) (s : State) : OnlyFlags archiveFlags s (takeCellPage c p s) := by
  unfold takeCellPage
  split
  · exact .refl _ s
  · split
    · exact .ite _ (.after (endCellReading_only _ _) (.ofFlags rfl)) (.after (askCells_only _ _) (.ofFlags rfl))
    · exact .refl _ s

theorem enterLocal_only (c : Fin 6) (x : PullContext) (e : OutEntry) (r : OutputRecord) (g : Grid) (clamped : Bool) (s : State) :
    OnlyFlags archiveFlags s (enterLocal c x e r g clamped s) := by
  unfold enterLocal
  exact .ite _ (.after (endCellReading_only _ _) (.ofPp (placeOwn_pp _ _))) (.after (askCells_only _ _) (.ofPp (placeOwn_pp _ _)))

theorem takeRecordPage_only (c : Fin 6) (p : Option Page) (s : State) : OnlyFlags archiveFlags s (takeRecordPage c p s) := by
  unfold takeRecordPage
  split
  · exact .refl _ s
  · split
    · exact .refl _ s
    · split
      · exact .after (reclaimMoment_only _) (.ofFlags rfl)
      · split
        · exact .after (reclaimMoment_only _) (.ofFlags rfl)
        · exact enterLocal_only _ _ _ _ _ _ s

theorem resolve_only (c : Fin 6) (x : PullContext) (s : State) : OnlyFlags archiveFlags s (resolve c x s) := by
  unfold resolve
  split
  · split
    · exact .after (reclaimMoment_only _) (.ofFlags rfl)
    · exact .ofFlags rfl
  · exact .ofFlags rfl
  · exact .ofFlags rfl

theorem takePull_only (src : Node) (tag : Tag) (p : List Byte) (s : State) : OnlyFlags archiveFlags s (takePull src tag p s) := by
  unfold takePull
  refine .ite _ (.ofPp (send_pp _ s)) (.ite _ (.ofPp (send_pp _ s)) (.ite _ (.refl _ s) ?_))
  split
  · exact .ofPp (send_pp _ s)
  · exact resolve_only _ _ s

theorem endContext_only (c : Fin 6) (st : DoneStatus) (s : State) : OnlyFlags archiveFlags s (endContext c st s) := by
  have freed (u : State) (f : OutFrame) : OnlyFlags archiveFlags u (freeCtxNow c (send f (stopFetch c (dropReads c u)))) :=
    .ofPp ((send_pp f _).trans (stopFetch_pp c _))
  unfold endContext
  split
  · exact .refl _ s
  · refine .ite _ (.after (reclaimMoment_only _) ?_) ?_
    · exact .after (freed _ _) (.ofFlags rfl)
    · exact .after (freed _ _) (.ofFlags rfl)

theorem takeStop_only (src : Node) (tag : Tag) (s : State) : OnlyFlags archiveFlags s (takeStop src tag s) := by
  unfold takeStop
  split
  · exact .refl _ s
  · exact endContext_only _ _ s

theorem handOver_only (kind : FrameKind) (src : Node) (tag : Tag) (p : List Byte) (s : State) :
    OnlyFlags archiveFlags s (handOver kind src tag p s) := by
  cases kind with
  | seek => exact .ofPp (takeSeek_pp _ _ _ s)
  | own => exact .ofPp (takeOwn_pp _ _ _ s)
  | pull => exact takePull_only _ _ _ s
  | bins => exact .ofPp (takeBins_pp _ _ _ s)
  | mark => exact .ofPp (takeMark_pp _ _ _ s)
  | done => exact .ofPp (takeDone_pp _ _ _ s)
  | wait => exact .ofPp (takeWait_pp _ _ s)
  | go => exact .ofPp (takeGo_pp _ _ s)
  | stop => exact takeStop_only _ _ s
  | keep => exact takeKeep_only _ _ _ s
  | unkeep => exact takeUnkeep_only _ _ _ s
  | kept => exact takeKept_only _ _ _ s

theorem drainLooped_only (n : Nat) (s : State) : OnlyFlags archiveFlags s (drainLooped n s) := by
  induction n generalizing s with
  | zero => exact .refl _ s
  | succ n ih =>
    unfold drainLooped
    split
    · exact .refl _ s
    · exact .after (ih _) <| .after (handOver_only _ _ _ _ _) (.ofFlags rfl)

theorem settle_only (s : State) : OnlyFlags archiveFlags s (settle s) := (drainLooped_only 64 s).trans (settleArchive_only _)

/-! ### The frame of the bus's commands -/

/-- The line, the coil assembler, the cells, the node, the port and the flash stand, and no flag but those given differs. -/
structure BusFrame (may : List Attention) (s t : State) : Prop where
  tiu : t.tiu = s.tiu
  ca : t.ca = s.ca
  cx : t.cx = s.cx
  node : t.bi.node = s.bi.node
  flash : t.flash = s.flash
  port : PortStands s t
  only : OnlyFlags may s t

namespace BusFrame

theorem refl (may : List Attention) (s : State) : BusFrame may s s := ⟨rfl, rfl, rfl, rfl, rfl, rfl, .refl _ s⟩

theorem trans {may : List Attention} {s t u : State} (h : BusFrame may s t) (g : BusFrame may t u) : BusFrame may s u :=
  ⟨g.tiu.trans h.tiu, g.ca.trans h.ca, g.cx.trans h.cx, g.node.trans h.node, g.flash.trans h.flash, h.port.trans g.port,
    h.only.trans g.only⟩

theorem mono {may more : List Attention} {s t : State} (h : BusFrame may s t) (sub : may ⊆ more) : BusFrame more s t :=
  { h with only := h.only.mono sub }

theorem ofMove {may : List Attention} {s t : State} (m : BusMove s t) (only : OnlyFlags may s t) : BusFrame may s t :=
  ⟨m.tiu, m.ca, m.cx, m.node, m.flash, m.port, only⟩

theorem settled {may : List Attention} {s t : State} (h : BusFrame may s t) (sub : archiveFlags ⊆ may) : BusFrame may s (settle t) :=
  h.trans (ofMove (settle_move t) ((settle_only t).mono sub))

/-- Clock, flags and bus alone differ. -/
theorem ofBus {may : List Attention} {s t : State} (tiu : t.tiu = s.tiu) (ca : t.ca = s.ca) (cx : t.cx = s.cx)
    (node : t.bi.node = s.bi.node) (flash : t.flash = s.flash) (pp : t.pp = s.pp) : BusFrame may s t :=
  ⟨tiu, ca, cx, node, flash, .ofPp pp, .ofPp pp⟩

end BusFrame

theorem advanceTo_frame (may : List Attention) (t : Nat) (s : State) : BusFrame may s (advanceTo t s) := .ofBus rfl rfl rfl rfl rfl rfl

theorem endCarrier_frame (may : List Attention) (s : State) : BusFrame may s (endCarrier s) := by
  unfold endCarrier
  split
  · exact .ofBus rfl rfl rfl rfl rfl rfl
  · exact .refl _ s

theorem hearSource_frame (may : List Attention) (b : Byte) (s : State) : BusFrame may s (hearSource b s) := by
  unfold hearSource
  split
  · exact .ofBus rfl rfl rfl rfl rfl rfl
  · exact .refl _ s

theorem receive_frame (kind : FrameKind) (f : Frame) (s : State) : BusFrame archiveFlags s (receive kind f s) := by
  unfold receive
  dsimp only
  split
  · have hears := (endCarrier_frame archiveFlags s).trans (hearSource_frame _ f.src _)
    split
    · exact (hears.trans (.ofMove (handOver_move _ _ _ _ _) (handOver_only _ _ _ _ _))).settled (by decide)
    · exact hears
  · exact endCarrier_frame _ s

theorem finishTransmit_frame (may : List Attention) (s : State) : BusFrame may s (finishTransmit s) :=
  .ofMove (finishTransmit_move s) (.ofPp (finishTransmit_pp s))

theorem selectFrame_frame (s : State) : BusFrame archiveFlags s (selectFrame s) := by
  unfold selectFrame
  split
  · exact .ofBus rfl rfl rfl rfl rfl rfl
  · split
    · exact .refl _ s
    · split
      · exact .refl _ s
      · rename_i hx
        exact (BusFrame.ofMove (formFrame_move hx) (.ofPp (formFrame_pp _ _ s))).trans (.ofBus rfl rfl rfl rfl rfl rfl)

theorem loopback_frame {c : Fin 6} {x : PullContext} {s : State} (hx : ctxAt s c = some x) (looped : List OutFrame) :
    BusFrame archiveFlags s { report (formFrame c x s).1 (formFrame c x s).2 with
      bi := { (report (formFrame c x s).1 (formFrame c x s).2).bi with looped := looped } } :=
  (BusFrame.ofMove (formFrame_move hx) (.ofPp (formFrame_pp _ _ s))).trans <|
    (BusFrame.ofMove (report_move _ _) (.ofPp (report_pp _ _))).trans (.ofBus rfl rfl rfl rfl rfl rfl)

/-! ### The commands -/

theorem exec_locateWindowExpiry (d : LocateHolder) (s : State) : exec (.locateWindowExpiry d) s = execLocateWindowExpiry d s := rfl

theorem exec_replyWindowExpiry (s : State) : exec .replyWindowExpiry s = execReplyWindowExpiry s := rfl

theorem exec_silenceTimeout (k : Fin 8) (s : State) : exec (.silenceTimeout k) s = execSilenceTimeout k s := rfl

theorem exec_drainTimeout (k : Fin 8) (s : State) : exec (.drainTimeout k) s = execDrainTimeout k s := rfl

theorem exec_pauseLimit (c : Fin 6) (s : State) : exec (.pauseLimit c) s = execPauseLimit c s := rfl

theorem exec_relayRoomResume (c : Fin 6) (s : State) : exec (.relayRoomResume c) s = execRelayRoomResume c s := rfl

theorem exec_accessWon (s : State) : exec .accessWon s = execAccessWon s := rfl

theorem exec_loopbackDataFrame (c : Fin 6) (s : State) : exec (.loopbackDataFrame c) s = execLoopbackDataFrame c s := rfl

theorem exec_frameSent (s : State) : exec .frameSent s = execFrameSent s := rfl

theorem exec_readbackMismatch (s : State) : exec .readbackMismatch s = execReadbackMismatch s := rfl

theorem exec_frameDiscarded (d : Bool) (b : List Byte) (s : State) : exec (.frameDiscarded d b) s = execFrameDiscarded d b s := rfl

theorem locateWindowExpiry_frame {d : LocateHolder} {s t : State} (h : exec (.locateWindowExpiry d) s = .next t) :
    BusFrame archiveFlags s t := by
  rw [exec_locateWindowExpiry, execLocateWindowExpiry] at h
  obtain rfl := Host.Outcome.next.inj h
  split
  · exact .refl _ s
  · rename_i began l _
    refine ((advanceTo_frame _ (began + locateWindow) s).trans ?_).settled (by decide)
    cases d with
    | slot k => exact .ofMove (slotLocated_move _ _ _) (.ofPp (slotLocated_pp _ _ _))
    | task => exact .ofMove (taskLocated_move _ _) (taskLocated_only _ _)

theorem replyWindowExpiry_frame {s t : State} (h : exec .replyWindowExpiry s = .next t) : BusFrame archiveFlags s t := by
  rw [exec_replyWindowExpiry, execReplyWindowExpiry] at h
  obtain rfl := Host.Outcome.next.inj h
  split
  · exact .refl _ s
  · exact ((advanceTo_frame _ _ s).trans (.ofMove (failTask_move _) (failTask_only _))).settled (by decide)

/-- A context's segment ends TIMEOUT and the next one is begun. -/
theorem timedOut_frame (c : Fin 6) (s : State) :
    BusFrame archiveFlags s (nextSegment c (onCtx c (fun y => (addCount .timeout y).dropFetch) s)) :=
  .ofMove ((onCtx_move c (fun y => (addCount .timeout y).dropFetch) s fun _ h => h).trans (nextSegment_move c _)) (.ofPp ((nextSegment_pp c _).trans (onCtx_pp c _ s)))

theorem silenceTimeout_frame {k : Fin 8} {s t : State} (h : exec (.silenceTimeout k) s = .next t) : BusFrame archiveFlags s t := by
  rw [exec_silenceTimeout, execSilenceTimeout] at h
  obtain rfl := Host.Outcome.next.inj h
  split
  · rename_i began x _ _
    have stops (u : State) : BusFrame archiveFlags u (stopSlot k u) := .ofMove (stopSlot_move k u) (.ofPp (stopSlot_pp k u))
    refine (((advanceTo_frame _ (began + silenceTime) s).trans (stops _)).trans ?_).settled (by decide)
    split
    · exact .refl _ _
    · exact timedOut_frame _ _
  · exact .refl _ s

theorem drainTimeout_frame {k : Fin 8} {s t : State} (h : exec (.drainTimeout k) s = .next t) : BusFrame archiveFlags s t := by
  rw [exec_drainTimeout, execDrainTimeout] at h
  obtain rfl := Host.Outcome.next.inj h
  split
  · exact .refl _ s
  · exact ((advanceTo_frame _ _ s).trans (.ofMove (freeSlot_move _ _) (.ofPp (freeSlot_pp _ _)))).settled (by decide)

theorem pauseLimit_frame {c : Fin 6} {s t : State} (h : exec (.pauseLimit c) s = .next t) : BusFrame archiveFlags s t := by
  rw [exec_pauseLimit, execPauseLimit] at h
  obtain rfl := Host.Outcome.next.inj h
  split
  · exact .refl _ s
  · exact ((advanceTo_frame _ _ s).trans (.ofMove (endContext_move _ _ _) (endContext_only _ _ _))).settled (by decide)

theorem relayRoomResume_frame {c : Fin 6} {s t : State} (h : exec (.relayRoomResume c) s = .next t) : BusFrame archiveFlags s t := by
  rw [exec_relayRoomResume, execRelayRoomResume] at h
  obtain rfl := Host.Outcome.next.inj h
  split
  · exact (BusFrame.ofMove (continueLocal_move c s) (continueLocal_only c s)).settled (by decide)
  · exact .refl _ s

theorem accessWon_frame {s t : State} (h : exec .accessWon s = .next t) : BusFrame archiveFlags s t := by
  rw [exec_accessWon, execAccessWon] at h
  obtain rfl := Host.Outcome.next.inj h
  split
  · exact .refl _ s
  · split
    · exact .refl _ s
    · exact ((advanceTo_frame _ _ s).trans (selectFrame_frame _)).settled (by decide)

theorem loopbackDataFrame_frame {c : Fin 6} {s t : State} (h : exec (.loopbackDataFrame c) s = .next t) : BusFrame archiveFlags s t := by
  rw [exec_loopbackDataFrame, execLoopbackDataFrame] at h
  obtain rfl := Host.Outcome.next.inj h
  split
  · split
    · exact .refl _ s
    · rename_i hx
      exact (loopback_frame hx _).settled (by decide)
  · exact .refl _ s

theorem frameSent_frame {s t : State} (h : exec .frameSent s = .next t) : BusFrame archiveFlags s t := by
  rw [exec_frameSent, execFrameSent] at h
  obtain rfl := Host.Outcome.next.inj h
  split
  · exact .refl _ s
  · rename_i x _
    have ends (u : State) : BusFrame archiveFlags u { u with bi.lastSource := u.bi.node, bi.silence := some u.now } :=
      .ofBus rfl rfl rfl rfl rfl rfl
    exact ((advanceTo_frame _ (x.began + frameTime x.bytes) s).trans ((ends _).trans (finishTransmit_frame _ _))).settled (by decide)

theorem readbackMismatch_frame {s t : State} (h : exec .readbackMismatch s = .next t) : BusFrame (.busFault :: archiveFlags) s t := by
  rw [exec_readbackMismatch, execReadbackMismatch] at h
  obtain rfl := Host.Outcome.next.inj h
  split
  · exact .refl _ s
  · have ends : BusFrame (.busFault :: archiveFlags) s { s with bi.silence := some s.now } := .ofBus rfl rfl rfl rfl rfl rfl
    have faults (u : State) : BusFrame (.busFault :: archiveFlags) u (raise .busFault u) :=
      .ofMove (.ofArchive (raise_move _ u)) (raise_only u (by decide))
    exact (ends.trans ((faults _).trans (finishTransmit_frame _ _))).settled (by decide)

theorem frameDiscarded_frame {d : Bool} {b : List Byte} {s t : State} (h : exec (.frameDiscarded d b) s = .next t) :
    BusFrame archiveFlags s t := by
  rw [exec_frameDiscarded, execFrameDiscarded] at h
  obtain rfl := Host.Outcome.next.inj h
  split
  · exact (endCarrier_frame _ s).trans (hearSource_frame _ _ _)
  · exact endCarrier_frame _ s

theorem carrierSeen_frame {s t : State} (h : exec .carrierSeen s = .next t) : BusFrame archiveFlags s t := by
  obtain rfl := Host.Outcome.next.inj (show Host.Outcome.next { s with bi.silence := none } = .next t from h)
  exact .ofBus rfl rfl rfl rfl rfl rfl

/-- Settles O60: the frame of each command; BUS-FAULT is among the flags of READBACK_MISMATCH alone. -/
theorem busCommandsLeaveTheRest : Obligations.BusCommandsLeaveTheRest := by
  unfold Obligations.BusCommandsLeaveTheRest
  intro c s t h bus
  have frame : BusFrame archiveFlags s t ∨ c = .readbackMismatch ∧ BusFrame (.busFault :: archiveFlags) s t := by
    rcases bus with ⟨kind, f, rfl⟩ | ⟨d, b, rfl⟩ | ⟨d, rfl⟩ | rfl | ⟨k, rfl⟩ | ⟨k, rfl⟩ | ⟨c, rfl⟩ | ⟨c, rfl⟩ | rfl | ⟨c, rfl⟩ | rfl | rfl | rfl
    · obtain rfl := Host.Outcome.next.inj ((frameCommand_receives kind f s).symm.trans h)
      exact .inl (receive_frame kind f s)
    · exact .inl (frameDiscarded_frame h)
    · exact .inl (locateWindowExpiry_frame h)
    · exact .inl (replyWindowExpiry_frame h)
    · exact .inl (silenceTimeout_frame h)
    · exact .inl (drainTimeout_frame h)
    · exact .inl (pauseLimit_frame h)
    · exact .inl (relayRoomResume_frame h)
    · exact .inl (accessWon_frame h)
    · exact .inl (loopbackDataFrame_frame h)
    · exact .inl (frameSent_frame h)
    · exact .inr ⟨rfl, readbackMismatch_frame h⟩
    · exact .inl (carrierSeen_frame h)
  have faultKept : c ≠ .readbackMismatch → flagSet .busFault t = flagSet .busFault s := fun other => by
    rcases frame with frame | ⟨e, _⟩
    · exact frame.only _ (by decide)
    · exact absurd e other
  have whole : BusFrame [.archiveLow, .archiveFull, .amendLock, .busFault] s t := by
    rcases frame with frame | ⟨_, frame⟩
    · exact frame.mono (by decide)
    · exact frame.mono (by decide)
  exact ⟨whole.tiu, whole.ca, whole.cx, whole.port, whole.node, .ofFlash whole.flash, whole.only, faultKept⟩

end Sys2Proof.Machine
end

section
/-! PROOF. O45: settling, the reclaim choice and its segment table, and what the flash's commands leave of the rest of the station. -/

namespace Sys2Proof.Machine

/-! ### The segment table (R64) -/

theorem find_putSeg_same (e : SegEntry) (segs : List SegEntry) : (putSeg e segs).find? (fun g => g.num == e.num) = some e := by
  induction segs with
  | nil => simp [putSeg]
  | cons a segs ih =>
    unfold putSeg
    split
    · simp
    · split
      · simp
      · rename_i other
        rw [List.find?_cons_of_neg (by simpa using fun h => other h.symm)]
        exact ih

theorem find_putSeg_other (e : SegEntry) (segs : List SegEntry) {n : Nat} (h : n ≠ e.num) :
    (putSeg e segs).find? (fun g => g.num == n) = segs.find? (fun g => g.num == n) := by
  have skip (l : List SegEntry) : (e :: l).find? (fun g => g.num == n) = l.find? (fun g => g.num == n) :=
    List.find?_cons_of_neg (by simpa using fun h' => h h'.symm)
  induction segs with
  | nil => exact skip []
  | cons a segs ih =>
    unfold putSeg
    split
    · exact skip _
    · split
      · rename_i same
        rw [skip, List.find?_cons_of_neg (by simpa [← same] using fun h' => h h'.symm)]
      · rw [List.find?_cons, List.find?_cons, ih]

/-! ### What an ArchiveMove writes -/

/-- An ArchiveMove spelled out: the state with its own tables, queues, freezes, amendment and flags. -/
theorem ArchiveMove.spelled {s t : State} (m : ArchiveMove s t) : t = { s with
    ar := { s.ar with
      segs := t.ar.segs, outs := t.ar.outs, ins := t.ar.ins, expired := t.ar.expired, writeQueue := t.ar.writeQueue
      readQueue := t.ar.readQueue }
    ru := { s.ru with freezes := t.ru.freezes, amend := t.ru.amend }
    pp.flags := t.pp.flags } :=
  congrArg (fun u : State => { u with
    ar := { u.ar with
      segs := t.ar.segs, outs := t.ar.outs, ins := t.ar.ins, expired := t.ar.expired, writeQueue := t.ar.writeQueue
      readQueue := t.ar.readQueue }
    ru := { u.ru with freezes := t.ru.freezes, amend := t.ru.amend }
    pp.flags := t.pp.flags }) m.rest

/-- With nothing to settle, settling changes nothing. -/
theorem settleArchive_of_quietness {s : State} (q : Quiet s) : settleArchive s = s := by
  obtain ⟨stage, directory, queue⟩ := q
  have noMoment : placeMoment s = s := by
    unfold placeMoment
    split
    · rfl
    · rw [directory, Bool.and_false, if_neg Bool.false_ne_true]
  have notStuck : directoryStuck s = false := by rw [directoryStuck, directory, Bool.false_and]
  have noDrop : dropPlaceless s = s := by rw [dropPlaceless, notStuck, if_neg Bool.false_ne_true]
  have notLow : archiveLowHolds s = false := by rw [archiveLowHolds, stage]; rfl
  have notFull : archiveFullHolds s = false := by
    rw [archiveFullHolds, notStuck, stage, decide_eq_false (by omega)]
    rfl
  rw [settleArchive, noMoment, noDrop, raiseConditions]
  simp only [notLow, notFull, Bool.false_eq_true, if_false]

/-! ### The reclaim choice (R77 to R79) -/

theorem reclaimDemand_iff (s : State) : reclaimDemand s = true ↔ freeCount s < 4 ∨ 16384 ≤ placesUsed s := by
  simp only [reclaimDemand, directoryFull, Bool.or_eq_true, decide_eq_true_eq]

theorem reclaimInHand_iff (s : State) : reclaimInHand s = true ↔ ∃ g ∈ s.ar.segs, g.state = .chosen ∨ g.state = .erasing := by
  simp only [reclaimInHand, List.any_eq_true, Bool.or_eq_true, beq_iff_eq]

theorem pinHolds_iff (s : State) (seg : Nat) : pinHolds s seg = true ↔ ∃ c x, ctxAt s c = some x ∧ seg ∈ pinnedSegs s x := by
  unfold pinHolds
  rw [List.any_eq_true]
  constructor
  · rintro ⟨c, _, hc⟩
    split at hc
    · rename_i x hx
      exact ⟨c, x, hx, by simpa using hc⟩
    · cases hc
  · rintro ⟨c, x, hx, held⟩
    exact ⟨c, mem_allContexts c, by rw [hx]; simpa using held⟩

theorem keepHolds_iff (s : State) (seg : Nat) : keepHolds s seg = true ↔ ∃ e ∈ s.ar.outs, isKept s e.id = true ∧ seg ∈ e.segSet := by
  simp [keepHolds]

theorem holdsLiveCells_iff (s : State) (g : SegEntry) :
    holdsLiveCells s g = true ↔ ∃ r ∈ g.cells, ∃ c0 ∈ liveStarts s, 2 * c0 ≤ (2 * r.highest + 1) * r.pitch := by
  simp only [holdsLiveCells, List.any_eq_true, decide_eq_true_eq]

theorem eligible_iff (s : State) (g : SegEntry) :
    eligible s g = true ↔ g.state = .used ∧ (∀ e ∈ s.ar.outs, isKept s e.id = true → g.num ∉ e.segSet)
      ∧ (∀ c x, ctxAt s c = some x → g.num ∉ pinnedSegs s x)
      ∧ ∀ r ∈ g.cells, ∀ c0 ∈ liveStarts s, (2 * r.highest + 1) * r.pitch < 2 * c0 := by
  have keeps := keepHolds_iff s g.num
  have pins := pinHolds_iff s g.num
  have cells := holdsLiveCells_iff s g
  unfold eligible
  simp only [Bool.and_eq_true, beq_iff_eq, Bool.not_eq_true', ← Bool.not_eq_true, keeps, pins, cells, and_assoc]
  push Not
  exact Iff.rfl

theorem mem_awaitingOutputs (s : State) (r : OutputRecord) : r ∈ awaitingOutputs s ↔ .output r ∈ awaiting s := by
  unfold awaitingOutputs
  rw [List.mem_filterMap]
  constructor
  · rintro ⟨w, hw, h⟩
    cases w with
    | output q => cases h; exact hw
    | input _ => cases h
    | freezeMark _ _ => cases h
    | amendedInput _ => cases h
    | amendedOutput _ _ => cases h
  · exact fun h => ⟨_, h, rfl⟩

theorem mem_liveStarts (s : State) (c0 : Nat) :
    c0 ∈ liveStarts s ↔ (∃ o ∈ s.ca.openCoils, o.c0 = c0) ∨ (∃ r ∈ s.ca.closing, r.c0 = c0)
      ∨ ∃ r, .output r ∈ awaiting s ∧ r.c0 = c0 := by
  simp only [liveStarts, List.mem_append, List.mem_map, mem_awaitingOutputs, or_assoc]

theorem lowestEligible_eq_none (s : State) : lowestEligible s = none ↔ ∀ g ∈ s.ar.segs, eligible s g = false := by
  simp only [lowestEligible, List.find?_eq_none, mem_bySeq, Bool.not_eq_true]

/-- The lowest eligible segment is listed, is eligible, and has the least sequence of those that are (R78). -/
theorem lowestEligible_spec {s : State} {g : SegEntry} (h : lowestEligible s = some g) :
    g ∈ s.ar.segs ∧ eligible s g = true ∧ ∀ d ∈ s.ar.segs, eligible s d = true → g.seq ≤ d.seq := by
  obtain ⟨ok, before, after, list, none⟩ := List.find?_eq_some_iff_append.1 h
  have listed : g ∈ bySeq s.ar.segs := by rw [list]; simp
  refine ⟨(mem_bySeq _ _).1 listed, ok, fun d hd hok => ?_⟩
  have sorted := sorted_bySeq s.ar.segs
  rw [list] at sorted
  obtain ⟨_, rest, _⟩ := List.pairwise_append.1 sorted
  have place := (mem_bySeq d _).2 hd
  rw [list, List.mem_append, List.mem_cons] at place
  rcases place with early | rfl | late
  · have := none d early
    rw [hok] at this
    cases this
  · exact le_refl _
  · exact (List.pairwise_cons.1 rest).1 d late

theorem reclaimMoment_idle {s : State} (h : reclaimDemand s = false ∨ reclaimInHand s = true ∨ lowestEligible s = none) :
    reclaimMoment s = s := by
  unfold reclaimMoment
  rcases h with h | h | h
  · rw [h, Bool.false_and, if_neg Bool.false_ne_true]
  · rw [h, Bool.not_true, Bool.and_false, if_neg Bool.false_ne_true]
  · simp only [h, ite_self]

theorem reclaimMoment_chooses {s : State} {g : SegEntry} (h : lowestEligible s = some g) (demand : reclaimDemand s = true)
    (free : reclaimInHand s = false) : reclaimMoment s = chooseSegment g s := by
  unfold reclaimMoment
  simp only [demand, free, Bool.not_false, Bool.and_true, if_true, h]

/-- Of a list whose last n elements were kept before more were appended, the last n are those of the whole. -/
theorem last_of_last {α : Type} (n : Nat) (l more : List α) :
    (l.drop (l.length - n) ++ more).drop ((l.drop (l.length - n) ++ more).length - n) = (l ++ more).drop ((l ++ more).length - n) := by
  rw [← List.drop_append_of_le_length (Nat.sub_le _ _), List.drop_drop]
  congr 1
  simp only [List.length_drop, List.length_append]
  omega

/-- Coils that expire enter the expired list, which keeps the last 256 (R72). -/
theorem foldl_expireId (ids : List CoilId) (l : List CoilId) (h : ids ≠ []) :
    ids.foldl expireId l = (l ++ ids).drop ((l ++ ids).length - 256) := by
  induction ids generalizing l with
  | nil => exact absurd rfl h
  | cons i rest ih =>
    rw [List.foldl_cons]
    by_cases last : rest = []
    · rw [last, List.foldl_nil, expireId]
    · rw [ih _ last, expireId, last_of_last, List.append_assoc, List.singleton_append]

/-! ### A segment chosen -/

/-- The state in which a segment is chosen, the amendment's read not yet looked at (R79). -/
def segmentChosen (g : SegEntry) (s : State) : State :=
  { s with
    ar.outs := s.ar.outs.filter (fun e => !e.segSet.contains g.num)
    ar.ins := s.ar.ins.filter (fun e => e.loc.seg != g.num)
    ar.expired := (s.ar.outs.filter (fun e => e.segSet.contains g.num)).foldl (fun l e => expireId l e.id) s.ar.expired
    ar.segs := putSeg { g with state := .chosen } s.ar.segs }

theorem chooseSegment_eq (g : SegEntry) (s : State) : chooseSegment g s = failAmendRead g.num (segmentChosen g s) := rfl

/-- The failing of an amendment's read leaves the archive but for the read queue. -/
theorem failAmendRead_ar (seg : Nat) (s : State) : (failAmendRead seg s).ar = { s.ar with readQueue := (failAmendRead seg s).ar.readQueue } := by
  unfold failAmendRead
  split
  · dsimp only
    split <;> rfl
  · rfl

theorem failAmendRead_fails {seg : Nat} {s : State} {r : ReadRequest} {a : Amending} (hr : r ∈ s.ar.readQueue) (reader : r.reader = .amend)
    (place : r.seg = seg) (amend : s.ru.amend = .opened a) :
    (failAmendRead seg s).ru.amend = .locked .readFailed ∧ flagSet .amendLock (failAmendRead seg s) = true
      ∧ r ∉ (failAmendRead seg s).ar.readQueue := by
  have waits : s.ar.readQueue.any (fun r => r.reader == Reader.amend && r.seg == seg) = true :=
    List.any_eq_true.2 ⟨r, hr, by simp [reader, place]⟩
  unfold failAmendRead
  rw [if_pos waits]
  simp only [amend]
  refine ⟨rfl, flagSet_raise_same _ _, ?_⟩
  simp [lockAmend, reader, place]

theorem expired_segmentChosen {g : SegEntry} {s : State} {gone : List OutEntry}
    (hg : gone = s.ar.outs.filter (fun e => decide (g.num ∈ e.segSet))) :
    (gone = [] → (segmentChosen g s).ar.expired = s.ar.expired)
      ∧ ∀ l, gone ≠ [] → l = s.ar.expired ++ gone.map (fun e => e.id) → (segmentChosen g s).ar.expired = l.drop (l.length - 256) := by
  have same : s.ar.outs.filter (fun e => e.segSet.contains g.num) = gone := by
    rw [hg]
    exact List.filter_congr fun e _ => List.contains_eq_mem _ _
  have folded : (segmentChosen g s).ar.expired = (gone.map (fun e => e.id)).foldl expireId s.ar.expired := by
    rw [List.foldl_map, ← same]
    rfl
  refine ⟨fun empty => by rw [folded, empty]; rfl, fun l some hl => ?_⟩
  rw [folded, foldl_expireId _ _ (by simpa using some), hl]

/-! ### What the flash's commands leave -/

/-- The line's inputs, the node and last source, the port, and the cells' window and table stand, and no flag but those given differs. -/
structure FlashFrame (s t : State) : Prop where
  tiu : t.tiu = s.tiu
  node : t.bi.node = s.bi.node
  source : t.bi.lastSource = s.bi.lastSource
  front : t.cx.front = s.cx.front
  window : t.cx.window = s.cx.window
  channels : t.cx.channels = s.cx.channels
  port : PortStands s t
  only : OnlyFlags (.amendDone :: archiveFlags) s t

namespace FlashFrame

theorem refl (s : State) : FlashFrame s s := ⟨rfl, rfl, rfl, rfl, rfl, rfl, rfl, .refl _ s⟩

theorem trans {s t u : State} (h : FlashFrame s t) (g : FlashFrame t u) : FlashFrame s u :=
  ⟨g.tiu.trans h.tiu, g.node.trans h.node, g.source.trans h.source, g.front.trans h.front, g.window.trans h.window,
    g.channels.trans h.channels, h.port.trans g.port, h.only.trans g.only⟩

theorem after {s t u : State} (g : FlashFrame t u) (h : FlashFrame s t) : FlashFrame s u := h.trans g

theorem ofBus {s t : State} (m : BusMove s t) (only : OnlyFlags archiveFlags s t) : FlashFrame s t :=
  ⟨m.tiu, m.node, congrArg (fun u => u.bi.lastSource) m.rest, by rw [m.cx], by rw [m.cx], by rw [m.cx], m.port, only.mono (by decide)⟩

theorem ofArchive {s t : State} (m : ArchiveMove s t) (only : OnlyFlags archiveFlags s t) : FlashFrame s t := ofBus (.ofArchive m) only

theorem ofLine {s t : State} (m : LineMove s t) (front : t.cx.front = s.cx.front) (window : t.cx.window = s.cx.window)
    (only : OnlyFlags archiveFlags s t) : FlashFrame s t :=
  ⟨m.tiu, by rw [m.bi], by rw [m.bi], front, window, m.channels, m.port, only.mono (by decide)⟩

/-- Archive, flash, clock and amendment alone differ. -/
theorem ofAr {s t : State} (tiu : t.tiu = s.tiu) (bi : t.bi = s.bi) (front : t.cx.front = s.cx.front) (window : t.cx.window = s.cx.window)
    (channels : t.cx.channels = s.cx.channels) (pp : t.pp = s.pp) : FlashFrame s t :=
  ⟨tiu, by rw [bi], by rw [bi], front, window, channels, .ofPp pp, .ofPp pp⟩

end FlashFrame

theorem settle_flash (s : State) : FlashFrame s (settle s) := .ofBus (settle_move s) (settle_only s)

theorem handReadyN_cx (n : Nat) (s : State) : (handReadyN n s).cx = s.cx := by
  induction n generalizing s with
  | zero => rfl
  | succ n ih =>
    unfold handReadyN
    split
    · rfl
    · split
      · rw [ih, handCoil, (reclaimMoment_move _).cx, (handItem_move _ _).cx]
      · rfl

theorem handReady_cx (s : State) : (handReady s).cx = s.cx := handReadyN_cx _ s

theorem handReady_flash (s : State) : FlashFrame s (handReady s) :=
  .ofLine (handReady_line s) (by rw [handReady_cx]) (by rw [handReady_cx]) (handReady_only s)

/-- Entering RECORD-ONLY drops staged cells and leaves the window. -/
theorem enterRecordOnly_cx (s : State) :
    (enterRecordOnly s).cx = { s.cx with staging := s.cx.staging.take (cellsInPage s) } := handReady_cx _

theorem enterFull_cx (s : State) : (enterFull s).cx = s.cx := by
  have drops (l : List WriteItem) (u : State) : (l.foldl (fun s w => dropItem w s) u).cx = u.cx :=
    (ArchiveMove.foldl _ (fun s w => dropItem_move w s) l u).cx
  exact drops _ _

theorem activate_window (s : State) : (activate s).cx.front = s.cx.front ∧ (activate s).cx.window = s.cx.window := by
  unfold activate
  rw [(reclaimMoment_move _).cx]
  split
  · dsimp only
    split
    · exact ⟨rfl, rfl⟩
    · split
      · rw [enterFull_cx]; exact ⟨rfl, rfl⟩
      · exact ⟨rfl, rfl⟩
      · exact ⟨rfl, rfl⟩
  · split
    · exact ⟨rfl, rfl⟩
    · rw [enterRecordOnly_cx]; exact ⟨rfl, rfl⟩
  · exact ⟨rfl, rfl⟩

theorem activate_flash (s : State) : FlashFrame s (activate s) :=
  .ofLine (activate_line s) (activate_window s).1 (activate_window s).2 (activate_only s)

theorem stageAfterErase_flash (s : State) : FlashFrame s (stageAfterErase s) := by
  have record (u : State) : FlashFrame u (enterRecordOnly u) :=
    .ofLine (enterRecordOnly_line u) (by rw [enterRecordOnly_cx]) (by rw [enterRecordOnly_cx]) (enterRecordOnly_only u)
  unfold stageAfterErase
  split
  · exact .refl s
  · split
    · exact .ofAr rfl rfl rfl rfl rfl rfl
    · exact .refl s
  · split
    · exact .after (record _) (.ofAr rfl rfl rfl rfl rfl rfl)
    · exact .refl s

theorem fileItem_flash (seg page : Nat) (s : State) (p : PageItem × Nat) : FlashFrame s (fileItem seg page s p) := by
  have commit (k : AmendKind) (n : Nat) (b : Bool) (u : State) : FlashFrame u (endCommit k n b u) := by
    have m := endCommit_move k n b u
    refine ⟨m.tiu, by rw [m.bi], by rw [m.bi], by rw [m.cx], by rw [m.cx], by rw [m.cx], m.port, ?_⟩
    unfold endCommit
    refine .ite _ (.ite _ (.after (raise_only _ (by decide)) (.ofFlags rfl)) ((lockAmend_only _ u).mono (by decide))) (.refl _ u)
  unfold fileItem
  dsimp only
  split
  · exact .refl s
  · split
    · exact .ofAr rfl rfl rfl rfl rfl rfl
    · exact .refl s
  · split
    · exact .ofAr rfl rfl rfl rfl rfl rfl
    · exact .refl s
  · exact .ofAr rfl rfl rfl rfl rfl rfl
  · exact .after (commit _ _ _ _) (.ofAr rfl rfl rfl rfl rfl rfl)
  · exact .after (commit _ _ _ _) (.ofAr rfl rfl rfl rfl rfl rfl)

theorem filed_flash (seg page : Nat) (l : List (PageItem × Nat)) (s : State) : FlashFrame s (l.foldl (fileItem seg page) s) := by
  induction l generalizing s with
  | nil => exact .refl s
  | cons p l ih => exact (fileItem_flash seg page s p).trans (ih _)

theorem fullSegment_flash (seg : Nat) (s : State) : FlashFrame s (fullSegment seg s) := by
  unfold fullSegment
  split
  · exact .refl s
  · split
    · exact .after (activate_flash _) (.ofAr rfl rfl rfl rfl rfl rfl)
    · exact .refl s

theorem completePage_flash (w : PageWrite) (s : State) : FlashFrame s (completePage w s) := by
  unfold completePage
  split
  · exact .ofAr rfl rfl rfl rfl rfl rfl
  · rename_i g _
    have filled (u : State) : FlashFrame u (fillFirstBlocks (refreshSets u)) := .ofAr rfl rfl rfl rfl rfl rfl
    have moment (b : Bool) (u : State) : FlashFrame u (momentIf b u) := by
      unfold momentIf
      split
      · exact .ofArchive (reclaimMoment_move u) (reclaimMoment_only u)
      · exact .refl u
    refine .after (moment _ _) <| .after (fullSegment_flash _ _) <| .after (handReady_flash _) <| .after (filled _) <|
      .after (filed_flash w.seg w.page _ _) ?_
    exact .ofAr rfl rfl rfl rfl rfl rfl

theorem completeErase_flash (n : Nat) (s : State) : FlashFrame s (completeErase n s) := by
  unfold completeErase
  dsimp only
  split
  · exact .ofAr rfl rfl rfl rfl rfl rfl
  · exact .ofAr rfl rfl rfl rfl rfl rfl
  · refine .after (.ofArchive (reclaimMoment_move _) (reclaimMoment_only _)) ?_
    split
    · exact .after (activate_flash _) <| .after (stageAfterErase_flash _) (.ofAr rfl rfl rfl rfl rfl rfl)
    · exact .after (stageAfterErase_flash _) (.ofAr rfl rfl rfl rfl rfl rfl)

/-! ### The commands -/

theorem exec_dataPageWrite (s : State) : exec .dataPageWrite s = execDataPageWrite s := rfl

theorem exec_pageWriteComplete (s : State) : exec .pageWriteComplete s = execPageWriteComplete s := rfl

theorem exec_pageReadStart (s : State) : exec .pageReadStart s = execPageReadStart s := rfl

theorem exec_recordReadComplete (failed : Bool) (s : State) : exec (.recordReadComplete failed) s = execRecordReadComplete failed s := rfl

theorem exec_cellPageReadComplete (failed : Bool) (s : State) : exec (.cellPageReadComplete failed) s = execCellPageReadComplete failed s := rfl

theorem exec_amendReadComplete (failed : Bool) (s : State) : exec (.amendReadComplete failed) s = execAmendReadComplete failed s := rfl

theorem exec_keepImageWrite (s : State) : exec .keepImageWrite s = execKeepImageWrite s := rfl

theorem exec_keepImageWriteComplete (s : State) : exec .keepImageWriteComplete s = execKeepImageWriteComplete s := rfl

theorem exec_eraseBegin (s : State) : exec .eraseBegin s = execEraseBegin s := rfl

theorem exec_eraseSuspendOrder (s : State) : exec .eraseSuspendOrder s = execEraseSuspendOrder s := rfl

theorem exec_eraseSuspendComplete (s : State) : exec .eraseSuspendComplete s = execEraseSuspendComplete s := rfl

theorem exec_eraseResume (s : State) : exec .eraseResume s = execEraseResume s := rfl

theorem exec_eraseComplete (s : State) : exec .eraseComplete s = execEraseComplete s := rfl

theorem exec_stagingAgeExpiry (s : State) : exec .stagingAgeExpiry s = execStagingAgeExpiry s := rfl

/-- A flash command that writes no page. -/
structure FlashQuiet (s t : State) : Prop extends FlashFrame s t where
  flash : t.flash = s.flash

theorem FlashQuiet.refl (s : State) : FlashQuiet s s := ⟨.refl s, rfl⟩

theorem FlashQuiet.trans {s t u : State} (h : FlashQuiet s t) (g : FlashQuiet t u) : FlashQuiet s u :=
  ⟨h.toFlashFrame.trans g.toFlashFrame, g.flash.trans h.flash⟩

theorem FlashQuiet.ofBus {s t : State} (m : BusMove s t) (only : OnlyFlags archiveFlags s t) : FlashQuiet s t := ⟨.ofBus m only, m.flash⟩

/-- Archive, clock and amendment alone differ. -/
theorem FlashQuiet.ofAr {s t : State} (tiu : t.tiu = s.tiu) (bi : t.bi = s.bi) (cx : t.cx = s.cx) (pp : t.pp = s.pp)
    (flash : t.flash = s.flash) : FlashQuiet s t :=
  ⟨.ofAr tiu bi (by rw [cx]) (by rw [cx]) (by rw [cx]) pp, flash⟩

theorem settle_quiet (s : State) : FlashQuiet s (settle s) := .ofBus (settle_move s) (settle_only s)

theorem completeRead_quiet (r : Reading) (failed : Bool) {take : Option Page → State → State} (s : State)
    (takes : ∀ p u, FlashQuiet u (take p u)) : FlashQuiet s (completeRead r failed take s) := by
  have done : FlashQuiet s (advanceTo (r.began + pageReadTime) { s with ar.reading := none }) := .ofAr rfl rfl rfl rfl rfl
  unfold completeRead
  dsimp only
  split
  · exact done
  · exact (done.trans (takes _ _)).trans (settle_quiet _)

theorem takeAmendPage_quiet (seg : Nat) (p : Option Page) (s : State) : FlashQuiet s (takeAmendPage seg p s) := by
  have locks (c : LockCause) : FlashQuiet s (lockAmend c s) := .ofBus (.ofArchive (lockAmend_move c s)) (lockAmend_only c s)
  unfold takeAmendPage
  split
  · split
    · exact locks _
    · split
      · exact locks _
      · exact .refl s
    · split
      · exact locks _
      · exact .ofAr rfl rfl rfl rfl rfl
  · exact .refl s
  · exact .refl s
  · exact .refl s

theorem dataPageWrite_flash {s t : State} (h : exec .dataPageWrite s = .next t) : FlashQuiet s t := by
  rw [exec_dataPageWrite, execDataPageWrite] at h
  obtain rfl := Host.Outcome.next.inj h
  split
  · dsimp only
    refine FlashQuiet.trans ?_ (settle_quiet _)
    exact .ofAr rfl rfl rfl rfl rfl
  · exact .refl s

theorem pageReadStart_flash {s t : State} (h : exec .pageReadStart s = .next t) : FlashQuiet s t := by
  rw [exec_pageReadStart, execPageReadStart] at h
  obtain rfl := Host.Outcome.next.inj h
  split
  · exact .ofAr rfl rfl rfl rfl rfl
  · exact .refl s

theorem recordReadComplete_flash {failed : Bool} {s t : State} (h : exec (.recordReadComplete failed) s = .next t) : FlashQuiet s t := by
  rw [exec_recordReadComplete, execRecordReadComplete] at h
  obtain rfl := Host.Outcome.next.inj h
  split
  · split
    · exact completeRead_quiet _ _ s fun p u => .ofBus (takeRecordPage_move _ p u) (takeRecordPage_only _ p u)
    · exact .refl s
    · exact .refl s
  · exact .refl s

theorem cellPageReadComplete_flash {failed : Bool} {s t : State} (h : exec (.cellPageReadComplete failed) s = .next t) : FlashQuiet s t := by
  rw [exec_cellPageReadComplete, execCellPageReadComplete] at h
  obtain rfl := Host.Outcome.next.inj h
  split
  · split
    · exact completeRead_quiet _ _ s fun p u => .ofBus (takeCellPage_move _ p u) (takeCellPage_only _ p u)
    · exact .refl s
    · exact .refl s
  · exact .refl s

theorem amendReadComplete_flash {failed : Bool} {s t : State} (h : exec (.amendReadComplete failed) s = .next t) : FlashQuiet s t := by
  rw [exec_amendReadComplete, execAmendReadComplete] at h
  obtain rfl := Host.Outcome.next.inj h
  split
  · split
    · exact completeRead_quiet _ _ s fun p u => takeAmendPage_quiet _ p u
    · exact .refl s
    · exact .refl s
  · exact .refl s

theorem keepImageWrite_flash {s t : State} (h : exec .keepImageWrite s = .next t) : FlashQuiet s t := by
  rw [exec_keepImageWrite, execKeepImageWrite] at h
  obtain rfl := Host.Outcome.next.inj h
  split
  · exact .ofAr rfl rfl rfl rfl rfl
  · exact .refl s

theorem eraseBegin_flash {s t : State} (h : exec .eraseBegin s = .next t) : FlashQuiet s t := by
  rw [exec_eraseBegin, execEraseBegin] at h
  obtain rfl := Host.Outcome.next.inj h
  split
  · rename_i n _ _
    have marks (u : State) : FlashQuiet u (markErasing n u) := by
      unfold markErasing
      split <;> exact .ofAr rfl rfl rfl rfl rfl
    exact FlashQuiet.trans (t := { s with ar.erase := some ⟨n, .running, 0, s.now⟩, free := s.free + 1 })
      (.ofAr rfl rfl rfl rfl rfl) (marks _)
  · exact .refl s

theorem eraseSuspendOrder_flash {s t : State} (h : exec .eraseSuspendOrder s = .next t) : FlashQuiet s t := by
  rw [exec_eraseSuspendOrder, execEraseSuspendOrder] at h
  obtain rfl := Host.Outcome.next.inj h
  split
  · exact .refl s
  · dsimp only
    split
    · exact .ofAr rfl rfl rfl rfl rfl
    · exact .refl s

theorem eraseSuspendComplete_flash {s t : State} (h : exec .eraseSuspendComplete s = .next t) : FlashQuiet s t := by
  rw [exec_eraseSuspendComplete, execEraseSuspendComplete] at h
  obtain rfl := Host.Outcome.next.inj h
  split
  · exact .refl s
  · split
    · exact .refl s
    · exact .refl s
    · dsimp only
      split
      · exact .ofAr rfl rfl rfl rfl rfl
      · exact .refl s

theorem eraseResume_flash {s t : State} (h : exec .eraseResume s = .next t) : FlashQuiet s t := by
  rw [exec_eraseResume, execEraseResume] at h
  obtain rfl := Host.Outcome.next.inj h
  split
  · exact .ofAr rfl rfl rfl rfl rfl
  · exact .refl s

theorem stagingAgeExpiry_flash {s t : State} (h : exec .stagingAgeExpiry s = .next t) : FlashQuiet s t := by
  rw [exec_stagingAgeExpiry, execStagingAgeExpiry] at h
  obtain rfl := Host.Outcome.next.inj h
  split
  · exact .refl s
  · exact .ofAr rfl rfl rfl rfl rfl

theorem pageWriteComplete_flash {s t : State} (h : exec .pageWriteComplete s = .next t) : FlashFrame s t := by
  rw [exec_pageWriteComplete, execPageWriteComplete] at h
  obtain rfl := Host.Outcome.next.inj h
  split
  · exact .refl s
  · refine .after (settle_flash _) <| .after (completePage_flash _ _) ?_
    exact .ofAr rfl rfl rfl rfl rfl rfl

theorem keepImageWriteComplete_flash {s t : State} (h : exec .keepImageWriteComplete s = .next t) : FlashFrame s t := by
  rw [exec_keepImageWriteComplete, execKeepImageWriteComplete] at h
  obtain rfl := Host.Outcome.next.inj h
  split
  · exact .refl s
  · exact .ofAr rfl rfl rfl rfl rfl rfl

theorem eraseComplete_flash {s t : State} (h : exec .eraseComplete s = .next t) : FlashFrame s t := by
  rw [exec_eraseComplete, execEraseComplete] at h
  obtain rfl := Host.Outcome.next.inj h
  split
  · exact .refl s
  · split
    · refine .after (settle_flash _) <| .after (completeErase_flash _ _) ?_
      exact .ofAr rfl rfl rfl rfl rfl rfl
    · exact .refl s

/-- The statement's list of the flash's commands: each leaves the frame, and those that write no page leave the flash. -/
theorem exec_flashFrame {c : Instr} {s t : State} (h : exec c s = .next t)
    (flash : c = .dataPageWrite ∨ c = .pageReadStart ∨ (∃ f, c = .recordReadComplete f) ∨ (∃ f, c = .cellPageReadComplete f)
      ∨ (∃ f, c = .amendReadComplete f) ∨ c = .keepImageWrite ∨ c = .eraseBegin ∨ c = .eraseSuspendOrder ∨ c = .eraseSuspendComplete
      ∨ c = .eraseResume ∨ c = .stagingAgeExpiry ∨ c = .pageWriteComplete ∨ c = .keepImageWriteComplete ∨ c = .eraseComplete) :
    FlashFrame s t ∧ (c ≠ .pageWriteComplete → c ≠ .keepImageWriteComplete → c ≠ .eraseComplete → t.flash = s.flash) := by
  have quiet (q : FlashQuiet s t) :
      FlashFrame s t ∧ (c ≠ .pageWriteComplete → c ≠ .keepImageWriteComplete → c ≠ .eraseComplete → t.flash = s.flash) :=
    ⟨q.toFlashFrame, fun _ _ _ => q.flash⟩
  rcases flash with rfl | rfl | ⟨f, rfl⟩ | ⟨f, rfl⟩ | ⟨f, rfl⟩ | rfl | rfl | rfl | rfl | rfl | rfl | rfl | rfl | rfl
  · exact quiet (dataPageWrite_flash h)
  · exact quiet (pageReadStart_flash h)
  · exact quiet (recordReadComplete_flash h)
  · exact quiet (cellPageReadComplete_flash h)
  · exact quiet (amendReadComplete_flash h)
  · exact quiet (keepImageWrite_flash h)
  · exact quiet (eraseBegin_flash h)
  · exact quiet (eraseSuspendOrder_flash h)
  · exact quiet (eraseSuspendComplete_flash h)
  · exact quiet (eraseResume_flash h)
  · exact quiet (stagingAgeExpiry_flash h)
  · exact ⟨pageWriteComplete_flash h, fun other => absurd rfl other⟩
  · exact ⟨keepImageWriteComplete_flash h, fun _ other => absurd rfl other⟩
  · exact ⟨eraseComplete_flash h, fun _ _ other => absurd rfl other⟩

/-- A reclaim choice with a demand and none in hand: what the chosen segment takes with it (R72, R73, R79). -/
theorem reclaimMoment_spec {s u : State} {g : SegEntry} {gone : List OutEntry} (hg : lowestEligible s = some g)
    (hgone : gone = s.ar.outs.filter (fun e => decide (g.num ∈ e.segSet))) (hu : u = reclaimMoment s) (demand : reclaimDemand s = true)
    (free : reclaimInHand s = false) :
    segEntry u g.num = some { g with state := .chosen } ∧ (∀ n, n ≠ g.num → segEntry u n = segEntry s n)
      ∧ u.ar.outs = s.ar.outs.filter (fun e => decide (g.num ∉ e.segSet))
      ∧ u.ar.ins = s.ar.ins.filter (fun e => decide (e.loc.seg ≠ g.num))
      ∧ (gone = [] → u.ar.expired = s.ar.expired)
      ∧ (∀ l, gone ≠ [] → l = s.ar.expired ++ gone.map (fun e => e.id) → u.ar.expired = l.drop (l.length - 256))
      ∧ (∀ a r, r ∈ s.ar.readQueue → r.reader = .amend → r.seg = g.num → s.ru.amend = .opened a →
          u.ru.amend = .locked .readFailed ∧ flagSet .amendLock u = true ∧ r ∉ u.ar.readQueue)
      ∧ u.flash = s.flash ∧ u.ca = s.ca ∧ u.cx = s.cx ∧ u.pe = s.pe ∧ u.ar.writeQueue = s.ar.writeQueue := by
  have m := reclaimMoment_move s
  rw [← hu] at m
  rw [reclaimMoment_chooses hg demand free, chooseSegment_eq] at hu
  have ar : u.ar = { (segmentChosen g s).ar with readQueue := u.ar.readQueue } := by rw [hu]; exact failAmendRead_ar _ _
  have segs : u.ar.segs = putSeg { g with state := .chosen } s.ar.segs := by rw [ar]; rfl
  obtain ⟨none, some⟩ := expired_segmentChosen hgone
  refine ⟨?_, fun n hn => ?_, ?_, ?_, fun empty => ?_, fun l nonempty hl => ?_, fun a r hr reader place amend => ?_, m.flash, m.ca, m.cx, m.pe, ?_⟩
  · rw [segEntry, segs]
    exact find_putSeg_same { g with state := .chosen } s.ar.segs
  · rw [segEntry, segs]
    exact find_putSeg_other { g with state := .chosen } s.ar.segs hn
  · rw [ar]
    exact List.filter_congr fun e _ => by simp
  · rw [ar]
    exact List.filter_congr fun e _ => by rw [Bool.eq_iff_iff, bne_iff_ne, decide_eq_true_eq]
  · rw [ar]; exact none empty
  · rw [ar]; exact some l nonempty hl
  · rw [hu]; exact failAmendRead_fails (s := segmentChosen g s) hr reader place amend
  · rw [ar]; rfl

/-- Settles O45: settling spelled out, the conditions of the reclaim choice, and the frame of the flash's commands. -/
theorem flashCommandsAndSettlingLeaveTheRest : Obligations.FlashCommandsAndSettlingLeaveTheRest := by
  unfold Obligations.FlashCommandsAndSettlingLeaveTheRest
  refine ⟨fun s => ?settling, fun s => ?choice, fun c s t h flash => ?frame⟩
  case settling =>
    have flagged := settleArchive_flagged s
    exact ⟨⟨_, _, _, _, _, _, _, _, _, (settleArchive_move s).spelled⟩, settleArchive_only s, flagged.1, flagged.2,
      settleArchive_of_quietness, settle_of_noneLooped⟩
  case choice =>
    refine ⟨reclaimDemand_iff s, reclaimInHand_iff s, eligible_iff s, mem_liveStarts s, lowestEligible_eq_none s, reclaimMoment_idle, ?_⟩
    intro g u gone hg hgone hu
    obtain ⟨listed, ok, lowest⟩ := lowestEligible_spec hg
    exact ⟨listed, ok, lowest, reclaimMoment_spec hg hgone hu⟩
  case frame =>
    obtain ⟨frame, stands⟩ := exec_flashFrame h flash
    exact ⟨frame.tiu, frame.node, frame.source, frame.port, frame.front, frame.window, frame.channels, frame.only.mono (by decide),
      fun h1 h2 h3 => .ofFlash (stands h1 h2 h3)⟩

end Sys2Proof.Machine
end

section
/-! PROOF. The process port's commands on names, freezes and amendments (R19, R28, R100 to R109), and the records that are refused with
nothing changed but the response (R198, R199, R201, R220). -/

namespace Sys2Proof.Machine

/-! ### Responses -/

theorem refuse_eq (code : Byte) (fields : List Byte) (n : Nat) (r : Reason) (s : State) :
    refuse code fields n r s = withResponse code fields ((PortResult.refused r).code :: List.replicate n 0) s := rfl

theorem accept_eq (code : Byte) (fields data : List Byte) (s : State) :
    accept code fields data s = withResponse code fields (0x00 :: data) s := rfl

/-- The buffer after a response to a record that fits it whole. -/
theorem respond_buffer {code : Byte} {fields : List Byte} {s : State} (h : fields.length ≤ 257) (r : PortResult) :
    (respond code fields r 0 [] s).pp.buffer = some ⟨code, fields, [r.code]⟩ := by
  have whole : fields.take 257 = fields := List.take_of_length_le h
  cases r <;> simp [respond, whole, PortResult.code]

/-! ### The commands unfolded -/

theorem exec_peekEvents_eq (fields : List Byte) (s : State) : exec (.peekEvents fields) s = execPeekEvents fields s := rfl

theorem exec_readEvents_eq (fields : List Byte) (s : State) : exec (.readEvents fields) s = execReadEvents fields s := rfl

theorem exec_readState (fields : List Byte) (s : State) : exec (.readState fields) s = execReadState fields s := rfl

theorem exec_readLastCoil (fields : List Byte) (s : State) : exec (.readLastCoil fields) s = execReadLastCoil fields s := rfl

theorem exec_announce (fields : List Byte) (s : State) : exec (.announce fields) s = execAnnounce fields s := rfl

theorem exec_nameExit (fields : List Byte) (s : State) : exec (.nameExit fields) s = execNameExit fields s := rfl

theorem exec_sample (fields : List Byte) (s : State) : exec (.sample fields) s = execSample fields s := rfl

theorem exec_freeze (fields : List Byte) (s : State) : exec (.freeze fields) s = execFreeze fields s := rfl

theorem exec_amendOpen (fields : List Byte) (s : State) : exec (.amendOpen fields) s = execAmendOpen fields s := rfl

theorem exec_amendRename (fields : List Byte) (s : State) : exec (.amendRename fields) s = execAmendRename fields s := rfl

theorem exec_amendCommit (fields : List Byte) (s : State) : exec (.amendCommit fields) s = execAmendCommit fields s := rfl

theorem exec_amendCancel (fields : List Byte) (s : State) : exec (.amendCancel fields) s = execAmendCancel fields s := rfl

theorem exec_amendClear (fields : List Byte) (s : State) : exec (.amendClear fields) s = execAmendClear fields s := rfl

/-! ### The commands of RUN on a record of their form -/

theorem exec_freeze_run {fields : List Byte} {s : State} {i : CoilId} (run : s.pp.station = .run) (len : fields.length = 17)
    (hi : countedId fields = some i) : exec (.freeze fields) s = .next (respond 0x0C fields (freeze i s).1 0 [] (freeze i s).2) := by
  rw [exec_freeze, execFreeze, if_neg (not_not.2 run), if_neg (not_not.2 len), hi]

theorem exec_amendOpen_run {fields : List Byte} {s : State} {i : CoilId} {kind : AmendKind} (run : s.pp.station = .run)
    (len : fields.length = 22) (hk : AmendKind.ofCode (byteAt fields 0) = some kind) (hi : countedId (slice fields 1 17) = some i) :
    exec (.amendOpen fields) s = .next (respond 0x0D fields (amendOpen kind i (natAt fields 18 4) s).1 0 []
      (amendOpen kind i (natAt fields 18 4) s).2) := by
  rw [exec_amendOpen, execAmendOpen, if_neg (not_not.2 run), if_neg (not_not.2 len), hk, hi]

theorem exec_amendRename_run {fields : List Byte} {s : State} {i : CoilId} (run : s.pp.station = .run) (len : fields.length = 17)
    (hi : countedId fields = some i) :
    exec (.amendRename fields) s = .next (respond 0x0E fields (amendRename i s).1 0 [] (amendRename i s).2) := by
  rw [exec_amendRename, execAmendRename, if_neg (not_not.2 run), if_neg (not_not.2 len), hi]

theorem exec_amendCommit_run {s : State} (run : s.pp.station = .run) :
    exec (.amendCommit []) s = .next (respond 0x0F [] (amendCommit s).1 0 [] (amendCommit s).2) := by
  rw [exec_amendCommit, execAmendCommit, if_neg (not_not.2 run)]
  rfl

theorem exec_amendCancel_run {s : State} (run : s.pp.station = .run) :
    exec (.amendCancel []) s = .next (respond 0x10 [] (amendCancel s).1 0 [] (amendCancel s).2) := by
  rw [exec_amendCancel, execAmendCancel, if_neg (not_not.2 run)]
  rfl

theorem exec_amendClear_run {s : State} (run : s.pp.station = .run) :
    exec (.amendClear []) s = .next (respond 0x11 [] (amendClear s).1 0 [] (amendClear s).2) := by
  rw [exec_amendClear, execAmendClear, if_neg (not_not.2 run)]
  rfl

/-- A command that answers with a result and a state: from the two, the response. -/
theorem answered {code : Byte} {fields : List Byte} {s u : State} {c : Instr} {f : State → PortResult × State} (r : PortResult)
    (he : exec c s = .next (respond code fields (f s).1 0 [] (f s).2)) (hf : f s = (r, u)) :
    exec c s = .next (withResponse code fields [r.code] u) := by
  rw [he, hf]
  cases r <;> rfl

/-! ### Refused records -/

/-- Settles O35: the guards of each command, in their order. -/
theorem refusedRecordsChangeNothing : Obligations.RefusedRecordsChangeNothing := by
  unfold Obligations.RefusedRecordsChangeNothing
  refine ⟨fun s code fields bytes => ⟨fun unnamed => ?unknown, rfl⟩, fun x => ?driven, fun s fields => ⟨fun h => ?_, fun h => ?states⟩,
    fun s fields => ⟨fun h => ?lengths, fun h => ?_, fun config h => ?_, fun run => ?lengthsInRun⟩⟩
  case unknown =>
    have no : namesCommand code = false := by
      unfold namesCommand
      rcases unnamed with rfl | above
      · rfl
      · simp [show ¬code.toNat ≤ 0x11 by omega]
    show Host.Outcome.next (if namesCommand code then s else refuse code fields 0 .wrongState s) = _
    rw [no]
    rfl
  case driven =>
    obtain ⟨early, response, late⟩ : _ ∧ _ ∧ _ := ⟨fun n => (drivenByte_eq x n).1, fun n => (drivenByte_eq x n).2.1, fun n => (drivenByte_eq x n).2.2⟩
    exact ⟨early 0 (by omega), early 1 (by omega), response, fun n h => late (n + 2) (by omega)⟩
  case states =>
    refine ⟨?_, ?_, ?_, ?_, ?_, ?_, ?_, ?_, ?_, ?_, ?_⟩
    · rw [exec_restart, execRestart, if_pos h]; rfl
    · rw [exec_readLastCoil, execReadLastCoil, if_pos h]; rfl
    · rw [exec_announce, execAnnounce, if_pos h]; rfl
    · rw [exec_nameExit, execNameExit, if_pos h]; rfl
    · rw [exec_sample, execSample, if_pos h]; rfl
    · rw [exec_freeze, execFreeze, if_pos h]; rfl
    · rw [exec_amendOpen, execAmendOpen, if_pos h]; rfl
    · rw [exec_amendRename, execAmendRename, if_pos h]; rfl
    · rw [exec_amendCommit, execAmendCommit, if_pos h]; rfl
    · rw [exec_amendCancel, execAmendCancel, if_pos h]; rfl
    · rw [exec_amendClear, execAmendClear, if_pos h]; rfl
  case lengths =>
    refine ⟨?_, ?_, ?_, fun config => ?_, fun run => ⟨?_, ?_, ?_, ?_, ?_⟩⟩
    · rw [exec_readEvents_eq, execReadEvents, if_neg h]; rfl
    · rw [exec_peekEvents_eq, execPeekEvents, if_neg h]; rfl
    · rw [exec_readState, execReadState, if_neg h]; rfl
    · rw [exec_start, execStart, if_neg (not_not.2 config), if_pos h]; rfl
    · rw [exec_restart, execRestart, if_neg (not_not.2 run), if_pos h]; rfl
    · rw [exec_readLastCoil, execReadLastCoil, if_neg (not_not.2 run), if_pos h]; rfl
    · rw [exec_amendCommit, execAmendCommit, if_neg (not_not.2 run), if_pos h]; rfl
    · rw [exec_amendCancel, execAmendCancel, if_neg (not_not.2 run), if_pos h]; rfl
    · rw [exec_amendClear, execAmendClear, if_neg (not_not.2 run), if_pos h]; rfl
  case lengthsInRun =>
    refine ⟨fun h => ⟨?_, ?_, ?_⟩, fun h => ?_, fun h => ?_, fun short long => ?_⟩
    · rw [exec_announce, execAnnounce, if_neg (not_not.2 run), if_pos h]; rfl
    · rw [exec_freeze, execFreeze, if_neg (not_not.2 run), if_pos h]; rfl
    · rw [exec_amendRename, execAmendRename, if_neg (not_not.2 run), if_pos h]; rfl
    · rw [exec_nameExit, execNameExit, if_neg (not_not.2 run), if_pos h]; rfl
    · rw [exec_amendOpen, execAmendOpen, if_neg (not_not.2 run), if_pos h]; rfl
    · rw [exec_sample, execSample, if_neg (not_not.2 run)]
      dsimp only
      rw [if_pos (.inr (.inr ⟨short, long⟩))]
      rfl
  · rw [exec_start, execStart, if_pos h]; rfl
  · rw [exec_setEnables, execSetEnables, if_neg h]; rfl
  · rw [exec_configure, execConfigure, config]
    have none : configOf fields = none := by
      unfold configOf
      exact if_pos (.inr h)
    simp only [none]
    rfl

/-! ### Names (R19, R28) -/

theorem exec_announce_run {fields : List Byte} {s : State} {i : CoilId} (run : s.pp.station = .run) (len : fields.length = 17)
    (hi : countedId fields = some i) (present : i ≠ []) :
    exec (.announce fields) s = .next (respond 0x09 fields (announce i s).1 0 [] (announce i s).2) := by
  rw [exec_announce, execAnnounce, if_neg (not_not.2 run), if_neg (not_not.2 len), hi]
  dsimp only
  rw [if_neg present]

/-- A name put under a lane's index is that lane's, and no other's (R28). -/
theorem getD_setIfInBounds (names : Vector CoilId 8) {i j : Nat} (hi : i < 8) (x : CoilId) :
    (names.setIfInBounds i x).toList.getD j [] = if j = i then x else names.toList.getD j [] := by
  have get (v : Vector CoilId 8) : v.toList.getD j [] = (v[j]?).getD [] := by
    rw [List.getD_eq_getElem?_getD, Vector.getElem?_toList]
  rw [get, get, Vector.getElem?_setIfInBounds]
  by_cases same : j = i
  · subst same
    simp [hi]
  · rw [if_neg (fun h => same h.symm), if_neg same]

/-- Settles O29: the branches of ANNOUNCE and NAME_EXIT. -/
theorem announcedAndPendingNamesAreTaken : Obligations.AnnouncedAndPendingNamesAreTaken := by
  unfold Obligations.AnnouncedAndPendingNamesAreTaken
  refine ⟨fun fields s run len => ⟨fun absent => ?_, fun i hi present => ?announced⟩, fun fields s i run len lanes hi => ?named⟩
  · rw [exec_announce, execAnnounce, if_neg (not_not.2 run), if_neg (not_not.2 len)]
    rcases absent with h | h <;> rw [h] <;> rfl
  case announced =>
    have he := exec_announce_run run len hi present
    refine ⟨fun held => answered (.refused .duplicate) he ?_, fun new full => answered (.refused .full) he ?_,
      fun new room => answered .accepted he ?_⟩
    · rw [announce, if_pos (by simpa using held)]
    · rw [announce, if_neg (by simpa using new), if_pos full]
    · rw [announce, if_neg (by simpa using new), if_neg (by omega)]
  case named =>
    rw [exec_nameExit, execNameExit, if_neg (not_not.2 run), if_neg (not_not.2 len)]
    dsimp only
    rw [hi]
    dsimp only
    refine ⟨fun outside => by rw [if_pos outside]; rfl, fun above below => ?_⟩
    rw [if_neg (by omega)]
    refine ⟨_, rfl, fun lane low high => ?_⟩
    unfold laneName
    dsimp only
    rw [getD_setIfInBounds _ (by omega)]
    by_cases same : lane = natAt fields 0 1
    · rw [if_pos same, if_pos (by omega)]
    · rw [if_neg same, if_neg (by omega)]

end Sys2Proof.Machine
end

section
/-! PROOF. Freezes and amendments at the port (R100 to R109): what an item handed over does where the archive has room, and the result and
state that each command answers with. -/

namespace Sys2Proof.Machine

/-! ### An item handed over where the archive has room (R66) -/

/-- An item enters the queue when the stage is not FULL, its place can be had, and the queue has room; flags aside, nothing else changes. -/
theorem handItem_of_room {w : WriteItem} {s : State} (stage : s.ar.stage ≠ .full) (place : (needsPlace s w && directoryStuck s) = false)
    (room : s.ar.writeQueue.length < 64) :
    ∃ flags, handItem w s = { s with ar.writeQueue := s.ar.writeQueue ++ [w], pp.flags := flags } := by
  unfold handItem
  rw [if_neg stage, place, if_neg Bool.false_ne_true, if_neg (by omega)]
  dsimp only
  split
  · exact ⟨_, rfl⟩
  · exact ⟨s.pp.flags, rfl⟩

/-- Where the directory has room, settling touches the flags alone. -/
theorem settleArchive_of_directoryRoom {s : State} (h : directoryFull s = false) :
    ∃ flags, settleArchive s = { s with pp.flags := flags } := by
  have noMoment : placeMoment s = s := by
    unfold placeMoment
    split
    · rfl
    · rw [h, Bool.and_false, if_neg Bool.false_ne_true]
  have noDrop : dropPlaceless s = s := by rw [dropPlaceless, directoryStuck, h, Bool.false_and, if_neg Bool.false_ne_true]
  rw [settleArchive, noMoment, noDrop, raiseConditions_eq]
  exact ⟨_, rfl⟩

/-- An item that needs no place, handed over with nothing to settle and nothing looped, enters the queue and touches nothing else but
flags. -/
theorem settle_handItem {w : WriteItem} {s : State} (q : Quiet s) (looped : s.bi.looped = []) (placeless : needsPlace s w = false) :
    ∃ flags, settle (handItem w s) = { s with ar.writeQueue := s.ar.writeQueue ++ [w], pp.flags := flags } := by
  obtain ⟨stage, directory, queue⟩ := q
  obtain ⟨flags, handed⟩ := handItem_of_room (w := w) (by rw [stage]; decide) (by rw [placeless, Bool.false_and]) queue
  rw [handed, settle_of_noneLooped (s := { s with ar.writeQueue := s.ar.writeQueue ++ [w], pp.flags := flags }) looped]
  have room : directoryFull { s with ar.writeQueue := s.ar.writeQueue ++ [w], pp.flags := flags } = false :=
    (directoryFull_congr rfl rfl rfl).trans directory
  obtain ⟨more, settled⟩ := settleArchive_of_directoryRoom room
  exact ⟨more, settled⟩

/-! ### FREEZE (R100) -/

theorem outById_id {s : State} {i : CoilId} {e : OutEntry} (h : outById s i = some e) : e.id = i := by
  have := List.find?_some h
  simpa using this

/-- The state that a freeze accepted leaves before it is settled. -/
theorem freeze_pending {s : State} {i : CoilId} {e : OutEntry} (free : underCommit s i = false) (he : outById s i = some e)
    (unfrozen : isFrozen s e = false) (room : s.ru.freezes.length < 64) :
    freeze i s = (.accepted, settle (handItem (.freezeMark e.seq i) { s with ru.freezes := s.ru.freezes ++ [e.seq] })) := by
  unfold freeze
  rw [free, if_neg Bool.false_ne_true, he]
  dsimp only
  rw [unfrozen, if_neg Bool.false_ne_true, if_neg (by omega), outById_id he]

/-- Settles O31: the rows of R100's table. -/
theorem freezeQueuesAMark : Obligations.FreezeQueuesAMark := by
  unfold Obligations.FreezeQueuesAMark
  intro fields s i run len hi
  have answers := exec_freeze_run run len hi
  refine ⟨fun busy => answered (.refused .busy) answers ?_, fun free => ⟨fun gone => answered (.refused .notFound) answers ?_,
    fun e he => ⟨fun frozen => answered .accepted answers ?_, fun unfrozen full => answered (.refused .full) answers ?_,
      fun unfrozen room q => ?_⟩⟩⟩
  · rw [freeze, if_pos busy]
  · rw [freeze, free, if_neg Bool.false_ne_true, gone]
  · rw [freeze, free, if_neg Bool.false_ne_true, he]
    exact if_pos frozen
  · rw [freeze, free, if_neg Bool.false_ne_true, he]
    dsimp only
    rw [unfrozen, if_neg Bool.false_ne_true, if_pos full]
  · have pending := freeze_pending free he unfrozen room
    refine ⟨_, answers, ?_, fun looped => ?_⟩
    · rw [pending]
      exact respond_buffer (by omega) _
    · have quiet : Quiet { s with ru.freezes := s.ru.freezes ++ [e.seq] } := ⟨q.stage, q.directory, q.queue⟩
      obtain ⟨flags, settled⟩ := settle_handItem (w := .freezeMark e.seq i) quiet looped rfl
      rw [pending, respond_ru, respond_ar, settled]
      exact ⟨rfl, rfl⟩

/-! ### The amendment state (R104, R109) -/

/-- Settles O32: each command by amendment state. -/
theorem amendCommandsFollowTheAmendmentState : Obligations.AmendCommandsFollowTheAmendmentState := by
  unfold Obligations.AmendCommandsFollowTheAmendmentState
  refine ⟨fun s a cause openFields nameFields kind i newId run openLen hk hi nameLen hn => ?_, fun s run => ⟨fun a opened => ?_,
    fun cause locked => ?_⟩⟩
  · have opens := exec_amendOpen_run run openLen hk hi
    have renames := exec_amendRename_run run nameLen hn
    have commits := exec_amendCommit_run run
    have cancels := exec_amendCancel_run run
    have clears := exec_amendClear_run run
    refine ⟨fun held => answered (.refused .busy) opens ?_, fun locked => answered (.refused .locked) opens ?_,
      fun closed => ⟨answered (.refused .wrongState) renames ?_, answered (.refused .wrongState) commits ?_,
        answered (.refused .wrongState) cancels ?_⟩,
      fun committing => ⟨answered (.refused .busy) renames ?_, answered (.refused .busy) commits ?_, answered (.refused .busy) cancels ?_⟩,
      fun locked => ⟨answered (.refused .locked) renames ?_, answered (.refused .locked) commits ?_, answered (.refused .locked) cancels ?_⟩,
      fun unlocked => answered (.refused .wrongState) clears ?_, fun locked => answered .accepted clears ?_⟩
    · rcases held with h | h <;> rw [amendOpen.eq_def, h]
    · rw [amendOpen.eq_def, locked]
    · rw [amendRename, closed]
    · rw [amendCommit, closed]
    · rw [amendCancel, closed]
    · rw [amendRename, committing]
    · rw [amendCommit, committing]
    · rw [amendCancel, committing]
    · rw [amendRename, locked]
    · rw [amendCommit, locked]
    · rw [amendCancel, locked]
    · rcases unlocked with h | h | h <;> rw [amendClear, h]
    · rw [amendClear, locked]
  · have result : amendCancel s = (.accepted, closeAmend s) := by rw [amendCancel, opened]
    exact ⟨_, answered .accepted (exec_amendCancel_run run) result, rfl, rfl, rfl, rfl, rfl, rfl⟩
  · exact answered .accepted (exec_amendClear_run run) (by rw [amendClear, locked])

/-! ### AMEND_OPEN (R103) -/

theorem outUnderCommit_iff (s : State) (i : CoilId) (seq : Nat) : outUnderCommit s i seq = true ↔
    ∃ r, .amendedOutput r i ∈ awaiting s ∧ (r.seq = seq ∨ ∃ e, outById s i = some e ∧ e.seq = r.seq) := by
  unfold outUnderCommit
  rw [List.any_eq_true]
  constructor
  · rintro ⟨w, hw, named⟩
    cases w with
    | amendedOutput r old =>
      simp only [Bool.and_eq_true, Bool.or_eq_true, beq_iff_eq, Option.any_eq_true] at named
      obtain ⟨rfl, named⟩ := named
      exact ⟨r, hw, named⟩
    | input _ => cases named
    | output _ => cases named
    | freezeMark _ _ => cases named
    | amendedInput _ => cases named
  · rintro ⟨r, hr, named⟩
    refine ⟨_, hr, ?_⟩
    simp only [Bool.and_eq_true, Bool.or_eq_true, beq_iff_eq, Option.any_eq_true, true_and]
    exact named

theorem inUnderCommit_iff (s : State) (seq : Nat) : inUnderCommit s seq = true ↔ ∃ r, .amendedInput r ∈ awaiting s ∧ r.seq = seq := by
  unfold inUnderCommit
  rw [List.any_eq_true]
  constructor
  · rintro ⟨w, hw, named⟩
    cases w with
    | amendedInput r => exact ⟨r, hw, by simpa using named⟩
    | input _ => cases named
    | output _ => cases named
    | freezeMark _ _ => cases named
    | amendedOutput _ _ => cases named
  · rintro ⟨r, hr, named⟩
    exact ⟨_, hr, by simpa using named⟩

theorem inBySeq_seq {s : State} {seq : Nat} {e : InEntry} (h : inBySeq s seq = some e) : e.seq = seq := by
  have := List.find?_some h
  simpa using this

/-- The rows of R103's table for an output whose entry is there and not under commit. -/
theorem openOutput_of_entry {s : State} {i : CoilId} {seq : Nat} {e : OutEntry} (free : outUnderCommit s i seq = false)
    (he : outById s i = some e) :
    openOutput i seq s =
      if e.seq ≠ seq then (.refused .mismatch, lockAmend .mismatch s)
      else if isFrozen s e then (.refused .locked, lockAmend .frozen s)
      else if isKept s i then (.refused .locked, lockAmend .kept s)
      else (.accepted, openAmend ⟨.output, seq, i, i, none⟩ e.loc s) := by
  unfold openOutput
  rw [free, if_neg Bool.false_ne_true, he]
  dsimp only
  rw [outById_id he]

/-- The rows of R103's table for an input whose entry is there and not under commit. -/
theorem openInput_of_entry {s : State} {i : CoilId} {seq : Nat} {e : InEntry} (free : inUnderCommit s seq = false)
    (he : inBySeq s seq = some e) :
    openInput i seq s =
      if e.id ≠ i then (.refused .mismatch, lockAmend .mismatch s)
      else if (namingOuts s seq).any (isFrozen s) then (.refused .locked, lockAmend .frozen s)
      else if (namingOuts s seq).any (fun o => isKept s o.id) then (.refused .locked, lockAmend .kept s)
      else (.accepted, openAmend ⟨.input, seq, e.id, e.id, none⟩ e.loc s) := by
  unfold openInput
  rw [free, if_neg Bool.false_ne_true, he]

theorem any_eq_false_of {α : Type} {p : α → Bool} {l : List α} (h : ∀ a ∈ l, p a = false) : l.any p = false := by
  rw [List.any_eq_false]
  exact fun a ha => by rw [h a ha]; exact Bool.false_ne_true

/-- Settles O33: the rows of R103's tables. -/
theorem amendOpenChecksTheRecord : Obligations.AmendOpenChecksTheRecord := by
  unfold Obligations.AmendOpenChecksTheRecord
  intro fields s i run len closed hi
  have output (h : byteAt fields 0 = 1) : exec (.amendOpen fields) s = .next (respond 0x0D fields
      (openOutput i (natAt fields 18 4) s).1 0 [] (openOutput i (natAt fields 18 4) s).2) := by
    have row : amendOpen .output i (natAt fields 18 4) s = openOutput i (natAt fields 18 4) s := by rw [amendOpen, closed]
    rw [exec_amendOpen_run run len (by rw [h]; rfl) hi, row]
  have input (h : byteAt fields 0 = 2) : exec (.amendOpen fields) s = .next (respond 0x0D fields
      (openInput i (natAt fields 18 4) s).1 0 [] (openInput i (natAt fields 18 4) s).2) := by
    have row : amendOpen .input i (natAt fields 18 4) s = openInput i (natAt fields 18 4) s := by rw [amendOpen, closed]
    rw [exec_amendOpen_run run len (by rw [h]; rfl) hi, row]
  refine ⟨?refused, fun h busy => answered (.refused .busy) (output h) ?_, fun h busy => answered (.refused .busy) (input h) ?_,
    outUnderCommit_iff s i, inUnderCommit_iff s, fun e h he free seq unfrozen unkept => ?_, fun e h he free same clear => ?_⟩
  case refused =>
    rintro cause code u rfl
    refine ⟨fun h free gone => answered (.refused .notFound) (output h) ?_, fun h free gone => answered (.refused .notFound) (input h) ?_,
      fun e h he free rows => ?_, fun e h he free rows => ?_⟩
    · rw [openOutput, free, if_neg Bool.false_ne_true, gone]
    · rw [openInput, free, if_neg Bool.false_ne_true, gone]
    · have table := openOutput_of_entry free he
      rcases rows with ⟨other, rfl, rfl⟩ | ⟨same, frozen, rfl, rfl⟩ | ⟨same, unfrozen, kept, rfl, rfl⟩
      · exact answered (.refused .mismatch) (output h) (by rw [table, if_pos other]; rfl)
      · exact answered (.refused .locked) (output h) (by rw [table, if_neg (not_not.2 same), if_pos frozen]; rfl)
      · exact answered (.refused .locked) (output h)
          (by rw [table, if_neg (not_not.2 same), unfrozen, if_neg Bool.false_ne_true, if_pos kept]; rfl)
    · have table := openInput_of_entry (i := i) free he
      rw [inBySeq_seq he] at rows
      rcases rows with ⟨other, rfl, rfl⟩ | ⟨same, frozen, rfl, rfl⟩ | ⟨same, unfrozen, kept, rfl, rfl⟩
      · exact answered (.refused .mismatch) (input h) (by rw [table, if_pos other]; rfl)
      · exact answered (.refused .locked) (input h)
          (by rw [table, if_neg (not_not.2 same), if_pos (List.any_eq_true.2 frozen)]; rfl)
      · exact answered (.refused .locked) (input h) (by
          rw [table, if_neg (not_not.2 same), any_eq_false_of unfrozen, if_neg Bool.false_ne_true, if_pos (List.any_eq_true.2 kept)]
          rfl)
  · rw [openOutput, if_pos busy]
  · rw [openInput, if_pos busy]
  · refine answered .accepted (output h) ?_
    rw [openOutput_of_entry free he, if_neg (not_not.2 seq), unfrozen, if_neg Bool.false_ne_true, unkept, if_neg Bool.false_ne_true, seq]
    rfl
  · refine answered .accepted (input h) ?_
    rw [inBySeq_seq he] at clear ⊢
    rw [openInput_of_entry free he, if_neg (not_not.2 same), any_eq_false_of fun o ho => (clear o ho).1, if_neg Bool.false_ne_true,
      any_eq_false_of fun o ho => (clear o ho).2, if_neg Bool.false_ne_true, same]
    rfl

/-! ### AMEND_RENAME and AMEND_COMMIT (R105, R106) -/

theorem amendRename_opened {s : State} {a : Amending} (i : CoilId) (opened : s.ru.amend = .opened a) :
    amendRename i s = renameOpen a i s := by rw [amendRename, opened]

/-- A rename to an ID that the rules allow, as it stands or taken, leaves the working copy with that ID. -/
theorem renameOpen_accepts {s : State} {a : Amending} {i : CoilId} (opened : s.ru.amend = .opened a)
    (allowed : a.kind = .input ∨ i ≠ [] ∧ (i = a.newId ∨ i = a.openedId ∨ isDuplicate s i = false)) :
    renameOpen a i s = (.accepted, { s with ru.amend := .opened { a with newId := i } }) := by
  obtain ⟨kind, seq, openedId, newId, copy⟩ := a
  unfold renameOpen
  dsimp only at allowed ⊢
  cases kind with
  | input => rfl
  | output =>
    obtain ⟨present, allowed⟩ := allowed.resolve_left (by decide)
    dsimp only
    rw [if_neg present]
    by_cases same : i = newId
    · rw [if_pos same, same, ← opened]
    · rw [if_neg same]
      by_cases back : i = openedId
      · rw [if_pos back]
      · have free := (allowed.resolve_left same).resolve_left back
        rw [if_neg back, free, if_neg Bool.false_ne_true]

theorem amendCommit_opened {s : State} {a : Amending} (opened : s.ru.amend = .opened a) : amendCommit s = commitOpen a s := by
  rw [amendCommit, opened]

/-- The rows of R106's table for a record that is present with its copy read. -/
theorem commitOpen_of_copy {s : State} {a : Amending} {r : StoredRecord} (present : amendPresent s a = true) (copy : a.copy = some r) :
    commitOpen a s =
      if (guardOuts s a).any (isFrozen s) then (.refused .locked, lockAmend .frozen s)
      else if (guardOuts s a).any (fun e => isKept s e.id) then (.refused .locked, lockAmend .kept s)
      else if a.kind = .output ∧ a.newId ≠ a.openedId ∧ isDuplicate s a.newId then (.refused .duplicate, s)
      else (.accepted, settle (handItem (amendedItem a r) { s with ru.amend := .committing a })) := by
  unfold commitOpen
  rw [present, Bool.not_true, if_neg Bool.false_ne_true, copy]

theorem needsPlace_amendedItem (s : State) (a : Amending) (r : StoredRecord) : needsPlace s (amendedItem a r) = false := by
  cases r <;> rfl

/-- Settles O34: the rows of R105 and R106. -/
theorem renameAndCommitActOnTheWorkingCopy : Obligations.RenameAndCommitActOnTheWorkingCopy := by
  unfold Obligations.RenameAndCommitActOnTheWorkingCopy
  refine ⟨fun fields s a i run len hi opened => ?rename, fun s a run opened => ⟨fun gone => ?gone, fun present unread => ?unread,
    fun r present copy => ?read⟩⟩
  case rename =>
    have answers := exec_amendRename_run run len hi
    have row := amendRename_opened i opened
    refine ⟨fun allowed => answered .accepted answers (by rw [row, renameOpen_accepts opened allowed]),
      fun output absent => answered (.refused .mismatch) answers ?_, fun output present new changed taken =>
        answered (.refused .duplicate) answers ?_⟩
    · rw [row, renameOpen, output]
      exact if_pos absent
    · rw [row, renameOpen, output]
      dsimp only
      rw [if_neg present, if_neg new, if_neg changed, if_pos taken]
  case gone =>
    have result : amendCommit s = (.refused .notFound, closeAmend s) := by
      rw [amendCommit_opened opened, commitOpen, gone, Bool.not_false, if_pos rfl]
    exact ⟨_, answered (.refused .notFound) (exec_amendCommit_run run) result, rfl, rfl⟩
  case unread =>
    refine answered (.refused .busy) (exec_amendCommit_run run) ?_
    rw [amendCommit_opened opened, commitOpen, present, Bool.not_true, if_neg Bool.false_ne_true, unread]
  case read =>
    have answers := exec_amendCommit_run run
    have table := (amendCommit_opened opened).trans (commitOpen_of_copy present copy)
    refine ⟨fun frozen => answered (.refused .locked) answers ?_, fun unfrozen kept => answered (.refused .locked) answers ?_,
      fun clear => ?_⟩
    · rw [table, if_pos (List.any_eq_true.2 frozen)]
      rfl
    · rw [table, any_eq_false_of unfrozen, if_neg Bool.false_ne_true, if_pos (List.any_eq_true.2 kept)]
      rfl
    · rw [any_eq_false_of fun e he => (clear e he).1, if_neg Bool.false_ne_true, any_eq_false_of fun e he => (clear e he).2,
        if_neg Bool.false_ne_true] at table
      refine ⟨fun output renamed taken => answered (.refused .duplicate) answers ?_, fun free q => ?_⟩
      · rw [table, if_pos ⟨output, renamed, taken⟩]
      · have allowed : ¬(a.kind = .output ∧ a.newId ≠ a.openedId ∧ isDuplicate s a.newId = true) := by
          rintro ⟨output, renamed, taken⟩
          rcases free with h | h | h
          · rw [output] at h; cases h
          · exact renamed h
          · rw [taken] at h; cases h
        rw [if_neg allowed] at table
        refine ⟨_, answers, ?_, fun looped => ?_, ?_, ?_⟩
        · rw [table]
          exact respond_buffer (Nat.zero_le _) _
        · have quiet : Quiet { s with ru.amend := .committing a } := ⟨q.stage, q.directory, q.queue⟩
          obtain ⟨flags, settled⟩ := settle_handItem quiet looped (needsPlace_amendedItem _ a r)
          rw [table, respond_ru, respond_ar, settled]
          exact ⟨rfl, rfl⟩
        · rintro x rfl
          exact ⟨_, rfl, rfl, rfl, rfl, rfl, rfl, rfl, rfl⟩
        · rintro x rfl
          rfl

end Sys2Proof.Machine
end

section
/-! PROOF. O36: the state that RESET leaves, and what it leaves of the flash. -/

namespace Sys2Proof.Machine

theorem exec_reset (strap : BitVec 5) (raw : BitVec 12) (s : State) :
    exec (.reset strap raw) s = .next (State.afterReset strap raw (flashAfterReset s) s.now s.free s.pending) := rfl

/-- Two pages of 256-page segments have one key when they are one page. -/
theorem pageKey_inj {seg page seg' page' : Nat} (h : page < 256) (h' : page' < 256) :
    pageKey seg page = pageKey seg' page' ↔ seg = seg' ∧ page = page' := by
  unfold pageKey
  omega

/-- A page put at a place is read there, and every other page as before. -/
theorem Flash.at_put (f : Flash) {seg page seg' page' : Nat} (p : Page) (h : page < 256) (h' : page' < 256) :
    (f.put seg page p).at seg' page' = if seg = seg' ∧ page = page' then some p else f.at seg' page' := by
  split
  · rename_i same
    obtain ⟨rfl, rfl⟩ := same
    exact Flash.at_put_same f seg page p
  · rename_i other
    exact Flash.at_put_other f p fun e => other ((pageKey_inj h h').1 e.symm)

/-- A cut-off erase is read as an erase. -/
theorem Flash.at_cutErase (f : Flash) (seg seg' page : Nat) (h : page < 256) :
    (f.cutErase seg).at seg' page = if seg' = seg then none else f.at seg' page := Flash.at_eraseSeg f seg seg' page h

/-- The torn page that a cut-off write leaves, if one was in progress. -/
def tearPage (w : Option (Nat × Nat)) (f : Flash) : Flash :=
  match w with
  | none => f
  | some (seg, page) => f.put seg page .torn

theorem at_tearPage (w : Option (Nat × Nat)) (f : Flash) (seg page : Nat) (h : ∀ p, w = some p → p.2 < 256) (hp : page < 256) :
    (tearPage w f).at seg page = if w.any (fun p => p.1 == seg && p.2 == page) then some .torn else f.at seg page := by
  cases w with
  | none => rfl
  | some p =>
    obtain ⟨s, q⟩ := p
    rw [tearPage, Flash.at_put f _ (h _ rfl) hp]
    simp only [Option.any_some, Bool.and_eq_true, beq_iff_eq]

theorem flashAfterReset_eq (s : State) : flashAfterReset s =
    (match s.ar.erase with
      | none => tearPage (s.ar.keepWrite.map (fun w => (w.seg.val, w.page))) (tearPage (s.ar.pageWrite.map (fun w => (w.seg, w.page))) s.flash)
      | some e => (tearPage (s.ar.keepWrite.map (fun w => (w.seg.val, w.page)))
          (tearPage (s.ar.pageWrite.map (fun w => (w.seg, w.page))) s.flash)).cutErase e.seg) := by
  unfold flashAfterReset
  cases s.ar.pageWrite <;> cases s.ar.keepWrite <;> cases s.ar.erase <;> rfl

/-- What is read of the flash after a reset (R68, R76). -/
theorem at_flashAfterReset {s : State} (write : ∀ w, s.ar.pageWrite = some w → w.page < 256)
    (image : ∀ w, s.ar.keepWrite = some w → w.page < 256) (seg page : Nat) (h : page < 256) :
    (flashAfterReset s).at seg page =
      if s.ar.erase.any (fun e => e.seg == seg) then none
      else if s.ar.pageWrite.any (fun w => w.seg == seg && w.page == page)
          || s.ar.keepWrite.any (fun w => w.seg.val == seg && w.page == page) then some .torn
      else s.flash.at seg page := by
  have torn : (tearPage (s.ar.keepWrite.map (fun w => (w.seg.val, w.page)))
        (tearPage (s.ar.pageWrite.map (fun w => (w.seg, w.page))) s.flash)).at seg page
      = if s.ar.pageWrite.any (fun w => w.seg == seg && w.page == page)
          || s.ar.keepWrite.any (fun w => w.seg.val == seg && w.page == page) then some .torn
        else s.flash.at seg page := by
    rw [at_tearPage _ _ _ _ ?keep h, at_tearPage _ _ _ _ ?write h, Option.any_map, Option.any_map]
    case keep => rintro p hp; obtain ⟨w, hw, rfl⟩ := Option.map_eq_some_iff.1 hp; exact image w hw
    case write => rintro p hp; obtain ⟨w, hw, rfl⟩ := Option.map_eq_some_iff.1 hp; exact write w hw
    dsimp only [Function.comp]
    cases s.ar.pageWrite.any (fun w => w.seg == seg && w.page == page) <;>
      cases s.ar.keepWrite.any (fun w => w.seg.val == seg && w.page == page) <;> rfl
  rw [flashAfterReset_eq]
  cases s.ar.erase with
  | none => exact torn
  | some e =>
    dsimp only
    rw [Flash.at_cutErase _ _ _ _ h, torn, Option.any_some]
    by_cases same : seg = e.seg
    · rw [if_pos same, if_pos (by simp [same])]
    · have other : (e.seg == seg) = false := by simpa using fun h : e.seg = seg => same h.symm
      rw [if_neg same, other, if_neg Bool.false_ne_true]

/-- Settles O36: the reset values are read off the state after reset, the flash by `at_flashAfterReset`. -/
theorem resetPutsEveryBlockAtItsResetValue : Obligations.ResetPutsEveryBlockAtItsResetValue := by
  unfold Obligations.ResetPutsEveryBlockAtItsResetValue
  intro strap raw s write image
  refine ⟨_, exec_reset strap raw s, ?_⟩
  repeat refine ⟨rfl, ?_⟩
  exact fun seg page => at_flashAfterReset write image seg page

end Sys2Proof.Machine
end

section
/-! PROOF. O25: the fields of a response read back from its bytes, and the two reads of the station's state. -/

namespace Sys2Proof.Machine

/-! ### Bytes of numbers and fields (R213) -/

theorem beBytes_length (n v : Nat) : (beBytes n v).length = n := by
  induction n generalizing v with
  | zero => rfl
  | succ n ih => rw [beBytes, List.length_append, ih, List.length_singleton]

theorem beNat_append_one (bs : List Byte) (b : Byte) : beNat (bs ++ [b]) = beNat bs * 256 + b.toNat := by
  rw [beNat, List.foldl_append]
  rfl

/-- The bytes of a number spell it, modulo their range. -/
theorem beNat_beBytes_mod (n v : Nat) : beNat (beBytes n v) = v % 256 ^ n := by
  induction n generalizing v with
  | zero => rw [pow_zero, Nat.mod_one]; rfl
  | succ n ih =>
    have split : v % 256 ^ (n + 1) = v % 256 + 256 * (v / 256 % 256 ^ n) := by rw [Nat.pow_succ', Nat.mod_mul]
    rw [beBytes, beNat_append_one, ih, BitVec.toNat_ofNat, split]
    omega

theorem beNat_beBytes {n v : Nat} (h : v < 256 ^ n) : beNat (beBytes n v) = v := by
  rw [beNat_beBytes_mod, Nat.mod_eq_of_lt h]

theorem beNat_one (b : Byte) : beNat [b] = b.toNat := by
  show 0 * 256 + b.toNat = _
  omega

theorem countedBytes_length {i : CoilId} (h : i.length ≤ 16) : (countedBytes i).length = 17 := by
  rw [countedBytes, List.length_cons, List.length_append, List.length_replicate]
  omega

/-! ### Fields of a record -/

/-- A field of a record is the slice at the summed lengths of the fields before it. -/
theorem slice_flatten (fields : List (List Byte)) (k : Nat) {f : List Byte} (h : fields[k]? = some f) :
    slice fields.flatten ((fields.take k).map List.length).sum f.length = f := by
  have parts : fields.flatten = (fields.take k).flatten ++ (f ++ (fields.drop (k + 1)).flatten) := by
    have hk : k < fields.length := (List.getElem?_eq_some_iff.1 h).1
    have hf : fields[k] = f := (List.getElem?_eq_some_iff.1 h).2
    rw [← List.flatten_cons, ← hf, ← List.drop_eq_getElem_cons hk, ← List.flatten_append, List.take_append_drop]
  have skip : ((fields.take k).map List.length).sum = (fields.take k).flatten.length := List.length_flatten.symm
  rw [slice, parts, skip, List.drop_left, List.take_left]

/-- The same at an offset and a length given as numerals. -/
theorem slice_field (fields : List (List Byte)) (k i n : Nat) {f : List Byte} (h : fields[k]? = some f)
    (hi : ((fields.take k).map List.length).sum = i) (hn : f.length = n) : slice fields.flatten i n = f := by
  subst hi hn
  exact slice_flatten fields k h

theorem natAt_field (fields : List (List Byte)) (k i n : Nat) {v : Nat} (h : fields[k]? = some (beBytes n v))
    (hi : ((fields.take k).map List.length).sum = i) (hv : v < 256 ^ n) : natAt fields.flatten i n = v := by
  rw [natAt, slice_field fields k i n h hi (beBytes_length n v), beNat_beBytes hv]

theorem byteAt_of_slice {bs : List Byte} {i : Nat} {b : Byte} (h : slice bs i 1 = [b]) : byteAt bs i = b := by
  have first : (slice bs i 1)[0]? = bs[i]? := by
    rw [slice, List.getElem?_take_of_lt Nat.one_pos, List.getElem?_drop, Nat.add_zero]
  rw [byteAt, List.getD_eq_getElem?_getD, ← first, h]
  rfl

theorem byteAt_field (fields : List (List Byte)) (k i : Nat) {b : Byte} (h : fields[k]? = some [b])
    (hi : ((fields.take k).map List.length).sum = i) : byteAt fields.flatten i = b :=
  byteAt_of_slice (slice_field fields k i 1 h hi rfl)

/-- A number in one byte. -/
theorem natAt_byteField (fields : List (List Byte)) (k i : Nat) {v : Nat} (h : fields[k]? = some [BitVec.ofNat 8 v])
    (hi : ((fields.take k).map List.length).sum = i) (hv : v < 256) : natAt fields.flatten i 1 = v := by
  rw [natAt, slice_field fields k i 1 h hi rfl, beNat_one, BitVec.toNat_ofNat, Nat.mod_eq_of_lt hv]

/-! ### READ_STATE (R210) -/

/-- The fields of READ-STATE in the order of R219's table. -/
def stateFields (s : State) : List (List Byte) :=
  [[s.pp.station.code], [bitIf s.pp.config.isSome 0 ||| bitIf s.pp.lock 1], countedBytes (configSummary s).1,
    [BitVec.ofNat 8 (configSummary s).2.1], [BitVec.ofNat 8 (configSummary s).2.2], [s.ar.stage.code],
    beBytes 2 (if s.pp.station == .scan then 0 else freeCount s), beBytes 5 (runCoord s),
    [BitVec.ofNat 8 s.ca.entryQueue.length], [BitVec.ofNat 8 s.ca.welds.length], [BitVec.ofNat 8 s.ca.boundaries.length],
    [BitVec.ofNat 8 s.ca.closing.length], beBytes 2 s.cx.staging.length, [BitVec.ofNat 8 s.ar.writeQueue.length],
    [BitVec.ofNat 8 (if s.pp.station == .scan then 0 else s.ru.keeps.length)], [BitVec.ofNat 8 s.ru.tasks.length],
    [BitVec.ofNat 8 (s.pe.contexts.toList.countP Option.isSome)], [BitVec.ofNat 8 (s.pe.slots.toList.countP Option.isSome)],
    [BitVec.ofNat 8 s.bi.queue.length], [s.ru.amend.code], [s.ru.amend.causeCode], [BitVec.ofNat 8 s.bi.node.toNat]]

theorem stateBytes_eq (s : State) : stateBytes s = (stateFields s).flatten := by
  simp only [stateBytes, stateFields, List.flatten_cons, List.flatten_nil, List.append_nil, List.append_assoc, List.cons_append,
    List.nil_append]

/-- The lengths of READ-STATE's fields (R219). -/
def stateLengths : List Nat := [1, 1, 17, 1, 1, 1, 2, 5, 1, 1, 1, 1, 2, 1, 1, 1, 1, 1, 1, 1, 1, 1]

theorem stateFields_offset {s : State} (name : (configSummary s).1.length ≤ 16) (k : Nat) :
    (((stateFields s).take k).map List.length).sum = (stateLengths.take k).sum := by
  have lengths : (stateFields s).map List.length = stateLengths := by
    simp only [stateFields, List.map_cons, List.map_nil, beBytes_length, countedBytes_length name, List.length_singleton]
    rfl
  rw [List.map_take, lengths]

/-- A vector's elements counted over their numbers. -/
theorem countP_toList {α : Type} {n : Nat} (v : Vector α n) (p : α → Bool) :
    v.toList.countP p = (List.finRange n).countP (fun i => p (v.get i)) := by
  have listed : v.toList = (List.finRange n).map v.get := by
    apply List.ext_getElem
    · simp
    · intro i h _
      rw [List.getElem_map, List.getElem_finRange]
      rfl
  rw [listed, List.countP_map]
  rfl

/-- The contexts in use, counted over their numbers. -/
theorem countP_contexts (s : State) : s.pe.contexts.toList.countP Option.isSome = allContexts.countP (fun c => (ctxAt s c).isSome) :=
  countP_toList _ _

/-- The slots in use, counted over their numbers. -/
theorem countP_slots (s : State) : s.pe.slots.toList.countP Option.isSome = allSlots.countP (fun k => (slotAt s k).isSome) :=
  countP_toList _ _

theorem getLsbD_twoBits (a b : Bool) : (bitIf a 0 ||| bitIf b 1).getLsbD 0 = a ∧ (bitIf a 0 ||| bitIf b 1).getLsbD 1 = b := by
  cases a <;> cases b <;> decide

/-- The summary of a configuration fits its fields. -/
theorem configSummary_bounds {s : State}
    (h : ∀ c, s.pp.config = some c → c.lineName.length ≤ 16 ∧ c.laneCount ≤ 8 ∧ c.channels.length ≤ 16) :
    configSummary s = (s.pp.config.elim [] (fun c => c.lineName), s.pp.config.elim 0 (fun c => c.laneCount),
        s.pp.config.elim 0 (fun c => c.channels.length))
      ∧ (configSummary s).1.length ≤ 16 ∧ (configSummary s).2.1 ≤ 8 ∧ (configSummary s).2.2 ≤ 16 := by
  unfold configSummary
  cases hc : s.pp.config with
  | none => exact ⟨rfl, Nat.zero_le _, Nat.zero_le _, Nat.zero_le _⟩
  | some c => exact ⟨rfl, h c hc⟩

theorem scanning_ite {α : Type} (s : State) (a b : α) :
    (if s.pp.station == .scan then a else b) = if s.pp.station = .scan then a else b := by
  by_cases h : s.pp.station = .scan <;> simp [h]

/-- The coil of READ-LAST-COIL is the entry of the closing list under the last coil's ID, or the last coil itself (R211). -/
theorem lastCoilNow_of {s : State} {l r : OutputRecord} (last : s.ca.lastCoil = some l)
    (found : (r ∈ s.ca.closing ∧ r.id = l.id ∧ (∀ x ∈ s.ca.closing, x.id = l.id → x = r))
      ∨ r = l ∧ ∀ x ∈ s.ca.closing, x.id ≠ l.id) : lastCoilNow s = some r := by
  rw [lastCoilNow, last, Option.map_some]
  rcases found with ⟨mem, named, only⟩ | ⟨rfl, other⟩
  · cases hf : s.ca.closing.find? (fun x => x.id == l.id) with
    | none => exact absurd (beq_iff_eq.2 named) (List.find?_eq_none.1 hf r mem)
    | some x => rw [Option.getD_some, only x (List.mem_of_find?_eq_some hf) (beq_iff_eq.1 (List.find?_some (p := fun y : OutputRecord => y.id == l.id) hf))]
  · rw [List.find?_eq_none.2 (fun x hx same => other x hx (beq_iff_eq.1 same)), Option.getD_none]

/-- Settles O25: the fields of READ-STATE read back one by one, and the coil that READ-LAST-COIL finds. -/
theorem stateAndLastCoilAreReadAsTheyStand : Obligations.StateAndLastCoilAreReadAsTheyStand := by
  unfold Obligations.StateAndLastCoilAreReadAsTheyStand
  refine ⟨fun s bounded config => ?state, fun s run => ⟨fun none => ?absent, fun l r last found => ?last⟩⟩
  case state =>
    obtain ⟨summary, name, lanes, channels⟩ := configSummary_bounds config
    have offset := stateFields_offset name
    have coord : runCoord s < 256 ^ 5 := by have := runCoord_le s; omega
    have free : (if s.pp.station == .scan then 0 else freeCount s) < 256 ^ 2 := by rw [freeCount]; split <;> omega
    have keeps : (if s.pp.station == .scan then 0 else s.ru.keeps.length) < 256 := by
      have := bounded.retention.keeps
      split <;> omega
    have contexts : s.pe.contexts.toList.countP Option.isSome < 256 :=
      lt_of_le_of_lt List.countP_le_length (by rw [Vector.length_toList]; decide)
    have slots : s.pe.slots.toList.countP Option.isSome < 256 :=
      lt_of_le_of_lt List.countP_le_length (by rw [Vector.length_toList]; decide)
    have staging : s.cx.staging.length < 256 ^ 2 := lt_of_le_of_lt bounded.staging (by decide)
    have entries : s.ca.entryQueue.length < 256 := lt_of_le_of_lt bounded.assembler.entryQueue (by decide)
    have welds : s.ca.welds.length < 256 := lt_of_le_of_lt bounded.assembler.welds (by decide)
    have boundaries : s.ca.boundaries.length < 256 := lt_of_le_of_lt bounded.assembler.boundaries (by decide)
    have closing : s.ca.closing.length < 256 := lt_of_le_of_lt bounded.assembler.closing (by decide)
    have writes : s.ar.writeQueue.length < 256 := lt_of_le_of_lt bounded.write (by decide)
    have tasks : s.ru.tasks.length < 256 := lt_of_le_of_lt bounded.retention.tasks (by decide)
    have frames : s.bi.queue.length < 256 := lt_of_le_of_lt bounded.control.frames (by decide)
    have node : s.bi.node.toNat < 256 := lt_trans s.bi.node.isLt (by decide)
    rw [← scanning_ite, ← scanning_ite, ← countP_contexts, ← countP_slots]
    refine ⟨stateBytes s, rfl, ?_⟩
    rw [stateBytes_eq]
    refine ⟨?length, byteAt_field _ 0 0 rfl (offset 0), ?bits, ?name, ?lanes, ?channels, byteAt_field _ 5 21 rfl (offset 5),
      natAt_field _ 6 22 2 rfl (offset 6) free, natAt_field _ 7 24 5 rfl (offset 7) coord,
      natAt_byteField _ 8 29 rfl (offset 8) entries, natAt_byteField _ 9 30 rfl (offset 9) welds,
      natAt_byteField _ 10 31 rfl (offset 10) boundaries, natAt_byteField _ 11 32 rfl (offset 11) closing,
      natAt_field _ 12 33 2 rfl (offset 12) staging, natAt_byteField _ 13 35 rfl (offset 13) writes,
      natAt_byteField _ 14 36 rfl (offset 14) keeps, natAt_byteField _ 15 37 rfl (offset 15) tasks,
      natAt_byteField _ 16 38 rfl (offset 16) contexts, natAt_byteField _ 17 39 rfl (offset 17) slots,
      natAt_byteField _ 18 40 rfl (offset 18) frames, byteAt_field _ 19 41 rfl (offset 19), byteAt_field _ 20 42 rfl (offset 20),
      natAt_byteField _ 21 43 rfl (offset 21) node⟩
    case length => rw [List.length_flatten]; exact offset 22
    case bits =>
      rw [byteAt_field (stateFields s) 1 1 rfl (offset 1)]
      exact getLsbD_twoBits _ _
    case name =>
      rw [slice_field (stateFields s) 2 2 17 rfl (offset 2) (countedBytes_length name), summary]
    case lanes =>
      rw [natAt_byteField (stateFields s) 3 19 rfl (offset 3) (lt_of_le_of_lt lanes (by decide)), summary]
    case channels =>
      rw [natAt_byteField (stateFields s) 4 20 rfl (offset 4) (lt_of_le_of_lt channels (by decide)), summary]
  case absent =>
    rw [exec_readLastCoil, execReadLastCoil, if_neg (not_not.2 run),
      if_neg (not_not.2 List.length_nil), lastCoilBytes, lastCoilNow, none]
    rfl
  case last =>
    rw [exec_readLastCoil, execReadLastCoil, if_neg (not_not.2 run),
      if_neg (not_not.2 List.length_nil), lastCoilBytes,
      lastCoilNow_of last found]
    rfl

end Sys2Proof.Machine
end

section
/-! PROOF. O26: the configuration record as CONFIGURE holds it, field by field, and the count of its clamped fields. -/

namespace Sys2Proof.Machine

/-! ### Slices of a slice (R213) -/

theorem slice_slice (bs : List Byte) {i n j k : Nat} (h : j + k ≤ n) : slice (slice bs i n) j k = slice bs (i + j) k := by
  rw [slice, slice, slice, List.drop_take, List.take_take, List.drop_drop, Nat.min_eq_left (by omega)]

theorem byteAt_slice (bs : List Byte) {i n j : Nat} (h : j < n) : byteAt (slice bs i n) j = byteAt bs (i + j) := by
  rw [byteAt, byteAt, slice, List.getD_eq_getElem?_getD, List.getD_eq_getElem?_getD, List.getElem?_take_of_lt h, List.getElem?_drop]

theorem natAt_slice (bs : List Byte) {i n j k : Nat} (h : j + k ≤ n) : natAt (slice bs i n) j k = natAt bs (i + j) k := by
  rw [natAt, natAt, slice_slice bs h]

theorem intAt_slice (bs : List Byte) {i n j k : Nat} (h : j + k ≤ n) : intAt (slice bs i n) j k = intAt bs (i + j) k := by
  rw [intAt, intAt, slice_slice bs h]

/-- A number of one byte is that byte's value. -/
theorem natAt_one (bs : List Byte) (i : Nat) : natAt bs i 1 = (byteAt bs i).toNat := by
  have first : slice bs i 1 = (bs[i]?).toList := by
    rw [slice, List.take_one, List.head?_drop]
  rw [natAt, first, byteAt, List.getD_eq_getElem?_getD]
  cases bs[i]? with
  | none => rfl
  | some b => exact beNat_one b

/-! ### The record as held (R202, R221) -/

/-- 0 where a field is held as it was carried, 1 where it was clamped. -/
def clampedOne {α : Type} [DecidableEq α] (held carried : α) : Nat := if held = carried then 0 else 1

theorem clampedOne_le {α : Type} [DecidableEq α] (held carried : α) : clampedOne held carried ≤ 1 := by
  unfold clampedOne
  split <;> omega

/-- The channel at a place of the record as it is held. -/
def heldChannel (pitch : Nat) (fields : List Byte) (i : Nat) : Channel where
  name := (filledId (slice fields (49 + 13 * i) 8)).getD []
  unit := if 8 < natAt fields (49 + 13 * i + 8) 1 then 0 else byteAt fields (49 + 13 * i + 8)
  scale := max (-3) (min 3 (intAt fields (49 + 13 * i + 9) 1))
  lag := min (natAt fields (49 + 13 * i + 10) 3) (2000 * pitch)

/-- How many fields of a channel at a place differ from those carried. -/
def channelClamps (ch : Channel) (fields : List Byte) (i : Nat) : Nat :=
  clampedOne ch.unit (byteAt fields (49 + 13 * i + 8)) + clampedOne ch.scale (intAt fields (49 + 13 * i + 9) 1)
    + clampedOne ch.lag (natAt fields (49 + 13 * i + 10) 3)

theorem channelClamps_le (ch : Channel) (fields : List Byte) (i : Nat) : channelClamps ch fields i ≤ 3 := by
  have u := clampedOne_le ch.unit (byteAt fields (49 + 13 * i + 8))
  have c := clampedOne_le ch.scale (intAt fields (49 + 13 * i + 9) 1)
  have l := clampedOne_le ch.lag (natAt fields (49 + 13 * i + 10) 3)
  unfold channelClamps
  omega

theorem channelOf_eq (pitch : Nat) {fields : List Byte} {i : Nat} {name : List Byte}
    (h : filledId (slice fields (49 + 13 * i) 8) = some name) (present : name ≠ []) :
    channelOf pitch (slice fields (49 + 13 * i) 13)
      = some (heldChannel pitch fields i, channelClamps (heldChannel pitch fields i) fields i) := by
  have head : slice (slice fields (49 + 13 * i) 13) 0 8 = slice fields (49 + 13 * i) 8 := slice_slice fields (by decide)
  have unit : byteAt (slice fields (49 + 13 * i) 13) 8 = byteAt fields (49 + 13 * i + 8) := byteAt_slice fields (by decide)
  have scale : intAt (slice fields (49 + 13 * i) 13) 9 1 = intAt fields (49 + 13 * i + 9) 1 := intAt_slice fields (by decide)
  have lag : natAt (slice fields (49 + 13 * i) 13) 10 3 = natAt fields (49 + 13 * i + 10) 3 := natAt_slice fields (by decide)
  rw [channelOf, head, unit, scale, lag, h]
  dsimp only
  rw [if_neg present, heldChannel, h, natAt_one]
  rfl

/-- The configuration as it is held. -/
def heldConfig (name : CoilId) (fields : List Byte) : Configuration where
  lineName := name
  pitch := nearestPitch (natAt fields 17 1)
  exitWeight := clampNat 100 6400 (natAt fields 18 2)
  entryWeight := clampNat 100 6400 (natAt fields 20 2)
  dw := min 20000 (natAt fields 22 2)
  filterMs := min 20 (natAt fields 24 1)
  pairs := ⟨pairAt fields 25, pairAt fields 29, pairAt fields 33, pairAt fields 37, pairAt fields 41⟩
  laneCount := clampNat 1 8 (natAt fields 45 1)
  allowance := min (30 * nearestPitch (natAt fields 17 1)) (natAt fields 46 2)
  channels := (List.range (natAt fields 48 1)).map (heldChannel (nearestPitch (natAt fields 17 1)) fields)

/-- The fields of a configuration outside its channels, each with the value carried. -/
def heldAndCarried (c : Configuration) (fields : List Byte) : List (Nat × Nat) :=
  [(c.pitch, natAt fields 17 1), (c.exitWeight, natAt fields 18 2), (c.entryWeight, natAt fields 20 2), (c.dw, natAt fields 22 2),
    (c.filterMs, natAt fields 24 1), (c.laneCount, natAt fields 45 1), (c.allowance, natAt fields 46 2)]

/-- How many fields of a configuration differ from those carried. -/
def configClamps (c : Configuration) (fields : List Byte) : Nat :=
  (heldAndCarried c fields).countP (fun p => p.1 ≠ p.2)
    + (c.channels.zipIdx.map (fun p => channelClamps p.1 fields p.2)).sum

theorem countP_differing (l : List (Nat × Nat)) : l.countP (fun p => p.1 ≠ p.2) = (l.map (fun p => clampedOne p.1 p.2)).sum := by
  induction l with
  | nil => rfl
  | cons p l ih =>
    rw [List.countP_cons, List.map_cons, List.sum_cons, ih, clampedOne, Nat.add_comm]
    by_cases same : p.1 = p.2 <;> simp [same]

theorem configClamps_le {c : Configuration} (h : c.channels.length ≤ 16) (fields : List Byte) : configClamps c fields ≤ 55 := by
  have first : (heldAndCarried c fields).countP (fun p => p.1 ≠ p.2) ≤ 7 := List.countP_le_length
  have rest := List.sum_le_card_nsmul (c.channels.zipIdx.map (fun p => channelClamps p.1 fields p.2)) 3 (fun x hx => by
    obtain ⟨p, _, rfl⟩ := List.mem_map.1 hx
    exact channelClamps_le _ _ _)
  rw [List.length_map, List.length_zipIdx, smul_eq_mul] at rest
  unfold configClamps
  omega

/-- A function that answers throughout a list answers for the list. -/
theorem mapM_eq_map {α β : Type} {f : α → Option β} {g : α → β} {l : List α} (h : ∀ a ∈ l, f a = some (g a)) :
    l.mapM f = some (l.map g) := by
  induction l with
  | nil => rfl
  | cons a l ih =>
    rw [List.mapM_cons, h a List.mem_cons_self, ih (fun b hb => h b (List.mem_cons_of_mem _ hb))]
    rfl

/-- The places of a list made from a range. -/
theorem zipIdx_map_range {α : Type} (f : Nat → α) (n : Nat) : ((List.range n).map f).zipIdx = (List.range n).map (fun i => (f i, i)) := by
  apply List.ext_getElem
  · simp
  · intro i _ _
    simp

theorem configOf_eq {fields : List Byte} {name : CoilId} (channels : natAt fields 48 1 ≤ 16)
    (len : fields.length = 49 + 13 * natAt fields 48 1) (line : countedId (slice fields 0 17) = some name) (present : name ≠ [])
    (names : ∀ i, i < natAt fields 48 1 → ∃ ch, filledId (slice fields (49 + 13 * i) 8) = some ch ∧ ch ≠ []) :
    configOf fields = some (heldConfig name fields, configClamps (heldConfig name fields) fields) := by
  have held : (List.range (natAt fields 48 1)).mapM (fun i => channelOf (nearestPitch (natAt fields 17 1)) (slice fields (49 + 13 * i) 13))
      = some ((List.range (natAt fields 48 1)).map (fun i => (heldChannel (nearestPitch (natAt fields 17 1)) fields i,
          channelClamps (heldChannel (nearestPitch (natAt fields 17 1)) fields i) fields i))) := by
    refine mapM_eq_map (fun i hi => ?_)
    obtain ⟨ch, hch, some⟩ := names i (List.mem_range.1 hi)
    exact channelOf_eq _ hch some
  have counted : configClamps (heldConfig name fields) fields
      = ((heldAndCarried (heldConfig name fields) fields).map (fun p => clampedOne p.1 p.2)).sum
        + ((List.range (natAt fields 48 1)).map (fun i =>
            channelClamps (heldChannel (nearestPitch (natAt fields 17 1)) fields i) fields i)).sum := by
    rw [configClamps, countP_differing]
    show _ + (((List.range _).map _).zipIdx.map _).sum = _
    rw [zipIdx_map_range, List.map_map]
    rfl
  rw [configOf]
  dsimp only
  rw [if_neg (by rw [not_or, not_not]; exact ⟨by omega, len⟩), line]
  dsimp only
  rw [held]
  dsimp only
  rw [if_neg present, counted, List.map_map, List.map_map]
  simp only [heldAndCarried, List.map_cons, List.map_nil, List.sum_cons, List.sum_nil]
  refine congrArg some (Prod.ext rfl ?_)
  show (clampedOne _ _ + clampedOne _ _ + clampedOne _ _ + clampedOne _ _ + clampedOne _ _ + clampedOne _ _ + clampedOne _ _) + _ = _
  simp only [Nat.add_assoc, Nat.add_zero]
  rfl

/-- The pitch held is of the set, the nearest to the one carried, the larger of two (R45). -/
theorem nearestPitch_spec (v : Nat) : nearestPitch v ∈ [10, 25, 50, 100, 200]
    ∧ ∀ p ∈ [10, 25, 50, 100, 200], ((nearestPitch v : Int) - v).natAbs < ((p : Int) - v).natAbs
        ∨ (((nearestPitch v : Int) - v).natAbs = ((p : Int) - v).natAbs ∧ p ≤ nearestPitch v) := by
  unfold nearestPitch
  constructor
  · split_ifs <;> decide
  · intro p hp
    simp only [List.mem_cons, List.not_mem_nil, or_false] at hp
    split_ifs <;> omega

/-- A channel of the configuration held is the one of its place. -/
theorem heldConfig_channel {name : CoilId} {fields : List Byte} {i : Nat} {ch : Channel}
    (h : (heldConfig name fields).channels[i]? = some ch) :
    i < natAt fields 48 1 ∧ ch = heldChannel (nearestPitch (natAt fields 17 1)) fields i := by
  obtain ⟨hi, rfl⟩ := List.getElem?_eq_some_iff.1 h
  have len : (heldConfig name fields).channels.length = natAt fields 48 1 := by
    rw [heldConfig, List.length_map, List.length_range]
  refine ⟨len ▸ hi, ?_⟩
  simp only [heldConfig, List.getElem_map, List.getElem_range]

/-- Settles O26: the record held, the two refusals, and START's lock. -/
theorem configureHoldsTheClampedRecord : Obligations.ConfigureHoldsTheClampedRecord := by
  unfold Obligations.ConfigureHoldsTheClampedRecord
  refine ⟨fun fields s name config channels len line present names => ?held, fun fields s => ⟨fun h => ?scan, fun h => ?run⟩, rfl,
    fun s c config held => ?locked⟩
  case held =>
    have length : (heldConfig name fields).channels.length = natAt fields 48 1 := by
      rw [heldConfig, List.length_map, List.length_range]
    obtain ⟨member, nearest⟩ := nearestPitch_spec (natAt fields 17 1)
    refine ⟨heldConfig name fields, configClamps (heldConfig name fields) fields, configClamps_le (length ▸ channels) fields, rfl, ?_,
      rfl, rfl, rfl, rfl, rfl, rfl, member, nearest, rfl, rfl, length, fun i ch hch => ?_⟩
    · rw [exec_configure, execConfigure, config]
      dsimp only
      rw [configOf_eq channels len line present names]
      rfl
    · obtain ⟨hi, rfl⟩ := heldConfig_channel hch
      obtain ⟨n, hn, _⟩ := names i hi
      refine ⟨?_, rfl, rfl, rfl⟩
      rw [heldChannel, hn]
      rfl
  case scan =>
    rw [exec_configure, execConfigure, h]
    rfl
  case run => exact exec_configure_run h
  case locked =>
    refine ⟨accept 0x06 [] [] (settle (startStation c s)), ?_, ?_⟩
    · rw [exec_start, execStart, if_neg (not_not.2 config), if_neg (not_not.2 List.length_nil), held]
    · rw [accept_pp_lock, (settle_move _).lock]
      unfold startStation beginTracking
      dsimp only
      rw [(activateIfNone_line _).lock, (openCoilsAt_line _ _).lock]
      rfl

end Sys2Proof.Machine
end

section
/-! PROOF. Reading rules of contexts, slots, offers and reports; O46, O51, O58 and O59 on the bus interface. -/

namespace Sys2Proof.Machine

/-! ### Contexts and slots -/

theorem onCtx_of {s : State} {c : Fin 6} {x : PullContext} (h : ctxAt s c = some x) (f : PullContext → PullContext) :
    onCtx c f s = setCtx c (some (f x)) s := by rw [onCtx, h]

theorem onSlot_of {s : State} {k : Fin 8} {x : FetchSlot} (h : slotAt s k = some x) (f : FetchSlot → FetchSlot) :
    onSlot k f s = setSlot k (some (f x)) s := by rw [onSlot, h]

theorem onSlot_none {s : State} {k : Fin 8} (h : slotAt s k = none) (f : FetchSlot → FetchSlot) : onSlot k f s = s := by
  rw [onSlot, h]

theorem onPulling_of {s : State} {k : Fin 8} {x : FetchSlot} {p : Pulling} (h : slotAt s k = some x) (hp : x.phase = .pulling p)
    (f : Pulling → Pulling) : onPulling k f s = setSlot k (some { x with phase := .pulling (f p) }) s := by
  rw [onPulling, onSlot_of h, hp]

/-- A slot put back as it is. -/
theorem setSlot_self {s : State} {k : Fin 8} {x : FetchSlot} (h : slotAt s k = some x) : setSlot k (some x) s = s := by
  have same : s.pe.slots.set k (some x) = s.pe.slots := by
    rw [← h]
    exact Vector.set_getElem_self _
  rw [setSlot, same]

/-- A context put back as it is. -/
theorem setCtx_self {s : State} {c : Fin 6} {x : PullContext} (h : ctxAt s c = some x) : setCtx c (some x) s = s := by
  have same : s.pe.contexts.set c (some x) = s.pe.contexts := by
    rw [← h]
    exact Vector.set_getElem_self _
  rw [setCtx, same]

theorem setCtx_setCtx (c : Fin 6) (x y : Option PullContext) (s : State) : setCtx c y (setCtx c x s) = setCtx c y s := by
  simp only [setCtx, Vector.set_set]

theorem setSlot_setSlot (k : Fin 8) (x y : Option FetchSlot) (s : State) : setSlot k y (setSlot k x s) = setSlot k y s := by
  simp only [setSlot, Vector.set_set]

/-- A change of slots alone. -/
theorem onSlot_slots (k : Fin 8) (f : FetchSlot → FetchSlot) (s : State) : ∃ v, onSlot k f s = { s with pe.slots := v } := by
  unfold onSlot
  split
  · exact ⟨s.pe.slots, rfl⟩
  · exact ⟨_, rfl⟩

theorem ctxFor_congr {s t : State} (h : t.pe = s.pe) (src : Node) (tag : Tag) : ctxFor t src tag = ctxFor s src tag := by
  unfold ctxFor ctxAt
  rw [h]

theorem ctxAt_congr {s t : State} (h : t.pe = s.pe) (c : Fin 6) : ctxAt t c = ctxAt s c := by
  unfold ctxAt
  rw [h]

theorem slotAt_congr {s t : State} (h : t.pe = s.pe) (k : Fin 8) : slotAt t k = slotAt s k := by
  unfold slotAt
  rw [h]

/-- The context of a requester and tag has both (R155, R169). -/
theorem ctxFor_spec {s : State} {src : Node} {tag : Tag} {c : Fin 6} (h : ctxFor s src tag = some c) :
    ∃ x, ctxAt s c = some x ∧ x.requester = src ∧ x.tag = tag := by
  have found := List.find?_some (p := fun d => match ctxAt s d with | some x => x.isFor src tag | none => false) h
  cases hc : ctxAt s c with
  | none => rw [hc] at found; exact absurd found Bool.false_ne_true
  | some x =>
    rw [hc] at found
    obtain ⟨requester, held⟩ := Bool.and_eq_true_iff.1 found
    exact ⟨x, rfl, beq_iff_eq.1 requester, beq_iff_eq.1 held⟩

/-! ### WAIT and GO (R169, R170) -/

theorem takeWait_of_none {s : State} {src : Node} {tag : Tag} (h : ctxFor s src tag = none) : takeWait src tag s = s := by
  rw [takeWait, h]

theorem takeGo_of_none {s : State} {src : Node} {tag : Tag} (h : ctxFor s src tag = none) : takeGo src tag s = s := by
  rw [takeGo, h]

/-- A WAIT pauses its context, from the first WAIT on (R169). -/
theorem takeWait_of {s : State} {src : Node} {tag : Tag} {c : Fin 6} {x : PullContext} (h : ctxFor s src tag = some c)
    (hx : ctxAt s c = some x) : takeWait src tag s = setCtx c (some { x with paused := some (x.paused.getD s.now) }) s := by
  rw [takeWait, h]
  dsimp only
  rw [onCtx_of hx]
  cases hp : x.paused with
  | none => rfl
  | some t =>
    rw [Option.getD_some, Option.isNone_some, if_neg Bool.false_ne_true, ← hp]

theorem takeGo_of {s : State} {src : Node} {tag : Tag} {c : Fin 6} {x : PullContext} (h : ctxFor s src tag = some c)
    (hx : ctxAt s c = some x) : takeGo src tag s = setCtx c (some { x with paused := none }) s := by
  rw [takeGo, h]
  dsimp only
  rw [onCtx_of hx]

/-- Settles O51: WAIT and GO by whether a context carries the source and tag. -/
theorem waitPausesAndGoResumes : Obligations.WaitPausesAndGoResumes := by
  unfold Obligations.WaitPausesAndGoResumes
  intro f s
  have same := ctxFor_congr (heard_pe f s) (senderOf f) f.tag
  refine ⟨fun passes none => ?_, fun passes none => ?_, fun c x found hx => ⟨?_, fun passes => ?_, fun passes => ?_⟩⟩
  · rw [show exec (.wait f) s = _ from frame_handed_over (kind := .wait) passes, handOver, takeWait_of_none (same.trans none)]
  · rw [show exec (.go f) s = _ from frame_handed_over (kind := .go) passes, handOver, takeGo_of_none (same.trans none)]
  · obtain ⟨y, hy, held⟩ := ctxFor_spec found
    obtain rfl : x = y := Option.some.inj (hx.symm.trans hy)
    exact held
  · rw [show exec (.wait f) s = _ from frame_handed_over (kind := .wait) passes, handOver,
      takeWait_of (same.trans found) ((ctxAt_congr (heard_pe f s) c).trans hx), heard_now]
  · rw [show exec (.go f) s = _ from frame_handed_over (kind := .go) passes, handOver,
      takeGo_of (same.trans found) ((ctxAt_congr (heard_pe f s) c).trans hx)]

/-! ### Frames discarded (R182 to R187) -/

theorem endCarrier_eq (s : State) :
    endCarrier s = { s with bi.silence := if s.bi.tx.isNone then some s.now else s.bi.silence } := by
  unfold endCarrier
  split <;> rfl

theorem hearSource_of_le {src : Byte} (h : src.toNat ≤ 31) (s : State) :
    hearSource src s = { s with bi.lastSource := BitVec.ofNat 5 src.toNat } := if_pos h

theorem hearSource_of_gt {src : Byte} (h : 31 < src.toNat) (s : State) : hearSource src s = s := if_neg (by omega)

theorem receive_of_crc {kind : FrameKind} {f : Frame} (h : crcMatches kind f = false) (s : State) :
    receive kind f s = endCarrier s := by
  rw [receive, h]
  rfl

theorem receive_of_other {kind : FrameKind} {f : Frame} {s : State} (h : crcMatches kind f = true)
    (other : isForUs s.bi.node kind f = false) : receive kind f s = hearSource f.src (endCarrier s) := by
  have node : (hearSource f.src (endCarrier s)).bi.node = s.bi.node := heard_node f s
  unfold receive
  dsimp only
  rw [if_pos h, node, other]
  rfl

/-- A source above 31 passes no test (R182). -/
theorem isForUs_of_gt {node : Node} {kind : FrameKind} {f : Frame} (h : 31 < f.src.toNat) : isForUs node kind f = false := by
  have high : decide (f.src.toNat ≤ 31) = false := decide_eq_false (by omega)
  rw [isForUs, high, Bool.and_false, Bool.false_and, Bool.false_and]

/-- A discarded frame of a body and a CRC: its source is heard when the CRC is the body's (R182, R186). -/
theorem frameDiscarded_of {body : List Byte} (len : 6 ≤ body.length) (crc : Word16) (s : State) :
    exec (.frameDiscarded true (body ++ beBytes 2 crc.toNat)) s
      = .next (if crc = frameCrc body then hearSource (byteAt body 1) (endCarrier s) else endCarrier s) := by
  have total : (body ++ beBytes 2 crc.toNat).length = body.length + 2 := by rw [List.length_append, beBytes_length]
  have value : beNat (beBytes 2 crc.toNat) = crc.toNat := beNat_beBytes crc.isLt
  have source : byteAt (body ++ beBytes 2 crc.toNat) 1 = byteAt body 1 := by
    rw [byteAt, byteAt, List.getD_append _ _ _ _ (by omega)]
  have whole : decide (8 ≤ body.length + 2) = true := decide_eq_true (by omega)
  rw [exec_frameDiscarded, execFrameDiscarded, total, Nat.add_sub_cancel, List.take_left, List.drop_left, value, source, whole]
  congr 1
  by_cases same : crc = frameCrc body
  · rw [if_pos same, if_pos (by rw [same]; simp)]
  · rw [if_neg same, if_neg (by
      simp only [Bool.true_and, beq_iff_eq]
      exact fun h => same (BitVec.eq_of_toNat_eq h.symm))]

/-- Settles O46: the branches of receive and of FRAME_DISCARDED, and the tests after the CRC. -/
theorem discardedFramesReachNoBlock : Obligations.DiscardedFramesReachNoBlock := by
  unfold Obligations.DiscardedFramesReachNoBlock
  refine ⟨fun kind f s u hu => ?discarded, fun node f kind => ⟨?tests, ?bins, ?pull, ?fixed⟩⟩
  case discarded =>
    obtain rfl : u = endCarrier s := hu.trans (endCarrier_eq s).symm
    refine ⟨fun crc => ?_, fun crc other src => ?_, fun crc src => ?_, fun body len src => ?_, fun bytes => rfl,
      fun body len src => ⟨?_, fun crc wrong => ?_⟩⟩
    · rw [frameCommand_receives, receive_of_crc crc]
    · rw [frameCommand_receives, receive_of_other crc other, hearSource_of_le src]
      rfl
    · rw [frameCommand_receives, receive_of_other crc (isForUs_of_gt src), hearSource_of_gt src]
    · rw [frameDiscarded_of len, if_pos rfl, hearSource_of_gt src]
    · rw [frameDiscarded_of len, if_pos rfl, hearSource_of_le src]
    · rw [frameDiscarded_of len, if_neg wrong]
  case tests =>
    have zero : f.dest.toNat = 0 ↔ f.dest = 0 := (BitVec.toNat_inj (x := f.dest) (y := 0))
    simp only [isForUs, Bool.and_eq_true, Bool.or_eq_true, decide_eq_true_eq, beq_iff_eq, bne_iff_ne, ne_eq, zero, and_assoc]
    constructor
    · rintro ⟨low, high, dest, len⟩
      exact ⟨low, high, dest.imp id (fun h => ⟨h.2, h.1⟩), len⟩
    · rintro ⟨low, high, dest, len⟩
      exact ⟨low, high, dest.imp id (fun h => ⟨h.2, h.1⟩), len⟩
  case bins =>
    simp only [lengthConsistent, Bool.and_eq_true, decide_eq_true_eq, beq_iff_eq]
    constructor
    · rintro ⟨⟨whole, least⟩, most⟩
      exact ⟨f.payload.length / 28, by omega, by omega, by omega⟩
    · rintro ⟨k, least, most, len⟩
      omega
  case pull =>
    simp only [lengthConsistent, Bool.and_eq_true, Bool.or_eq_true, beq_iff_eq]
  case fixed =>
    intro p hp
    simp only [List.mem_cons, List.not_mem_nil, or_false] at hp
    rcases hp with rfl | rfl | rfl | rfl | rfl | rfl | rfl | rfl | rfl | rfl <;> exact beq_iff_eq

/-! ### Access (R187, R188, R193, R194) -/

/-- The first own slot at or after the moment: own slots follow one another by 320 µs (R187). -/
theorem ownSlotStart_spec (s : State) (t now : Nat) :
    ∃ n, ownSlotStart s t now = t + 10 + 10 * (ownSlot s + 32 * n) ∧ now ≤ ownSlotStart s t now
      ∧ ∀ m, now ≤ t + 10 + 10 * (ownSlot s + 32 * m) → n ≤ m := by
  unfold ownSlotStart
  dsimp only
  split
  · exact ⟨0, by omega, by omega, fun m _ => Nat.zero_le m⟩
  · exact ⟨(now - (t + 10 + 10 * ownSlot s) + 319) / 320, by omega, by omega, fun m hm => by omega⟩

theorem nextDataCtx_eq_none {s : State} (h : ∀ c, hasDataFor s c = false) : nextDataCtx s = none :=
  List.find?_eq_none.2 (fun c _ => by rw [h c]; exact Bool.false_ne_true)

theorem accessWon_of {s : State} {t : Nat} (silence : s.bi.silence = some t) (node : s.bi.node ≠ 0) (tx : s.bi.tx = none) :
    exec .accessWon s = .next (settle (selectFrame (advanceTo (ownSlotStart s t s.now) s))) := by
  rw [exec_accessWon, execAccessWon, silence]
  dsimp only
  rw [if_neg (by rw [tx]; rintro (h | h) <;> [exact node h; exact absurd h Bool.false_ne_true])]

/-- Settles O58: the branches of ACCESS_WON, the own slot and the frame selected. -/
theorem accessSendsTheFirstFrame : Obligations.AccessSendsTheFirstFrame := by
  unfold Obligations.AccessSendsTheFirstFrame
  refine ⟨fun s t moment silence hm => ⟨fun idle => ?idle, hm ▸ ownSlotStart_spec s t s.now, fun node tx =>
    ⟨fun f rest queue => ?control, fun queue idle => ?noData, fun c x queue next hx => ?data⟩⟩, fun s silence => ?silent, fun s => rfl⟩
  case idle =>
    rw [exec_accessWon, execAccessWon, silence]
    exact congrArg Host.Outcome.next (if_pos idle)
  case control =>
    rw [accessWon_of silence node tx, ← hm]
    have selected : selectFrame (advanceTo moment s) = startTransmit f true (advanceTo moment s) := by
      unfold selectFrame
      rw [advanceTo_bi, queue]
    rw [selected]
    rfl
  case noData =>
    rw [accessWon_of silence node tx, ← hm]
    have selected : selectFrame (advanceTo moment s) = advanceTo moment s := by
      unfold selectFrame
      rw [advanceTo_bi, queue]
      dsimp only
      rw [show nextDataCtx (advanceTo moment s) = none from nextDataCtx_eq_none (s := advanceTo moment s) idle]
    rw [selected]
    rfl
  case data =>
    have hx' : ctxAt (advanceTo moment s) c = some x := hx
    have formed := formFrame_move hx'
    have selected : selectFrame (advanceTo moment s)
        = startTransmit (formFrame c x (advanceTo moment s)).1 false { (formFrame c x (advanceTo moment s)).2 with bi.pointer := c } := by
      unfold selectFrame
      rw [advanceTo_bi, queue]
      dsimp only
      rw [show nextDataCtx (advanceTo moment s) = some c from next]
      dsimp only
      rw [hx']
    refine ⟨startTransmit (formFrame c x (advanceTo moment s)).1 false { (formFrame c x (advanceTo moment s)).2 with bi.pointer := c },
      formFrame c x (advanceTo moment s), ?_, rfl, ?_, rfl, rfl, rfl⟩
    · rw [accessWon_of silence node tx, ← hm, selected]
    · have sentFrom : (formFrame c x (advanceTo moment s)).2.bi.node = s.bi.node := formed.node
      have sentAt : (formFrame c x (advanceTo moment s)).2.now = max s.now moment := formed.now
      rw [startTransmit]
      dsimp only
      rw [sentFrom, sentAt]
  case silent =>
    rw [exec_accessWon, execAccessWon, silence]

/-! ### Reports of finished frames (R190) -/

theorem report_bi (f : OutFrame) (s : State) : (report f s).bi = s.bi := by
  unfold report
  split
  · rfl
  · obtain ⟨v, hv⟩ := onSlot_slots _ (reportToSlot f.kind f.tag s.now) s
    rw [hv]
  · rfl
  · split <;> rfl

theorem report_of_nobody {f : OutFrame} (h : f.owner = .nobody) (s : State) : report f s = s := by rw [report, h]

theorem report_of_context {f : OutFrame} {c : Fin 6} (h : f.owner = .context c) (s : State) :
    report f s = if f.kind = .done then setCtx c none s else s := by rw [report, h]

theorem report_of_slot {f : OutFrame} {k : Fin 8} {s : State} {x : FetchSlot} (h : f.owner = .slot k) (hx : slotAt s k = some x) :
    report f s = setSlot k (some (reportToSlot f.kind f.tag s.now x)) s := by
  rw [report, h]
  exact onSlot_of hx _

theorem report_of_free {f : OutFrame} {k : Fin 8} {s : State} (h : f.owner = .slot k) (hx : slotAt s k = none) : report f s = s := by
  rw [report, h]
  exact onSlot_none hx _

theorem report_of_task {f : OutFrame} {s : State} {x : TaskHead} (h : f.owner = .task) (hx : s.ru.head = some x) :
    report f s = { s with ru.head := some (reportToTask f.kind f.tag s.now x) } := by
  rw [report, h]
  dsimp only
  rw [hx]
  rfl

/-- A report to a slot that carries another tag, or of a frame that no slot awaits (R190). -/
theorem reportToSlot_stands {kind : FrameKind} {tag : Tag} {x : FetchSlot}
    (h : x.tag ≠ tag ∨ (kind ≠ .seek ∧ kind ≠ .pull ∧ kind ≠ .stop ∧ kind ≠ .go)) (now : Nat) : reportToSlot kind tag now x = x := by
  unfold reportToSlot
  rcases h with other | ⟨seek, pull, stop, go⟩
  · exact if_pos other
  · split
    · rfl
    · cases kind <;> first | exact absurd rfl seek | exact absurd rfl pull | exact absurd rfl stop | exact absurd rfl go | rfl

/-- A report to a head task that carries another tag, or of a frame that no task awaits (R190). -/
theorem reportToTask_stands {kind : FrameKind} {tag : Tag} {x : TaskHead}
    (h : x.tag ≠ tag ∨ (kind ≠ .seek ∧ kind ≠ .keep ∧ kind ≠ .unkeep)) (now : Nat) : reportToTask kind tag now x = x := by
  unfold reportToTask
  rcases h with other | ⟨seek, keep, unkeep⟩
  · exact if_pos other
  · split
    · rfl
    · cases kind <;> first | exact absurd rfl seek | exact absurd rfl keep | exact absurd rfl unkeep | rfl

/-! ### Offers (R179, R185, R191, R192) -/

/-- A class is accepted by the length of the control queue (R191). -/
theorem acceptsClass_eq (f : OutFrame) (s : State) : acceptsClass f.cls s = enters f s.bi.queue.length := by
  unfold acceptsClass enters freePlaces
  cases f.cls <;> simp <;> omega

theorem send_of_strapped {s : State} (h : s.bi.node = 0) (f : OutFrame) : send f s = report f s := by
  rw [send, offer, if_pos h]

theorem send_of_own {s : State} {f : OutFrame} (h : s.bi.node ≠ 0) (own : f.dest = s.bi.node) :
    send f s = { report f s with bi.looped := (report f s).bi.looped ++ [f] } := by
  rw [send, offer, if_neg h, if_pos own]

theorem send_of_accepted {s : State} {f : OutFrame} (h : s.bi.node ≠ 0) (other : f.dest ≠ s.bi.node)
    (room : enters f s.bi.queue.length = true) : send f s = { s with bi.queue := s.bi.queue ++ [f] } := by
  rw [send, offer, if_neg h, if_neg other, acceptsClass_eq, if_pos room]
  rfl

theorem send_of_refused {s : State} {f : OutFrame} (h : s.bi.node ≠ 0) (other : f.dest ≠ s.bi.node)
    (room : enters f s.bi.queue.length = false) :
    send f s = if f.kind.waits then { s with bi.offers := s.bi.offers ++ [f] } else s := by
  rw [send, offer, if_neg h, if_neg other, acceptsClass_eq, if_neg (by rw [room]; exact Bool.false_ne_true)]
  split <;> rfl

theorem enters_context {f : OutFrame} {n : Nat} (h : f.cls = .context) : enters f n = decide (n < 32) := by
  unfold enters
  rw [h]
  simp

theorem enters_general {f : OutFrame} {n : Nat} (h : f.cls = .general) : enters f n = decide (n < 20) := by
  unfold enters
  rw [h]
  simp

/-! ### The end of a transmission (R189 to R193) -/

theorem frameSent_eq {s : State} {x : Transmit} (h : s.bi.tx = some x) :
    exec .frameSent s = .next (settle (finishTransmit { s with
      now := max s.now (x.began + 4 * (x.bytes.length + 2))
      bi.lastSource := s.bi.node
      bi.silence := some (max s.now (x.began + 4 * (x.bytes.length + 2))) })) := by
  have time : frameTime x.bytes = 4 * (x.bytes.length + 2) := Nat.mul_comm _ _
  rw [exec_frameSent, execFrameSent, h]
  dsimp only
  rw [time]
  rfl

theorem readbackMismatch_eq {s : State} {x : Transmit} (h : s.bi.tx = some x) :
    exec .readbackMismatch s = .next (settle (finishTransmit (raise .busFault { s with bi.silence := some s.now }))) := by
  rw [exec_readbackMismatch, execReadbackMismatch, h]

theorem finishTransmit_of {s : State} {x : Transmit} (h : s.bi.tx = some x) :
    finishTransmit s = if x.control then
        admitOffer { report x.frame { s with bi.tx := none } with
          bi.queue := (report x.frame { s with bi.tx := none }).bi.queue.drop 1 }
      else report x.frame { s with bi.tx := none } := by
  rw [finishTransmit, h]

theorem admitOffer_of_none {s : State} (h : ∀ f ∈ s.bi.offers, enters f s.bi.queue.length = false) : admitOffer s = s := by
  have none : s.bi.offers.find? (fun f => acceptsClass f.cls s) = none :=
    List.find?_eq_none.2 (fun f hf => by rw [acceptsClass_eq, h f hf]; exact Bool.false_ne_true)
  rw [admitOffer, none]

/-- The first element that satisfies p, and the list without it. -/
theorem find_dropFirst {α : Type} {p : α → Bool} {before after : List α} {a : α} (hb : ∀ b ∈ before, p b = false) (ha : p a = true) :
    (before ++ a :: after).find? p = some a ∧ dropFirst p (before ++ a :: after) = before ++ after := by
  induction before with
  | nil =>
    refine ⟨?_, ?_⟩
    · rw [List.nil_append, List.find?_cons, ha]
    · rw [List.nil_append, dropFirst, if_pos ha, List.nil_append]
  | cons b before ih =>
    obtain ⟨found, dropped⟩ := ih (fun x hx => hb x (List.mem_cons_of_mem _ hx))
    have first := hb b List.mem_cons_self
    refine ⟨?_, ?_⟩
    · rw [List.cons_append, List.find?_cons, first]
      exact found
    · rw [List.cons_append, dropFirst, if_neg (by rw [first]; exact Bool.false_ne_true), dropped, List.cons_append]

theorem admitOffer_of {s : State} {before after : List OutFrame} {f : OutFrame} (offers : s.bi.offers = before ++ f :: after)
    (refused : ∀ g ∈ before, enters g s.bi.queue.length = false) (room : enters f s.bi.queue.length = true) :
    admitOffer s = acceptedLater f { s with bi := { s.bi with queue := s.bi.queue ++ [f], offers := before ++ after } } := by
  obtain ⟨found, dropped⟩ := find_dropFirst (p := fun f => acceptsClass f.cls s) (before := before) (after := after) (a := f)
    (fun g hg => by rw [acceptsClass_eq, refused g hg]) (by rw [acceptsClass_eq, room])
  rw [admitOffer, offers, found]
  dsimp only
  rw [dropped]
  rfl

/-- An admitted WAIT changes its slot, and any other frame nothing (R173). -/
theorem acceptedLater_slots (f : OutFrame) (s : State) : ∃ v, acceptedLater f s = { s with pe.slots := v } := by
  unfold acceptedLater
  split
  · exact onSlot_slots _ _ s
  · exact ⟨s.pe.slots, rfl⟩

theorem acceptedLater_of_other {f : OutFrame} (h : f.kind ≠ .wait) (s : State) : acceptedLater f s = s := by
  unfold acceptedLater
  split
  · rename_i k _ wait
    exact absurd wait h
  · rfl

/-- The state after a transmission's end, before it is settled. -/
theorem transmissionEnded {c : Instr} {s u : State} {x : Transmit} {m : Nat} (tx : s.bi.tx = some x)
    (hm : m = max s.now (x.began + 4 * (x.bytes.length + 2)))
    (ended : c = .frameSent ∧ u = report x.frame { s with now := m, bi.tx := none, bi.lastSource := s.bi.node, bi.silence := some m }
      ∨ c = .readbackMismatch ∧ u = report x.frame (raise .busFault { s with bi.tx := none, bi.silence := some s.now })) :
    exec c s = .next (settle (if x.control then admitOffer { u with bi.queue := u.bi.queue.drop 1 } else u))
      ∧ u.bi.queue = s.bi.queue ∧ u.bi.offers = s.bi.offers := by
  rcases ended with ⟨rfl, rfl⟩ | ⟨rfl, rfl⟩
  · refine ⟨?_, by rw [report_bi], by rw [report_bi]⟩
    rw [frameSent_eq tx, finishTransmit_of (x := x), hm]
    exact tx
  · refine ⟨?_, by rw [report_bi]; rfl, by rw [report_bi]; rfl⟩
    rw [readbackMismatch_eq tx, finishTransmit_of (x := x)]
    · rfl
    · exact tx

/-- Settles O59: offers, the end of a transmission, reports and the admitting of a waiting offer, each by its rule. -/
theorem framesAreQueuedSentOrAbandoned : Obligations.FramesAreQueuedSentOrAbandoned := by
  unfold Obligations.FramesAreQueuedSentOrAbandoned
  refine ⟨fun f s => ?offers, fun s x tx nobody none => ?sent, fun f s => ?reports, fun c s u x m tx hm ended => ?ended⟩
  case offers =>
    refine ⟨fun node => send_of_strapped node f, fun node own => ?_, fun node other cls room => ?_, fun node other cls room => ?_,
      fun node other full => ?_⟩
    · rw [send_of_own node own]
      dsimp only
      rw [report_bi]
      exact ⟨rfl, rfl⟩
    · exact send_of_accepted node other (by rw [enters_context cls]; exact decide_eq_true room)
    · exact send_of_accepted node other (by rw [enters_general cls]; exact decide_eq_true room)
    · have refused : enters f s.bi.queue.length = false := by
        rcases full with ⟨cls, full⟩ | ⟨cls, full⟩
        · rw [enters_context cls]; exact decide_eq_false (by omega)
        · rw [enters_general cls]; exact decide_eq_false (by omega)
      rw [send_of_refused node other refused]
      cases f.kind <;> simp [FrameKind.waits]
  case sent =>
    have nothing : ∀ u : State, u.bi.offers = s.bi.offers → admitOffer u = u := fun u hu =>
      admitOffer_of_none (by rw [hu, none]; exact fun f hf => absurd hf List.not_mem_nil)
    obtain ⟨sent, _⟩ := transmissionEnded tx rfl (.inl ⟨rfl, rfl⟩)
    obtain ⟨broken, _⟩ := transmissionEnded (c := .readbackMismatch) tx rfl (.inr ⟨rfl, rfl⟩)
    rw [report_of_nobody nobody] at sent broken
    rw [nothing] at sent broken
    · rw [sent, broken]
      cases x.control <;> exact ⟨rfl, rfl⟩
    · rfl
    · rfl
  case reports =>
    refine ⟨fun h => report_of_nobody h s, fun c h => report_of_context h s, fun k h free => report_of_free h free,
      fun k x h hx => ⟨fun stands => ?_, fun answers tag kind phase => ?_, fun tag kind phase => ?_, fun tag kind phase => ?_,
        fun p tag kind phase flow => ?_⟩,
      fun x h hx => ⟨fun stands => ?_, fun answers tag kind phase => ?_, fun owner tag kind phase => ?_⟩⟩
    · rw [report_of_slot h hx, reportToSlot_stands stands, setSlot_self hx]
    · rw [report_of_slot h hx, reportToSlot.eq_def, if_neg (not_not.2 tag), kind, phase]
    · rw [report_of_slot h hx, reportToSlot.eq_def, if_neg (not_not.2 tag), kind, phase]
      rfl
    · rw [report_of_slot h hx, reportToSlot.eq_def, if_neg (not_not.2 tag), kind, phase]
    · rw [report_of_slot h hx, reportToSlot.eq_def, if_neg (not_not.2 tag), kind, phase]
      dsimp only
      rw [if_pos flow]
    · rw [report_of_task h hx, reportToTask_stands stands, ← hx]
    · rw [report_of_task h hx, reportToTask.eq_def, if_neg (not_not.2 tag), kind, phase]
    · rcases kind with kind | kind <;> rw [report_of_task h hx, reportToTask.eq_def, if_neg (not_not.2 tag), kind, phase]
  case ended =>
    obtain ⟨done, queue, offers⟩ := transmissionEnded tx hm ended
    refine ⟨fun data => ?_, fun control full => ?_, fun before f after control waiting refused room => ?_⟩
    · rw [done, data, if_neg Bool.false_ne_true]
    · rw [done, if_pos control, admitOffer_of_none, queue]
      intro f hf
      show enters f (u.bi.queue.drop 1).length = false
      rw [queue, List.length_drop]
      exact full f (offers ▸ hf)
    · rw [if_pos control] at done
      have freed : (u.bi.queue.drop 1).length = s.bi.queue.length - 1 := by rw [queue, List.length_drop]
      have admitted := admitOffer_of (s := { u with bi.queue := u.bi.queue.drop 1 }) (offers.trans waiting)
        (fun g hg => by dsimp only; rw [freed]; exact refused g hg) (by dsimp only; rw [freed]; exact room)
      rw [admitted] at done
      obtain ⟨v, hv⟩ := acceptedLater_slots f
        { u with bi := { u.bi with queue := u.bi.queue.drop 1 ++ [f], offers := before ++ after } }
      refine ⟨_, done, ?_, ?_, ?_, ?_, fun other => ?_, fun k y p wait owner hy pulling owed => ?_⟩
      · dsimp only
        rw [hv, queue]
      · dsimp only
        rw [hv]
      · dsimp only
        rw [hv]
      · dsimp only
        rw [hv]
      · rw [acceptedLater_of_other other]
      · rw [acceptedLater, owner, wait]
        dsimp only
        rw [onPulling_of (s := { u with bi := { u.bi with queue := u.bi.queue.drop 1 ++ [f], offers := before ++ after } }) hy pulling,
          slotAt_setSlot, if_pos rfl, if_pos owed]

end Sys2Proof.Machine
end

section
/-! PROOF. O47 and O48: SEEK answered, OWN collected, and the admission of a PULL row by row. -/

namespace Sys2Proof.Machine

/-! ### Coil status on the state that heard a frame (R133) -/

theorem outById_heard (f : Frame) (s : State) (id : CoilId) : outById (heard f s) id = outById s id := by
  unfold outById
  rw [heard_ar]

theorem isKept_heard (f : Frame) (s : State) (id : CoilId) : isKept (heard f s) id = isKept s id := by
  unfold isKept
  rw [heard_ru]

theorem ownStatus_heard (f : Frame) (s : State) (id : CoilId) : ownStatus (heard f s) id = ownStatus s id := by
  rw [heard_eq]
  rfl

/-- The rows of R133's table for an ID that is present. -/
theorem ownStatus_rows {id : CoilId} (present : id ≠ []) (s : State) :
    (∀ e, outById s id = some e → ownStatus s id = some (.stored, e.c1 - e.c0))
      ∧ (outById s id = none → ∀ r, closingById s id = some r → ownStatus s id = some (.closing, r.c1 - r.c0))
      ∧ (outById s id = none → closingById s id = none → ∀ c, openByName s id = some c →
          ownStatus s id = some (.opened, runCoord s - c.c0))
      ∧ (outById s id = none → closingById s id = none → openByName s id = none →
          ownStatus s id = if id ∈ s.ar.expired then some (.expired, 0) else none) := by
  unfold ownStatus
  rw [if_neg present]
  refine ⟨fun e stored => ?_, fun out r closing => ?_, fun out closing c named => ?_, fun out closing named => ?_⟩
  · rw [stored]
  · rw [out, closing]
  · rw [out, closing, named]
  · rw [out, closing, named]
    simp only [List.contains_iff_mem]

/-- The marks of an OWN (R215). -/
theorem ownFrame_eq (s : State) (dest : Node) (tag : Tag) (id : CoilId) (st : OwnStatus) (len : Nat) :
    ownFrame s dest tag id st len = ⟨dest, .own, tag, countedBytes id ++ [st.code] ++ beBytes 4 len
      ++ [bitIf ((outById s id).any (fun e => e.flags.frozen)) 0 ||| bitIf (isKept s id) 1], .general, .nobody⟩ := by
  unfold ownFrame answerFrame
  cases outById s id <;> rfl

/-- A SEEK is answered in RUN, to another node, by the status of its coil (R133). -/
theorem takeSeek_answers {s : State} {src : Node} {tag : Tag} {payload : List Byte} {id : CoilId} {st : OwnStatus} {len : Nat}
    (run : s.pp.station = .run) (other : src ≠ s.bi.node) (hid : countedId payload = some id)
    (status : ownStatus s id = some (st, len)) : takeSeek src tag payload s = send (ownFrame s src tag id st len) s := by
  rw [takeSeek, if_neg (by rintro (h | h) <;> [exact h run; exact other h]), hid]
  dsimp only
  rw [status]

/-- And otherwise ignored (R133). -/
theorem takeSeek_ignores {s : State} {src : Node} {tag : Tag} {payload : List Byte} {id : CoilId} (hid : countedId payload = some id)
    (h : s.pp.station ≠ .run ∨ src = s.bi.node ∨ ownStatus s id = none) : takeSeek src tag payload s = s := by
  unfold takeSeek
  by_cases away : s.pp.station ≠ .run ∨ src = s.bi.node
  · exact if_pos away
  · have unknown : ownStatus s id = none := by tauto
    rw [if_neg away, hid]
    dsimp only
    rw [unknown]

/-! ### OWN (R135) -/

theorem ofCode_code (st : OwnStatus) : OwnStatus.ofCode st.code = some st := by cases st <;> decide

/-- A running locate takes one answer from each node (R135). -/
theorem add_eq {l l' : Locate} {a : OwnAnswer} (running : l.began.isSome = true) (again : (∃ b ∈ l.answers, b.node = a.node) → l' = l)
    (first : (∀ b ∈ l.answers, b.node ≠ a.node) → l' = { l with answers := l.answers ++ [a] }) : l.add a = l' := by
  unfold Locate.add
  rw [running, Bool.true_and]
  by_cases held : ∃ b ∈ l.answers, b.node = a.node
  · obtain ⟨b, hb, same⟩ := held
    have any : l.answers.any (fun b => b.node == a.node) = true := List.any_eq_true.2 ⟨b, hb, beq_iff_eq.2 same⟩
    rw [any, again ⟨b, hb, same⟩]
    rfl
  · have none : ∀ b ∈ l.answers, b.node ≠ a.node := fun b hb same => held ⟨b, hb, same⟩
    rw [any_eq_false_of (fun b hb => beq_eq_false_iff_ne.2 (none b hb)), first none]
    rfl

/-- A slot's taking of an OWN. -/
def slotTakesOwn (tag : Tag) (id : CoilId) (a : OwnAnswer) (x : FetchSlot) : FetchSlot :=
  match x.phase with
  | .seeking (some l) => if x.tag = tag ∧ x.parent = id then { x with phase := .seeking (some (l.add a)) } else x
  | .seeking none => x
  | .pulling _ => x
  | .draining _ => x

/-- The head task's taking of an OWN. -/
def taskTakesOwn (tag : Tag) (id : CoilId) (a : OwnAnswer) (tasks : List Task) (h : TaskHead) : TaskHead :=
  match h.phase, tasks with
  | .locating l, t :: _ => if h.tag = tag ∧ t.parent = id then { h with phase := .locating (l.add a) } else h
  | _, _ => h

theorem takeOwn_eq {payload : List Byte} {id : CoilId} {st : OwnStatus} (hid : countedId (payload.take 17) = some id)
    (code : byteAt payload 17 = st.code) (src : Node) (tag : Tag) (s : State) :
    takeOwn src tag payload s = { s with
      pe.slots := s.pe.slots.map (fun x => x.map (slotTakesOwn tag id ⟨src, st, natAt payload 18 4⟩))
      ru.head := s.ru.head.map (taskTakesOwn tag id ⟨src, st, natAt payload 18 4⟩ s.ru.tasks) } := by
  unfold takeOwn
  rw [hid, code, ofCode_code]
  rfl

theorem slotTakesOwn_other {tag : Tag} {id : CoilId} {x : FetchSlot} (h : x.tag ≠ tag ∨ x.parent ≠ id) (a : OwnAnswer) :
    slotTakesOwn tag id a x = x := by
  unfold slotTakesOwn
  split
  · exact if_neg (fun same => h.elim (fun g => g same.1) (fun g => g same.2))
  · rfl
  · rfl
  · rfl

/-- OWN as a command: what it leaves of slots and of the head task. -/
theorem exec_own {f : Frame} {s : State} {id : CoilId} {st : OwnStatus} (passes : Passes .own f s)
    (hid : countedId (f.payload.take 17) = some id) (code : byteAt f.payload 17 = st.code) (looped : s.bi.looped = []) :
    ∃ t, exec (.own f) s = .next t
      ∧ (∀ k, slotAt t k = (slotAt s k).map (slotTakesOwn f.tag id ⟨senderOf f, st, natAt f.payload 18 4⟩))
      ∧ t.ru.head = s.ru.head.map (taskTakesOwn f.tag id ⟨senderOf f, st, natAt f.payload 18 4⟩ s.ru.tasks) := by
  have taken := takeOwn_eq hid code (senderOf f) f.tag (heard f s)
  rw [heard_ru, heard_pe] at taken
  refine ⟨_, frame_handed_over (kind := .own) passes, fun k => ?_, ?_⟩
  · rw [handOver, taken, settle_eq (by rw [heard_looped, looped]), slotAt, (settleArchive_move _).pe]
    exact Vector.getElem_map _ _
  · rw [handOver, taken, settle_eq (by rw [heard_looped, looped]), (settleArchive_move _).head]

/-- Settles O47: the rows of SEEK and of its answer, and what an OWN adds to a locate. -/
theorem seekIsAnsweredAndOwnIsCollected : Obligations.SeekIsAnsweredAndOwnIsCollected := by
  unfold Obligations.SeekIsAnsweredAndOwnIsCollected
  refine ⟨fun f s id passes hid => ⟨fun st len run other status => ?answered, fun silent => ?ignored, fun present => ownStatus_rows present s⟩,
    fun f s id st l l' passes hid code running looped again first => ?collected⟩
  case answered =>
    rw [show exec (.seek f) s = _ from frame_handed_over (kind := .seek) passes, handOver,
      takeSeek_answers (by rw [heard_pp, run]) (by rw [heard_node]; exact other) hid ((ownStatus_heard f s id).trans status),
      ownFrame_eq, outById_heard, isKept_heard]
  case ignored =>
    rw [show exec (.seek f) s = _ from frame_handed_over (kind := .seek) passes, handOver,
      takeSeek_ignores hid (by rw [heard_pp, heard_node, ownStatus_heard]; exact silent)]
  case collected =>
    obtain ⟨t, ran, slots, head⟩ := exec_own passes hid code looped
    have added : l.add ⟨senderOf f, st, natAt f.payload 18 4⟩ = l' := add_eq running again first
    refine ⟨fun k x hx phase tag parent => ⟨t, ran, ?_⟩, fun h task rest hh tasks phase tag parent => ⟨t, ran, ?_⟩,
      fun k x hx other => ⟨t, ran, ?_⟩⟩
    · rw [slots, hx, Option.map_some, slotTakesOwn, phase]
      dsimp only
      rw [if_pos ⟨tag, parent⟩, added]
    · rw [head, hh, Option.map_some, taskTakesOwn.eq_def, phase, tasks]
      dsimp only
      rw [if_pos ⟨tag, parent⟩, added]
    · rw [slots, hx, Option.map_some, slotTakesOwn_other other]

/-! ### The lowest free context (R138) -/

/-- The lowest number that satisfies p is found first. -/
theorem find_lowest {n : Nat} {p : Fin n → Bool} {c : Fin n} (hc : p c = true) (low : ∀ d, d < c → p d = false) :
    (List.finRange n).find? p = some c := by
  rw [List.find?_eq_some_iff_getElem]
  refine ⟨hc, c.val, by rw [List.length_finRange]; exact c.isLt, by simp, fun j hj => ?_⟩
  rw [List.getElem_finRange, low _ (Fin.lt_def.2 hj)]
  rfl

theorem allContexts_eq : allContexts = List.finRange 6 := by decide

theorem allSlots_eq : allSlots = List.finRange 8 := by decide

theorem freeCtx_eq_some {s : State} {c : Fin 6} (free : ctxAt s c = none) (low : ∀ d, d < c → (ctxAt s d).isSome = true) :
    freeCtx s = some c := by
  rw [freeCtx, allContexts_eq]
  refine find_lowest (by rw [free]; rfl) (fun d hd => ?_)
  rw [Option.isNone_eq_false_iff]
  exact low d hd

theorem freeCtx_eq_none {s : State} (full : ∀ c, (ctxAt s c).isSome = true) : freeCtx s = none := by
  rw [freeCtx]
  refine List.find?_eq_none.2 (fun c _ => ?_)
  rw [Option.isNone_iff_eq_none]
  exact fun h => absurd (full c) (by rw [h]; exact Bool.false_ne_true)

theorem ctxFor_eq_none {s : State} {src : Node} {tag : Tag} (h : ∀ c x, ctxAt s c = some x → x.requester ≠ src ∨ x.tag ≠ tag) :
    ctxFor s src tag = none := by
  rw [ctxFor]
  refine List.find?_eq_none.2 (fun c _ => ?_)
  split
  · rename_i x hx
    rw [PullContext.isFor, Bool.and_eq_true, beq_iff_eq, beq_iff_eq]
    exact fun same => (h c x hx).elim (fun g => g same.1) (fun g => g same.2)
  · exact Bool.false_ne_true

theorem ctxFor_isSome {s : State} {src : Node} {tag : Tag} {c : Fin 6} {x : PullContext} (hx : ctxAt s c = some x)
    (requester : x.requester = src) (held : x.tag = tag) : (ctxFor s src tag).isSome = true := by
  rw [ctxFor, List.find?_isSome]
  refine ⟨c, mem_allContexts c, ?_⟩
  rw [hx]
  dsimp only
  rw [PullContext.isFor, requester, held, beq_self_eq_true, beq_self_eq_true, Bool.and_self]

/-! ### Admission and RESOLVE (R138, R140, R141) -/

theorem takePull_notReady {s : State} (h : s.pp.station ≠ .run) (src : Node) (tag : Tag) (payload : List Byte) :
    takePull src tag payload s = send (refusalDone src tag .notReady (min 7 (natAt payload 18 1))) s := if_pos h

theorem takePull_badLevel {s : State} {payload : List Byte} (run : s.pp.station = .run) (h : 7 < natAt payload 18 1) (src : Node)
    (tag : Tag) : takePull src tag payload s = send (refusalDone src tag .badRequest 7) s := by
  unfold takePull
  dsimp only
  rw [if_neg (not_not.2 run), if_pos h]

theorem takePull_again {s : State} {payload : List Byte} {src : Node} {tag : Tag} (run : s.pp.station = .run)
    (level : natAt payload 18 1 ≤ 7) (held : (ctxFor s src tag).isSome = true) : takePull src tag payload s = s := by
  unfold takePull
  dsimp only
  rw [if_neg (not_not.2 run), if_neg (by omega), if_pos held]

theorem takePull_new {s : State} {payload : List Byte} {src : Node} {tag : Tag} (run : s.pp.station = .run)
    (level : natAt payload 18 1 ≤ 7) (new : ctxFor s src tag = none) : takePull src tag payload s = match freeCtx s with
      | none => send (refusalDone src tag .busy (natAt payload 18 1)) s
      | some c => resolve c (.admitted src tag ((countedId (slice payload 1 17)).getD []) (pullForm payload) (natAt payload 18 1)
          (natAt payload 19 1)) s := by
  unfold takePull
  dsimp only
  rw [if_neg (not_not.2 run), if_neg (by omega), new, if_neg (by exact Bool.false_ne_true)] <;> rfl

theorem resolve_stored {s : State} {c : Fin 6} {x : PullContext} {e : OutEntry} (present : x.coil ≠ [])
    (stored : outById s x.coil = some e) : resolve c x s = match x.form.gridOn (e.c1 - e.c0) with
      | none => reclaimMoment (setCtx c (some (x.close .badRequest)) s)
      | some _ => setCtx c (some { x with entry := some e, pin := some e.segSet })
          { s with ar.readQueue := s.ar.readQueue ++ [⟨e.loc.seg, e.loc.page, .record c⟩] } := by
  rw [resolve, stored, (ownStatus_rows present s).1 e stored] <;> rfl

theorem resolve_absent {s : State} {c : Fin 6} {x : PullContext} (absent : outById s x.coil = none) :
    resolve c x s = match ownStatus s x.coil with
      | some (st, _) => setCtx c (some (x.close st.asResult)) s
      | none => setCtx c (some (x.close .notFound)) s := by
  rw [resolve, absent]
  rcases ownStatus s x.coil with _ | ⟨st, len⟩ <;> rfl

/-- Settles O48: the rows of R138, and RESOLVE on each status of the coil. -/
theorem pullIsAdmittedOrRefused : Obligations.PullIsAdmittedOrRefused := by
  unfold Obligations.PullIsAdmittedOrRefused
  rintro f s _ _ _ passes rfl rfl rfl
  have handed : exec (.pull f) s = .next (settle (takePull (senderOf f) f.tag f.payload (heard f s))) :=
    frame_handed_over (kind := .pull) passes
  have station : (heard f s).pp.station = s.pp.station := by rw [heard_pp]
  have contexts := ctxAt_congr (heard_pe f s)
  refine ⟨fun away => ?notRun, fun run deep => ?level, fun run level => ⟨fun held => ?again, fun new => ⟨fun full => ?busy,
    fun c free low id x hid hx => ?admitted⟩⟩⟩
  case notRun => rw [handed, takePull_notReady (by rw [station]; exact away)]
  case level => rw [handed, takePull_badLevel (by rw [station]; exact run) deep]
  case again =>
    obtain ⟨c, x, hx, requester, tag⟩ := held
    rw [handed, takePull_again (by rw [station]; exact run) level (ctxFor_isSome ((contexts c).trans hx) requester tag)]
  case busy =>
    have none : ctxFor (heard f s) (senderOf f) f.tag = none :=
      ctxFor_eq_none (fun c x hx => new c x ((contexts c).symm.trans hx))
    rw [handed, takePull_new (by rw [station]; exact run) level none, freeCtx_eq_none (fun c => by rw [contexts]; exact full c)]
  case admitted =>
    have none : ctxFor (heard f s) (senderOf f) f.tag = none :=
      ctxFor_eq_none (fun c x hx => new c x ((contexts c).symm.trans hx))
    have taken : takePull (senderOf f) f.tag f.payload (heard f s) = resolve c x (heard f s) := by
      rw [takePull_new (by rw [station]; exact run) level none,
        freeCtx_eq_some ((contexts c).trans free) (fun d hd => by rw [contexts]; exact low d hd), hid, hx]
      rfl
    have coil : x.coil = id := by rw [hx]; rfl
    have form : x.form = pullForm f.payload := by rw [hx]; rfl
    have closed : ∀ result, x.close result = { x with phase := .closing, result := result } := fun result => by rw [hx]; rfl
    rw [handed, taken, ← form, ← coil]
    refine ⟨⟨by rw [hx]; rfl, by rw [hx]; rfl, rfl, rfl, by rw [hx]; rfl, ?depth⟩, fun e g present stored grid => ?stored,
      fun e present stored grid => ?badRequest, fun st len result status absent listed => ?other, fun status absent => ?notFound⟩
    case depth =>
      rw [hx]
      show min _ _ = _
      split <;> omega
    case stored =>
      rw [resolve_stored present ((outById_heard f s _).trans stored), grid, ← heard_ar f s]
    case badRequest =>
      rw [resolve_stored present ((outById_heard f s _).trans stored), grid, closed]
    case other =>
      have as : st.asResult = result := by
        simp only [List.mem_cons, Prod.mk.injEq, List.not_mem_nil, or_false] at listed
        rcases listed with ⟨rfl, rfl⟩ | ⟨rfl, rfl⟩ | ⟨rfl, rfl⟩ <;> rfl
      rw [resolve_absent ((outById_heard f s _).trans absent), ownStatus_heard, status]
      dsimp only
      rw [closed, as]
    case notFound =>
      rw [resolve_absent ((outById_heard f s _).trans absent), ownStatus_heard, status]
      dsimp only
      rw [closed]

end Sys2Proof.Machine
end

section
/-! PROOF. O57: own records placed, the frames of a context's stream, the loopback, and the bytes of a CHAN and of a BIN record. -/

namespace Sys2Proof.Machine

/-! ### Own records placed (R144, R172) -/

/-- Own records do not depend on the relay buffer and on how many are placed. -/
theorem ownRecords_placed (s : State) (x : PullContext) (relay : List RecordBytes) (placed : Nat) :
    ownRecords s { x with relay := relay, placed := placed } = ownRecords s x := rfl

theorem ownRecords_setCtx (s : State) (c : Fin 6) (y : Option PullContext) (x : PullContext) :
    ownRecords (setCtx c y s) x = ownRecords s x := rfl

/-- As many own records are placed as the buffer has room for (R172). -/
theorem placeOwn_of {s : State} {c : Fin 6} {x : PullContext} (hx : ctxAt s c = some x)
    (remain : x.placed + (64 - x.relay.length) ≤ (ownRecords s x).length) :
    placeOwn c s = setCtx c (some { x with
      relay := x.relay ++ ((ownRecords s x).drop x.placed).take (64 - x.relay.length)
      placed := x.placed + (64 - x.relay.length) }) s := by
  have taken : (((ownRecords s x).drop x.placed).take (64 - x.relay.length)).length = 64 - x.relay.length := by
    rw [List.length_take, List.length_drop]
    omega
  rw [placeOwn, onCtx_of hx]
  dsimp only
  rw [taken]

theorem continueLocal_of_remaining {s : State} {c : Fin 6} {x : PullContext} (hx : ctxAt s c = some x)
    (remain : x.placed + (64 - x.relay.length) < (ownRecords s x).length) :
    continueLocal c s = setCtx c (some { x with
      relay := x.relay ++ ((ownRecords s x).drop x.placed).take (64 - x.relay.length)
      placed := x.placed + (64 - x.relay.length) }) s := by
  unfold continueLocal
  rw [placeOwn_of hx remain.le]
  dsimp only
  rw [ctxAt_setCtx, if_pos rfl]
  dsimp only
  rw [ownRecords_setCtx, ownRecords_placed, if_neg (fun h => by have := h.2.2; omega)]

theorem relayRoomResume_of {s : State} {c : Fin 6} {x : PullContext} (hx : ctxAt s c = some x) (phase : x.phase = .localRecords)
    (room : 1 ≤ 64 - x.relay.length) (remain : x.placed + (64 - x.relay.length) < (ownRecords s x).length) :
    exec (.relayRoomResume c) s = .next (settle (continueLocal c s)) := by
  have can : canPlace s c = true := by
    rw [canPlace, hx]
    dsimp only
    rw [phase, decide_eq_true (by omega), decide_eq_true (by omega)]
    rfl
  rw [exec_relayRoomResume, execRelayRoomResume, if_pos can]

/-! ### The frames of a stream (R160 to R163) -/

theorem drainWatermark_of_noSlot {s : State} {c : Fin 6} {x : PullContext} (hx : ctxAt s c = some x) (h : x.slot = none) :
    drainWatermark c s = s := by
  rw [drainWatermark, hx]
  dsimp only
  rw [h]

theorem formBins_of_noSlot {x : PullContext} (h : x.slot = none) (c : Fin 6) (b : OpenBurst) (s : State) :
    formBins c x b s = (⟨x.requester, .bins, x.tag, (x.relay.take 8).flatten, .context, .context c⟩,
      setCtx c (some { x with
        relay := x.relay.drop 8
        burst := some ⟨b.frames + 1, b.records + (x.relay.take 8).length, burstCrc b.crc (x.relay.take 8)⟩ }) s) := by
  unfold formBins
  dsimp only
  rw [drainWatermark_of_noSlot (x := { x with
    relay := x.relay.drop 8
    burst := some ⟨b.frames + 1, b.records + (x.relay.take 8).length, burstCrc b.crc (x.relay.take 8)⟩ })
    (by rw [ctxAt_setCtx, if_pos rfl]) h]
  rfl

theorem formFrame_mark {x : PullContext} {b : OpenBurst} (burst : x.burst = some b) (ends : x.relay = [] ∨ b.frames = 16) (c : Fin 6)
    (s : State) : formFrame c x s = formMark c x b s := by
  rw [formFrame, burst]
  exact if_pos ends.symm

theorem formFrame_bins {x : PullContext} {b : OpenBurst}
    (burst : x.burst = some b ∧ b.frames ≠ 16 ∨ x.burst = none ∧ b = ⟨0, 0, burstSeed⟩) (held : x.relay ≠ []) (c : Fin 6) (s : State) :
    formFrame c x s = formBins c x b s := by
  rcases burst with ⟨burst, frames⟩ | ⟨burst, rfl⟩
  · rw [formFrame, burst]
    exact if_neg (fun h => h.elim frames held)
  · rw [formFrame, burst]
    exact if_neg held

theorem formFrame_done {x : PullContext} (burst : x.burst = none) (empty : x.relay = []) (c : Fin 6) (s : State) :
    formFrame c x s = formDone c x s := by
  rw [formFrame, burst]
  exact if_pos empty

/-- A frame formed for a context without a slot reports to that context, and only the context changes. -/
theorem formFrame_of_noSlot {x : PullContext} (h : x.slot = none) (c : Fin 6) (s : State) :
    (formFrame c x s).1.owner = .context c ∧ ∃ v, (formFrame c x s).2 = { s with pe.contexts := v } := by
  have bins : ∀ b, (formBins c x b s).1.owner = .context c ∧ ∃ v, (formBins c x b s).2 = { s with pe.contexts := v } := fun b => by
    rw [formBins_of_noSlot h]
    exact ⟨rfl, _, rfl⟩
  unfold formFrame
  split
  · split
    · exact ⟨rfl, _, rfl⟩
    · exact bins _
  · split
    · exact ⟨rfl, s.pe.contexts, rfl⟩
    · exact bins _

/-- LOOPBACK_DATA_FRAME: the frame is formed, reported and looped (R185). -/
theorem loopbackDataFrame_of {s : State} {c : Fin 6} {x : PullContext} (hx : ctxAt s c = some x) (ready : x.frameReady = true)
    (own : x.requester = s.bi.node) (node : s.bi.node ≠ 0) :
    exec (.loopbackDataFrame c) s = .next (settle { report (formFrame c x s).1 (formFrame c x s).2 with
      bi.looped := (report (formFrame c x s).1 (formFrame c x s).2).bi.looped ++ [(formFrame c x s).1] }) := by
  have looped : hasLoopFor s c = true := by
    rw [hasLoopFor, hx]
    dsimp only
    rw [ready, own, beq_self_eq_true, bne_iff_ne.2 node]
    rfl
  rw [exec_loopbackDataFrame, execLoopbackDataFrame, if_pos looped, hx]

/-! ### Signed fields (R213) -/

theorem intBytes_length (n : Nat) (v : Int) : (intBytes n v).length = n := beBytes_length _ _

/-- The bytes of a signed number spell it within its range. -/
theorem beInt_intBytes {n : Nat} {v : Int} (low : -((256 ^ n : Nat) : Int) ≤ 2 * v) (high : 2 * v < ((256 ^ n : Nat) : Int)) :
    beInt (intBytes n v) = v := by
  have pos : 0 < 256 ^ n := Nat.pow_pos (by decide)
  have nonneg : 0 ≤ v % ((256 ^ n : Nat) : Int) := Int.emod_nonneg _ (by omega)
  have below : v % ((256 ^ n : Nat) : Int) < ((256 ^ n : Nat) : Int) := Int.emod_lt_of_pos _ (by omega)
  have value : beNat (intBytes n v) = (v % ((256 ^ n : Nat) : Int)).toNat := beNat_beBytes (by omega)
  rw [beInt, intBytes_length, value]
  generalize 256 ^ n = m at *
  rcases le_or_gt 0 v with positive | negative
  · have rest : v % (m : Int) = v := Int.emod_eq_of_lt positive (by omega)
    rw [rest]
    split <;> omega
  · have rest : v % (m : Int) = v + m := by
      rw [← Int.add_emod_right, Int.emod_eq_of_lt (by omega) (by omega)]
    rw [rest]
    split <;> omega

theorem intAt_field (fields : List (List Byte)) (k i n : Nat) {v : Int} (h : fields[k]? = some (intBytes n v))
    (hi : ((fields.take k).map List.length).sum = i) (low : -((256 ^ n : Nat) : Int) ≤ 2 * v)
    (high : 2 * v < ((256 ^ n : Nat) : Int)) : intAt fields.flatten i n = v := by
  rw [intAt, slice_field fields k i n h hi (intBytes_length n v), beInt_intBytes low high]

theorem filledBytes_length {n : Nat} {id : List Byte} (h : id.length ≤ n) : (filledBytes n id).length = n := by
  rw [filledBytes, List.length_append, List.length_replicate]
  omega

/-! ### The records of 28 bytes (R131, R143, R217) -/

/-- The fields of a CHAN record. -/
def chanFields (level : Nat) (node : Node) (number : Nat) (ch : Channel) : List (List Byte) :=
  [[BitVec.ofNat 8 (32 + level)], [BitVec.ofNat 8 node.toNat], [BitVec.ofNat 8 number], filledBytes 8 ch.name, [ch.unit],
    intBytes 1 ch.scale, List.replicate 15 0]

theorem chanRecord_eq (level : Nat) (node : Node) (number : Nat) (ch : Channel) :
    chanRecord level node number ch = (chanFields level node number ch).flatten := by
  simp only [chanRecord, recordStart, chanFields, List.flatten_cons, List.flatten_nil, List.append_nil, List.append_assoc,
    List.cons_append, List.nil_append, Nat.reduceMul]

theorem chanFields_offset {ch : Channel} (name : ch.name.length ≤ 8) (level : Nat) (node : Node) (number k : Nat) :
    (((chanFields level node number ch).take k).map List.length).sum = (([1, 1, 1, 8, 1, 1, 15] : List Nat).take k).sum := by
  have lengths : (chanFields level node number ch).map List.length = [1, 1, 1, 8, 1, 1, 15] := by
    simp only [chanFields, List.map_cons, List.map_nil, filledBytes_length name, intBytes_length, List.length_singleton,
      List.length_replicate]
  rw [List.map_take, lengths]

/-- A number held only where readings are counted. -/
def whenCounted (a : Accum) (v : Int) : Int := if a.count = 0 then 0 else v

/-- The fields of a BIN record. -/
def binFields (level : Nat) (node : Node) (bin number : Nat) (a : Accum) : List (List Byte) :=
  [[BitVec.ofNat 8 (48 + level)], [BitVec.ofNat 8 node.toNat], [BitVec.ofNat 8 bin], [BitVec.ofNat 8 number], beBytes 4 a.cells,
    beBytes 4 a.count, intBytes 2 (whenCounted a (a.least.getD 0)), intBytes 2 (whenCounted a (a.greatest.getD 0)),
    intBytes 6 (whenCounted a a.sum), [bitIf (decide (a.count = 0)) 0 ||| bitIf a.saturated 1], List.replicate 5 0]

theorem binRecord_eq (level : Nat) (node : Node) (bin number : Nat) (a : Accum) :
    binRecord level node bin number a = (binFields level node bin number a).flatten := by
  simp only [binRecord, recordStart, binFields, whenCounted, List.flatten_cons, List.flatten_nil, List.append_nil, List.append_assoc,
    List.cons_append, List.nil_append, Nat.reduceMul]

theorem binFields_offset (level : Nat) (node : Node) (bin number : Nat) (a : Accum) (k : Nat) :
    (((binFields level node bin number a).take k).map List.length).sum
      = (([1, 1, 1, 1, 4, 4, 2, 2, 6, 1, 5] : List Nat).take k).sum := by
  have lengths : (binFields level node bin number a).map List.length = [1, 1, 1, 1, 4, 4, 2, 2, 6, 1, 5] := by
    simp only [binFields, List.map_cons, List.map_nil, beBytes_length, intBytes_length, List.length_singleton, List.length_replicate]
  rw [List.map_take, lengths]

theorem bitIf_pair_lt (a b : Bool) : (bitIf a 0 ||| bitIf b 1).toNat < 4 := by cases a <;> cases b <;> decide

/-- The values of a BIN record's signed fields (R131). -/
theorem intAt_binFields {level : Nat} {node : Node} {bin number : Nat} {a : Accum}
    (ends : ∀ v, a.least = some v ∨ a.greatest = some v → -32768 ≤ v ∧ v ≤ 32767) (low : -(2 ^ 47) ≤ a.sum) (high : a.sum < 2 ^ 47) :
    intAt (binFields level node bin number a).flatten 12 2 = whenCounted a (a.least.getD 0)
      ∧ intAt (binFields level node bin number a).flatten 14 2 = whenCounted a (a.greatest.getD 0)
      ∧ intAt (binFields level node bin number a).flatten 16 6 = whenCounted a a.sum := by
  have offset := binFields_offset level node bin number a
  have half : ∀ o : Option Int, (∀ v, o = some v → -32768 ≤ v ∧ v ≤ 32767) →
      -32768 ≤ whenCounted a (o.getD 0) ∧ whenCounted a (o.getD 0) ≤ 32767 := fun o ho => by
    unfold whenCounted
    cases o with
    | none => rw [Option.getD_none, ite_self]; omega
    | some v =>
      have := ho v rfl
      rw [Option.getD_some]
      split <;> omega
  have least := half a.least (fun v hv => ends v (.inl hv))
  have greatest := half a.greatest (fun v hv => ends v (.inr hv))
  have sum : -(2 ^ 47) ≤ whenCounted a a.sum ∧ whenCounted a a.sum < 2 ^ 47 := by
    unfold whenCounted
    split <;> omega
  exact ⟨intAt_field _ 6 12 2 rfl (offset 6) (by omega) (by omega), intAt_field _ 7 14 2 rfl (offset 7) (by omega) (by omega),
    intAt_field _ 8 16 6 rfl (offset 8) (by omega) (by omega)⟩

/-- Settles O57: the placing of own records, the three frames of a stream, the loopback, and the two records field by field. -/
theorem streamFramesAreFormedAndLooped : Obligations.StreamFramesAreFormedAndLooped := by
  unfold Obligations.StreamFramesAreFormedAndLooped
  refine ⟨fun s c x room hx phase hroom some remain => ?placed, fun s c x hx noSlot => ⟨fun b burst ends => ?mark,
    fun b burst held => ?bins, fun burst empty => ?done⟩, fun s c x hx ready own node noSlot => ?looped,
    fun level node number ch d hl hn name low high hd => ?chan,
    fun level node bin number a d hl hb hn cells count ends low high hd => ?bin⟩
  case placed =>
    subst hroom
    rw [relayRoomResume_of hx phase some remain, continueLocal_of_remaining hx remain]
  case mark => exact formFrame_mark burst ends c s
  case bins => rw [formFrame_bins burst held, formBins_of_noSlot noSlot]
  case done => exact formFrame_done burst empty c s
  case looped =>
    obtain ⟨owner, v, formed⟩ := formFrame_of_noSlot noSlot c s
    have bus : (formFrame c x s).2.bi = s.bi := by rw [formed]
    refine ⟨_, formFrame c x s, loopbackDataFrame_of hx ready own node, rfl, ?_, fun done => ?_, fun other => ?_⟩
    · dsimp only
      rw [report_bi, bus]
    · show ctxAt (report _ _) c = none
      rw [report_of_context owner, if_pos done, ctxAt_setCtx, if_pos rfl]
    · dsimp only
      rw [report_of_context owner, if_neg other]
  case chan =>
    have offset := chanFields_offset name level node number
    have nodeLt : node.toNat < 256 := lt_trans node.isLt (by decide)
    rw [hd, chanRecord_eq]
    exact ⟨by rw [List.length_flatten]; exact offset 7, natAt_byteField _ 0 0 rfl (offset 0) (by omega),
      natAt_byteField _ 1 1 rfl (offset 1) nodeLt, natAt_byteField _ 2 2 rfl (offset 2) (by omega),
      slice_field _ 3 3 8 rfl (offset 3) (filledBytes_length name), byteAt_field _ 4 11 rfl (offset 4),
      intAt_field _ 5 12 1 rfl (offset 5) (by omega) (by omega), slice_field _ 6 13 15 rfl (offset 6) (List.length_replicate ..)⟩
  case bin =>
    have offset := binFields_offset level node bin number a
    have nodeLt : node.toNat < 256 := lt_trans node.isLt (by decide)
    obtain ⟨least, greatest, sum⟩ := intAt_binFields (level := level) (node := node) (bin := bin) (number := number) ends low high
    have marks : byteAt (binFields level node bin number a).flatten 22 = bitIf (decide (a.count = 0)) 0 ||| bitIf a.saturated 1 :=
      byteAt_field _ 9 22 rfl (offset 9)
    obtain ⟨empty, saturated⟩ := getLsbD_twoBits (decide (a.count = 0)) a.saturated
    rw [hd, binRecord_eq, least, greatest, sum, marks, whenCounted, whenCounted, whenCounted]
    exact ⟨by rw [List.length_flatten]; exact offset 11, natAt_byteField _ 0 0 rfl (offset 0) (by omega),
      natAt_byteField _ 1 1 rfl (offset 1) nodeLt, natAt_byteField _ 2 2 rfl (offset 2) (by omega),
      natAt_byteField _ 3 3 rfl (offset 3) (by omega), natAt_field _ 4 4 4 rfl (offset 4) (by omega),
      natAt_field _ 5 8 4 rfl (offset 5) (by omega),
      fun counted => ⟨if_neg (by omega), if_neg (by omega), if_neg (by omega)⟩,
      fun none => ⟨if_pos none, if_pos none, if_pos none⟩, empty, saturated, bitIf_pair_lt _ _,
      slice_field _ 10 23 5 rfl (offset 10) (List.length_replicate ..)⟩

end Sys2Proof.Machine
end

section
/-! PROOF. O49: records relayed and counted, the watermarks, and the check of a MARK. -/

namespace Sys2Proof.Machine

/-! ### The slot of a stream (R148, R152) -/

theorem slotFor_congr {s t : State} (h : t.pe = s.pe) (src : Node) (tag : Tag) : slotFor t src tag = slotFor s src tag := by
  unfold slotFor slotAt
  rw [h]

/-- The slot of an owner and tag has both. -/
theorem slotFor_spec {s : State} {src : Node} {tag : Tag} {k : Fin 8} (h : slotFor s src tag = some k) :
    ∃ x, slotAt s k = some x ∧ x.tag = tag ∧ x.owner = some src := by
  have found := List.find?_some (p := fun d => match slotAt s d with | some x => x.tag == tag && x.owner == some src | none => false) h
  cases hk : slotAt s k with
  | none => rw [hk] at found; exact absurd found Bool.false_ne_true
  | some x =>
    rw [hk] at found
    obtain ⟨held, owner⟩ := Bool.and_eq_true_iff.1 found
    exact ⟨x, rfl, beq_iff_eq.1 held, beq_iff_eq.1 owner⟩

/-- A frame that is not a SEEK passes at a node that is not 0 alone (R182). -/
theorem node_ne_zero_of_passes {kind : FrameKind} {f : Frame} {s : State} (h : Passes kind f s) (other : kind ≠ .seek) :
    s.bi.node ≠ 0 := by
  intro zero
  have ours := h.2
  simp only [isForUs, Bool.and_eq_true, Bool.or_eq_true, beq_iff_eq, bne_iff_ne] at ours
  rcases ours.1.2 with ⟨_, seek⟩ | ⟨same, away⟩
  · exact other seek
  · rw [zero] at same
    exact away same

/-! ### Records relayed (R149, R166) -/

theorem splitRecords_one {payload : List Byte} (h : payload.length = 28) (n : Nat) : splitRecords (n + 2) payload = [payload] := by
  have present : payload ≠ [] := fun none => by rw [none] at h; exact absurd h (by decide)
  have rest : splitRecords (n + 1) (payload.drop 28) = [] := by
    rw [List.drop_eq_nil_of_le (by omega), splitRecords, if_pos rfl]
  rw [splitRecords, if_neg present, rest, List.take_of_length_le (by omega)]

/-- A record that is not deeper, or that follows a LEVEL not relayed, is counted and not relayed (R149). -/
theorem relayRecord_counts {level : Nat} {w : Relaying} {r : RecordBytes}
    (h : (byteAt r 0).toNat % 16 ≤ level
      ∨ (w.relayOpen = false ∧ ((byteAt r 0).toNat / 16 = 2 ∨ (byteAt r 0).toNat / 16 = 3))) : relayRecord level w r = w.count r := by
  unfold relayRecord
  dsimp only
  by_cases shallow : (byteAt r 0).toNat % 16 ≤ level ∨ 7 < (byteAt r 0).toNat % 16
  · exact if_pos shallow
  · obtain ⟨closed, later⟩ := h.resolve_left (fun g => shallow (.inl g))
    rw [if_neg shallow, if_neg (by omega), if_pos later, closed]
    rfl

/-- A deeper LEVEL record, and one that follows a LEVEL relayed (R149). -/
def Relays (level : Nat) (relayOpen : Bool) (r : RecordBytes) : Prop :=
  level < (byteAt r 0).toNat % 16 ∧ (byteAt r 0).toNat % 16 ≤ 7
    ∧ ((byteAt r 0).toNat / 16 = 1 ∨ relayOpen = true ∧ ((byteAt r 0).toNat / 16 = 2 ∨ (byteAt r 0).toNat / 16 = 3))

/-- With room it is relayed and counted, and the relaying is open (R149). -/
theorem relayRecord_places {level : Nat} {w : Relaying} {r : RecordBytes} (h : Relays level w.relayOpen r) (room : w.relay.length < 64) :
    relayRecord level w r = { w.count r with relay := w.relay ++ [r], relayOpen := true } := by
  obtain ⟨deep, seven, kind⟩ := h
  unfold relayRecord
  dsimp only
  rw [if_neg (by omega), decide_eq_true room]
  rcases kind with first | ⟨opened, later⟩
  · rw [if_pos first]
    rfl
  · rw [if_neg (by omega), if_pos later, opened]
    exact congrArg (fun b => (⟨w.relay ++ [r], b, w.received + 1, burstCrcRecord w.crc r⟩ : Relaying)) opened

/-- With the buffer full it is dropped and not counted, a LEVEL record closing the relaying (R149, R172). -/
theorem relayRecord_drops {level : Nat} {w : Relaying} {r : RecordBytes} (h : Relays level w.relayOpen r) (full : w.relay.length = 64) :
    relayRecord level w r = { w with relayOpen := decide ((byteAt r 0).toNat / 16 ≠ 1) } := by
  obtain ⟨deep, seven, kind⟩ := h
  unfold relayRecord
  dsimp only
  rw [if_neg (by omega), decide_eq_false (p := w.relay.length < 64) (by omega)]
  rcases kind with first | ⟨opened, later⟩
  · rw [if_pos first, decide_eq_false (fun other => other first)]
    rfl
  · rw [if_neg (by omega), if_pos later, opened, decide_eq_true (by omega)]
    exact congrArg (fun b => (⟨w.relay, b, w.received, w.crc⟩ : Relaying)) opened

/-! ### The watermark of WAIT (R173) -/

/-- The WAIT of a slot to its owner. -/
def waitFrame (k : Fin 8) (x : FetchSlot) : OutFrame := ⟨x.owner.getD 0, .wait, x.tag, [], .context, .slot k⟩

theorem raiseWatermark_of {s : State} {k : Fin 8} {c : Fin 6} {y : PullContext} {z : FetchSlot} {p : Pulling} (hy : ctxAt s c = some y)
    (hz : slotAt s k = some z) (hp : z.phase = .pulling p) (x : FetchSlot) :
    raiseWatermark k x c s = if p.flow = .running ∧ 48 ≤ y.relay.length then
        (if (offer (waitFrame k x) s).2 = .refused then onPulling k (fun p => { p with flow := .waitOwed }) (offer (waitFrame k x) s).1
        else onPulling k (fun p => { p with flow := .waited, silence := none }) (offer (waitFrame k x) s).1)
      else s := by
  obtain ⟨_, _, _, _, _, _, _, _, phase⟩ := z
  obtain rfl : phase = .pulling p := hp
  unfold raiseWatermark waitFrame
  rw [hy, hz]
  dsimp only
  split
  · split
    · rename_i accepted
      rw [if_neg (by rw [accepted]; decide)]
    · rename_i finished
      rw [if_neg (by rw [finished]; decide)]
    · rename_i refused
      rw [if_pos refused]
  · rfl

/-- The state after a BINS frame of one record, before the watermark's test. -/
def relayed (k : Fin 8) (x : FetchSlot) (q : Pulling) (c : Fin 6) (y : PullContext) (relay : List RecordBytes) (s : State) : State :=
  setCtx c (some { y with relay := relay }) (setSlot k (some { x with phase := .pulling q }) s)

theorem ctxAt_relayed (k : Fin 8) (x : FetchSlot) (q : Pulling) (c : Fin 6) (y : PullContext) (relay : List RecordBytes) (s : State) :
    ctxAt (relayed k x q c y relay s) c = some { y with relay := relay } := by
  rw [relayed, ctxAt_setCtx, if_pos rfl]

theorem slotAt_relayed (k : Fin 8) (x : FetchSlot) (q : Pulling) (c : Fin 6) (y : PullContext) (relay : List RecordBytes) (s : State) :
    slotAt (relayed k x q c y relay s) k = some { x with phase := .pulling q } := by
  rw [relayed, slotAt_setCtx, slotAt_setSlot, if_pos rfl]

/-- Below 48 records, and outside RUNNING, nothing is offered (R173). -/
theorem raiseWatermark_below {k : Fin 8} {x : FetchSlot} {q : Pulling} {c : Fin 6} {y : PullContext} {relay : List RecordBytes} {s : State}
    (h : relay.length < 48 ∨ q.flow ≠ .running) : raiseWatermark k x c (relayed k x q c y relay s) = relayed k x q c y relay s := by
  rw [raiseWatermark_of (ctxAt_relayed k x q c y relay s) (slotAt_relayed k x q c y relay s) rfl]
  refine if_neg (fun both => ?_)
  rcases h with low | other
  · exact absurd both.2 (by dsimp only; omega)
  · exact other both.1

theorem offer_accepted {s : State} {f : OutFrame} (h : s.bi.node ≠ 0) (other : f.dest ≠ s.bi.node)
    (room : enters f s.bi.queue.length = true) : offer f s = ({ s with bi.queue := s.bi.queue ++ [f] }, .accepted) := by
  rw [offer, if_neg h, if_neg other, acceptsClass_eq, if_pos room]
  rfl

theorem offer_refused {s : State} {f : OutFrame} (h : s.bi.node ≠ 0) (other : f.dest ≠ s.bi.node)
    (room : enters f s.bi.queue.length = false) (waits : f.kind.waits = true) :
    offer f s = ({ s with bi.offers := s.bi.offers ++ [f] }, .refused) := by
  rw [offer, if_neg h, if_neg other, acceptsClass_eq, if_neg (by rw [room]; exact Bool.false_ne_true), if_pos waits]

/-- From 48 records on, in RUNNING, a WAIT that finds a place is WAITED (R173). -/
theorem raiseWatermark_accepted {s : State} {k : Fin 8} {c : Fin 6} {y : PullContext} {z : FetchSlot} {p : Pulling} {x : FetchSlot}
    (hy : ctxAt s c = some y) (hz : slotAt s k = some z) (hp : z.phase = .pulling p) (h : p.flow = .running ∧ 48 ≤ y.relay.length)
    (node : s.bi.node ≠ 0) (other : x.owner.getD 0 ≠ s.bi.node) (room : s.bi.queue.length < 32) :
    raiseWatermark k x c s = setSlot k (some { z with phase := .pulling { p with flow := .waited, silence := none } })
      { s with bi.queue := s.bi.queue ++ [waitFrame k x] } := by
  rw [raiseWatermark_of hy hz hp, if_pos h,
    offer_accepted (f := waitFrame k x) node other (by rw [enters_context rfl]; exact decide_eq_true room)]
  exact (if_neg (fun same => Offered.noConfusion same)).trans
    (onPulling_of (s := { s with bi.queue := s.bi.queue ++ [waitFrame k x] }) hz hp _)

/-- And one that finds none is owed (R173). -/
theorem raiseWatermark_refused {s : State} {k : Fin 8} {c : Fin 6} {y : PullContext} {z : FetchSlot} {p : Pulling} {x : FetchSlot}
    (hy : ctxAt s c = some y) (hz : slotAt s k = some z) (hp : z.phase = .pulling p) (h : p.flow = .running ∧ 48 ≤ y.relay.length)
    (node : s.bi.node ≠ 0) (other : x.owner.getD 0 ≠ s.bi.node) (full : 32 ≤ s.bi.queue.length) :
    raiseWatermark k x c s = setSlot k (some { z with phase := .pulling { p with flow := .waitOwed } })
      { s with bi.offers := s.bi.offers ++ [waitFrame k x] } := by
  rw [raiseWatermark_of hy hz hp, if_pos h,
    offer_refused (f := waitFrame k x) node other (by rw [enters_context rfl]; exact decide_eq_false (by omega)) rfl]
  exact (if_pos rfl).trans (onPulling_of (s := { s with bi.offers := s.bi.offers ++ [waitFrame k x] }) hz hp _)

/-- A BINS frame taken for a PULLING fetch is relayed to its context. -/
theorem exec_bins {f : Frame} {s : State} {k : Fin 8} {x : FetchSlot} {p : Pulling} {c : Fin 6} {y : PullContext} {w : Relaying}
    (passes : Passes .bins f s) (held : slotFor s (senderOf f) f.tag = some k) (hx : slotAt s k = some x) (hp : x.phase = .pulling p)
    (hc : x.context = some c) (hy : ctxAt s c = some y) (one : f.payload.length = 28)
    (hw : relayRecord y.level ⟨y.relay, p.relayOpen, p.received, p.crc⟩ f.payload = w) :
    exec (.bins f) s = .next (settle (raiseWatermark k x c (relayed k x { p with
      relayOpen := w.relayOpen, received := w.received, crc := w.crc, silence := p.silence.map (fun _ => s.now) } c y w.relay
      (heard f s)))) := by
  have same := heard_pe f s
  rw [show exec (.bins f) s = _ from frame_handed_over (kind := .bins) passes, handOver, takeBins,
    (slotFor_congr same _ _).trans held]
  dsimp only
  rw [(slotAt_congr same k).trans hx]
  dsimp only
  rw [hp, hc]
  dsimp only
  rw [(ctxAt_congr same c).trans hy]
  dsimp only
  rw [relayFrame, splitRecords_one one 6]
  dsimp only [List.foldl]
  rw [hw, heard_now]
  rfl

/-! ### The watermark of GO (R174) -/

theorem drainWatermark_of {s : State} {c : Fin 6} {k : Fin 8} {x : PullContext} {y : FetchSlot} {p : Pulling} (hx : ctxAt s c = some x)
    (hk : x.slot = some k) (hy : slotAt s k = some y) (hp : y.phase = .pulling p) :
    drainWatermark c s = if 16 < x.relay.length then s else
      match p.flow with
      | .waitOwed => onPulling k (fun p => { p with flow := .running }) (withdraw (fun f => f.owner == .slot k && f.kind == .wait) s)
      | .waited => send ⟨y.owner.getD 0, .go, y.tag, [], .context, .slot k⟩ (onPulling k (fun p => { p with flow := .releasing }) s)
      | .running => s
      | .releasing => s := by
  rw [drainWatermark, hx]
  dsimp only
  rw [hk]
  dsimp only
  rw [hy]
  dsimp only
  rw [hp] <;> rfl

/-- At 16 or fewer an owed WAIT is withdrawn (R174). -/
theorem drainWatermark_owed {s : State} {c : Fin 6} {k : Fin 8} {x : PullContext} {y : FetchSlot} {p : Pulling} (hx : ctxAt s c = some x)
    (hk : x.slot = some k) (hy : slotAt s k = some y) (hp : y.phase = .pulling p) (low : x.relay.length ≤ 16) (owed : p.flow = .waitOwed) :
    drainWatermark c s = setSlot k (some { y with phase := .pulling { p with flow := .running } })
      (withdraw (fun f => f.owner == .slot k && f.kind == .wait) s) := by
  rw [drainWatermark_of hx hk hy hp, if_neg (by omega), owed]
  exact onPulling_of (s := withdraw (fun f => f.owner == .slot k && f.kind == .wait) s) hy hp _

/-- At 16 or fewer in WAITED, GO is offered (R174). -/
theorem drainWatermark_waited {s : State} {c : Fin 6} {k : Fin 8} {x : PullContext} {y : FetchSlot} {p : Pulling} (hx : ctxAt s c = some x)
    (hk : x.slot = some k) (hy : slotAt s k = some y) (hp : y.phase = .pulling p) (low : x.relay.length ≤ 16) (waited : p.flow = .waited) :
    drainWatermark c s = send ⟨y.owner.getD 0, .go, y.tag, [], .context, .slot k⟩
      (setSlot k (some { y with phase := .pulling { p with flow := .releasing } }) s) := by
  rw [drainWatermark_of hx hk hy hp, if_neg (by omega), waited]
  exact congrArg (send _) (onPulling_of hy hp _)

theorem drainWatermark_stands {s : State} {c : Fin 6} {k : Fin 8} {x : PullContext} {y : FetchSlot} {p : Pulling} (hx : ctxAt s c = some x)
    (hk : x.slot = some k) (hy : slotAt s k = some y) (hp : y.phase = .pulling p)
    (stands : 16 < x.relay.length ∨ p.flow = .running ∨ p.flow = .releasing) : drainWatermark c s = s := by
  rw [drainWatermark_of hx hk hy hp]
  split
  · rfl
  · rcases stands with high | running | releasing
    · exact absurd high (by assumption)
    · rw [running]
    · rw [releasing]

/-- The context after a BINS frame left its buffer, with some burst open. -/
theorem formFrame_drains {s u : State} {c : Fin 6} {x : PullContext} (held : x.relay ≠ [])
    (burst : ∀ b, x.burst = some b → b.frames ≠ 16) (hu : u = (formFrame c x s).2) :
    ∃ b, u = drainWatermark c (setCtx c (some { x with relay := x.relay.drop 8, burst := b }) s) := by
  subst hu
  cases hb : x.burst with
  | none =>
    rw [formFrame_bins (.inr ⟨hb, rfl⟩) held]
    exact ⟨_, rfl⟩
  | some b =>
    rw [formFrame_bins (.inl ⟨hb, burst b hb⟩) held]
    exact ⟨_, rfl⟩

/-! ### MARK (R154, R167) -/

theorem markFault_eq (p : Pulling) (payload : List Byte) :
    markFault p (byteAt payload 0) (byteAt payload 1) (natAt payload 2 2) = (if byteAt payload 0 ≠ p.expected then ErrorKind.burstSeq
      else if natAt payload 1 1 = 0 ∨ 128 < natAt payload 1 1 ∨ natAt payload 1 1 ≠ p.received then .burstCount
      else if natAt payload 2 2 ≠ p.crc.toNat then .burstCrc else .none) := by
  rw [natAt_one]
  rfl

/-- Settles O49: one record by its level and kind, the two watermarks, and the three checks of a MARK. -/
theorem binsAreRelayedAndMarksChecked : Obligations.BinsAreRelayedAndMarksChecked := by
  unfold Obligations.BinsAreRelayedAndMarksChecked
  refine ⟨fun f s passes => ⟨fun none => ?noSlot, fun k x p c y held hx hp hc hy one low kind lvl hkind hlvl =>
      ⟨fun deep seven kinds => ?relayed, fun stays => ?counted⟩⟩,
    fun f s u k x p q c y kind lvl passes held hx hp hc hy one hkind hlvl deep seven =>
      ⟨fun level from47 room running away hq hu => ?waits, fun full other kinds => ?dropped⟩,
    fun s u c x k y p hx hk hy hp present burst hu => ?drains, fun f s k x p c y kind passes held hx hp hc hy hkind => ?mark⟩
  case noSlot =>
    rw [show exec (.bins f) s = _ from frame_handed_over (kind := .bins) passes, handOver, takeBins,
      (slotFor_congr (heard_pe f s) _ _).trans none]
  case relayed =>
    subst hkind hlvl
    rw [exec_bins passes held hx hp hc hy one (relayRecord_places ⟨deep, seven, kinds⟩ (by dsimp only; omega)),
      raiseWatermark_below (.inl (by dsimp only; rw [List.length_append, List.length_singleton]; omega))]
    rfl
  case counted =>
    subst hkind hlvl
    rw [exec_bins passes held hx hp hc hy one (relayRecord_counts stays),
      raiseWatermark_below (.inl (by dsimp only [Relaying.count]; omega))]
    rfl
  case waits =>
    subst hkind hlvl
    have owner : x.owner.getD 0 = senderOf f := by
      obtain ⟨z, hz, _, owner⟩ := slotFor_spec held
      obtain rfl : x = z := Option.some.inj (hx.symm.trans hz)
      rw [owner, Option.getD_some]
    have node : u.bi.node = s.bi.node := by rw [hu]; exact heard_node f s
    have queue : u.bi.queue = s.bi.queue := by rw [hu]; exact heard_queue f s
    have offers : u.bi.offers = s.bi.offers := by rw [hu]; exact heard_offers f s
    have wait : waitFrame k x = ⟨senderOf f, .wait, x.tag, [], .context, .slot k⟩ := by rw [waitFrame, owner]
    have nonzero : u.bi.node ≠ 0 := by rw [node]; exact node_ne_zero_of_passes passes (by decide)
    have dest : x.owner.getD 0 ≠ u.bi.node := by rw [owner, node]; exact away
    have slot : slotAt u k = some { x with phase := .pulling q } := by rw [hu]; exact slotAt_relayed ..
    have context : ctxAt u c = some { y with relay := y.relay ++ [f.payload] } := by rw [hu]; exact ctxAt_relayed ..
    have high : q.flow = .running ∧ 48 ≤ (y.relay ++ [f.payload]).length :=
      ⟨by rw [hq]; exact running, by rw [List.length_append, List.length_singleton]; omega⟩
    have raised : exec (.bins f) s = .next (settle (raiseWatermark k x c u)) := by
      rw [exec_bins passes held hx hp hc hy one (relayRecord_places ⟨deep, seven, .inl level⟩ room), hu, hq]
      rfl
    refine ⟨fun free => ?_, fun none => ?_⟩
    · rw [raised, raiseWatermark_accepted context slot rfl high nonzero dest (by rw [queue]; exact free), wait, queue]
    · rw [raised, raiseWatermark_refused context slot rfl high nonzero dest (by rw [queue]; exact none), wait, offers]
  case dropped =>
    subst hkind hlvl
    rw [exec_bins passes held hx hp hc hy one (relayRecord_drops ⟨deep, seven, kinds⟩ full), raiseWatermark_below (.inr (by exact other))]
    rfl
  case drains =>
    obtain ⟨b, hb⟩ := formFrame_drains present burst hu
    have left : (x.relay.drop 8).length = x.relay.length - 8 := List.length_drop
    have context : ctxAt (setCtx c (some { x with relay := x.relay.drop 8, burst := b }) s) c
        = some { x with relay := x.relay.drop 8, burst := b } := by rw [ctxAt_setCtx, if_pos rfl]
    have slot : slotAt (setCtx c (some { x with relay := x.relay.drop 8, burst := b }) s) k = some y := hy
    refine ⟨fun stands => ?_, fun low owed => ?_, fun low waited node away => ?_⟩
    · rw [hb, drainWatermark_stands context hk slot hp (stands.imp_left (fun high => by dsimp only; omega))]
      exact ⟨slot, rfl⟩
    · rw [hb, drainWatermark_owed context hk slot hp (by dsimp only; omega) owed]
      refine ⟨by rw [slotAt_setSlot, if_pos rfl], rfl, fun g => ?_⟩
      simp only [withdraw, setSlot_bi, setCtx_bi, List.mem_filter, Bool.not_eq_true', Bool.and_eq_false_iff, beq_eq_false_iff_ne,
        not_and_or, ne_eq]
    · rw [hb, drainWatermark_waited context hk slot hp (by dsimp only; omega) waited]
      rcases lt_or_ge s.bi.queue.length 32 with free | full
      · rw [send_of_accepted (s := setSlot k _ (setCtx c _ s)) node away (by rw [enters_context rfl]; exact decide_eq_true free)]
        exact ⟨(slotAt_setSlot k k _ _).trans (if_pos rfl), fun _ => rfl, fun full => absurd full (by omega)⟩
      · rw [send_of_refused (s := setSlot k _ (setCtx c _ s)) node away
          (by rw [enters_context rfl]; exact decide_eq_false (by rw [setSlot_bi, setCtx_bi]; omega))]
        exact ⟨(slotAt_setSlot k k _ _).trans (if_pos rfl), fun free => absurd free (by omega), fun _ => rfl⟩
  case mark =>
    have same := heard_pe f s
    rw [show exec (.mark f) s = _ from frame_handed_over (kind := .mark) passes, handOver, takeMark,
      (slotFor_congr same _ _).trans held]
    dsimp only
    rw [(slotAt_congr same k).trans hx]
    dsimp only
    rw [hp, hc]
    dsimp only
    rw [markFault_eq, ← hkind, onCtx_of (x := y), ownFault, PullContext.takeError, heard_node, restartSilence, heard_now]
    exact (ctxAt_congr same c).trans hy

end Sys2Proof.Machine
end

section
/-! PROOF. What the pull engine's shared operations come to: a slot freed, a fetch begun under a fresh tag, the walk over the parent
segments, and a fetch ended. -/

namespace Sys2Proof.Machine

/-! ### A frame offered to another node (R191) -/

/-- The bus interface after a frame for another node was offered. -/
def Bi.offered (b : Bi) (f : OutFrame) : Bi :=
  if enters f b.queue.length then { b with queue := b.queue ++ [f] }
  else if f.kind.waits then { b with offers := b.offers ++ [f] } else b

theorem send_of_other {s : State} {f : OutFrame} (node : s.bi.node ≠ 0) (other : f.dest ≠ s.bi.node) :
    send f s = { s with bi := s.bi.offered f } := by
  unfold Bi.offered
  cases room : enters f s.bi.queue.length with
  | true => rw [send_of_accepted node other room]; rfl
  | false =>
    rw [send_of_refused node other room]
    cases f.kind.waits <;> rfl

theorem Bi.offered_of_room {b : Bi} {f : OutFrame} (h : enters f b.queue.length = true) :
    b.offered f = { b with queue := b.queue ++ [f] } := if_pos h

theorem Bi.offered_of_full {b : Bi} {f : OutFrame} (h : enters f b.queue.length = false) (waits : f.kind.waits = true) :
    b.offered f = { b with offers := b.offers ++ [f] } := by
  rw [Bi.offered, if_neg (by rw [h]; exact Bool.false_ne_true), if_pos waits]

theorem Bi.offered_of_dropped {b : Bi} {f : OutFrame} (h : enters f b.queue.length = false) (waits : f.kind.waits = false) :
    b.offered f = b := by
  rw [Bi.offered, if_neg (by rw [h]; exact Bool.false_ne_true), if_neg (by rw [waits]; exact Bool.false_ne_true)]

@[simp] theorem Bi.offered_looped (b : Bi) (f : OutFrame) : (b.offered f).looped = b.looped := by
  unfold Bi.offered
  split <;> [rfl; split <;> rfl]

@[simp] theorem Bi.offered_node (b : Bi) (f : OutFrame) : (b.offered f).node = b.node := by
  unfold Bi.offered
  split <;> [rfl; split <;> rfl]

/-- A context frame stands last in the queue while it has a place, and last among the waiting offers otherwise. -/
theorem Bi.offered_last {b : Bi} {f : OutFrame} (cls : f.cls = .context) (waits : f.kind.waits = true) :
    (b.queue.length < 32 → (b.offered f).queue.getLast? = some f)
      ∧ (32 ≤ b.queue.length → (b.offered f).offers.getLast? = some f) := by
  refine ⟨fun room => ?_, fun full => ?_⟩
  · rw [Bi.offered_of_room (by rw [enters_context cls]; exact decide_eq_true room)]
    exact List.getLast?_concat
  · rw [Bi.offered_of_full (by rw [enters_context cls]; exact decide_eq_false (by omega)) waits]
    exact List.getLast?_concat

/-- A frame that is reported to nobody changes the bus interface alone. -/
theorem send_of_nobody {f : OutFrame} (h : f.owner = .nobody) (s : State) : ∃ b, send f s = { s with bi := b } := by
  by_cases node : s.bi.node = 0
  · exact ⟨s.bi, by rw [send_of_strapped node, report_of_nobody h]⟩
  · by_cases own : f.dest = s.bi.node
    · exact ⟨_, by rw [send_of_own node own, report_of_nobody h]⟩
    · exact ⟨_, send_of_other node own⟩

/-! ### A slot freed (R146, R190, R192) -/

/-- The state with a slot FREE, its offers withdrawn and its frames reporting to nobody. -/
def slotFreed (k : Fin 8) (s : State) : State := setSlot k none (orphan (.slot k) (withdraw (fun f => f.owner == .slot k) s))

@[simp] theorem slotFreed_now (k : Fin 8) (s : State) : (slotFreed k s).now = s.now := rfl
@[simp] theorem slotFreed_ca (k : Fin 8) (s : State) : (slotFreed k s).ca = s.ca := rfl
@[simp] theorem slotFreed_cx (k : Fin 8) (s : State) : (slotFreed k s).cx = s.cx := rfl
@[simp] theorem slotFreed_tiu (k : Fin 8) (s : State) : (slotFreed k s).tiu = s.tiu := rfl
@[simp] theorem slotFreed_ar (k : Fin 8) (s : State) : (slotFreed k s).ar = s.ar := rfl
@[simp] theorem slotFreed_ru (k : Fin 8) (s : State) : (slotFreed k s).ru = s.ru := rfl
@[simp] theorem slotFreed_contexts (k : Fin 8) (s : State) : (slotFreed k s).pe.contexts = s.pe.contexts := rfl
@[simp] theorem slotFreed_waiting (k : Fin 8) (s : State) : (slotFreed k s).pe.waiting = s.pe.waiting := rfl
@[simp] theorem slotFreed_tagCounter (k : Fin 8) (s : State) : (slotFreed k s).pe.tagCounter = s.pe.tagCounter := rfl
@[simp] theorem slotFreed_node (k : Fin 8) (s : State) : (slotFreed k s).bi.node = s.bi.node := rfl
@[simp] theorem slotFreed_looped (k : Fin 8) (s : State) : (slotFreed k s).bi.looped = s.bi.looped := rfl
@[simp] theorem slotFreed_queue_length (k : Fin 8) (s : State) : (slotFreed k s).bi.queue.length = s.bi.queue.length := List.length_map _
@[simp] theorem ctxAt_slotFreed (k : Fin 8) (s : State) (c : Fin 6) : ctxAt (slotFreed k s) c = ctxAt s c := rfl
@[simp] theorem slotAt_slotFreed (k m : Fin 8) (s : State) : slotAt (slotFreed k s) m = if k = m then none else slotAt s m :=
  slotAt_setSlot k m none _

/-- With no context waiting the slot stays FREE. -/
theorem freeSlot_of_noneWaiting {s : State} (h : s.pe.waiting = []) (k : Fin 8) : freeSlot k s = slotFreed k s := by
  show promote k (slotFreed k s) = _
  rw [promote, slotFreed_waiting, h]

/-- The context at the head of the fetch-wait queue takes it with its plan. -/
theorem freeSlot_of_waiting {s : State} {d : Fin 6} {rest : List (Fin 6)} {w : PullContext} {plan : FetchPlan}
    (h : s.pe.waiting = d :: rest) (hw : ctxAt s d = some w) (hp : w.fetch = some plan) (k : Fin 8) :
    freeSlot k s = beginFetch d k plan { slotFreed k s with pe.waiting := rest } := by
  have context : ctxAt { slotFreed k s with pe.waiting := rest } d = some w := hw
  show promote k (slotFreed k s) = _
  rw [promote, slotFreed_waiting, h]
  dsimp only
  rw [context]
  dsimp only
  rw [hp]

/-! ### Tags (R132) -/

theorem tagHeld_iff (s : State) (t : Tag) :
    tagHeld s t = true ↔ (∃ m x, slotAt s m = some x ∧ x.tag = t) ∨ ∃ h, s.ru.head = some h ∧ h.tag = t := by
  unfold tagHeld
  rw [Bool.or_eq_true, List.any_eq_true]
  refine or_congr ⟨?_, ?_⟩ ?_
  · rintro ⟨m, _, held⟩
    cases hm : slotAt s m with
    | none => rw [hm] at held; exact absurd held Bool.false_ne_true
    | some x => rw [hm] at held; exact ⟨m, x, hm, beq_iff_eq.1 held⟩
  · rintro ⟨m, x, hm, held⟩
    refine ⟨m, mem_allSlots m, ?_⟩
    rw [hm]
    exact beq_iff_eq.2 held
  · cases s.ru.head with
    | none => simp
    | some h => simp

/-- While slot k is FREE, a tag held is held beside it. -/
theorem heldBeside_iff {s : State} {k : Fin 8} (free : slotAt s k = none) (t : Tag) : HeldBeside s k t ↔ tagHeld s t = true := by
  rw [tagHeld_iff, HeldBeside]
  refine or_congr ⟨?_, ?_⟩ Iff.rfl
  · rintro ⟨m, x, _, hx, held⟩
    exact ⟨m, x, hx, held⟩
  · rintro ⟨m, x, hx, held⟩
    exact ⟨m, x, fun same => (by rw [same, free] at hx; cases hx), hx, held⟩

/-- The holder of a tag: slot m, or k in the place of the head task. -/
def Holds (s : State) (k : Fin 8) (t : Tag) (m : Fin 8) : Prop :=
  (m ≠ k ∧ ∃ x, slotAt s m = some x ∧ x.tag = t) ∨ (m = k ∧ ∃ h, s.ru.head = some h ∧ h.tag = t)

theorem holds_of_heldBeside {s : State} {k : Fin 8} {t : Tag} (h : HeldBeside s k t) : ∃ m, Holds s k t m := by
  rcases h with ⟨m, x, other, hx, held⟩ | head
  · exact ⟨m, .inl ⟨other, x, hx, held⟩⟩
  · exact ⟨k, .inr ⟨rfl, head⟩⟩

/-- A holder holds one tag. -/
theorem Holds.unique {s : State} {k m : Fin 8} {t u : Tag} (h : Holds s k t m) (g : Holds s k u m) : t = u := by
  rcases h with ⟨other, x, hx, rfl⟩ | ⟨same, x, hx, rfl⟩ <;> rcases g with ⟨other', y, hy, rfl⟩ | ⟨same', y, hy, rfl⟩
  · rw [hx] at hy
    rw [Option.some.inj hy]
  · exact absurd same' other
  · exact absurd same other'
  · rw [hx] at hy
    rw [Option.some.inj hy]

/-- Nine tags in a row are not all held beside a slot: seven slots and the head task hold eight at most (R132). -/
theorem not_nine_held (s : State) (k : Fin 8) (t : Tag) : ¬ ∀ m, m < 9 → HeldBeside s k (t + BitVec.ofNat 16 m) := by
  intro all
  choose holder holds using fun m : Fin 9 => holds_of_heldBeside (all m.val m.isLt)
  have injective : Function.Injective holder := by
    intro m n same
    have equal := (holds m).unique (same ▸ holds n)
    have values := congrArg BitVec.toNat (add_left_cancel equal)
    rw [BitVec.toNat_ofNat, BitVec.toNat_ofNat, Nat.mod_eq_of_lt (by omega), Nat.mod_eq_of_lt (by omega)] at values
    exact Fin.ext values
  exact absurd (Fintype.card_le_of_injective holder injective) (by decide)

/-- The next tag is taken once slot k is FREE (R132). -/
theorem nextTag_taken {s : State} {k : Fin 8} (free : slotAt s k = none) : TagTaken s k (nextTag s) := by
  obtain ⟨n, most, found, passed, fresh⟩ := freshTag_passes s 9 s.pe.tagCounter
  have held : ∀ m, m < n → HeldBeside s k (s.pe.tagCounter + BitVec.ofNat 16 m) := fun m hm => (heldBeside_iff free _).2 (passed m hm)
  have fewer : n < 9 := lt_of_le_of_ne most (fun nine => not_nine_held s k s.pe.tagCounter (nine ▸ held))
  refine ⟨fun h => ?_, n, most, found, held⟩
  have := (heldBeside_iff free _).1 h
  rw [nextTag, fresh fewer] at this
  exact Bool.false_ne_true this

/-- Which tag is taken depends on the other slots, the head task and the counter. -/
theorem TagTaken.congr {s t : State} {k : Fin 8} {tag : Tag} (h : TagTaken t k tag) (slots : ∀ m, m ≠ k → slotAt t m = slotAt s m)
    (head : t.ru.head = s.ru.head) (counter : t.pe.tagCounter = s.pe.tagCounter) : TagTaken s k tag := by
  have beside : ∀ u, HeldBeside t k u ↔ HeldBeside s k u := fun u => by
    unfold HeldBeside
    rw [head]
    refine or_congr (exists_congr fun m => exists_congr fun x => ?_) Iff.rfl
    by_cases same : m = k
    · exact ⟨fun g => absurd same g.1, fun g => absurd same g.1⟩
    · rw [slots m same]
  obtain ⟨new, n, most, found, passed⟩ := h
  rw [counter] at found passed
  exact ⟨fun g => new ((beside _).2 g), n, most, found, fun m hm => (beside _).1 (passed m hm)⟩

/-! ### A fetch begun (R146, R147) -/

/-- The own answer of a locate depends on the units that know a coil and on the node. -/
theorem newLocate_congr {s t : State} (tiu : t.tiu = s.tiu) (ca : t.ca = s.ca) (ar : t.ar = s.ar) (node : t.bi.node = s.bi.node)
    (id : CoilId) : newLocate t id = newLocate s id := by
  have status : ownStatus t id = ownStatus s id := by
    unfold ownStatus outById closingById awaitingOutputs awaiting openByName runCoord
    rw [tiu, ca, ar]
  unfold newLocate ownAnswers
  rw [status, node]

/-- The state of a fetch begun, before its SEEK is offered. -/
def fetchBegun (c : Fin 6) (k : Fin 8) (plan : FetchPlan) (x : PullContext) (s : State) : State :=
  setCtx c (some { x with slot := some k, fetch := some plan })
    (setSlot k (some (slotFromPlan s c (nextTag s) plan)) { s with pe.tagCounter := nextTag s + 1 })

theorem beginFetch_eq {s : State} {c : Fin 6} {x : PullContext} (hx : ctxAt s c = some x) (k : Fin 8) (plan : FetchPlan) :
    beginFetch c k plan s
      = send ⟨0, .seek, nextTag s, countedBytes plan.parent, .context, .slot k⟩ (fetchBegun c k plan x s) := by
  unfold beginFetch
  dsimp only
  rw [onCtx_of (s := setSlot k _ (takeTag s)) hx]
  rfl

/-- At a node that is not 0 the SEEK is offered to the others. -/
theorem beginFetch_of_node {s : State} {c : Fin 6} {x : PullContext} (hx : ctxAt s c = some x) (node : s.bi.node ≠ 0) (k : Fin 8)
    (plan : FetchPlan) : beginFetch c k plan s = { fetchBegun c k plan x s with
      bi := s.bi.offered ⟨0, .seek, nextTag s, countedBytes plan.parent, .context, .slot k⟩ } := by
  rw [beginFetch_eq hx]
  exact send_of_other (s := fetchBegun c k plan x s) node (fun same => node same.symm)

theorem ctxAt_fetchBegun (c d : Fin 6) (k : Fin 8) (plan : FetchPlan) (x : PullContext) (s : State) :
    ctxAt (fetchBegun c k plan x s) d = if c = d then some { x with slot := some k, fetch := some plan } else ctxAt s d :=
  ctxAt_setCtx c d _ _

theorem slotAt_fetchBegun (c : Fin 6) (k m : Fin 8) (plan : FetchPlan) (x : PullContext) (s : State) :
    slotAt (fetchBegun c k plan x s) m = if k = m then some (slotFromPlan s c (nextTag s) plan) else slotAt s m :=
  slotAt_setSlot k m _ _

/-- The lowest FREE slot (R146). -/
theorem freeSlotNum_spec {s : State} {k : Fin 8} (free : slotAt s k = none) :
    ∃ j, freeSlotNum s = some j ∧ slotAt s j = none ∧ ∀ m, slotAt s m = none → j ≤ m := by
  unfold freeSlotNum
  rw [allSlots_eq]
  cases hj : (List.finRange 8).find? (fun k => (slotAt s k).isNone) with
  | none => exact absurd (by rw [free]; rfl) (List.find?_eq_none.1 hj k (List.mem_finRange k))
  | some j =>
    obtain ⟨first, i, hi, at_i, before⟩ := List.find?_eq_some_iff_getElem.1 hj
    refine ⟨j, rfl, Option.isNone_iff_eq_none.1 first, fun m hm => ?_⟩
    rw [List.getElem_finRange] at at_i
    by_contra below
    have hlt : m.val < i := by
      rw [← at_i] at below
      exact not_le.1 below
    have taken := before m.val hlt
    rw [List.getElem_finRange] at taken
    have free_m : slotAt s (Fin.cast (List.length_finRange ..) ⟨m.val, by rw [List.length_finRange]; exact m.isLt⟩) = none := hm
    rw [free_m] at taken
    exact absurd taken (by decide)

theorem freeSlotNum_none {s : State} (full : ∀ m, slotAt s m ≠ none) : freeSlotNum s = none :=
  List.find?_eq_none.2 (fun m _ => by rw [Option.isNone_iff_eq_none]; exact full m)

/-! ### The walk over parent segments (R145) -/

/-- How a segment is settled depends on the directory, the tables and what awaits write. -/
theorem settleSegment_congr {s t : State} (ca : t.ca = s.ca) (ar : t.ar = s.ar) : settleSegment t = settleSegment s := by
  funext depth g r index p
  unfold settleSegment inBySeq isPending awaiting
  rw [ca, ar]

/-- The counts after a settled segment (R145). -/
def countEnd (counts : Vector Nat 12) (e : Settled) : Vector Nat 12 :=
  match e with
  | .status st => counts.set st.place (min 255 (counts.get st.place + 1))
  | .skipped | .fetch _ => counts

theorem countEnd_get {counts : Vector Nat 12} {i : Fin 12} (h : counts.get i ≤ 255) (e : Settled) :
    (countEnd counts e).get i = min 255 (counts.get i + if Settled.countsAt i e then 1 else 0) := by
  cases e with
  | skipped =>
    show counts.get i = min 255 (counts.get i + 0)
    omega
  | fetch plan =>
    show counts.get i = min 255 (counts.get i + 0)
    omega
  | status st =>
    show (counts.set st.place (min 255 (counts.get st.place + 1))).get i = min 255 (counts.get i + if (st.place == i) = true then 1 else 0)
    simp only [Vector.get_eq_getElem, Vector.getElem_set, beq_iff_eq, Fin.ext_iff]
    by_cases same : st.place.val = i.val
    · have : st.place = i := Fin.ext same
      rw [if_pos same, if_pos same, this]
    · rw [if_neg same, if_neg same]
      rw [Vector.get_eq_getElem] at h
      omega

/-- The counts after the settled segments given: each adds at its place, held at 255 (R145). -/
theorem countEnds_get {counts : Vector Nat 12} {i : Fin 12} (h : counts.get i ≤ 255) (ends : List Settled) :
    (ends.foldl countEnd counts).get i = min 255 (counts.get i + ends.countP (Settled.countsAt i)) := by
  induction ends generalizing counts with
  | nil => rw [List.foldl_nil, List.countP_nil]; omega
  | cons e ends ih =>
    rw [List.foldl_cons, ih (by rw [countEnd_get h]; omega), countEnd_get h, List.countP_cons]
    omega

/-- A context past a segment that is not fetched. -/
theorem walk_past {c : Fin 6} {depth : Nat} {g : Grid} {r : OutputRecord} {index : Nat} {p : ParentSegment} {rest : List ParentSegment}
    {s : State} {x : PullContext} (hx : ctxAt s c = some x) (unfetched : (settleSegment s depth g r index p).unfetched = true) :
    walk c depth g r index (p :: rest) s = walk c depth g r (index + 1) rest (setCtx c (some { x with
      cursor := index + 1, counts := countEnd x.counts (settleSegment s depth g r index p) }) s) := by
  rw [walk]
  cases hp : settleSegment s depth g r index p with
  | skipped =>
    dsimp only
    rw [onCtx_of hx]
    rfl
  | status st =>
    dsimp only
    rw [onCtx_of hx, onCtx_of (s := setCtx c _ s) (by rw [ctxAt_setCtx, if_pos rfl]), setCtx_setCtx]
    rfl
  | fetch plan =>
    rw [hp] at unfetched
    exact absurd unfetched Bool.false_ne_true

/-- A walk in which no segment is fetched ends in CLOSING (R145). -/
theorem walk_unfetched {c : Fin 6} {depth : Nat} {g : Grid} {r : OutputRecord} {index : Nat} {l : List ParentSegment} {s : State}
    {x : PullContext} {ends : List Settled} (hx : ctxAt s c = some x)
    (hends : ends = (l.zipIdx index).map (fun p => settleSegment s depth g r p.2 p.1)) (all : ends.all Settled.unfetched = true) :
    ∃ n, walk c depth g r index l s
      = setCtx c (some (enterClosing { x with cursor := n, counts := ends.foldl countEnd x.counts })) s := by
  induction l generalizing index s x ends with
  | nil =>
    subst hends
    exact ⟨x.cursor, by rw [walk, onCtx_of hx]; rfl⟩
  | cons p rest ih =>
    rw [List.zipIdx_cons, List.map_cons] at hends
    subst hends
    rw [List.all_cons, Bool.and_eq_true] at all
    obtain ⟨first, later⟩ := all
    rw [walk_past hx first]
    obtain ⟨n, hn⟩ := ih (index := index + 1) (s := setCtx c (some { x with
        cursor := index + 1, counts := countEnd x.counts (settleSegment s depth g r index p) }) s)
      (by rw [ctxAt_setCtx, if_pos rfl]) rfl later
    exact ⟨n, by rw [hn, setCtx_setCtx]; rfl⟩

/-- A walk up to a segment that is fetched takes a slot for it (R145, R146). -/
theorem walk_fetches {c : Fin 6} {depth : Nat} {g : Grid} {r : OutputRecord} {index : Nat} {l : List ParentSegment} {s : State}
    {x : PullContext} {before after : List Settled} {plan : FetchPlan} (hx : ctxAt s c = some x)
    (hends : before ++ .fetch plan :: after = (l.zipIdx index).map (fun p => settleSegment s depth g r p.2 p.1))
    (all : before.all Settled.unfetched = true) :
    walk c depth g r index l s = takeSlot c plan (setCtx c (some { x with
      cursor := index + before.length + 1, counts := before.foldl countEnd x.counts }) s) := by
  induction before generalizing index s x l with
  | nil =>
    cases l with
    | nil => exact absurd hends (List.cons_ne_nil _ _)
    | cons p rest =>
      rw [List.zipIdx_cons, List.map_cons, List.nil_append] at hends
      rw [walk, ← (List.cons.inj hends).1]
      dsimp only
      rw [onCtx_of hx]
      rfl
  | cons e before ih =>
    cases l with
    | nil => exact absurd hends (List.cons_ne_nil _ _)
    | cons p rest =>
      rw [List.zipIdx_cons, List.map_cons, List.cons_append] at hends
      obtain ⟨first, later⟩ := List.cons.inj hends
      dsimp only at first
      rw [List.all_cons, Bool.and_eq_true, first] at all
      have further := ih (index := index + 1) (s := setCtx c (some { x with
          cursor := index + 1, counts := countEnd x.counts (settleSegment s depth g r index p) }) s)
        (by rw [ctxAt_setCtx, if_pos rfl]) later all.2
      rw [walk_past hx all.1, further, setCtx_setCtx, ← first, List.length_cons, List.foldl_cons]
      dsimp only
      rw [show index + 1 + before.length + 1 = index + (before.length + 1) + 1 by omega]

theorem nextSegment_of {s : State} {c : Fin 6} {x : PullContext} {g : Grid} {r : OutputRecord} (hx : ctxAt s c = some x)
    (hg : x.grid = some g) (hr : x.record = some r) :
    nextSegment c s = walk c x.depth g r x.cursor (r.segments.drop x.cursor) s := by
  rw [nextSegment, hx]
  dsimp only
  rw [hg, hr]

theorem segmentEnds_eq (s : State) (depth : Nat) (g : Grid) (r : OutputRecord) (cursor : Nat) :
    segmentEnds s depth g r cursor
      = ((r.segments.drop cursor).zipIdx cursor).map (fun p => settleSegment s depth g r p.2 p.1) := by
  have listed : r.segments.zipIdx.drop cursor = (r.segments.drop cursor).zipIdx cursor := by
    apply List.ext_getElem?
    intro i
    rw [List.getElem?_drop, List.getElem?_zipIdx, List.getElem?_zipIdx, List.getElem?_drop, Nat.zero_add]
  rw [segmentEnds, listed]

theorem segmentEnds_congr {s t : State} (ca : t.ca = s.ca) (ar : t.ar = s.ar) (depth : Nat) (g : Grid) (r : OutputRecord) (cursor : Nat) :
    segmentEnds t depth g r cursor = segmentEnds s depth g r cursor := by
  rw [segmentEnds, segmentEnds, settleSegment_congr ca ar]

/-- With no segment left the walk is over. -/
theorem segmentEnds_nil {s : State} {depth : Nat} {g : Grid} {r : OutputRecord} {cursor : Nat} (h : r.segments.length ≤ cursor) :
    segmentEnds s depth g r cursor = [] := by
  rw [segmentEnds_eq, List.drop_eq_nil_of_le h]
  rfl

/-- The next segment is begun where none is fetched. -/
theorem nextSegment_closes {s : State} {c : Fin 6} {x : PullContext} {g : Grid} {r : OutputRecord} (hx : ctxAt s c = some x)
    (hg : x.grid = some g) (hr : x.record = some r) (all : (segmentEnds s x.depth g r x.cursor).all Settled.unfetched = true) :
    ∃ n, nextSegment c s = setCtx c (some (enterClosing { x with
      cursor := n, counts := (segmentEnds s x.depth g r x.cursor).foldl countEnd x.counts })) s := by
  rw [nextSegment_of hx hg hr]
  exact walk_unfetched hx (segmentEnds_eq ..) all

/-- The next segment is begun up to one that is fetched. -/
theorem nextSegment_fetches {s : State} {c : Fin 6} {x : PullContext} {g : Grid} {r : OutputRecord} {before after : List Settled}
    {plan : FetchPlan} (hx : ctxAt s c = some x) (hg : x.grid = some g) (hr : x.record = some r)
    (hends : segmentEnds s x.depth g r x.cursor = before ++ .fetch plan :: after) (all : before.all Settled.unfetched = true) :
    nextSegment c s = takeSlot c plan (setCtx c (some { x with
      cursor := x.cursor + before.length + 1, counts := before.foldl countEnd x.counts }) s) := by
  rw [nextSegment_of hx hg hr]
  exact walk_fetches hx (hends.symm.trans (segmentEnds_eq ..)) all

/-- The counts of a context that enters CLOSING: the further segments are UNTRACED (R145). -/
theorem enterClosing_counts {x : PullContext} {r : OutputRecord} (hr : x.record = some r) {i : Fin 12} (h : x.counts.get i ≤ 255) :
    (enterClosing x).counts.get i = min 255 (x.counts.get i + if i = SegStatus.untraced.place then r.further else 0) := by
  unfold enterClosing
  dsimp only
  rw [hr, Option.elim_some]
  by_cases same : i = SegStatus.untraced.place
  · subst same
    rw [if_pos rfl]
    simp only [Vector.get_eq_getElem, Vector.getElem_set, if_true]
  · rw [if_neg same]
    have apart : ¬ SegStatus.untraced.place.val = i.val := fun h => same (Fin.ext h.symm)
    simp only [Vector.get_eq_getElem, Vector.getElem_set, if_neg apart] at h ⊢
    omega

/-- The count that a segment's status adds (R145, R151). -/
theorem addCount_counts (st : SegStatus) (x : PullContext) (i : Fin 12) :
    (addCount st x).counts.get i = if i = st.place then min 255 (x.counts.get i + 1) else x.counts.get i := by
  unfold addCount
  by_cases same : i = st.place
  · subst same
    rw [if_pos rfl]
    simp only [Vector.get_eq_getElem, Vector.getElem_set, if_true]
  · have apart : ¬ st.place.val = i.val := fun h => same (Fin.ext h.symm)
    rw [if_neg same]
    simp only [Vector.get_eq_getElem, Vector.getElem_set, if_neg apart]

end Sys2Proof.Machine
end

section
/-! PROOF. O50, O52 and O56: how a fetch ends on a DONE, a context on STOP or its pause limit, and a fetch on silence. -/

namespace Sys2Proof.Machine

/-! ### Settled with nothing looped -/

theorem settle_pe {s : State} (h : s.bi.looped = []) : (settle s).pe = s.pe := by rw [settle_eq h, (settleArchive_move s).pe]

theorem settle_bi {s : State} (h : s.bi.looped = []) : (settle s).bi = s.bi := by rw [settle_eq h, (settleArchive_move s).bi]

theorem ctxAt_settle {s : State} (h : s.bi.looped = []) (c : Fin 6) : ctxAt (settle s) c = ctxAt s c := ctxAt_congr (settle_pe h) c

theorem slotAt_settle {s : State} (h : s.bi.looped = []) (k : Fin 8) : slotAt (settle s) k = slotAt s k := slotAt_congr (settle_pe h) k

/-! ### What a DONE brings (R151, R154, R168) -/

/-- A first error held, once an error is offered to it: the first that is not NONE stays (R154). -/
def errorTaken (held e : FirstError) : FirstError := if held.kind = .none ∧ e.kind ≠ .none then e else held

theorem takeError_eq (e : FirstError) (x : PullContext) : x.takeError e = { x with firstError := errorTaken x.firstError e } := by
  unfold PullContext.takeError errorTaken
  split <;> rfl

/-- The fault that a fetch detects on a DONE: records received since the last MARK of a COMPLETE stream (R168). -/
def doneFault (s : State) (p : Pulling) (payload : List Byte) (x : PullContext) : FirstError :=
  if byteAt payload 0 = 0 ∧ p.received ≠ 0 then ⟨.burstCount, BitVec.ofNat 8 s.bi.node.toNat, BitVec.ofNat 8 x.level⟩ else .clear

theorem ofCode_complete (b : Byte) : DoneStatus.ofCode b = .complete ↔ b = 0 := by
  unfold DoneStatus.ofCode
  by_cases h : b = 0
  · rw [if_pos h]
    exact ⟨fun _ => h, fun _ => rfl⟩
  · rw [if_neg h]
    refine ⟨fun g => absurd g ?_, fun g => absurd g h⟩
    split_ifs <;> exact not_false

theorem errorTaken_clear (held : FirstError) : errorTaken held .clear = held := if_neg (fun h => h.2 rfl)

theorem takeDone_eq (s : State) (p : Pulling) (payload : List Byte) (x : PullContext) :
    PullContext.takeDone s p payload x = { x with
      counts := Vector.ofFn (fun i : Fin 12 => min 255 (x.counts.get i + natAt payload (2 + i.val) 1))
      firstError := errorTaken (errorTaken x.firstError (doneFault s p payload x))
        (.ofBytes (byteAt payload 14) (byteAt payload 15) (byteAt payload 16)) } := by
  unfold PullContext.takeDone doneFault
  simp only [ofCode_complete]
  rw [takeError_eq]
  split
  · rw [ownFault, takeError_eq]
    rfl
  · rw [errorTaken_clear]
    rfl

/-- The first error after a DONE (R154, R168). -/
theorem doneError_eq (s : State) (p : Pulling) (payload : List Byte) (x : PullContext) :
    errorTaken (errorTaken x.firstError (doneFault s p payload x))
        (.ofBytes (byteAt payload 14) (byteAt payload 15) (byteAt payload 16))
      = (if x.firstError.kind ≠ .none then x.firstError
        else if byteAt payload 0 = 0 ∧ p.received ≠ 0
          then ⟨.burstCount, BitVec.ofNat 8 s.bi.node.toNat, BitVec.ofNat 8 x.level⟩
        else if byteAt payload 14 = 1 then ⟨.burstCrc, byteAt payload 15, byteAt payload 16⟩
        else if byteAt payload 14 = 2 then ⟨.burstSeq, byteAt payload 15, byteAt payload 16⟩
        else if byteAt payload 14 = 3 then ⟨.burstCount, byteAt payload 15, byteAt payload 16⟩
        else x.firstError) := by
  by_cases held : x.firstError.kind = .none
  · rw [if_neg (not_not.2 held)]
    unfold doneFault
    split
    · have first : errorTaken x.firstError ⟨.burstCount, BitVec.ofNat 8 s.bi.node.toNat, BitVec.ofNat 8 x.level⟩
          = ⟨.burstCount, BitVec.ofNat 8 s.bi.node.toNat, BitVec.ofNat 8 x.level⟩ := if_pos ⟨held, fun e => ErrorKind.noConfusion e⟩
      rw [first]
      exact if_neg (fun h => ErrorKind.noConfusion h.1)
    · rw [errorTaken_clear]
      unfold FirstError.ofBytes
      split
      · exact if_pos ⟨held, fun e => ErrorKind.noConfusion e⟩
      · split
        · exact if_pos ⟨held, fun e => ErrorKind.noConfusion e⟩
        · split
          · exact if_pos ⟨held, fun e => ErrorKind.noConfusion e⟩
          · exact errorTaken_clear _
  · have stays : ∀ e, errorTaken x.firstError e = x.firstError := fun e => if_neg (fun h => held h.1)
    rw [if_pos held, stays, stays]

theorem takeDone_counts (s : State) (p : Pulling) (payload : List Byte) (x : PullContext) (i : Fin 12) :
    (PullContext.takeDone s p payload x).counts.get i = min 255 (x.counts.get i + natAt payload (2 + i.val) 1) := by
  rw [takeDone_eq]
  simp only [Vector.get_eq_getElem, Vector.getElem_ofFn]

/-- The segment status of an upstream DONE by its code (R151). -/
theorem asSegment_of {b : Byte} {estimated long : Bool} {st : SegStatus}
    (h : b = 0 ∧ estimated = false ∧ long = false ∧ st = SegStatus.ok
      ∨ b = 0 ∧ (estimated = true ∨ long = true) ∧ st = .estimated
      ∨ (b = 1 ∨ b = 2) ∧ st = .timeout
      ∨ (b = 3 ∨ b = 4) ∧ st = .busy
      ∨ (b = 5 ∨ 9 ≤ b.toNat) ∧ st = .notFound
      ∨ b = 6 ∧ st = .expired ∨ b = 7 ∧ st = .closing
      ∨ b = 8 ∧ st = .opened) : (DoneStatus.ofCode b).asSegment (estimated || long) = st := by
  rcases h with ⟨rfl, rfl, rfl, rfl⟩ | ⟨rfl, marks, rfl⟩ | ⟨rfl | rfl, rfl⟩ | ⟨rfl | rfl, rfl⟩ | ⟨rfl | high, rfl⟩ | ⟨rfl, rfl⟩
    | ⟨rfl, rfl⟩ | ⟨rfl, rfl⟩
  · rfl
  · rcases marks with rfl | rfl
    · rfl
    · cases estimated <;> rfl
  · rfl
  · rfl
  · rfl
  · rfl
  · rfl
  · have unlisted : DoneStatus.ofCode b = .badRequest := by
      have apart : ∀ n : Nat, n < 9 → b ≠ BitVec.ofNat 8 n := fun n hn same => by
        rw [same, BitVec.toNat_ofNat] at high
        omega
      unfold DoneStatus.ofCode
      rw [if_neg (show b ≠ 0 from apart 0 (by decide)), if_neg (show b ≠ 1 from apart 1 (by decide)),
        if_neg (show b ≠ 2 from apart 2 (by decide)), if_neg (show b ≠ 3 from apart 3 (by decide)),
        if_neg (show b ≠ 4 from apart 4 (by decide)), if_neg (show b ≠ 5 from apart 5 (by decide)),
        if_neg (show b ≠ 6 from apart 6 (by decide)), if_neg (show b ≠ 7 from apart 7 (by decide)),
        if_neg (show b ≠ 8 from apart 8 (by decide))]
    rw [unlisted]
    rfl
  · rfl
  · rfl
  · rfl

/-! ### The end of a fetch (R146, R147, R151) -/

/-- A context whose fetch ended with a segment status. -/
def fetchEnded (st : SegStatus) (x : PullContext) : PullContext := (addCount st x).dropFetch

theorem finishFetch_of {s : State} {c : Fin 6} {x : PullContext} (hx : ctxAt s c = some x) (waiting : s.pe.waiting = []) (k : Fin 8)
    (st : SegStatus) : finishFetch c k st s = nextSegment c (slotFreed k (setCtx c (some (fetchEnded st x)) s)) := by
  rw [finishFetch, onCtx_of hx, freeSlot_of_noneWaiting (s := setCtx c _ s) waiting]
  rfl

/-- The fetch's slot is freed and the next segment is begun: none is fetched, and the context enters CLOSING (R145). -/
theorem nextSegment_afterFetch_closes {s : State} {c : Fin 6} {x : PullContext} {g : Grid} {r : OutputRecord} {ends : List Settled}
    (hg : x.grid = some g) (hr : x.record = some r) (hends : ends = segmentEnds s x.depth g r x.cursor)
    (all : ends.all Settled.unfetched = true) (k : Fin 8) :
    ∃ n, nextSegment c (slotFreed k (setCtx c (some x) s))
      = slotFreed k (setCtx c (some (enterClosing { x with cursor := n, counts := ends.foldl countEnd x.counts })) s) := by
  have same : segmentEnds (slotFreed k (setCtx c (some x) s)) x.depth g r x.cursor = ends := by
    rw [hends]
    exact segmentEnds_congr rfl rfl ..
  obtain ⟨n, hn⟩ := nextSegment_closes (s := slotFreed k (setCtx c (some x) s)) (c := c)
    (by rw [ctxAt_slotFreed, ctxAt_setCtx, if_pos rfl]) hg hr (by rw [same]; exact all)
  rw [same] at hn
  refine ⟨n, hn.trans ?_⟩
  show setCtx c _ (slotFreed k (setCtx c _ s)) = _
  have commute : ∀ y u, setCtx c y (slotFreed k u) = slotFreed k (setCtx c y u) := fun _ _ => rfl
  rw [commute, setCtx_setCtx]

/-- DONE for a PULLING fetch, with no context waiting for a slot. -/
theorem exec_done_pulling {f : Frame} {s : State} {k : Fin 8} {x : FetchSlot} {p : Pulling} {c : Fin 6} {y : PullContext}
    (passes : Passes .done f s) (held : slotFor s (senderOf f) f.tag = some k) (hx : slotAt s k = some x) (waiting : s.pe.waiting = [])
    (hp : x.phase = .pulling p) (hc : x.context = some c) (hy : ctxAt s c = some y) :
    exec (.done f) s = .next (settle (nextSegment c (slotFreed k (setCtx c
      (some (fetchEnded ((DoneStatus.ofCode (byteAt f.payload 0)).asSegment (x.estimated || x.long))
        (PullContext.takeDone s p f.payload y))) (heard f s))))) := by
  have same := heard_pe f s
  have node : PullContext.takeDone (heard f s) p f.payload y = PullContext.takeDone s p f.payload y := by
    rw [takeDone_eq, takeDone_eq, doneFault, doneFault, heard_node]
  rw [show exec (.done f) s = _ from frame_handed_over (kind := .done) passes, handOver, takeDone,
    (slotFor_congr same _ _).trans held]
  dsimp only
  rw [(slotAt_congr same k).trans hx]
  dsimp only
  rw [hp, hc]
  dsimp only
  rw [onCtx_of ((ctxAt_congr same c).trans hy), node,
    finishFetch_of (s := setCtx c _ (heard f s)) (by rw [ctxAt_setCtx, if_pos rfl]) (by rw [setCtx_pe_waiting, same, waiting]),
    setCtx_setCtx]

/-- DONE for a DRAINING slot frees it. -/
theorem exec_done_draining {f : Frame} {s : State} {k : Fin 8} {x : FetchSlot} {left : Option Nat}
    (passes : Passes .done f s) (held : slotFor s (senderOf f) f.tag = some k) (hx : slotAt s k = some x) (waiting : s.pe.waiting = [])
    (hp : x.phase = .draining left) : exec (.done f) s = .next (settle (slotFreed k (heard f s))) := by
  have same := heard_pe f s
  rw [show exec (.done f) s = _ from frame_handed_over (kind := .done) passes, handOver, takeDone,
    (slotFor_congr same _ _).trans held]
  dsimp only
  rw [(slotAt_congr same k).trans hx]
  dsimp only
  rw [hp, freeSlot_of_noneWaiting (by rw [same, waiting])]

/-- A segment fetched after a slot was freed: the lowest FREE slot, a fresh tag, and a SEEK offered (R132, R145 to R147). -/
theorem nextSegment_afterFetch_fetches {s : State} {c : Fin 6} {x : PullContext} {g : Grid} {r : OutputRecord}
    {before after : List Settled} {plan : FetchPlan} (hg : x.grid = some g) (hr : x.record = some r)
    (hends : segmentEnds s x.depth g r x.cursor = before ++ .fetch plan :: after) (all : before.all Settled.unfetched = true)
    (node : s.bi.node ≠ 0) (k : Fin 8) :
    ∃ j tag t, nextSegment c (slotFreed k (setCtx c (some x) s)) = t
      ∧ ctxAt t c = some { x with
          cursor := x.cursor + before.length + 1, counts := before.foldl countEnd x.counts, slot := some j, fetch := some plan }
      ∧ (j = k ∨ slotAt s j = none) ∧ j ≤ k ∧ (∀ m, slotAt s m = none → j ≤ m)
      ∧ TagTaken s k tag ∧ slotAt t j = some (slotFromPlan s c tag plan) ∧ (j ≠ k → slotAt t k = none) ∧ t.pe.tagCounter = tag + 1
      ∧ t.bi = (slotFreed k s).bi.offered ⟨0, .seek, tag, countedBytes plan.parent, .context, .slot j⟩ := by
  have fetched := nextSegment_fetches (s := slotFreed k (setCtx c (some x) s)) (c := c) (before := before) (after := after) (plan := plan)
    (by rw [ctxAt_slotFreed, ctxAt_setCtx, if_pos rfl]) hg hr ((segmentEnds_congr rfl rfl ..).trans hends) all
  have commute : ∀ y u, setCtx c y (slotFreed k u) = slotFreed k (setCtx c y u) := fun _ _ => rfl
  rw [commute, setCtx_setCtx] at fetched
  have context : ctxAt (slotFreed k (setCtx c (some { x with
      cursor := x.cursor + before.length + 1, counts := before.foldl countEnd x.counts }) s)) c
      = some { x with cursor := x.cursor + before.length + 1, counts := before.foldl countEnd x.counts } := by
    rw [ctxAt_slotFreed, ctxAt_setCtx, if_pos rfl]
  have slots : ∀ m, slotAt (slotFreed k (setCtx c (some { x with
      cursor := x.cursor + before.length + 1, counts := before.foldl countEnd x.counts }) s)) m
      = if k = m then none else slotAt s m := fun m => by rw [slotAt_slotFreed, slotAt_setCtx]
  have bus : (slotFreed k (setCtx c (some { x with
      cursor := x.cursor + before.length + 1, counts := before.foldl countEnd x.counts }) s)).bi = (slotFreed k s).bi := rfl
  have locate := newLocate_congr (s := s) (t := slotFreed k (setCtx c (some { x with
      cursor := x.cursor + before.length + 1, counts := before.foldl countEnd x.counts }) s)) rfl rfl rfl rfl plan.parent
  have counter : (slotFreed k (setCtx c (some { x with
      cursor := x.cursor + before.length + 1, counts := before.foldl countEnd x.counts }) s)).pe.tagCounter = s.pe.tagCounter := rfl
  have head : (slotFreed k (setCtx c (some { x with
      cursor := x.cursor + before.length + 1, counts := before.foldl countEnd x.counts }) s)).ru.head = s.ru.head := rfl
  revert fetched context slots bus locate counter head
  generalize slotFreed k (setCtx c (some { x with
      cursor := x.cursor + before.length + 1, counts := before.foldl countEnd x.counts }) s) = u
  intro fetched context slots bus locate counter head
  have free : slotAt u k = none := by rw [slots, if_pos rfl]
  obtain ⟨j, number, freeJ, lowest⟩ := freeSlotNum_spec free
  have nodeU : u.bi.node ≠ 0 := by rw [bus]; exact node
  rw [takeSlot, number] at fetched
  dsimp only at fetched
  rw [beginFetch_of_node context nodeU] at fetched
  refine ⟨j, nextTag u, _, fetched, ?_, ?_, lowest k free, fun m hm => lowest m ?_, ?_, ?_, fun other => ?_, rfl, ?_⟩
  · exact (ctxAt_fetchBegun c c j plan _ u).trans (if_pos rfl)
  · by_cases same : k = j
    · exact .inl same.symm
    · rw [slots, if_neg same] at freeJ
      exact .inr freeJ
  · rw [slots, hm, ite_self]
  · exact (nextTag_taken free).congr (fun m other => by rw [slots, if_neg (Ne.symm other)]) head counter
  · refine (slotAt_fetchBegun c j j plan _ u).trans ((if_pos rfl).trans ?_)
    rw [slotFromPlan, slotFromPlan, locate]
  · exact (slotAt_fetchBegun c j k plan _ u).trans ((if_neg other).trans free)
  · dsimp only
    rw [bus]

/-- The same, settled: the slot is FREE and the context in CLOSING. -/
theorem settled_closes {u : State} {c : Fin 6} {x : PullContext} {g : Grid} {r : OutputRecord} {ends : List Settled}
    (looped : u.bi.looped = []) (hg : x.grid = some g) (hr : x.record = some r) (hends : ends = segmentEnds u x.depth g r x.cursor)
    (all : ends.all Settled.unfetched = true) (k : Fin 8) :
    ∃ n, slotAt (settle (nextSegment c (slotFreed k (setCtx c (some x) u)))) k = none
      ∧ ctxAt (settle (nextSegment c (slotFreed k (setCtx c (some x) u)))) c
        = some (enterClosing { x with cursor := n, counts := ends.foldl countEnd x.counts }) := by
  obtain ⟨n, hn⟩ := nextSegment_afterFetch_closes (s := u) (c := c) hg hr hends all k
  have quiet : ∀ z, (slotFreed k (setCtx c z u)).bi.looped = [] := fun z => by rw [slotFreed_looped, setCtx_bi, looped]
  refine ⟨n, ?_, ?_⟩
  · rw [hn, slotAt_settle (quiet _), slotAt_slotFreed, if_pos rfl]
  · rw [hn, ctxAt_settle (quiet _), ctxAt_slotFreed, ctxAt_setCtx, if_pos rfl]

/-- The counts after the walk entered CLOSING. -/
theorem closed_counts {x : PullContext} {r : OutputRecord} (hr : x.record = some r) {i : Fin 12} (h : x.counts.get i ≤ 255)
    (ends : List Settled) (n : Nat) :
    (enterClosing { x with cursor := n, counts := ends.foldl countEnd x.counts }).counts.get i
      = min 255 (x.counts.get i + ends.countP (Settled.countsAt i) + if i = SegStatus.untraced.place then r.further else 0) := by
  have passed := countEnds_get h ends
  rw [enterClosing_counts (x := { x with cursor := n, counts := ends.foldl countEnd x.counts }) hr (by rw [passed]; omega)]
  rw [passed]
  omega

/-- The counts of a context whose fetch ended on a DONE. -/
theorem fetchEnded_counts (s : State) (p : Pulling) (payload : List Byte) (y : PullContext) (st : SegStatus) (i : Fin 12) :
    (fetchEnded st (PullContext.takeDone s p payload y)).counts.get i
      = min 255 (min 255 (y.counts.get i + natAt payload (2 + i.val) 1) + if i = st.place then 1 else 0) := by
  show (addCount st _).counts.get i = _
  rw [addCount_counts, takeDone_counts]
  split <;> omega

/-- What a context whose fetch ended on a DONE keeps, and its first error. -/
theorem fetchEnded_takeDone (s : State) (p : Pulling) (payload : List Byte) (y : PullContext) (st : SegStatus) :
    ∃ counts, fetchEnded st (PullContext.takeDone s p payload y) = { y with
      slot := none
      fetch := none
      counts := counts
      firstError := errorTaken (errorTaken y.firstError (doneFault s p payload y))
        (.ofBytes (byteAt payload 14) (byteAt payload 15) (byteAt payload 16)) } := by
  rw [takeDone_eq]
  exact ⟨_, rfl⟩

/-- Settles O50: a DONE by the phase of its slot, and by what its next segments come to. -/
theorem doneEndsTheFetch : Obligations.DoneEndsTheFetch := by
  unfold Obligations.DoneEndsTheFetch
  refine fun f s passes looped => ⟨fun none => ?noSlot, fun k x held hx waiting => ⟨fun left hp => ?draining,
    fun p c y g r st hp hc hy hg hr hst => ?pulling⟩⟩
  case noSlot =>
    rw [show exec (.done f) s = _ from frame_handed_over (kind := .done) passes, handOver, takeDone,
      (slotFor_congr (heard_pe f s) _ _).trans none]
  case draining =>
    have quiet : (slotFreed k (heard f s)).bi.looped = [] := by rw [slotFreed_looped, heard_looped, looped]
    refine ⟨_, exec_done_draining passes held hx waiting hp, ?_, ?_⟩
    · rw [slotAt_settle quiet, slotAt_slotFreed, if_pos rfl]
    · rw [settle_pe quiet, slotFreed_contexts, heard_pe]
  case pulling =>
    have ran := exec_done_pulling passes held hx waiting hp hc hy
    rw [asSegment_of hst] at ran
    obtain ⟨sums, ended⟩ := fetchEnded_takeDone s p f.payload y st
    have counts := fetchEnded_counts s p f.payload y st
    have error := doneError_eq s p f.payload y
    rw [ended] at ran counts
    generalize he : ({ y with slot := none, fetch := none, counts := sums, firstError := _ } : PullContext) = e at ran counts
    have grid : e.grid = some g := by rw [← he]; exact hg
    have record : e.record = some r := by rw [← he]; exact hr
    have phase : e.phase = y.phase := by rw [← he]
    have relay : e.relay = y.relay := by rw [← he]
    have noSlot : e.slot = none := by rw [← he]
    have noFetch : e.fetch = none := by rw [← he]
    have cursor : e.cursor = y.cursor := by rw [← he]
    have firstError : e.firstError = _ := (congrArg PullContext.firstError he).symm.trans error
    have limit : ∀ i, e.counts.get i ≤ 255 := fun i => by rw [counts]; omega
    have quiet : (heard f s).bi.looped = [] := by rw [heard_looped, looped]
    have listed : segmentEnds (heard f s) e.depth g r e.cursor = segmentEnds s y.depth g r y.cursor := by
      rw [← he]
      exact segmentEnds_congr (heard_ca f s) (heard_ar f s) ..
    refine ⟨fun last further => ?last, fun ends hends => ⟨fun all => ?closing, fun before plan after split all => ?fetch⟩⟩
    case last =>
      obtain ⟨n, free, context⟩ := settled_closes (c := c) quiet grid record ((segmentEnds_nil last).symm.trans listed.symm) rfl k
      have sum := fun i => closed_counts record (limit i) [] n
      refine ⟨_, _, ran, free, context, rfl, noSlot, relay, firstError, fun i => ?_⟩
      rw [sum, counts, List.countP_nil, further, ite_self]
      omega
    case closing =>
      obtain ⟨n, free, context⟩ := settled_closes (c := c) quiet grid record (hends.trans listed.symm) all k
      have sum := fun i => closed_counts record (limit i) ends n
      refine ⟨_, _, ran, free, context, rfl, noSlot, noFetch, relay, fun i => ?_⟩
      rw [sum, counts]
      omega
    case fetch =>
      obtain ⟨j, tag, t, ht, context, which, least, lowest, taken, slot, other, counter, bus⟩ :=
        nextSegment_afterFetch_fetches (s := heard f s) (c := c) (before := before) (after := after) (plan := plan) grid record
          (listed.trans (hends.symm.trans split)) all (by rw [heard_node]; exact node_ne_zero_of_passes passes (by decide)) k
      have quietT : t.bi.looped = [] := by rw [bus, Bi.offered_looped, slotFreed_looped, heard_looped, looped]
      have slots := slotAt_congr (heard_pe f s)
      have fromPlan : slotFromPlan (heard f s) c tag plan = slotFromPlan s c tag plan := by
        rw [slotFromPlan, slotFromPlan,
          newLocate_congr (heard_tiu f s) (heard_ca f s) (heard_ar f s) (heard_node f s)]
      obtain ⟨queued, waits⟩ := Bi.offered_last (b := (slotFreed k (heard f s)).bi)
        (f := ⟨0, .seek, tag, countedBytes plan.parent, .context, .slot j⟩) rfl rfl
      rw [slotFreed_queue_length, heard_queue] at queued waits
      refine ⟨settle t, _, j, tag, by rw [ran, ht], (ctxAt_settle quietT c).trans context, phase, by rw [← cursor], rfl, rfl, relay,
        which.imp_right (fun h => (slots j).symm.trans h), least, fun m hm => lowest m ((slots m).trans hm),
        taken.congr (fun m _ => slots m) (by rw [heard_ru]) (by rw [heard_pe]), ?_, fun apart => ?_, ?_, fun room => ?_, fun full => ?_,
        fun i => ?_⟩
      · rw [slotAt_settle quietT, slot, fromPlan]
      · rw [slotAt_settle quietT, other apart]
      · rw [settle_pe quietT, counter]
      · rw [settle_bi quietT, bus, queued room]
      · rw [settle_bi quietT, bus, waits full]
      · dsimp only
        rw [countEnds_get (limit i), counts]
        omega

end Sys2Proof.Machine
end

section
/-! PROOF. O52 and O56: a context ended by STOP or its pause limit, and a fetch stopped by silence. -/

namespace Sys2Proof.Machine

/-! ### A fetch stopped (R152, R177) -/

/-- The STOP of a slot to its owner. -/
def stopFrame (k : Fin 8) (x : FetchSlot) : OutFrame := ⟨x.owner.getD 0, .stop, x.tag, [], .context, .slot k⟩

/-- The state with a slot DRAINING without a context, its waiting offers withdrawn. -/
def slotStopped (k : Fin 8) (x : FetchSlot) (s : State) : State :=
  setSlot k (some { x with context := none, phase := .draining none }) (withdraw (fun f => f.owner == .slot k) s)

theorem stopSlot_of {s : State} {k : Fin 8} {x : FetchSlot} (hx : slotAt s k = some x) :
    stopSlot k s = send (stopFrame k x) (slotStopped k x s) := by
  rw [stopSlot, hx]
  rfl

theorem stopSlot_of_node {s : State} {k : Fin 8} {x : FetchSlot} (hx : slotAt s k = some x) (node : s.bi.node ≠ 0)
    (other : x.owner.getD 0 ≠ s.bi.node) :
    stopSlot k s = { slotStopped k x s with bi := (slotStopped k x s).bi.offered (stopFrame k x) } := by
  rw [stopSlot_of hx]
  exact send_of_other (s := slotStopped k x s) node other

theorem slotAt_slotStopped (k : Fin 8) (x : FetchSlot) (s : State) :
    slotAt (slotStopped k x s) k = some { x with context := none, phase := .draining none } :=
  (slotAt_setSlot k k _ _).trans (if_pos rfl)

/-- Another count of a context that enters CLOSING stands (R145). -/
theorem enterClosing_counts_other {x : PullContext} {i : Fin 12} (h : i ≠ SegStatus.untraced.place) :
    (enterClosing x).counts.get i = x.counts.get i := by
  have apart : ¬ SegStatus.untraced.place.val = i.val := fun g => h (Fin.ext g.symm)
  unfold enterClosing
  simp only [Vector.get_eq_getElem, Vector.getElem_set, if_neg apart]

/-- With no segment left a context enters CLOSING (R145). -/
theorem nextSegment_of_last {s : State} {c : Fin 6} {x : PullContext} {g : Grid} {r : OutputRecord} (hx : ctxAt s c = some x)
    (hg : x.grid = some g) (hr : x.record = some r) (last : r.segments.length ≤ x.cursor) :
    ∃ n, nextSegment c s = setCtx c (some (enterClosing { x with cursor := n })) s := by
  have none : segmentEnds s x.depth g r x.cursor = [] := segmentEnds_nil last
  obtain ⟨n, hn⟩ := nextSegment_closes hx hg hr (by rw [none]; rfl)
  rw [none] at hn
  exact ⟨n, hn⟩

/-- Settles O56: the silence of a PULLING fetch, and the end of a DRAINING slot. -/
theorem silenceStopsAndDrainingFreesTheSlot : Obligations.SilenceStopsAndDrainingFreesTheSlot := by
  unfold Obligations.SilenceStopsAndDrainingFreesTheSlot
  refine fun s k x hx looped => ⟨fun p began c y g r hp silence hc hy hg hr last node other => ?silence, fun left hp waiting => ?drain⟩
  case silence =>
    have since : silenceBegan s k = some began := by
      rw [silenceBegan, hx]
      dsimp only
      rw [hp]
      exact silence
    have stopped := stopSlot_of_node (s := advanceTo (began + silenceTime) s) hx node other
    obtain ⟨n, closed⟩ := nextSegment_of_last (s := setCtx c (some (fetchEnded .timeout y)) (stopSlot k (advanceTo (began + silenceTime) s)))
      (c := c) (x := fetchEnded .timeout y) (by rw [ctxAt_setCtx, if_pos rfl]) hg hr last
    have ran : exec (.silenceTimeout k) s
        = .next (settle (setCtx c (some (enterClosing { fetchEnded .timeout y with cursor := n })) (stopSlot k (advanceTo (began + silenceTime) s)))) := by
      rw [exec_silenceTimeout, execSilenceTimeout, since, hx]
      dsimp only
      rw [hc]
      dsimp only
      rw [onCtx_of (s := stopSlot k (advanceTo (began + silenceTime) s)) (x := y) (by rw [stopped]; exact hy)]
      refine congrArg (fun u => Host.Outcome.next (settle u)) (closed.trans ?_)
      rw [setCtx_setCtx]
    have quiet : (setCtx c (some (enterClosing { fetchEnded .timeout y with cursor := n }))
        (stopSlot k (advanceTo (began + silenceTime) s))).bi.looped = [] := by
      rw [setCtx_bi, stopped]
      exact (Bi.offered_looped _ _).trans looped
    refine ⟨_, _, ran, ?_, ?_, fun room => ?_, (ctxAt_settle quiet c).trans ((ctxAt_setCtx c c _ _).trans (if_pos rfl)), rfl, rfl, ?_⟩
    · rw [(settle_move _).now, setCtx_now, stopped]
      rfl
    · rw [slotAt_settle quiet, slotAt_setCtx, stopped]
      exact slotAt_slotStopped k x _
    · rw [settle_bi quiet, setCtx_bi, stopped]
      exact (Bi.offered_last rfl rfl).1 room
    · rw [enterClosing_counts_other (by decide)]
      exact (addCount_counts .timeout y _).trans (if_pos rfl)
  case drain =>
    have since : drainBegan s k = some left := by
      rw [drainBegan, hx]
      dsimp only
      rw [hp]
    have freed := freeSlot_of_noneWaiting (s := advanceTo (left + drainTime) s) waiting k
    have quiet : (slotFreed k (advanceTo (left + drainTime) s)).bi.looped = [] := looped
    refine ⟨settle (slotFreed k (advanceTo (left + drainTime) s)), ?_, ?_, ?_, ?_⟩
    · rw [exec_drainTimeout, execDrainTimeout, since]
      dsimp only
      rw [freed]
    · rw [(settle_move _).now]
      rfl
    · rw [slotAt_settle quiet, slotAt_slotFreed, if_pos rfl]
    · rw [settle_pe quiet]
      rfl

/-! ### A context ended (R155, R156) -/

/-- The DONE that ends a context. -/
def lastDone (x : PullContext) (st : DoneStatus) : OutFrame :=
  ⟨x.requester, .done, x.tag, donePayload st x.level x.counts x.firstError, .context, .nobody⟩

/-- A context's reads and its place in the fetch-wait queue let go. -/
def contextLetGo (c : Fin 6) (s : State) : State := dropReads c { s with pe.waiting := s.pe.waiting.filter (fun d => d != c) }

/-- The state with a context freed after its fetch was stopped and its DONE offered. -/
def contextFreed (c : Fin 6) (x : PullContext) (st : DoneStatus) (s : State) : State :=
  freeCtxNow c (send (lastDone x st) (stopFetch c (contextLetGo c s)))

theorem endContext_eq {s : State} {c : Fin 6} {x : PullContext} (hx : ctxAt s c = some x) (st : DoneStatus) :
    endContext c st s = if x.pin.isSome then reclaimMoment (contextFreed c x st s) else contextFreed c x st s := by
  rw [endContext, hx]
  rfl

theorem contextFreed_endContext {s : State} {c : Fin 6} {x : PullContext} (hx : ctxAt s c = some x) (st : DoneStatus) :
    ArchiveMove (contextFreed c x st s) (endContext c st s) := by
  rw [endContext_eq hx]
  split
  · exact reclaimMoment_move _
  · exact .refl _

/-- A moment of reclaim choice takes reads from the read queue alone (R77). -/
theorem reclaimMoment_readQueue {s : State} {r : ReadRequest} (h : r ∈ (reclaimMoment s).ar.readQueue) : r ∈ s.ar.readQueue := by
  have fails : ∀ n (u : State), r ∈ (failAmendRead n u).ar.readQueue → r ∈ u.ar.readQueue := fun n u hu => by
    unfold failAmendRead at hu
    split at hu
    · dsimp only at hu
      split at hu <;> exact List.mem_of_mem_filter hu
    · exact hu
  unfold reclaimMoment at h
  split at h
  · split at h
    · unfold chooseSegment at h
      have kept := fails _ _ h
      exact kept
    · exact h
  · exact h

/-- Frames of other blocks stay as they are when a block is gone (R190). -/
theorem orphan_queue_tail {s : State} {o : FrameOwner} {queue tail : List OutFrame} (h : s.bi.queue = queue ++ tail)
    (other : ∀ f ∈ tail, f.owner ≠ o) : (orphan o s).bi.queue.drop queue.length = tail := by
  have kept : tail.map (fun g => if g.owner = o then { g with owner := .nobody } else g) = tail :=
    (List.map_congr_left (fun g hg => if_neg (other g hg))).trans (List.map_id _)
  show (s.bi.queue.map _).drop queue.length = tail
  rw [h, List.map_append, kept]
  exact List.drop_left' (List.length_map _)

theorem orphan_queue_length (o : FrameOwner) (s : State) : (orphan o s).bi.queue.length = s.bi.queue.length := List.length_map _

/-- The DONE goes behind what stands in the queue, or is dropped (R191). -/
theorem lastDone_offered (x : PullContext) (st : DoneStatus) (b : Bi) :
    (b.queue.length < 32 → b.offered (lastDone x st) = { b with queue := b.queue ++ [lastDone x st] })
      ∧ (32 ≤ b.queue.length → b.offered (lastDone x st) = b) :=
  ⟨fun room => Bi.offered_of_room (by rw [enters_context rfl]; exact decide_eq_true room),
    fun full => Bi.offered_of_dropped (by rw [enters_context rfl]; exact decide_eq_false (by omega)) rfl⟩

/-- What a context ended leaves of the pull engine and of the bus (R155): its contexts, slots and waiting list, and its queue. -/
theorem endContext_leaves {s : State} {c : Fin 6} {x : PullContext} (hx : ctxAt s c = some x) (st : DoneStatus) {u : State}
    (hu : stopFetch c (contextLetGo c s) = u) :
    ctxAt (endContext c st s) c = none ∧ (∀ d, d ≠ c → ctxAt (endContext c st s) d = ctxAt u d)
      ∧ (∀ k, slotAt (endContext c st s) k = slotAt u k) ∧ (endContext c st s).pe.waiting = u.pe.waiting
      ∧ (endContext c st s).pe.tagCounter = u.pe.tagCounter
      ∧ (u.bi.node ≠ 0 → x.requester ≠ u.bi.node →
          (endContext c st s).bi = (orphan (.context c) { u with bi := u.bi.offered (lastDone x st) }).bi)
      ∧ (∀ r ∈ (endContext c st s).ar.readQueue, r ∈ u.ar.readQueue) := by
  have move := contextFreed_endContext hx st
  obtain ⟨b, sent⟩ := send_of_nobody (f := lastDone x st) rfl u
  have freed : contextFreed c x st s = setCtx c none (orphan (.context c) { u with bi := b }) := by
    rw [contextFreed, hu, sent]
    rfl
  have pe := move.pe
  have bi := move.bi
  rw [freed] at pe bi
  refine ⟨?_, fun d other => ?_, fun k => ?_, ?_, ?_, fun node other => ?_, fun r hr => ?_⟩
  · exact (ctxAt_congr pe c).trans ((ctxAt_setCtx c c _ _).trans (if_pos rfl))
  · exact (ctxAt_congr pe d).trans ((ctxAt_setCtx c d _ _).trans (if_neg (Ne.symm other)))
  · exact slotAt_congr pe k
  · rw [pe]; rfl
  · rw [pe]; rfl
  · have offered : b = u.bi.offered (lastDone x st) := congrArg State.bi (sent.symm.trans (send_of_other node other))
    rw [bi, setCtx_bi, offered]
  · rw [endContext_eq hx, freed] at hr
    split at hr
    · exact reclaimMoment_readQueue (s := setCtx c none (orphan (.context c) { u with bi := b })) hr
    · exact hr

/-- A context without a slot has no fetch to stop. -/
theorem stopFetch_of_noSlot {s : State} {c : Fin 6} {x : PullContext} (hx : ctxAt s c = some x) (h : x.slot = none) :
    stopFetch c (contextLetGo c s) = contextLetGo c s := by
  have context : ctxAt (contextLetGo c s) c = some x := hx
  rw [stopFetch, context]
  dsimp only
  rw [h]

/-- A PULLING fetch of a context is stopped. -/
theorem stopFetch_of_pulling {s : State} {c : Fin 6} {x : PullContext} {k : Fin 8} {y : FetchSlot} {p : Pulling} (hx : ctxAt s c = some x)
    (hk : x.slot = some k) (hy : slotAt s k = some y) (hp : y.phase = .pulling p) :
    stopFetch c (contextLetGo c s) = stopSlot k (contextLetGo c s) := by
  have context : ctxAt (contextLetGo c s) c = some x := hx
  have slot : slotAt (contextLetGo c s) k = some y := hy
  rw [stopFetch, context]
  dsimp only
  rw [hk]
  dsimp only
  rw [slot]
  dsimp only
  rw [hp]

/-- A SEEKING fetch of a context frees its slot. -/
theorem stopFetch_of_seeking {s : State} {c : Fin 6} {x : PullContext} {k : Fin 8} {y : FetchSlot} {l : Option Locate}
    (hx : ctxAt s c = some x) (hk : x.slot = some k) (hy : slotAt s k = some y) (hp : y.phase = .seeking l) :
    stopFetch c (contextLetGo c s) = freeSlot k (contextLetGo c s) := by
  have context : ctxAt (contextLetGo c s) c = some x := hx
  have slot : slotAt (contextLetGo c s) k = some y := hy
  rw [stopFetch, context]
  dsimp only
  rw [hk]
  dsimp only
  rw [slot]
  dsimp only
  rw [hp]

/-- STOP and PAUSE_LIMIT end their context. -/
theorem exec_endsContext {s u : State} {c : Fin 6} {x : PullContext} {command : Instr} {result : DoneStatus} (hx : ctxAt s c = some x)
    (h : (∃ f, command = .stop f ∧ Passes .stop f s ∧ ctxFor s (senderOf f) f.tag = some c ∧ result = .stopped ∧ u = heard f s)
      ∨ (∃ began, command = .pauseLimit c ∧ x.paused = some began ∧ result = .abandoned
          ∧ u = { s with now := max s.now (began + 5000000) })) :
    exec command s = .next (settle (endContext c result u)) := by
  rcases h with ⟨f, rfl, passes, found, rfl, rfl⟩ | ⟨began, rfl, paused, rfl, rfl⟩
  · rw [show exec (.stop f) s = _ from frame_handed_over (kind := .stop) passes, handOver, takeStop,
      (ctxFor_congr (heard_pe f s) _ _).trans found]
  · have since : pausedAt s c = some began := (pausedAt_eq_some s c began).2 ⟨x, hx, paused⟩
    rw [exec_pauseLimit, execPauseLimit, since]
    rfl

/-- What such a command's state before the ending has of the state it met. -/
theorem endsContext_met {s u : State} {c : Fin 6} {x : PullContext} {command : Instr} {result : DoneStatus}
    (h : (∃ f, command = .stop f ∧ Passes .stop f s ∧ ctxFor s (senderOf f) f.tag = some c ∧ result = .stopped ∧ u = heard f s)
      ∨ (∃ began, command = .pauseLimit c ∧ x.paused = some began ∧ result = .abandoned
          ∧ u = { s with now := max s.now (began + 5000000) })) :
    u.tiu = s.tiu ∧ u.ca = s.ca ∧ u.cx = s.cx ∧ u.ar = s.ar ∧ u.ru = s.ru ∧ u.pe = s.pe ∧ u.bi.node = s.bi.node
      ∧ u.bi.queue = s.bi.queue := by
  rcases h with ⟨f, _, _, _, _, rfl⟩ | ⟨began, _, _, _, rfl⟩
  · exact ⟨heard_tiu f s, heard_ca f s, heard_cx f s, heard_ar f s, heard_ru f s, heard_pe f s, heard_node f s, heard_queue f s⟩
  · exact ⟨rfl, rfl, rfl, rfl, rfl, rfl, rfl, rfl⟩

/-- A context frame that waits and the DONE behind it, as far as there are places (R191). -/
theorem Bi.offered_thenDone {b : Bi} {f : OutFrame} (cls : f.cls = .context) (waits : f.kind.waits = true) (x : PullContext)
    (st : DoneStatus) :
    (b.queue.length ≤ 30 → (b.offered f).offered (lastDone x st) = { b with queue := b.queue ++ [f, lastDone x st] })
      ∧ (b.queue.length = 31 → (b.offered f).offered (lastDone x st) = { b with queue := b.queue ++ [f] })
      ∧ (32 ≤ b.queue.length → (b.offered f).offered (lastDone x st) = { b with offers := b.offers ++ [f] }) := by
  have room : b.queue.length < 32 → b.offered f = { b with queue := b.queue ++ [f] } := fun h =>
    Bi.offered_of_room (by rw [enters_context cls]; exact decide_eq_true h)
  refine ⟨fun two => ?_, fun one => ?_, fun full => ?_⟩
  · rw [room (by omega), (lastDone_offered x st _).1 (by rw [List.length_append, List.length_singleton]; omega), List.append_assoc]
    rfl
  · rw [room (by omega), (lastDone_offered x st _).2 (by rw [List.length_append, List.length_singleton]; omega)]
  · rw [Bi.offered_of_full (by rw [enters_context cls]; exact decide_eq_false (by omega)) waits]
    exact (lastDone_offered x st { b with offers := b.offers ++ [f] }).2 full

/-- With a PULLING fetch: STOP first, the DONE behind it, as far as there are places (R152, R155, R191). -/
theorem endContext_pulling {s : State} {c : Fin 6} {x : PullContext} {k : Fin 8} {y : FetchSlot} {p : Pulling} (hx : ctxAt s c = some x)
    (hk : x.slot = some k) (hy : slotAt s k = some y) (hp : y.phase = .pulling p) (node : s.bi.node ≠ 0)
    (owner : y.owner.getD 0 ≠ s.bi.node) (requester : x.requester ≠ s.bi.node) (st : DoneStatus) :
    ctxAt (endContext c st s) c = none
      ∧ slotAt (endContext c st s) k = some { y with context := none, phase := .draining none }
      ∧ (s.bi.queue.length ≤ 30 → (endContext c st s).bi.queue.drop s.bi.queue.length = [stopFrame k y, lastDone x st])
      ∧ (s.bi.queue.length = 31 → (endContext c st s).bi.queue.drop 31 = [stopFrame k y])
      ∧ (32 ≤ s.bi.queue.length → (endContext c st s).bi.queue.length = s.bi.queue.length
          ∧ (endContext c st s).bi.offers.getLast? = some (stopFrame k y)) := by
  have stopped := (stopFetch_of_pulling hx hk hy hp).trans (stopSlot_of_node (s := contextLetGo c s) hy node owner)
  obtain ⟨freed, _, slots, _, _, bus, _⟩ := endContext_leaves hx st stopped
  have final := bus ((Bi.offered_node _ _).trans_ne node) (by dsimp only; rw [Bi.offered_node]; exact requester)
  obtain ⟨two, one, none⟩ := Bi.offered_thenDone (b := (slotStopped k y (contextLetGo c s)).bi) (f := stopFrame k y) rfl rfl x st
  refine ⟨freed, (slots k).trans (slotAt_slotStopped k y _), fun h => ?_, fun h => ?_, fun h => ?_⟩
  · rw [final]
    refine orphan_queue_tail (congrArg Bi.queue (two h)) (fun f hf => ?_)
    rcases List.mem_cons.1 hf with rfl | hf
    · exact fun same => FrameOwner.noConfusion same
    · rw [List.mem_singleton.1 hf]
      exact fun same => FrameOwner.noConfusion same
  · rw [final, ← h]
    refine orphan_queue_tail (congrArg Bi.queue (one h)) (fun f hf => ?_)
    rw [List.mem_singleton.1 hf]
    exact fun same => FrameOwner.noConfusion same
  · rw [final]
    refine ⟨(orphan_queue_length _ _).trans (congrArg (fun b => b.queue.length) (none h)), ?_⟩
    exact (congrArg (fun b => b.offers.getLast?) (none h)).trans List.getLast?_concat

/-- A context's wait for a slot that was freed is over: it takes the slot and a tag, its SEEK goes first, the DONE behind (R146). -/
theorem endContext_seeking {s : State} {c : Fin 6} {x : PullContext} {k : Fin 8} {y : FetchSlot} {l : Option Locate}
    {waiting : List (Fin 6)} (hx : ctxAt s c = some x) (hk : x.slot = some k) (hy : slotAt s k = some y) (hp : y.phase = .seeking l)
    (node : s.bi.node ≠ 0) (requester : x.requester ≠ s.bi.node) (hw : waiting = s.pe.waiting.filter (fun d => d != c)) (st : DoneStatus) :
    ctxAt (endContext c st s) c = none
      ∧ (waiting = [] → slotAt (endContext c st s) k = none ∧ (endContext c st s).pe.waiting = []
          ∧ (∀ d, d ≠ c → ctxAt (endContext c st s) d = ctxAt s d)
          ∧ (s.bi.queue.length < 32 → (endContext c st s).bi.queue.drop s.bi.queue.length = [lastDone x st]))
      ∧ ∀ d rest w next, waiting = d :: rest → ctxAt s d = some w → w.fetch = some next →
          ∃ tag, TagTaken s k tag ∧ slotAt (endContext c st s) k = some (slotFromPlan s d tag next)
            ∧ ctxAt (endContext c st s) d = some { w with slot := some k }
            ∧ (endContext c st s).pe.waiting = rest ∧ (endContext c st s).pe.tagCounter = tag + 1
            ∧ (s.bi.queue.length ≤ 30 → (endContext c st s).bi.queue.drop s.bi.queue.length
                = [⟨0, .seek, tag, countedBytes next.parent, .context, .slot k⟩, lastDone x st]) := by
  have stopped := stopFetch_of_seeking hx hk hy hp
  have left : (contextLetGo c s).pe.waiting = waiting := hw.symm
  have length : (slotFreed k (contextLetGo c s)).bi.queue.length = s.bi.queue.length := slotFreed_queue_length k _
  refine ⟨(endContext_leaves hx st stopped).1, fun none => ?_, fun d rest w next hd hwd hnext => ?_⟩
  · rw [freeSlot_of_noneWaiting (left.trans none)] at stopped
    obtain ⟨_, others, slots, waits, _, bus, _⟩ := endContext_leaves hx st stopped
    refine ⟨(slots k).trans (by rw [slotAt_slotFreed, if_pos rfl]), waits.trans (left.trans none), others, fun room => ?_⟩
    rw [bus node requester, ← length]
    refine orphan_queue_tail (congrArg Bi.queue ((lastDone_offered x st _).1 (by rw [length]; exact room))) (fun f hf => ?_)
    rw [List.mem_singleton.1 hf]
    exact fun same => FrameOwner.noConfusion same
  · have other : d ≠ c := by
      have member : d ∈ waiting := by rw [hd]; exact List.mem_cons_self
      rw [hw] at member
      exact bne_iff_ne.1 (List.mem_filter.1 member).2
    have began := beginFetch_of_node (s := { slotFreed k (contextLetGo c s) with pe.waiting := rest }) (c := d) hwd node k next
    rw [freeSlot_of_waiting (s := contextLetGo c s) (left.trans hd) hwd hnext, began] at stopped
    obtain ⟨_, others, slots, waits, counter, bus, _⟩ := endContext_leaves hx st stopped
    obtain ⟨two, _, _⟩ := Bi.offered_thenDone (b := (slotFreed k (contextLetGo c s)).bi)
      (f := ⟨0, .seek, nextTag { slotFreed k (contextLetGo c s) with pe.waiting := rest }, countedBytes next.parent, .context, .slot k⟩)
      rfl rfl x st
    have locate : newLocate { slotFreed k (contextLetGo c s) with pe.waiting := rest } next.parent = newLocate s next.parent := rfl
    have free : slotAt { slotFreed k (contextLetGo c s) with pe.waiting := rest } k = none :=
      (slotAt_slotFreed k k _).trans (if_pos rfl)
    refine ⟨nextTag { slotFreed k (contextLetGo c s) with pe.waiting := rest }, ?_, ?_, ?_, waits, counter, fun h => ?_⟩
    · refine (nextTag_taken free).congr (fun m apart => ?_) rfl rfl
      exact (slotAt_slotFreed k m _).trans (if_neg (Ne.symm apart))
    · refine (slots k).trans ((slotAt_fetchBegun d k k next w _).trans ((if_pos rfl).trans ?_))
      rw [slotFromPlan, slotFromPlan, locate]
    · refine (others d other).trans ((ctxAt_fetchBegun d d k next w _).trans ((if_pos rfl).trans ?_))
      rw [← hnext]
    · rw [bus ((Bi.offered_node _ _).trans_ne node) (by dsimp only; rw [Bi.offered_node]; exact requester), ← length]
      refine orphan_queue_tail (congrArg Bi.queue (two (by rw [length]; exact h))) (fun f hf => ?_)
      rcases List.mem_cons.1 hf with rfl | hf
      · exact fun same => FrameOwner.noConfusion same
      · rw [List.mem_singleton.1 hf]
        exact fun same => FrameOwner.noConfusion same

/-- Settles O52: the commands that end a context, and its ending by the phase of its fetch. -/
theorem stopAndPauseLimitEndTheContext : Obligations.StopAndPauseLimitEndTheContext := by
  unfold Obligations.StopAndPauseLimitEndTheContext
  intro s u c x command result hx h
  obtain ⟨tiu, ca, cx, ar, ru, pe, node, queue⟩ := endsContext_met h
  have context : ctxAt u c = some x := (ctxAt_congr pe c).trans hx
  have move := endContext_move c result u
  refine ⟨endContext c result u, exec_endsContext hx h, move.now, move.ca.trans ca, move.cx.trans cx, move.tiu.trans tiu,
    fun noSlot => ?noSlot, fun k y p hk hy hp nonzero owner requester stop done hstop hdone => ?pulling,
    fun k y l waiting done hk hy hp nonzero requester hw hdone => ?seeking⟩
  case noSlot =>
    obtain ⟨freed, others, _, waits, _, bus, reads⟩ := endContext_leaves context result (stopFetch_of_noSlot context noSlot)
    refine ⟨freed, fun d other => (others d other).trans (ctxAt_congr pe d), fun r hr => ?_, ?_, fun nonzero requester room => ?_⟩
    · have kept := (List.mem_filter.1 (reads r hr)).2
      simpa only [Bool.not_eq_true', Bool.or_eq_false_iff, beq_eq_false_iff_ne, ne_eq] using kept
    · rw [waits]
      exact fun member => bne_self_eq_false c ▸ (List.mem_filter.1 member).2 |> Bool.false_ne_true
    · have nodeU : (contextLetGo c u).bi.node = s.bi.node := node
      have length : (contextLetGo c u).bi.queue.length = s.bi.queue.length := congrArg List.length queue
      have tail := orphan_queue_tail (s := { contextLetGo c u with bi := (contextLetGo c u).bi.offered (lastDone x result) })
        (o := .context c) (queue := (contextLetGo c u).bi.queue) (tail := [lastDone x result])
        (congrArg Bi.queue ((lastDone_offered x result (contextLetGo c u).bi).1 (by rw [length]; exact room)))
        (fun f hf => by rw [List.mem_singleton.1 hf]; exact fun same => FrameOwner.noConfusion same)
      rw [bus (by rw [nodeU]; exact nonzero) (by rw [nodeU]; exact requester)]
      exact List.getLast?_eq_some_iff.2 ⟨_, ((List.take_append_drop _ _).symm.trans (congrArg (_ ++ ·) tail))⟩
  case pulling =>
    subst hstop hdone
    have ended := endContext_pulling context hk ((slotAt_congr pe k).trans hy) hp (by rw [node]; exact nonzero)
      (by rw [node]; exact owner) (by rw [node]; exact requester) result
    rw [queue] at ended
    exact ended
  case seeking =>
    subst hdone
    obtain ⟨freed, alone, taken⟩ := endContext_seeking context hk ((slotAt_congr pe k).trans hy) hp (by rw [node]; exact nonzero)
      (by rw [node]; exact requester) (hw.trans (by rw [pe])) result
    rw [queue] at alone taken
    refine ⟨freed, fun none => ?_, fun d rest w next hd hwd hnext => ?_⟩
    · obtain ⟨free, nobody, others, tail⟩ := alone none
      exact ⟨free, nobody, fun d other => (others d other).trans (ctxAt_congr pe d), tail⟩
    · obtain ⟨tag, fresh, slot, holder, waits, counter, tail⟩ := taken d rest w next hd ((ctxAt_congr pe d).trans hwd) hnext
      refine ⟨tag, fresh.congr (fun m _ => slotAt_congr pe m) (by rw [ru]) (by rw [pe]), slot.trans ?_, holder, waits, counter, tail⟩
      rw [slotFromPlan, slotFromPlan, newLocate_congr tiu ca ar node]

end Sys2Proof.Machine
end

section
/-! PROOF. O54 and O55: the head task ended by a KEPT or by its window, and the outcomes of a locate. -/

namespace Sys2Proof.Machine

/-! ### The source of a task marked PARTIAL (R94, R98) -/

theorem isTriple_iff (k : KeepEntry) (id : CoilId) (node : Node) (number : Nat) :
    k.isTriple id node number = true ↔ k.id = id ∧ k.node = node ∧ k.number = number := by
  rw [KeepEntry.isTriple, Bool.and_eq_true, Bool.and_eq_true, beq_iff_eq, beq_iff_eq, beq_iff_eq, and_assoc]

/-- The keep list with the entries of a triple PARTIAL. -/
def markTriple (id : CoilId) (node : Node) (number : Nat) (keeps : List KeepEntry) : List KeepEntry :=
  keeps.map (fun k => if k.id = id ∧ k.node = node ∧ k.number = number then { k with keptPartial := true } else k)

theorem keepChanged_move' (s : State) : ArchiveMove { s with ar.keepReady := true } (keepChanged s) := reclaimMoment_move _

/-- Marking PARTIAL leaves tasks, head and bus. -/
theorem markPartial_keeps (id : CoilId) (node : Node) (number : Nat) (s : State) :
    (markPartial id node number s).ru.keeps = markTriple id node number s.ru.keeps
      ∧ (markPartial id node number s).ru.tasks = s.ru.tasks ∧ (markPartial id node number s).ru.head = s.ru.head
      ∧ (markPartial id node number s).bi = s.bi := by
  have marked : s.ru.keeps.map (fun k => if k.isTriple id node number then { k with keptPartial := true } else k)
      = markTriple id node number s.ru.keeps := by
    simp only [isTriple_iff, markTriple]
  unfold markPartial
  split
  · have move := keepChanged_move' { s with
      ru.keeps := s.ru.keeps.map (fun k => if k.isTriple id node number then { k with keptPartial := true } else k) }
    exact ⟨move.keeps.trans marked, move.tasks, move.head, move.bi⟩
  · rename_i none
    refine ⟨?_, rfl, rfl, rfl⟩
    rw [← marked]
    refine ((List.map_congr_left (fun k hk => ?_)).trans (List.map_id _)).symm
    split
    · rename_i triple
      have held : k.keptPartial = true := by
        by_contra fresh
        exact none (List.any_eq_true.2 ⟨k, hk, by rw [triple, Bool.eq_false_iff.2 fresh]; rfl⟩)
      exact congrArg (fun b => (⟨k.id, k.node, k.number, b⟩ : KeepEntry)) held.symm
    · rfl

/-! ### The end of the head task (R98) -/

/-- The last task's end leaves no task and no head. -/
theorem endTask_last {s : State} {task : Task} (h : s.ru.tasks = [task]) :
    ∃ b, endTask s = { s with bi := b, ru := { s.ru with tasks := [], head := none } } ∧ b.looped = s.bi.looped := by
  have rest : s.ru.tasks.drop 1 = [] := by rw [h]; rfl
  refine ⟨(orphan .task (withdraw (fun f => f.owner == .task) s)).bi, ?_, rfl⟩
  show startHead { orphan .task (withdraw (fun f => f.owner == .task) s) with
    ru.tasks := s.ru.tasks.drop 1, ru.head := none } = _
  rw [rest]
  rfl

/-- The keep list once a task of a kind failed: a KEEP task's source is PARTIAL (R98). -/
def keepsAfterFailure (task : Task) (keeps : List KeepEntry) : List KeepEntry :=
  match task.kind with
  | .keep => markTriple task.source task.node task.number keeps
  | .unkeep => keeps

/-- The last task's failure. -/
theorem failTask_last {s : State} {task : Task} (h : s.ru.tasks = [task]) :
    (failTask s).ru.tasks = [] ∧ (failTask s).ru.head = none ∧ (failTask s).ru.keeps = keepsAfterFailure task s.ru.keeps
      ∧ (failTask s).bi.looped = s.bi.looped := by
  rw [failTask, h]
  dsimp only
  unfold keepsAfterFailure
  cases task.kind with
  | keep =>
    obtain ⟨keeps, tasks, _, bus⟩ := markPartial_keeps task.source task.node task.number s
    obtain ⟨b, ended, looped⟩ := endTask_last (s := markPartial task.source task.node task.number s) (tasks.trans h)
    rw [ended]
    exact ⟨rfl, rfl, keeps, looped.trans (congrArg Bi.looped bus)⟩
  | unkeep =>
    obtain ⟨b, ended, looped⟩ := endTask_last h
    rw [ended]
    exact ⟨rfl, rfl, rfl, looped⟩

theorem keepsAfterFailure_cases (task : Task) (keeps : List KeepEntry) :
    (task.kind = .unkeep → keepsAfterFailure task keeps = keeps)
      ∧ (task.kind = .keep → keepsAfterFailure task keeps = keeps.map (fun k =>
          if k.id = task.source ∧ k.node = task.node ∧ k.number = task.number then { k with keptPartial := true } else k)) := by
  unfold keepsAfterFailure
  exact ⟨fun h => by rw [h], fun h => by rw [h]; rfl⟩

/-- The last task's failure, settled. -/
theorem settle_failTask {s : State} {task : Task} (h : s.ru.tasks = [task]) (looped : s.bi.looped = []) :
    (settle (failTask s)).ru.tasks = [] ∧ (settle (failTask s)).ru.head = none
      ∧ (settle (failTask s)).ru.keeps = keepsAfterFailure task s.ru.keeps ∧ (settle (failTask s)).now = s.now := by
  obtain ⟨tasks, head, keeps, bus⟩ := failTask_last h
  have move := settleArchive_move (failTask s)
  rw [← settle_eq (bus.trans looped)] at move
  exact ⟨move.tasks.trans tasks, move.head.trans head, move.keeps.trans keeps, move.now.trans (failTask_move s).now⟩

/-- A KEPT is the head task's by its source, tag and parent ID (R97). -/
theorem takeKept_of {s : State} {h : TaskHead} {task : Task} {rest : List Task} {owner : Node} {began : Option Nat}
    (head : s.ru.head = some h) (tasks : s.ru.tasks = task :: rest) (phase : h.phase = .awaiting owner began) (src : Node) (tag : Tag)
    (payload : List Byte) : takeKept src tag payload s
      = if owner = src ∧ h.tag = tag ∧ countedId (payload.take 17) = some task.parent then
          if byteAt payload 17 = 0 then endTask s else failTask s
        else s := by
  rw [takeKept, head, tasks]
  dsimp only
  rw [phase]
  rfl

/-- Settles O54: the KEPT that is the task's and one that is not, and the reply window. -/
theorem keptOrExpiryEndsTheTask : Obligations.KeptOrExpiryEndsTheTask := by
  unfold Obligations.KeptOrExpiryEndsTheTask
  refine fun s h task owner began head tasks phase looped => ⟨fun f passes => ⟨fun source tag parent => ?kept, fun other => ?other⟩,
    fun moment hm => ?expiry⟩
  case kept =>
    have taken := takeKept_of (s := heard f s) (by rw [heard_ru, head]) (by rw [heard_ru, tasks]) phase (senderOf f) f.tag f.payload
    rw [if_pos ⟨source, tag, parent⟩] at taken
    have ran : exec (.kept f) s = _ := frame_handed_over (kind := .kept) passes
    rw [handOver, taken] at ran
    have last : (heard f s).ru.tasks = [task] := by rw [heard_ru, tasks]
    have quiet : (heard f s).bi.looped = [] := by rw [heard_looped, looped]
    by_cases ok : byteAt f.payload 17 = 0
    · rw [if_pos ok] at ran
      obtain ⟨b, ended, same⟩ := endTask_last last
      rw [ended] at ran
      refine ⟨_, ran, ?_⟩
      rw [settle_eq (s := { heard f s with bi := b, ru := { (heard f s).ru with tasks := [], head := none } }) (same.trans quiet),
        (settleArchive_move _).tasks, (settleArchive_move _).head, (settleArchive_move _).keeps]
      refine ⟨rfl, rfl, fun _ => ?_, fun failed => absurd ok failed⟩
      show (heard f s).ru.keeps = s.ru.keeps
      rw [heard_ru]
    · rw [if_neg ok] at ran
      obtain ⟨none, noHead, keeps, _⟩ := settle_failTask last quiet
      rw [heard_ru] at keeps
      obtain ⟨unkeep, keep⟩ := keepsAfterFailure_cases task s.ru.keeps
      exact ⟨_, ran, none, noHead, fun h => keeps.trans (unkeep (h.resolve_left ok)), fun _ kind => keeps.trans (keep kind)⟩
  case other =>
    rw [show exec (.kept f) s = _ from frame_handed_over (kind := .kept) passes, handOver,
      takeKept_of (s := heard f s) (by rw [heard_ru, head]) (by rw [heard_ru, tasks]) phase, if_neg (by tauto)]
  case expiry =>
    have since : replyBegan s = some moment := by
      rw [replyBegan, head]
      dsimp only
      rw [phase]
      exact hm
    obtain ⟨none, noHead, keeps, now⟩ := settle_failTask (s := advanceTo (moment + replyWindow) s) tasks looped
    obtain ⟨unkeep, keep⟩ := keepsAfterFailure_cases task s.ru.keeps
    refine ⟨_, ?_, now, none, noHead, fun kind => keeps.trans (unkeep kind), fun kind => keeps.trans (keep kind)⟩
    rw [exec_replyWindowExpiry, execReplyWindowExpiry, since]

/-! ### The outcome of a locate (R136) -/

/-- The answers that are not EXPIRED. -/
theorem live_eq {l : Locate} {live : List OwnAnswer} (h : live = l.answers.filter (fun a => a.status ≠ .expired)) :
    l.answers.filter (fun a => a.status != .expired) = live := by
  rw [h]
  refine List.filter_congr (fun a _ => ?_)
  cases a.status <;> rfl

/-! ### A context that waited takes a slot that another fetch left (R146, R147) -/

/-- The segments up to the first that is fetched. -/
theorem exists_first_fetch {ends : List Settled} (h : ¬ ends.all Settled.unfetched = true) :
    ∃ before plan after, ends = before ++ .fetch plan :: after ∧ before.all Settled.unfetched = true := by
  induction ends with
  | nil => exact absurd rfl h
  | cons e ends ih =>
    rw [List.all_cons, Bool.and_eq_true, not_and] at h
    cases e with
    | fetch plan => exact ⟨[], plan, ends, rfl, rfl⟩
    | skipped =>
      obtain ⟨before, plan, after, split, all⟩ := ih (h rfl)
      exact ⟨.skipped :: before, plan, after, by rw [split, List.cons_append], by rw [List.all_cons, all]; rfl⟩
    | status st =>
      obtain ⟨before, plan, after, split, all⟩ := ih (h rfl)
      exact ⟨.status st :: before, plan, after, by rw [split, List.cons_append], by rw [List.all_cons, all]; rfl⟩

/-- With no slot FREE the context joins the fetch-wait queue with its plan (R146). -/
theorem takeSlot_of_full {s : State} {c : Fin 6} {x : PullContext} (hx : ctxAt s c = some x) (full : ∀ m, slotAt s m ≠ none)
    (plan : FetchPlan) : takeSlot c plan s
      = setCtx c (some { x with fetch := some plan }) { s with pe.waiting := s.pe.waiting ++ [c] } := by
  rw [takeSlot, freeSlotNum_none full]
  exact onCtx_of (s := { s with pe.waiting := s.pe.waiting ++ [c] }) hx _

/-- Beginning the next segment leaves the other contexts and the slots that were taken. -/
theorem nextSegment_beside {s : State} {c : Fin 6} {x : PullContext} {g : Grid} {r : OutputRecord} (hx : ctxAt s c = some x)
    (hg : x.grid = some g) (hr : x.record = some r) (node : s.bi.node ≠ 0) :
    (∃ z, ctxAt (nextSegment c s) c = some z) ∧ (∀ d, d ≠ c → ctxAt (nextSegment c s) d = ctxAt s d)
      ∧ (∀ k, slotAt s k ≠ none → slotAt (nextSegment c s) k = slotAt s k) ∧ (nextSegment c s).bi.looped = s.bi.looped := by
  by_cases all : (segmentEnds s x.depth g r x.cursor).all Settled.unfetched = true
  · obtain ⟨n, hn⟩ := nextSegment_closes hx hg hr all
    rw [hn]
    exact ⟨⟨_, (ctxAt_setCtx c c _ _).trans (if_pos rfl)⟩, fun d other => (ctxAt_setCtx c d _ _).trans (if_neg (Ne.symm other)),
      fun k _ => rfl, rfl⟩
  · obtain ⟨before, plan, after, split, unfetched⟩ := exists_first_fetch all
    rw [nextSegment_fetches hx hg hr split unfetched]
    have context := ctxAt_setCtx c c (some { x with
      cursor := x.cursor + before.length + 1, counts := before.foldl countEnd x.counts }) s
    rw [if_pos rfl] at context
    have others : ∀ d, d ≠ c → ctxAt (setCtx c (some { x with
        cursor := x.cursor + before.length + 1, counts := before.foldl countEnd x.counts }) s) d = ctxAt s d :=
      fun d other => (ctxAt_setCtx c d _ _).trans (if_neg (Ne.symm other))
    by_cases full : ∀ m, slotAt s m ≠ none
    · rw [takeSlot_of_full context full]
      exact ⟨⟨_, (ctxAt_setCtx c c _ _).trans (if_pos rfl)⟩, fun d other => (ctxAt_setCtx c d _ _).trans ((if_neg (Ne.symm other)).trans
        (others d other)), fun k _ => rfl, rfl⟩
    · obtain ⟨m, free⟩ := not_forall_not.1 full
      obtain ⟨j, number, freeJ, _⟩ := freeSlotNum_spec (s := setCtx c (some { x with
        cursor := x.cursor + before.length + 1, counts := before.foldl countEnd x.counts }) s) free
      rw [takeSlot, number]
      dsimp only
      rw [beginFetch_of_node context node]
      refine ⟨⟨_, (ctxAt_fetchBegun c c j plan _ _).trans (if_pos rfl)⟩, fun d other => ?_, fun k taken => ?_, Bi.offered_looped _ _⟩
      · exact (ctxAt_fetchBegun c d j plan _ _).trans ((if_neg (Ne.symm other)).trans (others d other))
      · exact (slotAt_fetchBegun c j k plan _ _).trans (if_neg (fun same => taken (by rw [← same]; exact freeJ)))

/-! ### LOCATE_WINDOW_EXPIRY -/

theorem runningLocate_slot {s : State} {k : Fin 8} {x : FetchSlot} {l : Locate} {began : Nat} (hx : slotAt s k = some x)
    (phase : x.phase = .seeking (some l)) (running : l.began = some began) : runningLocate s (.slot k) = some (began, l) := by
  unfold runningLocate
  dsimp only
  rw [hx]
  dsimp only
  rw [phase]
  show (l.began.map (fun t => (t, l))) = _
  rw [running]
  rfl

theorem runningLocate_task {s : State} {h : TaskHead} {l : Locate} {began : Nat} (hh : s.ru.head = some h)
    (phase : h.phase = .locating l) (running : l.began = some began) : runningLocate s .task = some (began, l) := by
  unfold runningLocate
  dsimp only
  rw [hh]
  dsimp only
  rw [phase]
  show (l.began.map (fun t => (t, l))) = _
  rw [running]
  rfl

theorem locateWindowExpiry_slot {s : State} {k : Fin 8} {x : FetchSlot} {l : Locate} {began : Nat} (hx : slotAt s k = some x)
    (phase : x.phase = .seeking (some l)) (running : l.began = some began) :
    exec (.locateWindowExpiry (.slot k)) s
      = .next (settle (slotLocated k l.outcome { s with now := max s.now (began + 40000) })) := by
  rw [exec_locateWindowExpiry, execLocateWindowExpiry, runningLocate_slot hx phase running]
  rfl

theorem locateWindowExpiry_task {s : State} {h : TaskHead} {l : Locate} {began : Nat} (hh : s.ru.head = some h)
    (phase : h.phase = .locating l) (running : l.began = some began) :
    exec (.locateWindowExpiry .task) s
      = .next (settle (taskLocated l.outcome { s with now := max s.now (began + 40000) })) := by
  rw [exec_locateWindowExpiry, execLocateWindowExpiry, runningLocate_task hh phase running]
  rfl

theorem slotLocated_failed {s : State} {k : Fin 8} {x : FetchSlot} {c : Fin 6} (hx : slotAt s k = some x) (hc : x.context = some c)
    (st : SegStatus) : slotLocated k (.failed st) s = finishFetch c k st s := by
  rw [slotLocated, hx]
  dsimp only
  rw [hc]

/-- The untraced count of a context that enters CLOSING with no further segment. -/
theorem enterClosing_counts_untraced {x : PullContext} {r : OutputRecord} (hr : x.record = some r) (further : r.further = 0) :
    (enterClosing x).counts.get SegStatus.untraced.place = min 255 (x.counts.get SegStatus.untraced.place) := by
  unfold enterClosing
  dsimp only
  rw [hr, Option.elim_some, further]
  simp only [Vector.get_eq_getElem, Vector.getElem_set, if_true, Nat.add_zero]

/-- The counts of a context whose last fetch ended with a status. -/
theorem closed_lastCounts {y : PullContext} {r : OutputRecord} (hr : y.record = some r) (further : r.further = 0) (st : SegStatus)
    (n : Nat) (i : Fin 12) :
    (enterClosing { fetchEnded st y with cursor := n }).counts.get i = min 255 (y.counts.get i + if i = st.place then 1 else 0)
      ∨ (i ≠ st.place ∧ i ≠ SegStatus.untraced.place
          ∧ (enterClosing { fetchEnded st y with cursor := n }).counts.get i = y.counts.get i) := by
  have ended : (fetchEnded st y).counts.get i = if i = st.place then min 255 (y.counts.get i + 1) else y.counts.get i :=
    addCount_counts st y i
  by_cases last : i = SegStatus.untraced.place
  · left
    rw [last] at ended ⊢
    rw [enterClosing_counts_untraced (x := { fetchEnded st y with cursor := n }) hr further]
    dsimp only
    rw [ended]
    split <;> omega
  · rw [enterClosing_counts_other (x := { fetchEnded st y with cursor := n }) last]
    dsimp only
    rw [ended]
    by_cases own : i = st.place
    · left
      rw [if_pos own, if_pos own]
    · right
      exact ⟨own, last, if_neg own⟩

/-- A fetch begun in a FREE slot at a node that is not 0 (R132, R146, R147). -/
theorem beginFetch_spec {u : State} {d : Fin 6} {w : PullContext} (hd : ctxAt u d = some w) {k : Fin 8} (free : slotAt u k = none)
    (node : u.bi.node ≠ 0) (next : FetchPlan) :
    ∃ tag t, beginFetch d k next u = t ∧ TagTaken u k tag ∧ slotAt t k = some (slotFromPlan u d tag next)
      ∧ (∀ m, m ≠ k → slotAt t m = slotAt u m) ∧ ctxAt t d = some { w with slot := some k, fetch := some next }
      ∧ (∀ c, c ≠ d → ctxAt t c = ctxAt u c) ∧ t.pe.waiting = u.pe.waiting ∧ t.pe.tagCounter = tag + 1 ∧ t.ca = u.ca ∧ t.ar = u.ar
      ∧ t.bi = u.bi.offered ⟨0, .seek, tag, countedBytes next.parent, .context, .slot k⟩ :=
  ⟨nextTag u, _, beginFetch_of_node hd node k next, nextTag_taken free,
    (slotAt_fetchBegun d k k next w u).trans (if_pos rfl),
    fun m apart => (slotAt_fetchBegun d k m next w u).trans (if_neg (Ne.symm apart)),
    (ctxAt_fetchBegun d d k next w u).trans (if_pos rfl),
    fun c other => (ctxAt_fetchBegun d c k next w u).trans (if_neg (Ne.symm other)), rfl, rfl, rfl, rfl, rfl⟩

/-- The state with a fetch of context c ended and its slot FREE, the head of the fetch-wait queue taken from it. -/
def slotLeft (k : Fin 8) (c : Fin 6) (e : PullContext) (rest : List (Fin 6)) (s : State) : State :=
  { slotFreed k (setCtx c (some e) s) with pe.waiting := rest }

theorem slotLeft_tiu (k : Fin 8) (c : Fin 6) (e : PullContext) (rest : List (Fin 6)) (s : State) : (slotLeft k c e rest s).tiu = s.tiu := by
  rw [slotLeft, slotFreed_tiu, setCtx_tiu]

theorem slotLeft_ca (k : Fin 8) (c : Fin 6) (e : PullContext) (rest : List (Fin 6)) (s : State) : (slotLeft k c e rest s).ca = s.ca := by
  rw [slotLeft, slotFreed_ca, setCtx_ca]

theorem slotLeft_ar (k : Fin 8) (c : Fin 6) (e : PullContext) (rest : List (Fin 6)) (s : State) : (slotLeft k c e rest s).ar = s.ar := by
  rw [slotLeft, slotFreed_ar, setCtx_ar]

theorem slotLeft_ru (k : Fin 8) (c : Fin 6) (e : PullContext) (rest : List (Fin 6)) (s : State) : (slotLeft k c e rest s).ru = s.ru := by
  rw [slotLeft, slotFreed_ru, setCtx_ru]

theorem slotLeft_bi (k : Fin 8) (c : Fin 6) (e : PullContext) (rest : List (Fin 6)) (s : State) :
    (slotLeft k c e rest s).bi = (slotFreed k s).bi := rfl

theorem slotLeft_node (k : Fin 8) (c : Fin 6) (e : PullContext) (rest : List (Fin 6)) (s : State) :
    (slotLeft k c e rest s).bi.node = s.bi.node := by rw [slotLeft_bi, slotFreed_node]

theorem slotLeft_waiting (k : Fin 8) (c : Fin 6) (e : PullContext) (rest : List (Fin 6)) (s : State) :
    (slotLeft k c e rest s).pe.waiting = rest := by rw [slotLeft]

theorem slotLeft_tagCounter (k : Fin 8) (c : Fin 6) (e : PullContext) (rest : List (Fin 6)) (s : State) :
    (slotLeft k c e rest s).pe.tagCounter = s.pe.tagCounter := by rw [slotLeft, slotFreed_tagCounter, setCtx_pe_tagCounter]

theorem slotAt_slotLeft (k m : Fin 8) (c : Fin 6) (e : PullContext) (rest : List (Fin 6)) (s : State) :
    slotAt (slotLeft k c e rest s) m = if k = m then none else slotAt s m := slotAt_slotFreed k m _

theorem ctxAt_slotLeft (k : Fin 8) (c d : Fin 6) (e : PullContext) (rest : List (Fin 6)) (s : State) :
    ctxAt (slotLeft k c e rest s) d = if c = d then some e else ctxAt s d := ctxAt_setCtx c d _ _

/-- A fetch that ends with contexts waiting: the first of them takes the slot, then the next segment is begun. -/
theorem finishFetch_passesOn {s : State} {c d : Fin 6} {y w : PullContext} {rest : List (Fin 6)} {next : FetchPlan}
    (hy : ctxAt s c = some y) (hw : s.pe.waiting = d :: rest) (other : d ≠ c) (hd : ctxAt s d = some w) (hn : w.fetch = some next)
    (k : Fin 8) (st : SegStatus) :
    finishFetch c k st s = nextSegment c (beginFetch d k next (slotLeft k c (fetchEnded st y) rest s)) := by
  have holder : ctxAt (setCtx c (some (fetchEnded st y)) s) d = some w :=
    (ctxAt_setCtx c d _ _).trans ((if_neg (Ne.symm other)).trans hd)
  rw [finishFetch, onCtx_of hy]
  exact congrArg (nextSegment c) (freeSlot_of_waiting (s := setCtx c (some (fetchEnded st y)) s) hw holder hn k)

/-- What the state holds once the waiting context has the slot. -/
theorem slotPassedOn_spec {s : State} {c d : Fin 6} {w : PullContext} {next : FetchPlan} (other : d ≠ c) (hd : ctxAt s d = some w)
    (hn : w.fetch = some next) (node : s.bi.node ≠ 0) (k : Fin 8) (e : PullContext) (rest : List (Fin 6)) :
    ∃ tag t, beginFetch d k next (slotLeft k c e rest s) = t ∧ TagTaken s k tag ∧ slotAt t k = some (slotFromPlan s d tag next)
      ∧ (∀ m, m ≠ k → slotAt t m = slotAt s m) ∧ ctxAt t d = some { w with slot := some k } ∧ ctxAt t c = some e
      ∧ t.pe.waiting = rest ∧ t.pe.tagCounter = tag + 1 ∧ t.ca = s.ca ∧ t.ar = s.ar
      ∧ t.bi = (slotFreed k s).bi.offered ⟨0, .seek, tag, countedBytes next.parent, .context, .slot k⟩ := by
  have slots : ∀ m, m ≠ k → slotAt (slotLeft k c e rest s) m = slotAt s m := fun m apart =>
    (slotAt_slotLeft k m c e rest s).trans (if_neg (Ne.symm apart))
  have plan : ∀ tag, slotFromPlan (slotLeft k c e rest s) d tag next = slotFromPlan s d tag next := fun tag => by
    rw [slotFromPlan, slotFromPlan,
      newLocate_congr (slotLeft_tiu k c e rest s) (slotLeft_ca k c e rest s) (slotLeft_ar k c e rest s) (slotLeft_node k c e rest s)]
  obtain ⟨tag, t, began, fresh, slot, slots', holder, others, waiting, counter, ca, ar, bus⟩ :=
    beginFetch_spec (u := slotLeft k c e rest s) ((ctxAt_slotLeft k c d e rest s).trans ((if_neg (Ne.symm other)).trans hd))
      ((slotAt_slotLeft k k c e rest s).trans (if_pos rfl)) (by rw [slotLeft_node]; exact node) next
  rw [plan] at slot
  rw [slotLeft_waiting] at waiting
  rw [slotLeft_ca] at ca
  rw [slotLeft_ar] at ar
  rw [slotLeft_bi] at bus
  rw [← hn] at holder
  exact ⟨tag, t, began, fresh.congr slots (by rw [slotLeft_ru]) (slotLeft_tagCounter ..), slot,
    fun m apart => (slots' m apart).trans (slots m apart), holder,
    (others c (Ne.symm other)).trans ((ctxAt_slotLeft k c c e rest s).trans (if_pos rfl)), waiting, counter, ca, ar, bus⟩

/-! ### How a segment is settled (R145) -/

theorem isPending_iff (s : State) (seq : Nat) :
    isPending s seq = true ↔ (∃ e ∈ s.ca.table, e.seq = seq) ∨ ∃ i, .input i ∈ awaiting s ∧ i.seq = seq := by
  unfold isPending
  rw [Bool.or_eq_true, List.any_eq_true, List.any_eq_true]
  refine or_congr (exists_congr fun e => and_congr Iff.rfl beq_iff_eq) ⟨?_, ?_⟩
  · rintro ⟨w, hw, held⟩
    cases w with
    | input i => exact ⟨i, hw, beq_iff_eq.1 held⟩
    | output r => exact absurd held Bool.false_ne_true
    | freezeMark n id => exact absurd held Bool.false_ne_true
    | amendedInput r => exact absurd held Bool.false_ne_true
    | amendedOutput r id => exact absurd held Bool.false_ne_true
  · rintro ⟨i, hi, held⟩
    exact ⟨.input i, hi, beq_iff_eq.2 held⟩

/-- A segment settled, its clip first, then the first row that applies. -/
theorem settleSegment_eq (s : State) (depth : Nat) (g : Grid) (r : OutputRecord) (index : Nat) (p : ParentSegment) {t1 x0 x1 : Int}
    (h1 : t1 = segmentEnd r index p (p.ref.bind (inBySeq s))) (h0 : x0 = max g.u0 (256 * p.t0)) (hx : x1 = min g.u1 (256 * t1)) :
    (x1 ≤ x0 → settleSegment s depth g r index p = .skipped)
      ∧ (x0 < x1 → (p.ref = none → settleSegment s depth g r index p = .status .untraced)
        ∧ ∀ seq, p.ref = some seq →
          (isPending s seq = true → settleSegment s depth g r index p = .status .pending)
            ∧ (isPending s seq = false → inBySeq s seq = none → settleSegment s depth g r index p = .status .expired)
            ∧ ∀ e q, isPending s seq = false → inBySeq s seq = some e → q = (HopData.mk r.c0 p.t0 t1 e.w0 e.w1 e.lin).hop g →
              settleSegment s depth g r index p
                = if e.id = [] then .status .untraced else if q.u1 ≤ q.u0 then .skipped else if depth = 0 then .status .depth
                  else .fetch ⟨e.id, e.lin, q, e.estimated, e.long⟩) := by
  subst h0 hx
  unfold settleSegment clippedPart
  dsimp only
  rw [← h1]
  refine ⟨fun closed => if_pos closed, fun opened => ?_⟩
  rw [if_neg (not_le.2 opened)]
  refine ⟨fun none => by rw [none], fun seq hseq => ?_⟩
  rw [hseq, Option.bind_some]
  dsimp only
  refine ⟨fun pending => if_pos pending, fun written absent => ?_, fun e q written held hq => ?_⟩
  · rw [written, if_neg Bool.false_ne_true, absent]
  · rw [written, if_neg Bool.false_ne_true, held, hq]

theorem taskFrame_keep {task : Task} {tag : Tag} {owner : Node} (kind : task.kind = .keep) :
    taskFrame task tag owner = ⟨owner, .keep, tag, keepPayload task.parent task.node task.number, .general, .task⟩ := by
  simp only [taskFrame, kind]

theorem taskFrame_unkeep {task : Task} {tag : Tag} {owner : Node} (kind : task.kind = .unkeep) :
    taskFrame task tag owner = ⟨owner, .unkeep, tag, keepPayload task.parent task.node task.number, .general, .task⟩ := by
  simp only [taskFrame, kind]

theorem taskLocated_located {s : State} {h : TaskHead} {task : Task} {rest : List Task} (owner : Node) (tasks : s.ru.tasks = task :: rest)
    (head : s.ru.head = some h) :
    taskLocated (.located owner) s = send (taskFrame task h.tag owner) { s with
      ru.head := some { h with phase := .awaiting owner none } } := by
  rw [taskLocated.eq_def, tasks, head]

/-- Settles O55: the outcome of a locate, what it gives its holder, and how a segment is settled. -/
theorem locateWindowGivesTheOutcome : Obligations.LocateWindowGivesTheOutcome := by
  unfold Obligations.LocateWindowGivesTheOutcome
  refine ⟨fun l live hlive => ?outcome, fun s u began l running hu => ⟨fun k x c y owner hx phase hc hy located => ?fetch,
    fun h task rest owner kind hh tasks phase located kinds => ?task,
    fun k x c y st g r hx phase hc hy failed hg hr last further waiting looped => ?failed,
    fun h task st hh tasks phase failed looped => ?taskFailed,
    fun k x c y st g r d w next rest ends hx phase hc hy failed hg hr waiting other hd hn looped node hends => ?passedOn⟩,
    fun s depth g r index p t1 x0 x1 h1 h0 hx => ?settled⟩
  case outcome =>
    have same := live_eq hlive
    rw [Locate.outcome, same]
    refine ⟨fun a one stored => ?_, fun a one closing => ?_, fun a one opened => ?_, fun two => ?_, fun none => ?_⟩
    · rw [one]
      dsimp only
      rw [stored]
    · rw [one]
      dsimp only
      rw [closing]
    · rw [one]
      dsimp only
      rw [opened]
    · match live, two with
      | _ :: _ :: _, _ => rfl
    · rw [none]
      dsimp only
      split <;> rfl
  case fetch =>
    subst hu
    rw [locateWindowExpiry_slot hx phase running, located, slotLocated]
    have slot : slotAt { s with now := max s.now (began + 40000) } k = some x := hx
    have context : ctxAt { s with now := max s.now (began + 40000) } c = some y := hy
    rw [slot]
    dsimp only
    rw [hc]
    dsimp only
    rw [context]
    rfl
  case task =>
    subst hu
    rw [locateWindowExpiry_task hh phase running, located,
      taskLocated_located (s := { s with now := max s.now (began + 40000) }) owner tasks hh]
    rcases kinds with ⟨keep, rfl⟩ | ⟨unkeep, rfl⟩
    · rw [taskFrame_keep keep]
      rfl
    · rw [taskFrame_unkeep unkeep]
      rfl
  case failed =>
    subst hu
    have ran := locateWindowExpiry_slot hx phase running
    rw [failed, slotLocated_failed (s := { s with now := max s.now (began + 40000) }) hx hc,
      finishFetch_of (s := { s with now := max s.now (began + 40000) }) hy waiting] at ran
    have none : segmentEnds { s with now := max s.now (began + 40000) } y.depth g r y.cursor = [] := segmentEnds_nil last
    obtain ⟨n, free, context⟩ := settled_closes (u := { s with now := max s.now (began + 40000) }) (c := c) (x := fetchEnded st y)
      looped hg hr none.symm rfl k
    exact ⟨_, _, ran, free, context, rfl, rfl, closed_lastCounts hr further st n⟩
  case taskFailed =>
    subst hu
    have ran := locateWindowExpiry_task hh phase running
    rw [failed] at ran
    have ended : taskLocated (.failed st) { s with now := max s.now (began + 40000) }
        = failTask { s with now := max s.now (began + 40000) } := by unfold taskLocated; rfl
    rw [ended] at ran
    obtain ⟨none, noHead, keeps, _⟩ := settle_failTask (s := { s with now := max s.now (began + 40000) }) tasks looped
    obtain ⟨unkeep, keep⟩ := keepsAfterFailure_cases task s.ru.keeps
    exact ⟨_, ran, none, noHead, fun kind => keeps.trans (unkeep kind), fun kind => keeps.trans (keep kind)⟩
  case passedOn =>
    have slotU : slotAt u k = some x := by rw [hu]; exact hx
    have ctxU : ∀ e, ctxAt u e = ctxAt s e := fun e => by rw [hu]; rfl
    have nodeU : u.bi.node ≠ 0 := by rw [hu]; exact node
    have ran := locateWindowExpiry_slot hx phase running
    rw [failed, ← hu, slotLocated_failed slotU hc,
      finishFetch_passesOn ((ctxU c).trans hy) (by rw [hu]; exact waiting) other ((ctxU d).trans hd) hn] at ran
    obtain ⟨tag, t, began', fresh, slot, slots, holder, context, waits, counter, ca, ar, bus⟩ :=
      slotPassedOn_spec other ((ctxU d).trans hd) hn nodeU k (fetchEnded st y) rest
    rw [began'] at ran
    have nodeT : t.bi.node ≠ 0 := by rw [bus, Bi.offered_node, slotFreed_node]; exact nodeU
    have quietT : t.bi.looped = [] := by rw [bus, Bi.offered_looped, slotFreed_looped, hu]; exact looped
    have listed : segmentEnds t y.depth g r y.cursor = ends := by
      rw [hends]
      exact segmentEnds_congr (ca.trans (by rw [hu])) (ar.trans (by rw [hu])) ..
    obtain ⟨⟨z, hz⟩, others, taken, same⟩ := nextSegment_beside context hg hr nodeT
    have quiet : (nextSegment c t).bi.looped = [] := same.trans quietT
    have plan : slotFromPlan u d tag next = slotFromPlan s d tag next := by rw [hu]; rfl
    refine ⟨settle (nextSegment c t), z, tag, ran, fresh.congr (fun m _ => by rw [hu]; rfl) (by rw [hu]) (by rw [hu]), ?_, ?_,
      (ctxAt_settle quiet c).trans hz, fun all => ?_, fun before fetched after split all full => ?_⟩
    · rw [slotAt_settle quiet, taken k (by rw [slot]; exact Option.some_ne_none _), slot, plan]
    · rw [ctxAt_settle quiet, others d other, holder]
    · obtain ⟨n, closed⟩ := nextSegment_closes context hg hr (by
        show (segmentEnds t y.depth g r y.cursor).all _ = true
        rw [listed]
        exact all)
      rw [closed, ctxAt_setCtx, if_pos rfl] at hz
      obtain rfl := Option.some.inj hz
      refine ⟨?_, rfl, rfl, ?_, fun room => ?_⟩
      · rw [settle_pe quiet, closed]
        exact waits
      · rw [settle_pe quiet, closed]
        exact counter
      · rw [settle_bi quiet, closed, setCtx_bi, bus]
        refine (Bi.offered_last rfl rfl).1 ?_
        rw [slotFreed_queue_length, hu]
        exact room
    · have fullT : ∀ m, slotAt t m ≠ none := fun m => by
        by_cases own : m = k
        · rw [own, slot]
          exact Option.some_ne_none _
        · rw [slots m own, hu]
          exact full m
      have walked := nextSegment_fetches context hg hr (listed.trans split) all
      replace walked := walked.trans (takeSlot_of_full ((ctxAt_setCtx c c _ _).trans (if_pos rfl)) fullT fetched)
      rw [walked, ctxAt_setCtx, if_pos rfl] at hz
      obtain rfl := Option.some.inj hz
      refine ⟨?_, rfl, rfl, rfl, rfl⟩
      rw [settle_pe quiet, walked]
      show t.pe.waiting ++ [c] = _
      rw [waits]
  case settled =>
    obtain ⟨closed, opened⟩ := settleSegment_eq s depth g r index p h1 h0 hx
    refine ⟨closed, fun clip => ⟨(opened clip).1, fun seq hseq => ?_⟩⟩
    obtain ⟨pending, absent, rows⟩ := (opened clip).2 seq hseq
    refine ⟨isPending_iff s seq, pending, absent, fun e q written held hq => ?_⟩
    rw [rows e q written held hq]
    refine ⟨fun nameless => if_pos nameless, fun named empty => ?_, fun named some zero => ?_, fun named some deep => ?_⟩
    · rw [if_neg named, if_pos empty]
    · rw [if_neg named, if_neg (not_le.2 some), if_pos zero]
    · rw [if_neg named, if_neg (not_le.2 some), if_neg deep]

end Sys2Proof.Machine
end

section
/-! PROOF. KEEP and UNKEEP: the rows of their statuses, the tasks that a coil's parents yield, and the keep list they leave
(R92 to R96). -/

namespace Sys2Proof.Machine

/-! ### Nothing demanded (R77) -/

theorem reclaimDemand_congr {s t : State} (hs : t.ar.segs = s.ar.segs) (ho : t.ar.outs = s.ar.outs) (hi : t.ar.ins = s.ar.ins)
    (hp : t.ar.pageWrite = s.ar.pageWrite) : reclaimDemand t = reclaimDemand s := by
  rw [reclaimDemand, reclaimDemand, directoryFull_congr ho hi hp, freeCount, freeCount, hs]

/-- With no reclaim demanded a change of the keep list makes an image write ready and does no more. -/
theorem keepChanged_of_noDemand {s : State} (none : reclaimDemand s = false) (keeps : List KeepEntry) :
    keepChanged { s with ru.keeps := keeps } = { s with ru.keeps := keeps, ar.keepReady := true } :=
  reclaimMoment_idle (.inl ((reclaimDemand_congr (s := s) rfl rfl rfl rfl).trans none))

/-- A reclaim choice enters no output coil in the directory. -/
theorem outById_reclaimMoment {s : State} {id : CoilId} (h : outById s id = none) : outById (reclaimMoment s) id = none := by
  have absent : ∀ e ∈ s.ar.outs, ¬(e.id == id) = true := by
    rw [outById, List.find?_eq_none] at h
    exact h
  unfold reclaimMoment
  split
  · split
    · rw [chooseSegment_eq, outById, failAmendRead_ar, List.find?_eq_none]
      exact fun e he => absent e (List.mem_of_mem_filter he)
    · exact h
  · exact h

/-! ### The parents of an output (R94) -/

/-- The list with an ID joined at the tail, if it is not in it. -/
def joinId (l : List CoilId) (id : CoilId) : List CoilId := if l.contains id then l else l ++ [id]

/-- The present ID of the input entry that a parent segment names. -/
def parentId (s : State) (r : Option Nat) : Option CoilId :=
  (r.bind fun seq => (inBySeq s seq).map fun i => i.id).filter (fun id => !decide (id = []))

theorem parentIds_eq (s : State) (e : OutEntry) : parentIds s e = (e.refs.filterMap (parentId s)).foldl joinId [] := by
  unfold parentIds
  have : (parentId s) = (fun r => match r with
      | none => none
      | some seq =>
        match inBySeq s seq with
        | none => none
        | some i => if i.id = [] then none else some i.id) := by
    funext r
    unfold parentId
    cases r with
    | none => rfl
    | some seq =>
      rw [Option.bind_some]
      dsimp only
      cases inBySeq s seq with
      | none => rfl
      | some i =>
        rw [Option.map_some, Option.filter_some]
        by_cases empty : i.id = [] <;> simp [empty]
  rw [this]
  rfl

theorem parentIds_congr {s t : State} (h : t.ar.ins = s.ar.ins) (e : OutEntry) : parentIds t e = parentIds s e := by
  unfold parentIds inBySeq
  rw [h]

/-- Joining the IDs of a list holds each once, in their order, behind those that were held. -/
theorem foldl_joinId (ids l : List CoilId) (nodup : l.Nodup) :
    (∀ id, id ∈ ids.foldl joinId l ↔ id ∈ l ∨ id ∈ ids) ∧ (ids.foldl joinId l).Nodup
      ∧ ∃ added, ids.foldl joinId l = l ++ added ∧ added.Sublist ids := by
  induction ids generalizing l with
  | nil => exact ⟨fun id => by simp, nodup, [], (List.append_nil l).symm, .slnil⟩
  | cons i rest ih =>
    rw [List.foldl_cons]
    by_cases held : i ∈ l
    · have same : joinId l i = l := if_pos (List.contains_iff_mem.2 held)
      rw [same]
      obtain ⟨members, each, added, whole, sub⟩ := ih l nodup
      refine ⟨fun id => ?_, each, added, whole, sub.cons i⟩
      rw [members, List.mem_cons]
      constructor
      · exact fun h => h.imp_right .inr
      · rintro (h | rfl | h)
        exacts [.inl h, .inl held, .inr h]
    · have joined : joinId l i = l ++ [i] := if_neg (fun h => held (List.contains_iff_mem.1 h))
      rw [joined]
      have fresh : (l ++ [i]).Nodup := List.nodup_append.2 ⟨nodup, List.nodup_singleton i, fun a ha b hb same => by
        rw [List.mem_singleton.1 hb] at same
        exact held (same ▸ ha)⟩
      obtain ⟨members, each, added, whole, sub⟩ := ih (l ++ [i]) fresh
      refine ⟨fun id => ?_, each, i :: added, by rw [whole, List.append_assoc, List.singleton_append], sub.cons_cons i⟩
      rw [members, List.mem_append, List.mem_singleton, List.mem_cons, or_assoc]

theorem parentId_eq_some {s : State} {r : Option Nat} {id : CoilId} :
    parentId s r = some id ↔ id ≠ [] ∧ ∃ seq i, r = some seq ∧ inBySeq s seq = some i ∧ i.id = id := by
  unfold parentId
  rw [Option.filter_eq_some_iff, Option.bind_eq_some_iff]
  simp only [Option.map_eq_some_iff, Bool.not_eq_true', decide_eq_false_iff_not]
  constructor
  · rintro ⟨⟨seq, hseq, i, hi, same⟩, present⟩
    exact ⟨present, seq, i, hseq, hi, same⟩
  · rintro ⟨present, seq, i, hseq, hi, same⟩
    exact ⟨⟨seq, hseq, i, hi, same⟩, present⟩

theorem mem_parentIds (s : State) (e : OutEntry) (id : CoilId) :
    id ∈ parentIds s e ↔ id ≠ [] ∧ ∃ seq i, some seq ∈ e.refs ∧ inBySeq s seq = some i ∧ i.id = id := by
  rw [parentIds_eq, (foldl_joinId _ [] List.nodup_nil).1, List.mem_filterMap]
  simp only [parentId_eq_some, List.not_mem_nil, false_or]
  constructor
  · rintro ⟨r, hr, present, seq, i, rfl, hi, same⟩
    exact ⟨present, seq, i, hr, hi, same⟩
  · rintro ⟨present, seq, i, hr, hi, same⟩
    exact ⟨_, hr, present, seq, i, rfl, hi, same⟩

theorem parentIds_nodup (s : State) (e : OutEntry) : (parentIds s e).Nodup := by
  rw [parentIds_eq]
  exact (foldl_joinId _ [] List.nodup_nil).2.1

theorem filterMap_filter_sublist {α β : Type} (g : α → Option β) (p : β → Bool) (l : List α) :
    (l.filterMap fun a => (g a).filter p).Sublist (l.filterMap g) := by
  have : (l.filterMap fun a => (g a).filter p) = (l.filterMap g).filter p := by
    rw [List.filter_filterMap]
  rw [this]
  exact List.filter_sublist

theorem parentIds_sublist (s : State) (e : OutEntry) :
    (parentIds s e).Sublist (e.refs.filterMap (fun r => r.bind (fun seq => (inBySeq s seq).map (fun i => i.id)))) := by
  rw [parentIds_eq]
  obtain ⟨_, _, added, whole, sub⟩ := foldl_joinId (e.refs.filterMap (parentId s)) [] List.nodup_nil
  rw [whole, List.nil_append]
  exact sub.trans (filterMap_filter_sublist _ _ _)

theorem parentIds_of_untraced {s : State} {e : OutEntry} (h : ∀ r ∈ e.refs, r = none) : parentIds s e = [] := by
  rw [List.eq_nil_iff_forall_not_mem]
  intro id hid
  obtain ⟨_, seq, i, hr, _⟩ := (mem_parentIds s e id).1 hid
  exact Option.some_ne_none seq (h _ hr)

/-! ### Tasks entering the queue (R94, R95) -/

theorem markTriple_again (id : CoilId) (node : Node) (number : Nat) (keeps : List KeepEntry) :
    markTriple id node number (markTriple id node number keeps) = markTriple id node number keeps := by
  unfold markTriple
  rw [List.map_map]
  refine List.map_congr_left fun k _ => ?_
  rw [Function.comp_apply]
  by_cases triple : k.id = id ∧ k.node = node ∧ k.number = number
  · rw [if_pos triple, if_pos triple]
  · rw [if_neg triple, if_neg triple]

theorem markPartial_of_noDemand {s : State} (none : reclaimDemand s = false) (id : CoilId) (node : Node) (number : Nat) :
    (s.ar.keepReady = true → (markPartial id node number s).ar.keepReady = true)
      ∧ reclaimDemand (markPartial id node number s) = false := by
  unfold markPartial
  split
  · rw [keepChanged_of_noDemand none]
    exact ⟨fun _ => rfl, (reclaimDemand_congr (s := s) rfl rfl rfl rfl).trans none⟩
  · exact ⟨fun ready => ready, none⟩

/-- What the tasks' entering leaves: the queue, the keep list, and that the rest of what the obligation looks at stands. -/
structure TasksEntered (s t : State) (tasks : List Task) (keeps : List KeepEntry) : Prop where
  tasks : t.ru.tasks = tasks
  keeps : t.ru.keeps = keeps
  head : t.ru.head = s.ru.head
  bi : t.bi = s.bi
  ready : s.ar.keepReady = true → t.ar.keepReady = true
  demand : reclaimDemand t = false

/-- One task: it enters, or with 16 held a KEEP task's source becomes PARTIAL. -/
theorem queueTask_enters {s : State} (none : reclaimDemand s = false) (room : s.ru.tasks.length ≤ 16) (task : Task) :
    TasksEntered s (queueTask task s) ((s.ru.tasks ++ [task]).take 16)
      (if 16 ≤ s.ru.tasks.length ∧ task.kind = .keep then markTriple task.source task.node task.number s.ru.keeps else s.ru.keeps) := by
  by_cases free : s.ru.tasks.length < 16
  · rw [queueTask, if_pos free, if_neg (fun h => absurd h.1 (not_le.2 free))]
    refine ⟨(List.take_of_length_le (by rw [List.length_append, List.length_singleton]; omega)).symm, rfl, rfl, rfl, id, ?_⟩
    exact (reclaimDemand_congr rfl rfl rfl rfl).trans none
  · have full : s.ru.tasks.length = 16 := by omega
    have held : s.ru.tasks = (s.ru.tasks ++ [task]).take 16 := (List.take_left' full).symm
    rw [queueTask, if_neg free]
    cases hk : task.kind with
    | unkeep =>
      rw [if_neg (fun h => TaskKind.noConfusion h.2)]
      exact ⟨held, rfl, rfl, rfl, id, none⟩
    | keep =>
      rw [if_pos ⟨full.ge, rfl⟩]
      dsimp only
      obtain ⟨keeps, tasks, head, bus⟩ := markPartial_keeps task.source task.node task.number s
      obtain ⟨ready, demand⟩ := markPartial_of_noDemand none task.source task.node task.number
      exact ⟨tasks.trans held, keeps, head, bus, ready, demand⟩

/-- The keep list after some tasks of one source came to a queue of a length: PARTIAL for a KEEP that was dropped. -/
def keepsAfterTasks (id : CoilId) (node : Node) (number : Nat) (kind : TaskKind) (length : Nat) (keeps : List KeepEntry) : List KeepEntry :=
  if 16 < length ∧ kind = .keep then markTriple id node number keeps else keeps

theorem take_append_of_take {α : Type} (n : Nat) (l m : List α) : (l.take n ++ m).take n = (l ++ m).take n := by
  rw [List.take_append, List.take_append, List.take_take, min_self, List.length_take,
    show n - min n l.length = n - l.length by omega]

/-- The tasks of one source enter in their order, as many as find fewer than 16 held. -/
theorem foldl_queueTask (node : Node) (number : Nat) (kind : TaskKind) (source : CoilId) (ids : List CoilId) (s : State)
    (none : reclaimDemand s = false) (room : s.ru.tasks.length ≤ 16) :
    TasksEntered s (ids.foldl (fun s id => queueTask ⟨id, node, number, kind, source⟩ s) s)
      ((s.ru.tasks ++ ids.map (fun id => (⟨id, node, number, kind, source⟩ : Task))).take 16)
      (keepsAfterTasks source node number kind (s.ru.tasks.length + ids.length) s.ru.keeps) := by
  induction ids generalizing s with
  | nil =>
    refine ⟨?_, (if_neg (fun h => absurd h.1 (not_lt.2 room))).symm, rfl, rfl, id, none⟩
    rw [List.map_nil, List.append_nil, List.take_of_length_le room]
    rfl
  | cons i rest ih =>
    have one := queueTask_enters none room ⟨i, node, number, kind, source⟩
    rw [List.foldl_cons]
    generalize queueTask ⟨i, node, number, kind, source⟩ s = u at one ⊢
    have roomU : u.ru.tasks.length ≤ 16 := by rw [one.tasks, List.length_take]; exact min_le_left _ _
    have all := ih u one.demand roomU
    refine ⟨?_, ?_, all.head.trans one.head, all.bi.trans one.bi, fun h => all.ready (one.ready h), all.demand⟩
    · rw [all.tasks, one.tasks, take_append_of_take, List.append_assoc]
      rfl
    · rw [all.keeps, one.keeps, one.tasks, List.length_take, List.length_append, List.length_singleton, List.length_cons]
      dsimp only
      unfold keepsAfterTasks
      by_cases keep : kind = .keep
      · by_cases full : 16 ≤ s.ru.tasks.length
        · have more : 16 < s.ru.tasks.length + (rest.length + 1) := by omega
          rw [if_pos (c := 16 ≤ s.ru.tasks.length ∧ kind = .keep) ⟨full, keep⟩, if_pos (c := 16 < s.ru.tasks.length + (rest.length + 1) ∧ kind = .keep) ⟨more, keep⟩,
            markTriple_again, ite_self]
        · rw [if_neg (c := 16 ≤ s.ru.tasks.length ∧ kind = .keep) (fun h => full h.1)]
          rw [show min 16 (s.ru.tasks.length + 1) + rest.length = s.ru.tasks.length + (rest.length + 1) by omega]
      · rw [if_neg (fun h => keep h.2), if_neg (fun h => keep h.2), if_neg (fun h => keep h.2)]

/-! ### The queue's first task begins (R96) -/

/-- What the beginning of the queue's first task leaves. -/
structure HeadBegun (s t : State) : Prop where
  tasks : t.ru.tasks = s.ru.tasks
  keeps : t.ru.keeps = s.ru.keeps
  ar : t.ar = s.ar
  looped : t.bi.looped = s.bi.looped
  begins : s.ru.head = none → t.ru.head.isSome = !s.ru.tasks.isEmpty
  stands : s.ru.head.isSome = true → t.ru.head = s.ru.head
  places : ∀ i < s.bi.queue.length, t.bi.queue[i]? = s.bi.queue[i]?

theorem HeadBegun.refl {s : State} (h : s.ru.head = none → s.ru.tasks = []) : HeadBegun s s :=
  ⟨rfl, rfl, rfl, rfl, fun none => by rw [none, h none]; rfl, fun _ => rfl, fun _ _ => rfl⟩

theorem Bi.offered_places (b : Bi) (f : OutFrame) : ∀ i < b.queue.length, (b.offered f).queue[i]? = b.queue[i]? := by
  intro i hi
  unfold Bi.offered
  split
  · exact List.getElem?_append_left hi
  · split <;> rfl

theorem send_seek_of_node {s : State} (node : s.bi.node ≠ 0) (tag : Tag) (id : CoilId) (cls : FrameClass) (owner : FrameOwner) :
    send (seekFrame tag id cls owner) s = { s with bi := s.bi.offered (seekFrame tag id cls owner) } :=
  send_of_other node (Ne.symm node)

theorem startHead_begins (s : State) : HeadBegun s (startHead s) := by
  unfold startHead
  split
  next task rest none tasks =>
    have some : s.ru.tasks.isEmpty = false := by rw [tasks]; rfl
    by_cases node : s.bi.node = 0
    · rw [send_of_strapped (s := { takeTag s with ru.head := _ }) node, report_of_task rfl rfl]
      exact ⟨rfl, rfl, rfl, rfl, fun _ => by rw [some]; rfl, fun held => by rw [none] at held; exact Bool.noConfusion held, fun _ _ => rfl⟩
    · rw [send_seek_of_node (s := { takeTag s with ru.head := _ }) node]
      exact ⟨rfl, rfl, rfl, Bi.offered_looped _ _, fun _ => by rw [some]; rfl,
        fun held => by rw [none] at held; exact Bool.noConfusion held, Bi.offered_places _ _⟩
  next none =>
    exact .refl fun empty => by
      cases tasks : s.ru.tasks with
      | nil => rfl
      | cons task rest => exact absurd tasks (none task rest empty)

/-- The tasks of a coil's parents formed, and the first of the queue begun. -/
theorem formTasks_spec {s : State} (none : reclaimDemand s = false) (room : s.ru.tasks.length ≤ 16) (looped : s.bi.looped = [])
    (ready : s.ar.keepReady = true) (e : OutEntry) (node : Node) (number : Nat) (kind : TaskKind) (tasks : List Task)
    (ht : tasks = s.ru.tasks ++ (parentIds s e).map (fun id => ⟨id, node, number, kind, e.id⟩)) :
    ∃ t, t = settle (formTasks e node number kind s)
      ∧ t.ru.keeps = keepsAfterTasks e.id node number kind tasks.length s.ru.keeps ∧ t.ru.tasks = tasks.take 16 ∧ t.ar.keepReady = true
      ∧ (s.ru.head = .none → t.ru.head.isSome = !tasks.isEmpty) ∧ (s.ru.head.isSome = true → t.ru.head = s.ru.head)
      ∧ ∀ i < s.bi.queue.length, t.bi.queue[i]? = s.bi.queue[i]? := by
  have entered := foldl_queueTask node number kind e.id (parentIds s e) s none room
  rw [← ht, show s.ru.tasks.length + (parentIds s e).length = tasks.length by rw [ht, List.length_append, List.length_map]] at entered
  unfold formTasks
  generalize (parentIds s e).foldl (fun s id => queueTask ⟨id, node, number, kind, e.id⟩ s) s = u at entered
  have begun := startHead_begins u
  have move := settleArchive_move (startHead u)
  rw [← settle_eq (begun.looped.trans ((congrArg Bi.looped entered.bi).trans looped))] at move
  have empty : (tasks.take 16).isEmpty = tasks.isEmpty := by cases tasks <;> rfl
  refine ⟨_, rfl, ?_, ?_, ?_, fun idle => ?_, fun held => ?_, fun i hi => ?_⟩
  · rw [move.keeps, begun.keeps, entered.keeps]
  · rw [move.tasks, begun.tasks, entered.tasks]
  · rw [show (settle (startHead u)).ar.keepReady = (startHead u).ar.keepReady from congrArg (fun t => t.ar.keepReady) move.rest, begun.ar]
    exact entered.ready ready
  · rw [move.head, begun.begins (entered.head.trans idle), entered.tasks, empty]
  · rw [move.head, begun.stands (by rw [entered.head]; exact held), entered.head]
  · rw [move.bi, begun.places i (by rw [entered.bi]; exact hi), entered.bi]

/-! ### What a KEEP and an UNKEEP come to (R93, R95) -/

theorem exec_keep {f : Frame} {s : State} (h : Passes .keep f s) :
    exec (.keep f) s = .next (settle (takeKeep (senderOf f) f.tag f.payload (heard f s))) := frame_handed_over (kind := .keep) h

theorem exec_unkeep {f : Frame} {s : State} (h : Passes .unkeep f s) :
    exec (.unkeep f) s = .next (settle (takeUnkeep (senderOf f) f.tag f.payload (heard f s))) := frame_handed_over (kind := .unkeep) h

theorem keptFrame_of {id : CoilId} {field : List Byte} (h : countedId field = some id) (dest : Node) (tag : Tag) (st : KeptStatus) :
    keptFrame dest tag field st = ⟨dest, .kept, tag, countedBytes id ++ [st.code], .general, .nobody⟩ := by
  rw [keptFrame, keptIdBytes, h]
  rfl

theorem hasKeep_heard (f : Frame) (s : State) (id : CoilId) (node : Node) (number : Nat) :
    hasKeep (heard f s) id node number = hasKeep s id node number := by
  rw [hasKeep, hasKeep, heard_ru]

theorem underRename_heard (f : Frame) (s : State) (id : CoilId) : underRename (heard f s) id = underRename s id := by
  rw [heard_eq]
  rfl

/-- R93's table for a well-formed KEEP. -/
theorem keepOutcome_rows {s : State} {id : CoilId} {origin number : Nat} (valid : origin ≤ 31) :
    (underRename s id = true → keepOutcome s (some id) origin number = (.notFound, none))
      ∧ (underRename s id = false →
          (outById s id = none → keepOutcome s (some id) origin number = (if id ∈ s.ar.expired then .expired else .notFound, none))
          ∧ ∀ e, outById s id = some e →
              (hasKeep s id (BitVec.ofNat 5 origin) number = true → keepOutcome s (some id) origin number = (.ok, none))
              ∧ (hasKeep s id (BitVec.ofNat 5 origin) number = false →
                  (64 ≤ s.ru.keeps.length → keepOutcome s (some id) origin number = (.full, none))
                  ∧ (s.ru.keeps.length < 64 → keepOutcome s (some id) origin number = (.ok, some e)))) := by
  unfold keepOutcome
  dsimp only
  rw [if_neg (not_lt.2 valid)]
  refine ⟨fun rename => if_pos rename, fun still => ?_⟩
  rw [if_neg (by rw [still]; exact Bool.false_ne_true)]
  refine ⟨fun absent => ?_, fun e he => ?_⟩
  · rw [absent]
    simp only [List.contains_iff_mem]
  · rw [he]
    dsimp only
    refine ⟨fun held => if_pos held, fun fresh => ⟨fun full => ?_, fun room => ?_⟩⟩
    · rw [if_neg (by rw [fresh]; exact Bool.false_ne_true), if_pos full]
    · rw [if_neg (by rw [fresh]; exact Bool.false_ne_true), if_neg (not_le.2 room)]

theorem takeKeep_notReady {s : State} (h : s.pp.station ≠ .run) (src : Node) (tag : Tag) (p : List Byte) :
    takeKeep src tag p s = send (keptFrame src tag (p.take 17) .notReady) s := if_pos h

/-- The rows of R93 that change nothing. -/
theorem takeKeep_answers {s : State} {st : KeptStatus} (run : s.pp.station = .run) (p : List Byte)
    (h : keepOutcome s (countedId (p.take 17)) (natAt p 17 1) (natAt p 18 2) = (st, none)) (src : Node) (tag : Tag) :
    takeKeep src tag p s = send (keptFrame src tag (p.take 17) st) s := by
  unfold takeKeep
  dsimp only
  rw [if_neg (not_not.2 run), h]

/-- The row of R93 that enters the coil in the keep list. -/
theorem takeKeep_adds {s : State} {e : OutEntry} (run : s.pp.station = .run) (p : List Byte)
    (h : keepOutcome s (countedId (p.take 17)) (natAt p 17 1) (natAt p 18 2) = (.ok, some e)) (src : Node) (tag : Tag) :
    takeKeep src tag p s = formTasks e (BitVec.ofNat 5 (natAt p 17 1)) (natAt p 18 2) .keep (send (keptFrame src tag (p.take 17) .ok)
      (keepChanged { s with ru.keeps := s.ru.keeps ++ [⟨e.id, BitVec.ofNat 5 (natAt p 17 1), natAt p 18 2, false⟩] })) := by
  unfold takeKeep
  dsimp only
  rw [if_neg (not_not.2 run), h]

theorem takeUnkeep_notReady {s : State} (h : s.pp.station ≠ .run) (src : Node) (tag : Tag) (p : List Byte) :
    takeUnkeep src tag p s = send (keptFrame src tag (p.take 17) .notReady) s := if_pos h

theorem takeUnkeep_notKept {s : State} {id : CoilId} (run : s.pp.station = .run) {p : List Byte} (hid : countedId (p.take 17) = some id)
    (h : hasKeep s id (BitVec.ofNat 5 (natAt p 17 1)) (natAt p 18 2) = false) (src : Node) (tag : Tag) :
    takeUnkeep src tag p s = send (keptFrame src tag (p.take 17) .notKept) s := by
  unfold takeUnkeep
  dsimp only
  rw [if_neg (not_not.2 run), hid]
  dsimp only
  rw [h, Bool.and_false, if_neg Bool.false_ne_true]

/-- The state of an UNKEEP whose entry was removed, the answer sent. -/
def unkept (src : Node) (tag : Tag) (p : List Byte) (id : CoilId) (s : State) : State :=
  send (keptFrame src tag (p.take 17) .ok) (keepChanged { s with
    ru.keeps := s.ru.keeps.filter (fun k => !k.isTriple id (BitVec.ofNat 5 (natAt p 17 1)) (natAt p 18 2)) })

theorem takeUnkeep_removes {s : State} {id : CoilId} (run : s.pp.station = .run) {p : List Byte} (hid : countedId (p.take 17) = some id)
    (origin : natAt p 17 1 ≤ 31) (h : hasKeep s id (BitVec.ofNat 5 (natAt p 17 1)) (natAt p 18 2) = true) (src : Node) (tag : Tag) :
    (outById (unkept src tag p id s) id = none → takeUnkeep src tag p s = unkept src tag p id s)
      ∧ ∀ e, outById (unkept src tag p id s) id = some e → takeUnkeep src tag p s
          = formTasks e (BitVec.ofNat 5 (natAt p 17 1)) (natAt p 18 2) .unkeep (unkept src tag p id s) := by
  have taken : takeUnkeep src tag p s = match outById (unkept src tag p id s) id with
      | none => unkept src tag p id s
      | some e => formTasks e (BitVec.ofNat 5 (natAt p 17 1)) (natAt p 18 2) .unkeep (unkept src tag p id s) := by
    unfold takeUnkeep
    dsimp only
    rw [if_neg (not_not.2 run), hid]
    dsimp only
    rw [h, Bool.and_true, if_pos (decide_eq_true origin)]
    rfl
  refine ⟨fun none => ?_, fun e he => ?_⟩
  · rw [taken, none]
  · rw [taken, he]

/-- A coil with no parent in the directory yields no task. -/
theorem formTasks_of_none {s : State} {e : OutEntry} (parents : parentIds s e = []) (tasks : s.ru.tasks = []) (node : Node) (number : Nat)
    (kind : TaskKind) : formTasks e node number kind s = s := by
  rw [formTasks, parents, List.foldl_nil, startHead.eq_def, tasks]
  cases s.ru.head <;> rfl

/-- The answer of a KEEP or UNKEEP leaves what its tasks look at. -/
structure Answered (s t : State) : Prop where
  ar : t.ar = s.ar
  ru : t.ru = s.ru
  looped : t.bi.looped = s.bi.looped

theorem send_answered {s : State} {f : OutFrame} (h : f.owner = .nobody) (other : f.dest ≠ s.bi.node) : Answered s (send f s) := by
  by_cases node : s.bi.node = 0
  · rw [send_of_strapped node, report_of_nobody h]
    exact ⟨rfl, rfl, rfl⟩
  · rw [send_of_other node other]
    exact ⟨rfl, rfl, Bi.offered_looped _ _⟩

theorem markTriple_of_absent {id : CoilId} {node : Node} {number : Nat} {keeps : List KeepEntry}
    (h : keeps.any (fun k => k.isTriple id node number) = false) : markTriple id node number keeps = keeps := by
  refine (List.map_congr_left fun k hk => ?_).trans (List.map_id _)
  refine if_neg fun triple => ?_
  have : keeps.any (fun k => k.isTriple id node number) = true := List.any_eq_true.2 ⟨k, hk, (isTriple_iff ..).2 triple⟩
  rw [h] at this
  exact Bool.noConfusion this

/-- The entry that a KEEP added is PARTIAL just when one of its tasks was dropped (R94). -/
theorem keepsAfterTasks_added {id : CoilId} {node : Node} {number : Nat} {keeps : List KeepEntry}
    (h : keeps.any (fun k => k.isTriple id node number) = false) (length : Nat) :
    keepsAfterTasks id node number .keep length (keeps ++ [⟨id, node, number, false⟩])
      = keeps ++ [⟨id, node, number, decide (16 < length)⟩] := by
  unfold keepsAfterTasks
  by_cases more : 16 < length
  · have split : markTriple id node number (keeps ++ [⟨id, node, number, false⟩])
        = markTriple id node number keeps ++ markTriple id node number [⟨id, node, number, false⟩] := List.map_append
    rw [if_pos ⟨more, rfl⟩, decide_eq_true more, split, markTriple_of_absent h, markTriple, List.map_singleton, if_pos ⟨rfl, rfl, rfl⟩]
  · rw [if_neg (fun h => more h.1), decide_eq_false more]

theorem answered_tasks {f : Frame} {s : State} {answer : OutFrame} {dest : Node} {tag : Tag} {bytes : List Byte} {keeps : List KeepEntry}
    (frame : answer = ⟨dest, .kept, tag, bytes, .general, .nobody⟩) (tasks : s.ru.tasks = []) :
    (send answer (keepChanged { heard f s with ru.keeps := keeps })).ru.tasks = [] := by
  obtain ⟨b, sent⟩ := send_of_nobody (f := answer) (by rw [frame]) (keepChanged { heard f s with ru.keeps := keeps })
  rw [sent]
  show (keepChanged { heard f s with ru.keeps := keeps }).ru.tasks = []
  rw [(keepChanged_move' _).tasks]
  show (heard f s).ru.tasks = []
  rw [heard_ru, tasks]

theorem outById_unkept {s : State} {id : CoilId} (absent : outById s id = none) (src : Node) (tag : Tag) (p : List Byte) :
    outById (unkept src tag p id s) id = none := by
  obtain ⟨b, sent⟩ := send_of_nobody (f := keptFrame src tag (p.take 17) .ok) rfl (keepChanged { s with
    ru.keeps := s.ru.keeps.filter (fun k => !k.isTriple id (BitVec.ofNat 5 (natAt p 17 1)) (natAt p 18 2)) })
  rw [unkept, sent]
  exact outById_reclaimMoment (s := { s with
    ru.keeps := s.ru.keeps.filter (fun k => !k.isTriple id (BitVec.ofNat 5 (natAt p 17 1)) (natAt p 18 2)), ar.keepReady := true }) absent

theorem mem_filter_notTriple {id : CoilId} {node : Node} {number : Nat} {keeps : List KeepEntry} {k : KeepEntry} :
    k ∈ keeps.filter (fun k => !k.isTriple id node number) ↔ k ∈ keeps ∧ ¬(k.id = id ∧ k.node = node ∧ k.number = number) := by
  rw [List.mem_filter, Bool.not_eq_true', Bool.eq_false_iff, Ne, isTriple_iff]

theorem heard_keeps (f : Frame) (s : State) : (heard f s).ru.keeps = s.ru.keeps := by rw [heard_ru]

theorem reclaimDemand_heard (f : Frame) (s : State) : reclaimDemand (heard f s) = reclaimDemand s :=
  reclaimDemand_congr (by rw [heard_ar]) (by rw [heard_ar]) (by rw [heard_ar]) (by rw [heard_ar])

/-- The keep list changed, the answer offered to another node, and the tasks of the coil's parents formed (R94, R95). -/
theorem answered_formTasks {f : Frame} {s : State} {answer : OutFrame} {e : OutEntry} {node : Node} {number : Nat} {kind : TaskKind}
    {tasks : List Task} (none : reclaimDemand s = false) (nobody : answer.owner = .nobody) (other : answer.dest ≠ s.bi.node)
    (looped : s.bi.looped = []) (room : s.ru.tasks.length ≤ 16) (keeps : List KeepEntry)
    (ht : tasks = s.ru.tasks ++ (parentIds s e).map (fun id => ⟨id, node, number, kind, e.id⟩)) :
    ∃ t, t = settle (formTasks e node number kind (send answer { heard f s with ru.keeps := keeps, ar.keepReady := true }))
      ∧ t.ru.keeps = keepsAfterTasks e.id node number kind tasks.length keeps ∧ t.ru.tasks = tasks.take 16 ∧ t.ar.keepReady = true
      ∧ (s.ru.head = .none → t.ru.head.isSome = !tasks.isEmpty) ∧ (s.ru.head.isSome = true → t.ru.head = s.ru.head)
      ∧ (s.bi.node ≠ 0 → enters answer s.bi.queue.length = true → t.bi.queue[s.bi.queue.length]? = some answer) := by
  have har := heard_ar f s
  have hru := heard_ru f s
  have hlooped := heard_looped f s
  have hnode := heard_node f s
  have hqueue := heard_queue f s
  generalize heard f s = u at har hru hlooped hnode hqueue
  have sent := send_answered (s := { u with ru.keeps := keeps, ar.keepReady := true }) nobody (by rw [← hnode] at other; exact other)
  have place : s.bi.node ≠ 0 → enters answer s.bi.queue.length = true →
      (send answer { u with ru.keeps := keeps, ar.keepReady := true }).bi.queue = s.bi.queue ++ [answer] := fun hn enters => by
    rw [send_of_other (s := { u with ru.keeps := keeps, ar.keepReady := true }) (by rw [← hnode] at hn; exact hn)
      (by rw [← hnode] at other; exact other), Bi.offered_of_room (by rw [← hqueue] at enters; exact enters)]
    exact congrArg (· ++ [answer]) hqueue
  generalize send answer { u with ru.keeps := keeps, ar.keepReady := true } = w at sent place
  have ar : w.ar = { s.ar with keepReady := true } := by rw [sent.ar, ← har]
  have ru : w.ru = { s.ru with keeps := keeps } := by rw [sent.ru, ← hru]
  have parents : parentIds w e = parentIds s e := parentIds_congr (by rw [ar]) e
  obtain ⟨t, ran, kept, formed, ready, begins, stands, places⟩ := formTasks_spec (s := w)
    ((reclaimDemand_congr (by rw [ar]) (by rw [ar]) (by rw [ar]) (by rw [ar])).trans none) (by rw [ru]; exact room)
    (sent.looped.trans (hlooped.trans looped)) (by rw [ar]) e node number kind tasks (by rw [parents, ru]; exact ht)
  rw [ru] at kept begins stands
  refine ⟨t, ran, kept, formed, ready, begins, stands, fun hn enters => ?_⟩
  have queue := place hn enters
  rw [places _ (by rw [queue, List.length_append]; exact Nat.lt_succ_self _), queue]
  exact List.getElem?_concat_length

/-! ### The obligation -/

/-- Settles O53: the answers of KEEP and UNKEEP, what they leave in the keep list, and the tasks of a coil's parents. -/
theorem keepAndUnkeepChangeTheKeepList : Obligations.KeepAndUnkeepChangeTheKeepList := by
  unfold Obligations.KeepAndUnkeepChangeTheKeepList
  refine ⟨fun f s id node number answer passes hid origin hnode hnumber frame => ?keep,
    fun f s id node number answer passes hid origin hnode hnumber frame => ?unkeep,
    fun f s id node number e passes hid origin hnode hnumber run still he fresh room none other looped held tasks ht => ?keepTasks,
    fun f s id node number e passes hid origin hnode hnumber run he kept none other looped held tasks ht => ?unkeepTasks,
    fun s e => ⟨mem_parentIds s e, parentIds_nodup s e, parentIds_sublist s e⟩⟩
  case keep =>
    have answers : ∀ st, keptFrame (senderOf f) f.tag (f.payload.take 17) st = answer st.code := fun st => by
      rw [keptFrame_of hid, frame]
    rw [exec_keep passes]
    refine ⟨fun idle => ?_, fun run => ?_⟩
    · rw [takeKeep_notReady (by rw [heard_pp]; exact idle), answers]
      rfl
    · have runs : (heard f s).pp.station = .run := by rw [heard_pp]; exact run
      have rows := keepOutcome_rows (s := heard f s) (id := id) (number := number) origin
      rw [underRename_heard, outById_heard, hasKeep_heard, heard_ar, heard_ru, ← hid, ← hnode, hnumber] at rows
      obtain ⟨rename, rows⟩ := rows
      refine ⟨fun h => ?_, fun still => ⟨fun absent => ?_, fun e he => ⟨fun kept => ?_, fun fresh full => ?_, fun fresh room untraced tasks => ?_⟩⟩⟩
      · rw [takeKeep_answers runs _ (rename h), answers]
        rfl
      · rw [takeKeep_answers runs _ ((rows still).1 absent), answers]
        split <;> rfl
      · rw [takeKeep_answers runs _ (((rows still).2 e he).1 (hnumber ▸ kept)), answers]
        rfl
      · rw [takeKeep_answers runs _ ((((rows still).2 e he).2 (hnumber ▸ fresh)).1 full), answers]
        rfl
      · rw [takeKeep_adds runs _ ((((rows still).2 e he).2 (hnumber ▸ fresh)).2 room), answers, outById_id he, ← hnode, ← hnumber, heard_keeps]
        have quiet := formTasks_of_none (e := e) (parentIds_of_untraced untraced) (answered_tasks (f := f)
          (keeps := s.ru.keeps ++ [⟨id, node, number, false⟩]) (frame 0) tasks) node number .keep
        exact congrArg (fun u => Host.Outcome.next (settle u)) quiet
  case unkeep =>
    have answers : ∀ st, keptFrame (senderOf f) f.tag (f.payload.take 17) st = answer st.code := fun st => by
      rw [keptFrame_of hid, frame]
    rw [exec_unkeep passes]
    refine ⟨fun idle => ?_, fun run absent => ?_, fun run kept none => ⟨_, ?_, fun k => mem_filter_notTriple⟩⟩
    · rw [takeUnkeep_notReady (by rw [heard_pp]; exact idle), answers]
      rfl
    · rw [takeUnkeep_notKept (by rw [heard_pp]; exact run) hid (by rw [hasKeep_heard, ← hnode, ← hnumber]; exact absent), answers]
      rfl
    · rw [(takeUnkeep_removes (by rw [heard_pp]; exact run) hid origin (by rw [hasKeep_heard, ← hnode, ← hnumber]; exact kept) _ _).1
          (outById_unkept ((outById_heard f s id).trans none) ..), unkept, answers, ← hnode, ← hnumber, heard_keeps]
      rfl
  case keepTasks =>
    obtain ⟨t, ran, keeps, formed, ready, begins, stands, _⟩ := answered_formTasks (f := f)
      (answer := keptFrame (senderOf f) f.tag (f.payload.take 17) .ok) none rfl other looped held
      (s.ru.keeps ++ [⟨e.id, node, number, false⟩]) ((outById_id he).symm ▸ ht)
    have fresh' : s.ru.keeps.any (fun k => k.isTriple e.id node number) = false := (outById_id he).symm ▸ fresh
    rw [keepsAfterTasks_added fresh', outById_id he] at keeps
    refine ⟨t, ?_, keeps, formed, ready, begins, stands⟩
    have rows := (((keepOutcome_rows (s := heard f s) (id := id) (number := number) origin).2
      ((underRename_heard f s id).trans still)).2 e ((outById_heard f s id).trans he)).2
    rw [hasKeep_heard, ← hid, ← hnode, hnumber] at rows
    rw [exec_keep passes, takeKeep_adds (by rw [heard_pp]; exact run) _ ((rows (hnumber ▸ fresh)).2 (by rw [heard_ru]; exact room)), ran,
      ← hnode, ← hnumber, keepChanged_of_noDemand ((reclaimDemand_heard f s).trans none), heard_keeps]
  case unkeepTasks =>
    obtain ⟨t, ran, keeps, formed, ready, begins, stands, answered⟩ := answered_formTasks (f := f)
      (answer := keptFrame (senderOf f) f.tag (f.payload.take 17) .ok) none rfl other looped held
      (s.ru.keeps.filter (fun k => !k.isTriple id node number)) ((outById_id he).symm ▸ ht)
    rw [keepsAfterTasks, if_neg (fun h => TaskKind.noConfusion h.2)] at keeps
    refine ⟨t, ?_, keeps.trans (List.filter_congr fun k _ => ?_), formed, ready, begins, stands, fun hn room => ?_⟩
    · have left : unkept (senderOf f) f.tag f.payload id (heard f s) = _ := congrArg (send (keptFrame (senderOf f) f.tag (f.payload.take 17) .ok))
        (keepChanged_of_noDemand ((reclaimDemand_heard f s).trans none) _)
      rw [← hnode, ← hnumber, heard_keeps] at left
      have there : outById (unkept (senderOf f) f.tag f.payload id (heard f s)) id = some e := by
        rw [left]
        obtain ⟨b, sent⟩ := send_of_nobody (f := keptFrame (senderOf f) f.tag (f.payload.take 17) .ok) rfl { heard f s with
          ru.keeps := s.ru.keeps.filter (fun k => !k.isTriple id node number), ar.keepReady := true }
        exact (congrArg (fun u => outById u id) sent).trans ((outById_heard f s id).trans he)
      rw [exec_unkeep passes, (takeUnkeep_removes (by rw [heard_pp]; exact run) hid origin
        (by rw [hasKeep_heard, ← hnode, ← hnumber]; exact kept) _ _).2 e there, ran, left, ← hnode, ← hnumber]
    · exact Bool.eq_iff_iff.2 (by rw [Bool.not_eq_true', decide_eq_true_iff, Bool.eq_false_iff, Ne, isTriple_iff])
    · rw [answered hn (by rw [enters_general rfl]; exact decide_eq_true room), keptFrame_of hid]
      rfl

end Sys2Proof.Machine
end

section
/-! PROOF. The flash interface: what is granted when, the reads whose page is discarded or taken by the amendment, the keep images in turn,
and an erase that begins, is suspended, runs on and completes (R73 to R77, R85, R86, R103). -/

namespace Sys2Proof.Machine

/-! ### Grants (R74) -/

theorem interfaceFree_iff (s : State) : interfaceFree s = true ↔ s.ar.pageWrite = none ∧ s.ar.reading = none ∧ s.ar.keepWrite = none
    ∧ s.ar.scan = none ∧ ∀ e, s.ar.erase = some e → e.phase = .suspended := by
  unfold interfaceFree
  cases s.ar.erase with
  | none => simp [and_assoc]
  | some e => simp [and_assoc]

theorem keepImageReady_iff (s : State) :
    keepImageReady s = true ↔ s.ar.keepReady = true ∧ s.ar.keepWrite = none ∧ (keepTarget s).isSome = true := by
  simp only [keepImageReady, Bool.and_eq_true, Option.isNone_iff_eq_none, and_assoc]

theorem due_iff (p : PagePlan) (s : State) : p.due s = true ↔ p.items ≠ [] ∨ 1 ≤ p.cells
    ∧ (p.full = true ∨ 256 ≤ s.cx.staging.length ∨ stagingAged s = true) := by
  unfold PagePlan.due
  rw [Bool.or_eq_true, Bool.not_eq_true', Bool.eq_false_iff, Ne, List.isEmpty_iff, Bool.and_eq_true, Bool.or_eq_true, Bool.or_eq_true,
    decide_eq_true_iff, decide_eq_true_iff, or_assoc]

theorem dataPageReady_iff (s : State) : dataPageReady s = true ↔ s.ar.pageWrite = none ∧ s.ar.scan = none
    ∧ (∃ g, activeSeg s = some g ∧ g.written < 256)
    ∧ ((planPage s).items ≠ [] ∨ 1 ≤ (planPage s).cells
      ∧ ((planPage s).full = true ∨ 256 ≤ s.cx.staging.length ∨ stagingAged s = true)) := by
  rw [dataPageReady, Bool.and_eq_true, Bool.and_eq_true, Bool.and_eq_true, due_iff, Option.isNone_iff_eq_none, Option.isNone_iff_eq_none,
    and_assoc, and_assoc]
  refine and_congr_right fun _ => and_congr_right fun _ => and_congr_left fun _ => ?_
  cases activeSeg s with
  | none => simp
  | some g => simp

theorem mem_staleKeeps (s : State) (k : Fin 2) :
    k ∈ ([0, 1] : List (Fin 2)).filter (fun k => (s.ar.keepSegs.get k).state == .stale) ↔ (s.ar.keepSegs.get k).state = .stale := by
  have both : k ∈ ([0, 1] : List (Fin 2)) := by revert k; decide
  rw [List.mem_filter, beq_iff_eq]
  exact and_iff_right both

/-- The segments that wait for erase: the STALE keep segments, or with none the CHOSEN data segments. -/
theorem mem_eraseCandidates (s : State) (n : Nat) : n ∈ eraseCandidates s ↔ (∃ k : Fin 2, k.val = n ∧ (s.ar.keepSegs.get k).state = .stale)
    ∨ (∀ k : Fin 2, (s.ar.keepSegs.get k).state ≠ .stale) ∧ ∃ g ∈ s.ar.segs, g.state = .chosen ∧ g.num = n := by
  unfold eraseCandidates
  dsimp only
  by_cases fresh : ∀ k : Fin 2, (s.ar.keepSegs.get k).state ≠ .stale
  · rw [if_pos (List.eq_nil_iff_forall_not_mem.2 fun k hk => fresh k ((mem_staleKeeps s k).1 hk)), List.mem_map]
    constructor
    · rintro ⟨g, hg, num⟩
      obtain ⟨hg, chosen⟩ := List.mem_filter.1 hg
      exact .inr ⟨fresh, g, hg, beq_iff_eq.1 chosen, num⟩
    · rintro (⟨k, _, stale⟩ | ⟨_, g, hg, chosen, num⟩)
      · exact absurd stale (fresh k)
      · exact ⟨g, List.mem_filter.2 ⟨hg, beq_iff_eq.2 chosen⟩, num⟩
  · have some : ([0, 1] : List (Fin 2)).filter (fun k => (s.ar.keepSegs.get k).state == .stale) ≠ [] := fun empty =>
      fresh fun k stale => List.not_mem_nil (empty ▸ (mem_staleKeeps s k).2 stale)
    rw [if_neg some, List.mem_map]
    constructor
    · rintro ⟨k, hk, num⟩
      exact .inl ⟨k, num, (mem_staleKeeps s k).1 hk⟩
    · rintro (⟨k, num, stale⟩ | ⟨none, _⟩)
      · exact ⟨k, (mem_staleKeeps s k).2 stale, num⟩
      · exact absurd none fresh

theorem eraseCandidates_ne_nil (s : State) :
    eraseCandidates s ≠ [] ↔ (∃ k : Fin 2, (s.ar.keepSegs.get k).state = .stale) ∨ ∃ g ∈ s.ar.segs, g.state = .chosen := by
  constructor
  · intro some
    obtain ⟨n, hn⟩ := List.exists_mem_of_ne_nil _ some
    rcases (mem_eraseCandidates s n).1 hn with ⟨k, _, stale⟩ | ⟨_, g, hg, chosen, _⟩
    exacts [.inl ⟨k, stale⟩, .inr ⟨g, hg, chosen⟩]
  · rintro (⟨k, stale⟩ | ⟨g, hg, chosen⟩)
    · exact List.ne_nil_of_mem ((mem_eraseCandidates s _).2 (.inl ⟨k, rfl, stale⟩))
    · by_cases fresh : ∀ k : Fin 2, (s.ar.keepSegs.get k).state ≠ .stale
      · exact List.ne_nil_of_mem ((mem_eraseCandidates s _).2 (.inr ⟨fresh, g, hg, chosen, rfl⟩))
      · obtain ⟨k, stale⟩ := not_forall.1 fresh
        exact List.ne_nil_of_mem ((mem_eraseCandidates s _).2 (.inl ⟨k, rfl, not_not.1 stale⟩))

theorem canEraseBegin_iff (s : State) : canEraseBegin s = true ↔ interfaceFree s = true ∧ keepImageReady s = false ∧ s.ar.erase = none
    ∧ ((∃ k : Fin 2, (s.ar.keepSegs.get k).state = .stale) ∨ ∃ g ∈ s.ar.segs, g.state = .chosen) := by
  rw [← eraseCandidates_ne_nil, canEraseBegin, Bool.and_eq_true, Bool.and_eq_true, Bool.and_eq_true, Bool.not_eq_true', Bool.not_eq_true',
    Option.isNone_iff_eq_none, Bool.eq_false_iff (b := List.isEmpty _), Ne, List.isEmpty_iff, and_assoc, and_assoc]

theorem canReadStart_iff (s : State) : canReadStart s = true ↔ interfaceFree s = true ∧ keepImageReady s = false ∧ canEraseBegin s = false
    ∧ s.ar.readQueue ≠ [] ∧ (dataPageReady s = true → s.ar.lastServed ≠ .read) := by
  rw [canReadStart, Bool.and_eq_true, Bool.and_eq_true, Bool.and_eq_true, Bool.and_eq_true, Bool.not_eq_true', Bool.not_eq_true',
    Bool.not_eq_true', Bool.eq_false_iff (b := List.isEmpty _), Ne, List.isEmpty_iff, Bool.or_eq_true, bne_iff_ne, Bool.not_eq_true',
    and_assoc, and_assoc, and_assoc]
  refine and_congr_right fun _ => and_congr_right fun _ => and_congr_right fun _ => and_congr_right fun _ => ?_
  cases dataPageReady s <;> simp

theorem canWriteData_iff (s : State) : canWriteData s = true ↔ interfaceFree s = true ∧ keepImageReady s = false ∧ canEraseBegin s = false
    ∧ dataPageReady s = true ∧ (s.ar.readQueue ≠ [] → s.ar.lastServed = .read) := by
  rw [canWriteData, Bool.and_eq_true, Bool.and_eq_true, Bool.and_eq_true, Bool.and_eq_true, Bool.not_eq_true', Bool.not_eq_true',
    Bool.or_eq_true, beq_iff_eq, List.isEmpty_iff, and_assoc, and_assoc, and_assoc]
  refine and_congr_right fun _ => and_congr_right fun _ => and_congr_right fun _ => and_congr_right fun _ => ?_
  rw [or_comm, or_iff_not_imp_left]

/-! ### Page reads (R73, R103) -/

theorem pageReadStart_begins {s : State} {r : ReadRequest} {rest : List ReadRequest} (h : canReadStart s = true)
    (hr : s.ar.readQueue = r :: rest) :
    exec .pageReadStart s = .next { s with ar.reading := some ⟨r, s.now, false⟩, ar.readQueue := rest, ar.lastServed := .read } := by
  rw [exec_pageReadStart, execPageReadStart.eq_def, h, hr]

/-- A discarded page leaves the interface free and does no more. -/
theorem completeRead_discarded {r : Reading} (h : r.discarded = true) (failed : Bool) (take : Option Page → State → State) (s : State) :
    completeRead r failed take s = { s with ar.reading := none, now := max s.now (r.began + 100) } := by
  rw [completeRead]
  exact if_pos h

theorem completeRead_taken {r : Reading} (h : r.discarded = false) (failed : Bool) (take : Option Page → State → State) (s : State) :
    completeRead r failed take s = settle (take (if failed then some .torn else s.flash.at r.request.seg r.request.page)
      { s with ar.reading := none, now := max s.now (r.began + 100) }) := by
  rw [completeRead]
  dsimp only
  rw [if_neg (by rw [h]; exact Bool.false_ne_true)]
  rfl

theorem recordReadComplete_of {s : State} {r : Reading} {c : Fin 6} (hr : s.ar.reading = some r) (reader : r.request.reader = .record c)
    (failed : Bool) : exec (.recordReadComplete failed) s = .next (completeRead r failed (takeRecordPage c) s) := by
  rw [exec_recordReadComplete, execRecordReadComplete, hr]
  dsimp only
  rw [reader]

theorem cellPageReadComplete_of {s : State} {r : Reading} {c : Fin 6} (hr : s.ar.reading = some r) (reader : r.request.reader = .cells c)
    (failed : Bool) : exec (.cellPageReadComplete failed) s = .next (completeRead r failed (takeCellPage c) s) := by
  rw [exec_cellPageReadComplete, execCellPageReadComplete, hr]
  dsimp only
  rw [reader]

theorem amendReadComplete_of {s : State} {r : Reading} (hr : s.ar.reading = some r) (reader : r.request.reader = .amend) (failed : Bool) :
    exec (.amendReadComplete failed) s = .next (completeRead r failed (takeAmendPage r.request.seg) s) := by
  rw [exec_amendReadComplete, execAmendReadComplete, hr]
  dsimp only
  rw [reader]

theorem takeAmendPage_torn {s : State} {a : Amending} (h : s.ru.amend = .opened a) (seg : Nat) :
    takeAmendPage seg (some .torn) s = lockAmend .readFailed s := by
  rw [takeAmendPage, h]

/-- A page that holds the record under amendment completes the working copy. -/
theorem takeAmendPage_stored {s : State} {a : Amending} {loc : Loc} {record : StoredRecord} {seq : Nat} {items : List PageItem}
    (h : s.ru.amend = .opened a) (at' : amendLoc s a = some loc)
    (stored : storedRecord (some (.data seq items)) loc.place a.kind a.seq = some record) (seg : Nat) :
    takeAmendPage seg (some (.data seq items)) s = { s with ru.amend := .opened { a with copy := some record } } := by
  rw [takeAmendPage, h]
  dsimp only
  rw [at']
  dsimp only
  rw [stored]

theorem storedRecord_output {items : List PageItem} {place n seq : Nat} {record : OutputRecord}
    (h : items[place]? = some (.item (.output record))) (hseq : record.seq = seq) :
    storedRecord (some (.data n items)) place .output seq = some (.output record) := by
  have held : storedOutput (some (.data n items)) place seq = some record := by
    show (match items[place]? with
      | some (.item (.output r)) => if r.seq = seq then some r else none
      | some (.item (.amendedOutput r _)) => if r.seq = seq then some r else none
      | _ => none) = _
    rw [h]
    exact if_pos hseq
  rw [storedRecord, held]
  rfl

theorem storedRecord_input {items : List PageItem} {place n seq : Nat} {record : InputRecord}
    (h : items[place]? = some (.item (.input record))) (hseq : record.seq = seq) :
    storedRecord (some (.data n items)) place .input seq = some (.input record) := by
  have held : ((dataItems (some (.data n items))).getD [])[place]? = some (.item (.input record)) := h
  rw [storedRecord.eq_def, held]
  exact if_pos hseq

/-- Settles O42: the grants, a read that begins, and the reads whose page is discarded or taken by the amendment. -/
theorem grantedAndDiscardedReads : Obligations.GrantedAndDiscardedReads := by
  unfold Obligations.GrantedAndDiscardedReads
  refine ⟨fun s => ⟨interfaceFree_iff s, keepImageReady_iff s, dataPageReady_iff s, canEraseBegin_iff s, canReadStart_iff s,
      canWriteData_iff s⟩,
    fun s r rest granted queue => pageReadStart_begins granted queue,
    fun s r failed hr discarded => ⟨fun c reader => ?_, fun c reader => ?_, fun reader => ?_⟩,
    fun s u r a seq items hr kept reader amend hu => ?amend⟩
  · rw [recordReadComplete_of hr reader, completeRead_discarded discarded]
  · rw [cellPageReadComplete_of hr reader, completeRead_discarded discarded]
  · rw [amendReadComplete_of hr reader, completeRead_discarded discarded]
  case amend =>
    subst hu
    have opened : ({ s with ar.reading := none, now := max s.now (r.began + 100) } : State).ru.amend = .opened a := amend
    refine ⟨?_, fun page => ⟨fun e record kind he stored hseq => ?_, fun e record kind he stored hseq => ?_⟩⟩
    · rw [amendReadComplete_of hr reader, completeRead_taken kept, if_pos rfl, takeAmendPage_torn opened, lockAmend]
    · have at' : amendLoc { s with ar.reading := none, now := max s.now (r.began + 100) } a = some e.loc := by
        rw [amendLoc, kind]
        exact congrArg (Option.map fun e => e.loc) he
      rw [amendReadComplete_of hr reader, completeRead_taken kept, if_neg Bool.false_ne_true, page,
        takeAmendPage_stored opened at' (by rw [kind]; exact storedRecord_output stored hseq)]
    · have at' : amendLoc { s with ar.reading := none, now := max s.now (r.began + 100) } a = some e.loc := by
        rw [amendLoc, kind]
        exact congrArg (Option.map fun e => e.loc) he
      rw [amendReadComplete_of hr reader, completeRead_taken kept, if_neg Bool.false_ne_true, page,
        takeAmendPage_stored opened at' (by rw [kind]; exact storedRecord_input stored hseq)]

end Sys2Proof.Machine
end

section
/-! PROOF. Keep images: where the next one goes, and what a completed one leaves (R85 to R87). -/

namespace Sys2Proof.Machine

/-! ### Where the next image goes (R86, R87) -/

theorem fin2_cases (k : Fin 2) : k = 0 ∨ k = 1 := by revert k; decide

/-- With one CURRENT segment the image goes to its next page, or with none left to page 0 of the other one when that is SPARE. -/
theorem keepTarget_of_current {s : State} {k : Fin 2} (current : (s.ar.keepSegs.get k).state = .current)
    (alone : (s.ar.keepSegs.get (1 - k)).state ≠ .current) :
    keepTarget s = if (s.ar.keepSegs.get k).written < 256 then some (k, (s.ar.keepSegs.get k).written)
      else if (s.ar.keepSegs.get (1 - k)).state = .spare then some (1 - k, 0) else none := by
  have found : ([0, 1] : List (Fin 2)).find? (fun k => (s.ar.keepSegs.get k).state == .current) = some k := by
    rcases fin2_cases k with rfl | rfl
    · exact List.find?_cons_of_pos (beq_iff_eq.2 current)
    · have first : ¬((s.ar.keepSegs.get 0).state == .current) = true := fun h => alone (beq_iff_eq.1 h)
      have second : ((s.ar.keepSegs.get 1).state == .current) = true := beq_iff_eq.2 current
      simp only [List.find?_cons, Bool.eq_false_iff.2 first, second]
  unfold keepTarget
  dsimp only
  rw [found]

/-- With none CURRENT the image goes to page 0 of the lowest-numbered SPARE one. -/
theorem keepTarget_of_noCurrent {s : State} (none : ∀ k : Fin 2, (s.ar.keepSegs.get k).state ≠ .current) :
    (∀ k : Fin 2, (s.ar.keepSegs.get k).state = .spare → (∀ j, j < k → (s.ar.keepSegs.get j).state ≠ .spare) →
        keepTarget s = some (k, 0))
      ∧ ((∀ k : Fin 2, (s.ar.keepSegs.get k).state ≠ .spare) → keepTarget s = .none) := by
  have found : ([0, 1] : List (Fin 2)).find? (fun k => (s.ar.keepSegs.get k).state == .current) = .none :=
    List.find?_eq_none.2 fun k _ h => none k (beq_iff_eq.1 h)
  unfold keepTarget
  dsimp only
  rw [found]
  dsimp only
  refine ⟨fun k spare lowest => ?_, fun noSpare => ?_⟩
  · rcases fin2_cases k with rfl | rfl
    · rw [firstSome, if_pos spare]
    · rw [firstSome, if_neg (lowest 0 (by decide)), firstSome, if_pos spare]
  · rw [firstSome, if_neg (noSpare 0), firstSome, if_neg (noSpare 1), firstSome]

/-! ### The image written (R74, R85) -/

theorem keepImageWrite_of_target {s : State} (free : interfaceFree s = true) (ready : s.ar.keepReady = true) :
    (∀ seg page, keepTarget s = some (seg, page) → exec .keepImageWrite s = .next { s with
        ar.keepWrite := some ⟨seg, page, s.ar.imageSeq, s.ru.keeps, s.now⟩
        ar.keepReady := false
        ar.imageSeq := s.ar.imageSeq + 1 })
      ∧ (keepTarget s = none → exec .keepImageWrite s = .next s) := by
  obtain ⟨_, _, idle, _⟩ := (interfaceFree_iff s).1 free
  rw [exec_keepImageWrite, execKeepImageWrite.eq_def]
  refine ⟨fun seg page target => ?_, fun target => ?_⟩
  · have due : keepImageReady s = true := (keepImageReady_iff s).2 ⟨ready, idle, by rw [target]; rfl⟩
    rw [free, due, target]
    rfl
  · rw [target]
    split <;> first | rfl | contradiction

theorem keepImageWriteComplete_of {s : State} {w : KeepWrite} (h : s.ar.keepWrite = some w) :
    exec .keepImageWriteComplete s = .next (completeImage w { s with now := max s.now (w.began + 1000) }) := by
  rw [exec_keepImageWriteComplete, execKeepImageWriteComplete.eq_def, h]
  rfl

theorem Vector.get_set_both {α : Type} (v : Vector α 2) (k : Fin 2) (a b : α) :
    ((v.set (1 - k) a).set k b).get k = b ∧ ((v.set (1 - k) a).set k b).get (1 - k) = a := by
  simp only [Vector.get_eq_getElem, Vector.getElem_set]
  rcases fin2_cases k with rfl | rfl <;> exact ⟨rfl, rfl⟩

/-- Settles O43: where an image goes with a CURRENT segment and with none, and what its completion leaves. -/
theorem keepImagesAreWrittenInTurn : Obligations.KeepImagesAreWrittenInTurn := by
  unfold Obligations.KeepImagesAreWrittenInTurn
  refine ⟨fun s k free ready current alone => ?_, fun s free ready none => ?_, fun s w hw page => ?_⟩
  · obtain ⟨written, waits⟩ := keepImageWrite_of_target free ready
    have target := keepTarget_of_current current alone
    refine ⟨fun room => ?_, fun full spare => ?_, fun full busy => ?_⟩
    · exact written _ _ (target.trans (if_pos room))
    · exact written _ _ (target.trans ((if_neg (not_lt.2 full)).trans (if_pos spare)))
    · exact waits (target.trans ((if_neg (not_lt.2 full)).trans (if_neg busy)))
  · obtain ⟨written, waits⟩ := keepImageWrite_of_target free ready
    obtain ⟨lowest, nowhere⟩ := keepTarget_of_noCurrent none
    exact ⟨fun k spare below => written _ _ (lowest k spare below), fun noSpare => waits (nowhere noSpare)⟩
  · obtain ⟨current, other⟩ := Vector.get_set_both s.ar.keepSegs w.seg
      (if (s.ar.keepSegs.get (1 - w.seg)).state = .current then { s.ar.keepSegs.get (1 - w.seg) with state := .stale }
        else s.ar.keepSegs.get (1 - w.seg)) ⟨.current, w.page + 1⟩
    refine ⟨_, keepImageWriteComplete_of hw, rfl, rfl, Flash.at_put_same _ _ _ _, fun seg n below different => ?_, current, other, rfl, rfl⟩
    refine (Flash.at_put _ _ page below).trans (if_neg fun same => ?_)
    exact different.elim (fun h => h (Fin.ext same.1.symm)) (fun h => h same.2.symm)

end Sys2Proof.Machine
end

section
/-! PROOF. The segment erase: it begins, is suspended, resumes and completes, and what a data segment's erase is followed by
(R74 to R77, R80, R83). -/

namespace Sys2Proof.Machine

/-! ### What settling leaves of the segment table (R77) -/

theorem segEntry_reclaimMoment {s : State} {n : Nat} (h : segEntry s n = none) : segEntry (reclaimMoment s) n = none := by
  unfold reclaimMoment
  split
  · split
    next g hg =>
      obtain ⟨listed, _⟩ := lowestEligible_spec hg
      have other : n ≠ g.num := fun same => List.find?_eq_none.1 h g listed (beq_iff_eq.2 same.symm)
      rw [chooseSegment_eq, segEntry, failAmendRead_ar]
      exact (find_putSeg_other { g with state := .chosen } s.ar.segs other).trans h
    next => exact h
  · exact h

theorem dropItem_segs (w : WriteItem) (s : State) : (dropItem w s).ar.segs = s.ar.segs := by
  unfold dropItem
  cases w <;> dsimp only <;> [rfl; rfl; rfl; skip; skip] <;> split <;> rfl

theorem foldl_dropItem_segs (l : List WriteItem) (s : State) : (l.foldl (fun s w => dropItem w s) s).ar.segs = s.ar.segs := by
  induction l generalizing s with
  | nil => rfl
  | cons w l ih => rw [List.foldl_cons, ih, dropItem_segs]

theorem segEntry_settleArchive {s : State} {n : Nat} (h : segEntry s n = none) : segEntry (settleArchive s) n = none := by
  have placed : segEntry (placeMoment s) n = none := by
    unfold placeMoment
    split
    · exact h
    · split <;> [exact segEntry_reclaimMoment h; exact h]
  have dropped : (dropPlaceless (placeMoment s)).ar.segs = (placeMoment s).ar.segs := by
    unfold dropPlaceless
    split
    · exact foldl_dropItem_segs _ _
    · rfl
  have raised (u : State) : (raiseConditions u).ar.segs = u.ar.segs := by
    unfold raiseConditions
    dsimp only
    split <;> split <;> rfl
  unfold segEntry at placed ⊢
  rw [show (settleArchive s).ar.segs = (placeMoment s).ar.segs from (raised _).trans dropped]
  exact placed

/-! ### Handing over leaves whether an activation waits -/

theorem handReadyN_activationWaits (n : Nat) (s : State) : (handReadyN n s).ar.activationWaits = s.ar.activationWaits := by
  induction n generalizing s with
  | zero => rfl
  | succ n ih =>
    unfold handReadyN
    split
    · rfl
    · split
      · rename_i r rest _ _
        have moved (u : State) : (reclaimMoment (handItem (.output r) u)).ar.activationWaits = u.ar.activationWaits :=
          congrArg (fun u => u.ar.activationWaits) ((handItem_move _ _).trans (reclaimMoment_move _)).rest
        rw [ih]
        exact moved _
      · rfl

theorem enterRecordOnly_activationWaits (s : State) : (enterRecordOnly s).ar.activationWaits = s.ar.activationWaits :=
  handReadyN_activationWaits _ _

/-! ### An erase begins (R74, R75) -/

theorem eraseTarget_spec {s : State} (h : eraseCandidates s ≠ []) : ∃ n ∈ eraseCandidates s, eraseTarget s = some n := by
  unfold eraseTarget
  split
  · contradiction
  · rename_i n one
    exact ⟨n, by rw [one]; exact List.mem_singleton_self n, rfl⟩
  · have inside := Nat.mod_lt (Config.eraseOrder s.free) (List.length_pos_of_ne_nil h)
    exact ⟨_, List.getElem_mem inside, List.getElem?_eq_getElem inside⟩

theorem markErasing_keep {n : Nat} {k : Fin 2} (h : k.val = n) (s : State) : ((markErasing n s).ar.keepSegs.get k).state = .erasing := by
  subst h
  rcases fin2_cases k with rfl | rfl
  · show ((s.ar.keepSegs.set 0 _).get 0).state = _
    simp only [Vector.get_eq_getElem, Vector.getElem_set]
    rfl
  · show ((s.ar.keepSegs.set 1 _).get 1).state = _
    simp only [Vector.get_eq_getElem, Vector.getElem_set]
    rfl

theorem markErasing_data {n : Nat} (h : 2 ≤ n) (s : State) : markErasing n s = { s with
    ar.segs := s.ar.segs.map (fun g => if g.num = n then { g with state := .erasing } else g) } := by
  obtain ⟨m, rfl⟩ := Nat.exists_eq_add_of_le' h
  rfl

theorem markErasing_rest (n : Nat) (s : State) : (markErasing n s).ar.erase = s.ar.erase ∧ (markErasing n s).flash = s.flash
    ∧ (markErasing n s).pp = s.pp ∧ (markErasing n s).ru = s.ru ∧ (markErasing n s).now = s.now := by
  unfold markErasing
  split <;> exact ⟨rfl, rfl, rfl, rfl, rfl⟩

theorem eraseBegin_of {s : State} {n : Nat} (h : canEraseBegin s = true) (target : eraseTarget s = some n) :
    exec .eraseBegin s = .next (markErasing n { s with ar.erase := some ⟨n, .running, 0, s.now⟩, free := s.free + 1 }) := by
  rw [exec_eraseBegin, execEraseBegin.eq_def, h, target]

/-! ### An erase completes (R76, R77, R83) -/

theorem eraseComplete_of {s : State} {e : Erase} (he : s.ar.erase = some e) (running : e.phase = .running) :
    exec .eraseComplete s = .next (settle (completeErase e.seg { s with now := max s.now (e.since + (400000 - e.total)) })) := by
  have may : e.mayComplete = true := by rw [Erase.mayComplete, running]
  rw [exec_eraseComplete, execEraseComplete, he]
  dsimp only
  rw [if_pos may]
  rfl

/-- The state with a segment erased, its place in the segment table not yet given up. -/
def segErased (n : Nat) (s : State) : State := { s with flash := s.flash.eraseSeg n, ar.erase := none }

theorem completeErase_keep (k : Fin 2) (s : State) :
    completeErase k.val s = { segErased k.val s with ar.keepSegs := s.ar.keepSegs.set k.val ⟨.spare, 0⟩ } := by
  rcases fin2_cases k with rfl | rfl <;> rfl

/-- What follows a data segment's erase: the stage moves, an activation that waits is served, and reclaim is chosen. -/
def dataErased (s : State) : State :=
  reclaimMoment (if (stageAfterErase s).ar.activationWaits then activate (stageAfterErase s) else stageAfterErase s)

theorem completeErase_data {n : Nat} (h : 2 ≤ n) (s : State) : completeErase n s
    = dataErased { s with flash := s.flash.eraseSeg n, ar.erase := none, ar.segs := s.ar.segs.filter (fun g => g.num != n) } := by
  obtain ⟨m, rfl⟩ := Nat.exists_eq_add_of_le' h
  rfl

theorem dataErased_of_stage {u v : State} (h : stageAfterErase u = v) (waits : v.ar.activationWaits = u.ar.activationWaits) :
    dataErased u = reclaimMoment (if u.ar.activationWaits then activate v else v) := by
  rw [dataErased, h, waits]

/-- The rows of R83. -/
theorem stageAfterErase_rows (u : State) :
    (u.ar.stage = .normal ∨ u.ar.stage = .recordOnly ∧ freeCount u < 2 → stageAfterErase u = u)
      ∧ (u.ar.stage = .recordOnly → 2 ≤ freeCount u → stageAfterErase u = { u with ar.stage := .normal })
      ∧ (u.ar.stage = .full → 1 ≤ freeCount u → stageAfterErase u = enterRecordOnly (activateLowest u)) := by
  unfold stageAfterErase
  refine ⟨fun stands => ?_, fun stage free => ?_, fun stage free => ?_⟩
  · rcases stands with stage | ⟨stage, few⟩
    · rw [stage]
    · rw [stage]
      exact if_neg (not_le.2 few)
  · rw [stage]
    exact if_pos free
  · rw [stage]
    exact if_pos free

theorem dataErased_of_full {u : State} (stage : u.ar.stage = .full) (free : 1 ≤ freeCount u) :
    dataErased u = reclaimMoment (handReady (afterTrendStop (afterActivation u))) := by
  have entered := (stageAfterErase_rows u).2.2 stage free
  have served : (enterRecordOnly (activateLowest u)).ar.activationWaits = false := enterRecordOnly_activationWaits _
  rw [dataErased, entered, served, if_neg Bool.false_ne_true]
  rfl

theorem dataErased_line (u : State) : LineMove u (dataErased u) := by
  unfold dataErased
  refine .after (reclaim_line _) ?_
  split
  · exact .after (activate_line _) (stageAfterErase_line u)
  · exact stageAfterErase_line u

/-- What a completed erase leaves of the clock, the flash and the erase in progress. -/
theorem completeErase_rest (n : Nat) (s : State) : (settle (completeErase n s)).now = s.now
    ∧ (settle (completeErase n s)).flash = s.flash.eraseSeg n ∧ (settle (completeErase n s)).ar.erase = none
    ∧ (settle (completeErase n s)).ar.keepSegs = (completeErase n s).ar.keepSegs := by
  have settled := settle_move (completeErase n s)
  have erase : (settle (completeErase n s)).ar.erase = (completeErase n s).ar.erase := congrArg (fun u => u.ar.erase) settled.rest
  have keepSegs : (settle (completeErase n s)).ar.keepSegs = (completeErase n s).ar.keepSegs :=
    congrArg (fun u => u.ar.keepSegs) settled.rest
  rw [settled.now, settled.flash, erase, keepSegs]
  by_cases data : 2 ≤ n
  · have line := dataErased_line { s with
      flash := s.flash.eraseSeg n, ar.erase := none, ar.segs := s.ar.segs.filter (fun g => g.num != n) }
    rw [completeErase_data data]
    exact ⟨line.now, line.flash, congrArg (fun u => u.ar.erase) line.rest, rfl⟩
  · have keep : n = 0 ∨ n = 1 := by omega
    rcases keep with rfl | rfl <;> exact ⟨rfl, rfl, rfl, rfl⟩

theorem segEntry_filter (n : Nat) (segs : List SegEntry) : (segs.filter (fun g => g.num != n)).find? (fun g => g.num == n) = none :=
  List.find?_eq_none.2 fun g hg same => by
    obtain ⟨_, other⟩ := List.mem_filter.1 hg
    exact bne_iff_ne.1 other (beq_iff_eq.1 same)

/-- Settles O44: the erase's four events, and what a data segment's erase is followed by. -/
theorem erasesRunAreSuspendedAndComplete : Obligations.ErasesRunAreSuspendedAndComplete := by
  unfold Obligations.ErasesRunAreSuspendedAndComplete
  refine ⟨fun s begins => ?begin, fun s e he => ⟨fun t running waits ht before => ?order, fun t ordered complete suspending ht before =>
    ?suspend, fun suspended free quiet => ?resume⟩, fun s e he running => ?complete, fun s u e he running data hu => ?stage⟩
  case begin =>
    obtain ⟨_, _, _, wait⟩ := (canEraseBegin_iff s).1 begins
    obtain ⟨n, hn, target⟩ := eraseTarget_spec ((eraseCandidates_ne_nil s).2 wait)
    obtain ⟨erase, flash, pp, ru, now⟩ := markErasing_rest n { s with ar.erase := some ⟨n, .running, 0, s.now⟩, free := s.free + 1 }
    refine ⟨_, n, hn, eraseBegin_of begins target, erase, flash, fun data => ⟨?_, ?_⟩, fun k hk => markErasing_keep hk _, pp, ru, now⟩
    · rcases (mem_eraseCandidates s n).1 hn with ⟨k, rfl, _⟩ | ⟨fresh, _⟩
      · exact absurd data (by omega)
      · exact fresh
    · rw [markErasing_data data]
  case order =>
    subst ht
    have ordered : advanceTo (max s.now (e.since + eraseRunTime)) s = { s with now := max s.now (e.since + 5000) } :=
      congrArg (fun n => ({ s with now := n } : State)) (max_eq_right (le_max_left _ _))
    refine ⟨max s.now (e.since + 5000) + Config.suspendDelay s.free % 201, Nat.le_add_right _ _, ?_, ?_⟩
    · have := Nat.mod_lt (Config.suspendDelay s.free) (show 0 < 201 by decide)
      omega
    · rw [exec_eraseSuspendOrder, execEraseSuspendOrder, he]
      dsimp only
      rw [if_pos ⟨running, waits, before⟩, ordered]
      rfl
  case suspend =>
    subst ht
    rw [exec_eraseSuspendComplete, execEraseSuspendComplete, he]
    dsimp only
    rw [suspending]
    exact congrArg Host.Outcome.next (if_pos before)
  case resume =>
    rw [exec_eraseResume, execEraseResume.eq_def, (canEraseResume_iff s).2 ⟨e, he, suspended, free, quiet⟩, he]
  case complete =>
    obtain ⟨now, flash, erase, keepSegs⟩ := completeErase_rest e.seg { s with now := max s.now (e.since + (400000 - e.total)) }
    refine ⟨_, eraseComplete_of he running, erase, now, fun page below => ?_, fun seg page below other => ?_, fun k hk => ?_,
      fun data looped stage quiet => ?_⟩
    · rw [flash, Flash.at_eraseSeg _ _ _ _ below, if_pos rfl]
    · rw [flash, Flash.at_eraseSeg _ _ _ _ below, if_neg other]
    · rw [keepSegs, ← hk, completeErase_keep]
      simp only [Vector.get_eq_getElem, Vector.getElem_set, if_true]
    · have stands := (stageAfterErase_rows { s with
        now := max s.now (e.since + (400000 - e.total)), flash := s.flash.eraseSeg e.seg, ar.erase := none
        ar.segs := s.ar.segs.filter (fun g => g.num != e.seg) }).1 (.inl stage)
      have after := dataErased_of_stage stands rfl
      rw [if_neg (by rw [quiet]; exact Bool.false_ne_true)] at after
      rw [completeErase_data data, after, settle_eq (by rw [(reclaimMoment_move _).bi]; exact looped)]
      exact segEntry_settleArchive (segEntry_reclaimMoment (segEntry_filter _ _))
  case stage =>
    have ran : exec .eraseComplete s = .next (settle (dataErased u)) := by
      rw [eraseComplete_of he running, completeErase_data data, hu]
    have waits : u.ar.activationWaits = s.ar.activationWaits := by rw [hu]
    have stage : u.ar.stage = s.ar.stage := by rw [hu]
    obtain ⟨stands, normal, full⟩ := stageAfterErase_rows u
    rw [stage] at stands normal
    rw [ran, ← waits]
    refine ⟨fun rows => ?_, fun recordOnly free v hv => ?_, fun isFull free => ?_⟩
    · rw [dataErased_of_stage (stands rows) rfl]
    · rw [dataErased_of_stage ((normal recordOnly free).trans hv.symm) (by rw [hv])]
    · rw [dataErased_of_full (stage.trans isFull) free]

end Sys2Proof.Machine
end

section
/-! PROOF. Exit welds: the boundary that enters among those pending, the boundary that passes, and the exit coil that ends and begins
(R20 to R26). -/

namespace Sys2Proof.Machine

/-! ### A filtered change as the line's blocks see it (R3) -/

/-- What the line's blocks look at stands when a filtered change is taken. -/
structure AsTaken (s u : State) : Prop where
  ca : u.ca = s.ca
  cx : u.cx = s.cx
  ar : u.ar = s.ar
  ru : u.ru = s.ru
  pp : u.pp = s.pp
  bi : u.bi = s.bi
  run : runCoord u = runCoord s
  entry : entryLength u.tiu = entryLength s.tiu

theorem fires_taken {k : Fin 12} {s : State} {kinds : PrevMatch} (f : Fires k s kinds) :
    ∃ u, AsTaken s u ∧ exec (.filteredChange k) s = .next (settleArchive (fireKinds kinds u)) := by
  obtain ⟨c, hc⟩ := Option.isSome_iff_exists.1 f.change
  exact ⟨changeTaken k c s, ⟨rfl, rfl, rfl, rfl, rfl, rfl, rfl, rfl⟩, exec_filteredChange_fires f hc⟩

theorem flagSet_of_kept {a : Attention} {s t : State} (h : FlagsKept s t) (set : flagSet a s = true) : flagSet a t = true := by
  unfold flagSet at *
  exact h _ set

theorem flagSet_settleArchive {a : Attention} {s : State} (h : a ∉ archiveFlags) : flagSet a (settleArchive s) = flagSet a s :=
  settleArchive_only s a h

theorem flagSet_settleArchive_raised (a : Attention) (s : State) : flagSet a (settleArchive (raise a s)) = true :=
  flagSet_of_kept (settleArchive_move _).flags (flagSet_raise_same a s)

/-! ### Boundaries pending (R24) -/

theorem insertBoundary_spec (b : Boundary) (l : List Boundary) : ∃ before after, l = before ++ after
    ∧ insertBoundary b l = before ++ b :: after ∧ (∀ a ∈ before, a.w ≤ b.w) ∧ ∀ a, after.head? = some a → b.w < a.w := by
  induction l with
  | nil => exact ⟨[], [], rfl, rfl, fun _ h => absurd h List.not_mem_nil, fun _ h => by cases h⟩
  | cons a rest ih =>
    by_cases below : a.w ≤ b.w
    · obtain ⟨before, after, whole, put, le, lt⟩ := ih
      refine ⟨a :: before, after, by rw [whole, List.cons_append], ?_, List.forall_mem_cons.2 ⟨below, le⟩, lt⟩
      rw [insertBoundary, if_pos below, put, List.cons_append]
    · refine ⟨[], a :: rest, rfl, by rw [insertBoundary, if_neg below, List.nil_append], fun _ h => absurd h List.not_mem_nil, fun x h => ?_⟩
      rw [← Option.some.inj h]
      exact not_le.1 below

theorem mem_insertBoundary {a b : Boundary} {l : List Boundary} : a ∈ insertBoundary b l ↔ a = b ∨ a ∈ l := by
  obtain ⟨before, after, whole, put, _⟩ := insertBoundary_spec b l
  rw [put, whole, List.mem_append, List.mem_cons, List.mem_append]
  exact or_left_comm

theorem passDue_of_none {r : Nat} {s : State} (h : ∀ b ∈ s.ca.boundaries, r < b.w) : passDue r s = s := by
  have none : s.ca.boundaries.takeWhile (fun b => decide (b.w ≤ r)) = [] := by
    cases hb : s.ca.boundaries with
    | nil => rfl
    | cons b rest =>
      rw [hb] at h
      exact List.takeWhile_cons_of_neg (by rw [decide_eq_true_iff, not_le]; exact h b List.mem_cons_self)
  rw [passDue, none, passAll]

theorem passDue_of_one {r : Nat} {s : State} {b : Boundary} {later : List Boundary} (hb : s.ca.boundaries = b :: later) (due : b.w ≤ r)
    (rest : ∀ x ∈ later, r < x.w) : passDue r s = passBoundary b { s with ca.boundaries := later } := by
  have stop : later.takeWhile (fun b => decide (b.w ≤ r)) = [] := by
    cases later with
    | nil => rfl
    | cons x rest' => exact List.takeWhile_cons_of_neg (by rw [decide_eq_true_iff, not_le]; exact rest x List.mem_cons_self)
  have one : s.ca.boundaries.takeWhile (fun b => decide (b.w ≤ r)) = [b] := by
    simp only [hb, List.takeWhile_cons, decide_eq_true due, stop, if_true]
  have dropped : s.ca.boundaries.drop 1 = later := by rw [hb]; rfl
  rw [passDue, one, passAll, passAll, dropped]

theorem enterBoundary_of_few {s : State} (h : s.ca.boundaries.length < 4) (b : Boundary) :
    enterBoundary b s = passDue (runCoord s) { s with ca.boundaries := insertBoundary b s.ca.boundaries } := by
  have few : forceOldestBoundary s = s := if_neg (not_le.2 h)
  rw [enterBoundary, few]

theorem forceOldestBoundary_of {s : State} {o : Boundary} {others : List Boundary} (h : s.ca.boundaries = o :: others)
    (full : others.length = 3) : forceOldestBoundary s
      = raise .trackingFault (passBoundary { o with w := runCoord s, estimated := true } { s with ca.boundaries := others }) := by
  rw [forceOldestBoundary, if_pos (by rw [h, List.length_cons, full])]
  rw [h]

/-! ### A boundary that passes (R25, R26) -/

theorem find_mapFirst {α : Type} {p : α → Bool} {g : α → α} (keeps : ∀ a, p a = true → p (g a) = true) (l : List α) :
    (mapFirst p g l).find? p = (l.find? p).map g := by
  induction l with
  | nil => rfl
  | cons a rest ih =>
    rw [mapFirst]
    by_cases h : p a = true
    · rw [if_pos h, List.find?_cons_of_pos (keeps a h), List.find?_cons_of_pos h, Option.map_some]
    · rw [if_neg h, List.find?_cons_of_neg h, List.find?_cons_of_neg h, ih]

/-- The starting coil of a boundary with its head position. -/
def InputCoil.begun (b : Boundary) (e : InputCoil) : InputCoil :=
  { e with w0 := some b.w, estimated := e.estimated || b.estimated }

/-- The coil assembler after a boundary's starting coil became the exit coil and the open coils took the reference. -/
def Ca.passed (b : Boundary) (ref : Option Nat) (a : Ca) : Ca :=
  { a with
    exitCoil := some b.starting
    table := mapFirst (fun x => x.seq == b.starting) (InputCoil.begun b) a.table
    openCoils := a.openCoils.map (OpenCoil.pass b.w ref) }

theorem find_begun (b : Boundary) (table : List InputCoil) :
    (mapFirst (fun x => x.seq == b.starting) (InputCoil.begun b) table).find? (fun x => x.seq == b.starting)
      = (table.find? (fun x => x.seq == b.starting)).map (InputCoil.begun b) :=
  find_mapFirst (p := fun x => x.seq == b.starting) (g := InputCoil.begun b) (fun _ h => h) table

theorem passBoundary_eq {b : Boundary} {s : State} {f : InputCoil} (hf : tableEntry (endExitCoil b s) b.starting = some f) :
    passBoundary b s = { endExitCoil b s with
      ca := (endExitCoil b s).ca.passed b (if f.id = [] then none else some b.starting) } := by
  have ref : exitRef (beginExitCoil b (endExitCoil b s)) = if f.id = [] then none else some b.starting := by
    have entry : tableEntry (beginExitCoil b (endExitCoil b s)) b.starting = some (f.begun b) :=
      (find_begun b _).trans (congrArg (Option.map (InputCoil.begun b)) hf)
    have exit : (beginExitCoil b (endExitCoil b s)).ca.exitCoil = some b.starting := rfl
    rw [exitRef, exit]
    dsimp only
    rw [entry]
    rfl
  rw [passBoundary, ref]
  rfl

/-- With no exit coil before it a boundary begins its coil and does no more. -/
theorem passBoundary_first {b : Boundary} {s : State} {f : InputCoil} (exit : s.ca.exitCoil = none)
    (hf : tableEntry s b.starting = some f) :
    passBoundary b s = { s with ca := s.ca.passed b (if f.id = [] then none else some b.starting) } := by
  have stands : endExitCoil b s = s := by rw [endExitCoil, exit]
  have eq := passBoundary_eq (b := b) (s := s) (f := f) (by rw [stands]; exact hf)
  rw [stands] at eq
  exact eq

/-- The record of an input coil that ends at a boundary (R39). -/
def InputCoil.closed (b : Boundary) (seq : Nat) (e : InputCoil) : InputRecord :=
  ⟨seq, e.id, e.lin.getD 1, e.w0.getD b.w, b.w, e.estimated || b.estimated, e.long, false, 0⟩

theorem endExitCoil_of {b : Boundary} {s : State} {seq : Nat} {e : InputCoil} (exit : s.ca.exitCoil = some seq)
    (he : tableEntry s seq = some e) :
    (e.id = [] → endExitCoil b s = { s with ca.table := dropFirst (fun x => x.seq == seq) s.ca.table })
      ∧ (e.id ≠ [] → endExitCoil b s = raise .inputClosed (handItem (.input (e.closed b seq))
          { s with ca.table := dropFirst (fun x => x.seq == seq) s.ca.table })) := by
  rw [endExitCoil, exit]
  dsimp only
  rw [he]
  dsimp only
  exact ⟨fun none => if_pos none, fun named => if_neg named⟩

theorem endExitCoil_ca {b : Boundary} {s : State} {seq : Nat} {e : InputCoil} (exit : s.ca.exitCoil = some seq)
    (he : tableEntry s seq = some e) : (endExitCoil b s).ca = { s.ca with table := dropFirst (fun x => x.seq == seq) s.ca.table } := by
  obtain ⟨none, named⟩ := endExitCoil_of (b := b) exit he
  by_cases id : e.id = []
  · rw [none id]
  · rw [named id, raise_ca, (handItem_move _ _).ca]

theorem exitWeld_of {s : State} {weld : Weld} {rest : List Weld} (h : s.ca.welds = weld :: rest) :
    exitWeld s = enterBoundary ⟨runCoord s + s.ca.dw, weld.starting, false⟩ { s with ca.welds := rest } := by
  rw [exitWeld, h]

theorem exitWeld_of_none {s : State} (h : s.ca.welds = []) : exitWeld s = raise .trackingFault s := by rw [exitWeld, h]

/-- What the passage does to one open coil (R26). -/
theorem pass_rows (w : Nat) (ref : Option Nat) {c : OpenCoil} {earlier : List OpenSegment} {last : OpenSegment}
    (h : c.segments = earlier ++ [last]) :
    (w - c.c0 = last.t0 → c.pass w ref = { c with segments := earlier ++ [⟨ref, last.t0⟩] })
      ∧ (w - c.c0 ≠ last.t0 → c.segments.length < 8 → c.pass w ref = { c with segments := c.segments ++ [⟨ref, w - c.c0⟩] })
      ∧ (w - c.c0 ≠ last.t0 → 8 ≤ c.segments.length →
          c.pass w ref = { c with flags.overflow := true, further := min 255 (c.further + 1) }) := by
  have tail : c.segments.getLast? = some last := by rw [h]; exact List.getLast?_concat
  have front : c.segments.dropLast = earlier := by rw [h]; exact List.dropLast_concat
  rw [OpenCoil.pass, tail]
  dsimp only
  refine ⟨fun same => ?_, fun other room => ?_, fun other full => ?_⟩
  · rw [if_pos same, front, same]
  · rw [if_neg other, if_pos room]
  · rw [if_neg other, if_neg (not_lt.2 full)]

/-- An exit weld ahead of the exit: its boundary enters the list in its place (R23, R24). -/
theorem exitWeld_waits {s : State} {weld : Weld} {rest : List Weld} (welds : s.ca.welds = weld :: rest) (few : s.ca.boundaries.length < 4)
    (ahead : 0 < s.ca.dw) (clear : ∀ b ∈ s.ca.boundaries, runCoord s < b.w) :
    ∃ before after, s.ca.boundaries = before ++ after ∧ exitWeld s = { s with ca := { s.ca with
        welds := rest, boundaries := before ++ ⟨runCoord s + s.ca.dw, weld.starting, false⟩ :: after } }
      ∧ (∀ b ∈ before, b.w ≤ runCoord s + s.ca.dw) ∧ ∀ b, after.head? = some b → runCoord s + s.ca.dw < b.w := by
  obtain ⟨before, after, whole, put, le, lt⟩ := insertBoundary_spec ⟨runCoord s + s.ca.dw, weld.starting, false⟩ s.ca.boundaries
  refine ⟨before, after, whole, ?_, le, lt⟩
  rw [exitWeld_of welds, enterBoundary_of_few (s := { s with ca.welds := rest }) few, ← put]
  refine passDue_of_none (s := { s with ca := { s.ca with
    welds := rest, boundaries := insertBoundary ⟨runCoord s + s.ca.dw, weld.starting, false⟩ s.ca.boundaries } }) fun b hb => ?_
  rcases mem_insertBoundary.1 hb with rfl | hb
  · exact Nat.lt_add_of_pos_right ahead
  · exact clear b hb

/-- An exit weld at the exit: its boundary passes at once (R23, R24). -/
theorem exitWeld_passesAtOnce {s : State} {weld : Weld} {rest : List Weld} (welds : s.ca.welds = weld :: rest)
    (empty : s.ca.boundaries = []) (atExit : s.ca.dw = 0) :
    exitWeld s = passBoundary ⟨runCoord s, weld.starting, false⟩ { s with ca := { s.ca with welds := rest, boundaries := [] } } := by
  have few : (({ s with ca.welds := rest } : State).ca.boundaries).length < 4 := by
    show s.ca.boundaries.length < 4
    rw [empty]
    exact Nat.zero_lt_succ 3
  rw [exitWeld_of welds, atExit, Nat.add_zero, enterBoundary_of_few few]
  exact passDue_of_one (s := { s with ca := { s.ca with
      welds := rest, boundaries := insertBoundary ⟨runCoord s, weld.starting, false⟩ s.ca.boundaries } })
    (by rw [empty]; rfl) (le_refl _) (fun _ h => absurd h List.not_mem_nil)

/-- A boundary passes with the ending coil and its starting coil first in the table. -/
theorem passBoundary_ends {b : Boundary} {s : State} {seq : Nat} {e f : InputCoil} {more : List InputCoil} (exit : s.ca.exitCoil = some seq)
    (table : s.ca.table = e :: f :: more) (hseq : e.seq = seq) (start : f.seq = b.starting) :
    passBoundary b s = { endExitCoil b s with ca := { s.ca with
        exitCoil := some b.starting
        table := f.begun b :: more
        openCoils := s.ca.openCoils.map (OpenCoil.pass b.w (if f.id = [] then none else some b.starting)) } } := by
  have he : tableEntry s seq = some e := by
    rw [tableEntry, table]
    exact List.find?_cons_of_pos (beq_iff_eq.2 hseq)
  have left : dropFirst (fun x : InputCoil => x.seq == seq) s.ca.table = f :: more := by
    rw [table]
    exact if_pos (beq_iff_eq.2 hseq)
  have ca := endExitCoil_ca (b := b) exit he
  rw [left] at ca
  have hf : tableEntry (endExitCoil b s) b.starting = some f := by
    rw [tableEntry, ca]
    exact List.find?_cons_of_pos (beq_iff_eq.2 start)
  have begun : mapFirst (fun x => x.seq == b.starting) (InputCoil.begun b) (f :: more) = f.begun b :: more := if_pos (beq_iff_eq.2 start)
  rw [passBoundary_eq hf, ca, Ca.passed, begun]

/-- The record of an ending coil enters a quiet archive's write queue. -/
theorem endExitCoil_quiet {b : Boundary} {s : State} {seq : Nat} {e : InputCoil} (exit : s.ca.exitCoil = some seq)
    (he : tableEntry s seq = some e) (named : e.id ≠ []) (quiet : Quiet s) :
    ∃ z, endExitCoil b s = z ∧ flagSet .inputClosed z = true
      ∧ z.ar = { s.ar with writeQueue := s.ar.writeQueue ++ [.input (e.closed b seq)] } := by
  have room : directoryFull { s with ca.table := dropFirst (fun x => x.seq == seq) s.ca.table } = false := quiet.directory
  obtain ⟨flags, handed⟩ := handItem_of_room (w := .input (e.closed b seq))
    (s := { s with ca.table := dropFirst (fun x => x.seq == seq) s.ca.table }) (by rw [quiet.stage]; exact Stage.noConfusion)
    (by rw [directoryStuck, room, Bool.false_and, Bool.and_false]) quiet.queue
  refine ⟨_, (endExitCoil_of exit he).2 named, flagSet_raise_same _ _, ?_⟩
  rw [handed]
  rfl

/-- With four boundaries held the oldest passes at the present run coordinate (R24). -/
theorem exitWeld_forces {s : State} {weld : Weld} {rest : List Weld} {o : Boundary} {others : List Boundary} {f : InputCoil}
    (welds : s.ca.welds = weld :: rest) (held : s.ca.boundaries = o :: others) (three : others.length = 3) (ahead : 0 < s.ca.dw)
    (clear : ∀ b ∈ others, runCoord s < b.w) (exit : s.ca.exitCoil = none) (hf : tableEntry s o.starting = some f) :
    ∃ before after, others = before ++ after ∧ exitWeld s = raise .trackingFault { s with ca :=
        { s.ca.passed ⟨runCoord s, o.starting, true⟩ (if f.id = [] then none else some o.starting) with
          welds := rest, boundaries := before ++ ⟨runCoord s + s.ca.dw, weld.starting, false⟩ :: after } }
      ∧ (∀ b ∈ before, b.w ≤ runCoord s + s.ca.dw) ∧ ∀ b, after.head? = some b → runCoord s + s.ca.dw < b.w := by
  obtain ⟨before, after, whole, put, le, lt⟩ := insertBoundary_spec ⟨runCoord s + s.ca.dw, weld.starting, false⟩ others
  refine ⟨before, after, whole, ?_, le, lt⟩
  have passed := passBoundary_first (s := { s with ca := { s.ca with welds := rest, boundaries := others } })
    (b := ⟨runCoord s, o.starting, true⟩) exit hf
  have forced : forceOldestBoundary { s with ca.welds := rest } = raise .trackingFault { s with ca :=
      { s.ca.passed ⟨runCoord s, o.starting, true⟩ (if f.id = [] then none else some o.starting) with
        welds := rest, boundaries := others } } :=
    (forceOldestBoundary_of (s := { s with ca.welds := rest }) held three).trans (congrArg (raise .trackingFault) passed)
  rw [exitWeld_of welds, enterBoundary, forced, ← put]
  refine passDue_of_none fun b hb => ?_
  rcases mem_insertBoundary.1 hb with rfl | hb
  · exact Nat.lt_add_of_pos_right ahead
  · exact clear b hb

/-- Settles O19: the exit weld's boundary that waits, the one that passes at once, the oldest of four forced to pass, and the effect of a
passage on an open coil. -/
theorem exitWeldPlacesABoundaryThatPasses : Obligations.ExitWeldPlacesABoundaryThatPasses := by
  unfold Obligations.ExitWeldPlacesABoundaryThatPasses
  refine ⟨fun k s fires => ⟨fun none => ?none, fun weld rest welds few ahead clear => ?waits⟩,
    fun k s weld rest seq lin w0 e f more fires welds empty atExit exit table hseq start apart hlin hw0 => ?passes,
    fun k s weld rest o others f fires welds held three ahead clear noExit hf => ?forced,
    fun w ref c earlier last h => pass_rows w ref h⟩
  case none =>
    obtain ⟨u, taken, ran⟩ := fires_taken fires
    have fired : fireKinds ⟨false, true, false, false⟩ u = raise .trackingFault u := exitWeld_of_none (by rw [taken.ca, none])
    rw [fired] at ran
    exact ⟨_, ran, (settleArchive_move _).ca.trans taken.ca, flagSet_settleArchive_raised _ _⟩
  case waits =>
    obtain ⟨u, taken, ran⟩ := fires_taken fires
    obtain ⟨before, after, whole, waits, le, lt⟩ := exitWeld_waits (s := u) (by rw [taken.ca, welds]) (by rw [taken.ca]; exact few)
      (by rw [taken.ca]; exact ahead) (by rw [taken.ca, taken.run]; exact clear)
    have fired : fireKinds ⟨false, true, false, false⟩ u = _ := waits
    rw [taken.run, taken.ca] at *
    rw [fired] at ran
    refine ⟨_, before, after, ran, whole, (settleArchive_move _).ca, le, lt, ?_⟩
    rw [flagSet_settleArchive (by decide)]
    exact congrArg (fun p : Pp => p.flags.getLsbD Attention.trackingFault.bit) taken.pp
  case passes =>
    obtain ⟨u, taken, ran⟩ := fires_taken fires
    have fired : fireKinds ⟨false, true, false, false⟩ u = _ := exitWeld_passesAtOnce (s := u) (by rw [taken.ca, welds]) (by rw [taken.ca, empty])
      (by rw [taken.ca, atExit])
    have passed := passBoundary_ends (s := { u with ca := { s.ca with welds := rest, boundaries := [] } })
      (b := ⟨runCoord s, weld.starting, false⟩) exit table hseq start
    rw [fired, taken.run, taken.ca, passed] at ran
    have begun : f.begun ⟨runCoord s, weld.starting, false⟩ = { f with w0 := some (runCoord s) } :=
      congrArg (fun b => { f with w0 := some (runCoord s), estimated := b }) (Bool.or_false f.estimated)
    have ca := (settleArchive_move { endExitCoil ⟨runCoord s, weld.starting, false⟩ { u with ca := { s.ca with
      welds := rest, boundaries := [] } } with ca := { s.ca with
        welds := rest, boundaries := [], exitCoil := some weld.starting
        table := f.begun ⟨runCoord s, weld.starting, false⟩ :: more
        openCoils := s.ca.openCoils.map (OpenCoil.pass (runCoord s) (if f.id = [] then none else some weld.starting)) } }).ca
    refine ⟨_, ran, by rw [ca], by rw [ca], by rw [ca], by rw [ca, begun], by rw [ca], fun named quiet => ?_, fun unnamed => ?_⟩
    · obtain ⟨z, ended, closed, queue⟩ := endExitCoil_quiet (s := { u with ca := { s.ca with welds := rest, boundaries := [] } })
        (b := ⟨runCoord s, weld.starting, false⟩) exit
        (e := e) (by rw [tableEntry, table]; exact List.find?_cons_of_pos (beq_iff_eq.2 hseq)) named
        ⟨by rw [taken.ar]; exact quiet.stage, (directoryFull_congr (s := s) (by rw [taken.ar]) (by rw [taken.ar]) (by rw [taken.ar])).trans
          quiet.directory, by rw [taken.ar]; exact quiet.queue⟩
      rw [ended]
      refine ⟨(flagSet_settleArchive (by decide)).trans closed, ?_⟩
      obtain ⟨flags, settled⟩ := settleArchive_of_directoryRoom (s := { z with ca := { s.ca with
        welds := rest, boundaries := [], exitCoil := some weld.starting
        table := f.begun ⟨runCoord s, weld.starting, false⟩ :: more
        openCoils := s.ca.openCoils.map (OpenCoil.pass (runCoord s) (if f.id = [] then none else some weld.starting)) } })
        ((directoryFull_congr (s := s) (by rw [queue, taken.ar]) (by rw [queue, taken.ar]) (by rw [queue, taken.ar])).trans quiet.directory)
      rw [settled]
      have record : e.closed ⟨runCoord s, weld.starting, false⟩ seq
          = ⟨seq, e.id, lin, w0, runCoord s, e.estimated, e.long, false, 0⟩ := by
        rw [InputCoil.closed, hlin, hw0, Bool.or_false]
        rfl
      rw [← record, ← taken.ar]
      exact congrArg Ar.writeQueue queue
    · have ended := (endExitCoil_of (s := { u with ca := { s.ca with welds := rest, boundaries := [] } })
        (b := ⟨runCoord s, weld.starting, false⟩) exit
        (e := e) (by rw [tableEntry, table]; exact List.find?_cons_of_pos (beq_iff_eq.2 hseq))).1 unnamed
      rw [ended, flagSet_settleArchive (by decide)]
      exact congrArg (fun p : Pp => p.flags.getLsbD Attention.inputClosed.bit) taken.pp
  case forced =>
    obtain ⟨u, taken, ran⟩ := fires_taken fires
    obtain ⟨before, after, whole, forced, le, lt⟩ := exitWeld_forces (s := u) (f := f) (by rw [taken.ca, welds]) (by rw [taken.ca, held]) three
      (by rw [taken.ca]; exact ahead) (by rw [taken.run]; exact clear) (by rw [taken.ca, noExit])
      (by rw [tableEntry, taken.ca]; exact hf)
    have fired : fireKinds ⟨false, true, false, false⟩ u = _ := forced
    rw [taken.run, taken.ca] at *
    rw [fired] at ran
    have begun := (find_begun ⟨runCoord s, o.starting, true⟩ s.ca.table).trans (congrArg (Option.map _) hf)
    refine ⟨_, before, after, f.begun ⟨runCoord s, o.starting, true⟩, ran, whole, ?_⟩
    rw [tableEntry, (settleArchive_move _).ca]
    exact ⟨rfl, le, lt, rfl, rfl, flagSet_settleArchive_raised _ _, begun, rfl, Bool.or_true _, rfl⟩

end Sys2Proof.Machine
end

section
/-! PROOF. Entry welds: the entry coil that ends, the one that begins, and the oldest of eight welds forced through the exit
(R13, R20 to R22). -/

namespace Sys2Proof.Machine

/-! ### The table of input coils (R18) -/

theorem mapFirst_map {α β : Type} {p : α → Bool} {g : α → α} {key : α → β} (same : ∀ a, key (g a) = key a) (l : List α) :
    (mapFirst p g l).map key = l.map key := by
  induction l with
  | nil => rfl
  | cons a rest ih =>
    rw [mapFirst]
    split
    · rw [List.map_cons, List.map_cons, same]
    · rw [List.map_cons, List.map_cons, ih]

theorem mapLast_map {α β : Type} {p : α → Bool} {g : α → α} {key : α → β} (same : ∀ a, key (g a) = key a) (l : List α) :
    (mapLast p g l).map key = l.map key := by
  rw [mapLast, List.map_reverse, mapFirst_map same, List.map_reverse, List.reverse_reverse]

theorem mapLast_concat {α : Type} {p : α → Bool} (g : α → α) (l : List α) {a : α} (h : p a = true) :
    mapLast p g (l ++ [a]) = l ++ [g a] := by
  rw [mapLast, List.reverse_append, List.reverse_singleton, List.singleton_append, mapFirst, if_pos h, List.reverse_cons,
    List.reverse_reverse]

/-- The entry coil with its length (R20). -/
def InputCoil.measured (len : Nat) (mark : Bool) (e : InputCoil) : InputCoil :=
  { e with lin := some (max 1 len), long := mark, estimated := e.estimated || decide (len = 0) }

/-- The table once the entry coil has its length. -/
def Ca.measured (len : Nat) (mark : Bool) (a : Ca) : List InputCoil :=
  match a.entryCoil with
  | none => a.table
  | some seq => mapLast (fun x => x.seq == seq) (InputCoil.measured len mark) a.table

/-- An entry coil ended keeps every coil's sequence and ID. -/
theorem measured_keys (len : Nat) (mark : Bool) (a : Ca) :
    (a.measured len mark).map (fun x => (x.seq, x.id)) = a.table.map (fun x => (x.seq, x.id)) := by
  unfold Ca.measured
  split
  · rfl
  · exact mapLast_map (g := InputCoil.measured len mark) (key := fun x => (x.seq, x.id)) (fun _ => rfl) _

theorem find_of_keys {l m : List InputCoil} {seq : Nat} {f : InputCoil} (same : m.map (fun x => (x.seq, x.id)) = l.map (fun x => (x.seq, x.id)))
    (hf : l.find? (fun x => x.seq == seq) = some f) : ∃ g, m.find? (fun x => x.seq == seq) = some g ∧ g.id = f.id := by
  have keyed (n : List InputCoil) : (n.map (fun x => (x.seq, x.id))).find? (fun k => k.1 == seq)
      = (n.find? (fun x => x.seq == seq)).map (fun x => (x.seq, x.id)) := List.find?_map
  have found := keyed m
  rw [same, keyed l, hf] at found
  cases hg : m.find? (fun x => x.seq == seq) with
  | none => rw [hg] at found; cases found
  | some g =>
    rw [hg] at found
    exact ⟨g, rfl, (congrArg Prod.snd (Option.some.inj found)).symm⟩

/-! ### An entry coil ends and the next begins (R20, R21) -/

/-- The coil that begins at the entry. -/
def Ca.fresh (a : Ca) : InputCoil := ⟨a.inSeq, a.entryQueue.headD [], none, false, none, false⟩

/-- The coil assembler with one entry coil ended and the next begun. -/
def Ca.entered (len : Nat) (mark : Bool) (a : Ca) : Ca :=
  { a with
    inSeq := min (2 ^ 32 - 1) (a.inSeq + 1)
    entryQueue := a.entryQueue.drop 1
    table := a.measured len mark ++ [a.fresh]
    entryCoil := some a.inSeq }

theorem endEntryCoil_ca (len : Nat) (mark : Bool) (s : State) :
    (endEntryCoil len mark s).ca = { s.ca with table := s.ca.measured len mark } := by
  cases coil : s.ca.entryCoil with
  | none =>
    have stands : endEntryCoil len mark s = s := by rw [endEntryCoil, coil]
    have same : s.ca.measured len mark = s.ca.table := by rw [Ca.measured, coil]
    rw [stands, same]
  | some seq =>
    have ended : s.ca.measured len mark = mapLast (fun x => x.seq == seq) (InputCoil.measured len mark) s.ca.table := by
      rw [Ca.measured, coil]
    rw [endEntryCoil, coil, ended]
    dsimp only
    split <;> rfl

theorem beginEntryCoil_ca (s : State) : (beginEntryCoil s).ca = { s.ca with
    inSeq := min (2 ^ 32 - 1) (s.ca.inSeq + 1)
    entryQueue := s.ca.entryQueue.drop 1
    table := s.ca.table ++ [s.ca.fresh]
    entryCoil := some s.ca.inSeq } := by
  unfold beginEntryCoil
  dsimp only
  split <;> rfl

theorem entered_ca (len : Nat) (mark : Bool) (s : State) :
    (beginEntryCoil (endEntryCoil len mark s)).ca = s.ca.entered len mark := by
  rw [beginEntryCoil_ca, endEntryCoil_ca]
  rfl

theorem endEntryCoil_fault (len : Nat) (mark : Bool) (s : State) : flagSet .trackingFault (endEntryCoil len mark s)
    = (flagSet .trackingFault s || (s.ca.entryCoil.isSome && decide (len = 0))) := by
  unfold endEntryCoil
  split
  next none => rw [none, Option.isSome_none, Bool.false_and, Bool.or_false]
  next seq some =>
    rw [some, Option.isSome_some, Bool.true_and]
    by_cases zero : len = 0
    · dsimp only
      rw [if_pos zero, flagSet_raise_same, decide_eq_true zero, Bool.or_true]
    · dsimp only
      rw [if_neg zero, decide_eq_false zero, Bool.or_false]
      rfl

theorem beginEntryCoil_fault (s : State) :
    flagSet .trackingFault (beginEntryCoil s) = (flagSet .trackingFault s || s.ca.entryQueue.isEmpty) := by
  unfold beginEntryCoil
  dsimp only
  by_cases empty : s.ca.entryQueue = []
  · rw [if_pos empty, flagSet_raise_same, empty, List.isEmpty_nil, Bool.or_true]
  · rw [if_neg empty, List.isEmpty_eq_false_iff.2 empty, Bool.or_false]
    rfl

theorem entered_fault (len : Nat) (mark : Bool) (s : State) : flagSet .trackingFault (beginEntryCoil (endEntryCoil len mark s))
    = (flagSet .trackingFault s || (s.ca.entryCoil.isSome && decide (len = 0)) || s.ca.entryQueue.isEmpty) := by
  rw [beginEntryCoil_fault, endEntryCoil_fault, endEntryCoil_ca]

/-- With room for a weld in transit the entry weld forces none. -/
theorem entryWeld_of_room {s : State} (room : s.ca.welds.length < 8) (len : Nat) (mark : Bool) :
    (entryWeld len mark s).ca = { s.ca.entered len mark with welds := s.ca.welds ++ [⟨s.ca.entryCoil, s.ca.inSeq⟩] }
      ∧ flagSet .trackingFault (entryWeld len mark s)
        = (flagSet .trackingFault s || (s.ca.entryCoil.isSome && decide (len = 0)) || s.ca.entryQueue.isEmpty) := by
  have ca := entered_ca len mark s
  have none : forceOldestWeld (beginEntryCoil (endEntryCoil len mark s)) = beginEntryCoil (endEntryCoil len mark s) :=
    if_neg (by rw [ca]; exact not_le.2 room)
  rw [entryWeld]
  dsimp only
  rw [none]
  refine ⟨?_, entered_fault len mark s⟩
  rw [ca]
  rfl

/-! ### The oldest of eight welds (R22) -/

/-- The greatest position among those pending, and the run coordinate with none. -/
theorem foldl_max_of {l : List Boundary} {w r : Nat} (below : r ≤ w) (all : ∀ b ∈ l, b.w ≤ w) (one : r = w ∨ ∃ b ∈ l, b.w = w) :
    l.foldl (fun m b => max m b.w) r = w := by
  induction l generalizing r with
  | nil => exact one.resolve_right (fun ⟨_, h, _⟩ => absurd h List.not_mem_nil)
  | cons b rest ih =>
    obtain ⟨first, others⟩ := List.forall_mem_cons.1 all
    rw [List.foldl_cons]
    refine ih (max_le below first) others ?_
    rcases one with rfl | ⟨x, hx, rfl⟩
    · exact .inl (max_eq_left first)
    · rcases List.mem_cons.1 hx with rfl | hx
      · exact .inl (max_eq_right below)
      · exact .inr ⟨x, hx, rfl⟩

theorem insertBoundary_last {b : Boundary} {l : List Boundary} (h : ∀ a ∈ l, a.w ≤ b.w) : insertBoundary b l = l ++ [b] := by
  induction l with
  | nil => rfl
  | cons a rest ih =>
    obtain ⟨first, others⟩ := List.forall_mem_cons.1 h
    rw [insertBoundary, if_pos first, ih others, List.cons_append]

theorem forceOldestWeld_of {s : State} {weld : Weld} {rest : List Weld} (h : s.ca.welds = weld :: rest) (full : rest.length = 7) :
    forceOldestWeld s = raise .trackingFault (enterBoundary
      ⟨s.ca.boundaries.foldl (fun m b => max m b.w) (runCoord s), weld.starting, true⟩ { s with ca.welds := rest }) := by
  rw [forceOldestWeld, if_pos (by rw [h, List.length_cons, full])]
  rw [h]

/-- A weld joined to those in transit. -/
def State.withWeld (w : Weld) (s : State) : State := { s with ca.welds := s.ca.welds ++ [w] }

/-- What the entry weld leaves when eight welds are in transit: the oldest goes to the exit, the new one joins at the tail. -/
theorem entryWeld_of_full {s : State} {weld : Weld} {rest : List Weld} (welds : s.ca.welds = weld :: rest) (full : rest.length = 7)
    (len : Nat) (mark : Bool) : ∃ v, v.tiu = s.tiu ∧ v.ca = { s.ca.entered len mark with welds := rest }
      ∧ entryWeld len mark s = (raise .trackingFault (enterBoundary
          ⟨s.ca.boundaries.foldl (fun m b => max m b.w) (runCoord s), weld.starting, true⟩ v)).withWeld ⟨s.ca.entryCoil, s.ca.inSeq⟩ := by
  have ca := entered_ca len mark s
  have line : LineMove s (beginEntryCoil (endEntryCoil len mark s)) := .after (beginEntryCoil_line _) (endEntryCoil_line _ _ s)
  have run : runCoord (beginEntryCoil (endEntryCoil len mark s)) = runCoord s :=
    runCoord_congr (by rw [line.tiu]) (by rw [line.tiu]) (by rw [line.tiu]) (by rw [line.tiu])
  rw [entryWeld]
  dsimp only
  generalize beginEntryCoil (endEntryCoil len mark s) = u at ca line run
  refine ⟨{ u with ca.welds := rest }, line.tiu, by rw [← ca], ?_⟩
  rw [forceOldestWeld_of (s := u) (by rw [ca]; exact welds) full, run, ca]
  rfl

/-- The forced weld's boundary enters behind those pending, none of which is due. -/
theorem enterBoundary_behind {v : State} {w starting : Nat} (few : v.ca.boundaries.length < 4)
    (all : ∀ b ∈ v.ca.boundaries, runCoord v < b.w ∧ b.w ≤ w) (ahead : runCoord v < w) :
    enterBoundary ⟨w, starting, true⟩ v = { v with ca.boundaries := v.ca.boundaries ++ [⟨w, starting, true⟩] } := by
  rw [enterBoundary_of_few few, insertBoundary_last fun b hb => (all b hb).2]
  refine passDue_of_none (s := { v with ca.boundaries := v.ca.boundaries ++ [⟨w, starting, true⟩] }) fun b hb => ?_
  rcases List.mem_append.1 hb with hb | hb
  · exact (all b hb).1
  · rw [List.mem_singleton.1 hb]
    exact ahead

/-- With none pending and no exit coil the forced weld's boundary passes at once. -/
theorem enterBoundary_passes {v : State} {starting : Nat} {f : InputCoil} (empty : v.ca.boundaries = []) (exit : v.ca.exitCoil = none)
    (hf : tableEntry v starting = some f) : enterBoundary ⟨runCoord v, starting, true⟩ v
      = { v with ca := v.ca.passed ⟨runCoord v, starting, true⟩ (if f.id = [] then none else some starting) } := by
  have pending : insertBoundary ⟨runCoord v, starting, true⟩ v.ca.boundaries = [⟨runCoord v, starting, true⟩] := by rw [empty]; rfl
  rw [enterBoundary_of_few (by rw [empty]; exact Nat.zero_lt_succ 3), pending,
    passDue_of_one (s := { v with ca.boundaries := [⟨runCoord v, starting, true⟩] }) rfl (le_refl _) (fun _ h => absurd h List.not_mem_nil)]
  have none : ({ v with ca.boundaries := [] } : State) = v := by
    rw [← empty]
  exact (congrArg (passBoundary _) none).trans (passBoundary_first exit hf)

theorem entryLength_of {t : Tiu} {q : Nat} (low : q * t.entryWeight ≤ t.entryCount * 100)
    (high : t.entryCount * 100 < (q + 1) * t.entryWeight) : entryLength t = (min q 4000000, decide (4000000 < q)) := by
  have quotient : t.entryCount * 100 / t.entryWeight = q := Nat.div_eq_of_lt_le low high
  rw [entryLength, quotient]

/-- Settles O20: the entry weld with room for it, the one that forces the oldest, and the entry length. -/
theorem entryWeldEndsACoilAndBeginsTheNext : Obligations.EntryWeldEndsACoilAndBeginsTheNext := by
  unfold Obligations.EntryWeldEndsACoilAndBeginsTheNext
  refine ⟨fun k s len mark fresh fires room carried hfresh => ?room, fun k s weld rest fires welds full => ?full,
    fun s run atMost => ?count, fun t q _ low high => ⟨fun within => ?_, fun above => ?_⟩⟩
  case room =>
    obtain ⟨u, taken, ran⟩ := fires_taken fires
    have fired : fireKinds ⟨true, false, false, false⟩ u = entryWeld len mark { u with tiu.entryCount := 0 } := by
      have carries : entryLength u.tiu = (len, mark) := taken.entry.trans carried
      show fireEntryWeld u = _
      rw [fireEntryWeld, carries]
    obtain ⟨ca, fault⟩ := entryWeld_of_room (s := { u with tiu.entryCount := 0 }) (by rw [taken.ca]; exact room) len mark
    rw [fired] at ran
    have left := (settleArchive_move (entryWeld len mark { u with tiu.entryCount := 0 })).ca.trans ca
    have flag := (flagSet_settleArchive (a := .trackingFault) (by decide)).trans fault
    have before : flagSet .trackingFault ({ u with tiu.entryCount := 0 } : State) = flagSet .trackingFault s :=
      congrArg (fun p : Pp => p.flags.getLsbD Attention.trackingFault.bit) taken.pp
    generalize settleArchive (entryWeld len mark { u with tiu.entryCount := 0 }) = t at ran left flag
    rw [before, taken.ca] at flag
    rw [taken.ca] at left
    refine ⟨fun none => ⟨_, ran, left.trans ?_, flag.trans ?_⟩, fun others e coil table => ⟨_, ran, left.trans ?_, flag.trans ?_⟩⟩
    · rw [Ca.entered, Ca.measured, none, hfresh]
      rfl
    · rw [none, Option.isSome_none, Bool.false_and, Bool.or_false]
    · have measured : s.ca.measured len mark = others ++ [e.measured len mark] := by
        rw [Ca.measured, coil, table]
        exact mapLast_concat _ _ (beq_self_eq_true _)
      rw [Ca.entered, measured, List.append_assoc, List.singleton_append, coil, hfresh]
      rfl
    · rw [coil, Option.isSome_some, Bool.true_and, Bool.or_right_comm]
  case full =>
    obtain ⟨u, taken, ran⟩ := fires_taken fires
    obtain ⟨v, tiu, ca, fired⟩ := entryWeld_of_full (s := { u with tiu.entryCount := 0 }) (weld := weld) (rest := rest)
      (by rw [taken.ca]; exact welds) full (entryLength u.tiu).1 (entryLength u.tiu).2
    rw [show fireKinds ⟨true, false, false, false⟩ u = _ from fired] at ran
    have run : runCoord ({ u with tiu.entryCount := 0 } : State) = runCoord s := taken.run
    have runV : runCoord v = runCoord s :=
      (runCoord_congr (by rw [tiu]) (by rw [tiu]) (by rw [tiu]) (by rw [tiu])).trans run
    rw [run, taken.ca] at ran
    rw [taken.ca] at ca
    generalize entryLength u.tiu = carried at ca
    have left := (settleArchive_move ((raise .trackingFault (enterBoundary
      ⟨s.ca.boundaries.foldl (fun m b => max m b.w) (runCoord s), weld.starting, true⟩ v)).withWeld ⟨s.ca.entryCoil, s.ca.inSeq⟩))
    have flag := flagSet_of_kept (a := .trackingFault) left.flags (flagSet_raise_same _ _)
    replace left := left.ca
    generalize settleArchive (State.withWeld _ _) = t at ran left flag
    have pendingV : v.ca.boundaries = s.ca.boundaries := by rw [ca]; rfl
    have exitV : v.ca.exitCoil = s.ca.exitCoil := by rw [ca]; rfl
    have weldsV : v.ca.welds = rest := by rw [ca]
    refine ⟨t, ran, ?_, flag, fun w few all one => ?_, fun f empty exit hf => ?_⟩
    · rw [left]
      show (enterBoundary _ v).ca.welds ++ _ = _
      rw [enterBoundary_welds, weldsV]
    · have greatest : s.ca.boundaries.foldl (fun m b => max m b.w) (runCoord s) = w := by
        obtain ⟨b, hb, same⟩ := one
        exact foldl_max_of (same ▸ (all b hb).1.le) (fun b hb => (all b hb).2) (.inr ⟨b, hb, same⟩)
      have ahead : runCoord v < w := by
        obtain ⟨b, hb, rfl⟩ := one
        rw [runV]
        exact (all b hb).1
      rw [left, greatest, enterBoundary_behind (by rw [pendingV]; exact few) (by rw [pendingV, runV]; exact all) ahead, ← pendingV]
      rfl
    · have tableV : v.ca.table = s.ca.measured carried.1 carried.2 ++ [s.ca.fresh] := by rw [ca]; rfl
      obtain ⟨g, found, named⟩ := find_of_keys (measured_keys carried.1 carried.2 s.ca) hf
      have keys : tableEntry v weld.starting = some g := by rw [tableEntry, tableV, List.find?_append, found, Option.some_or]
      have passes := enterBoundary_passes (v := v) (starting := weld.starting) (f := g) (pendingV.trans empty) (exitV.trans exit) keys
      have begun := (find_begun ⟨runCoord s, weld.starting, true⟩ v.ca.table).trans (congrArg (Option.map _) keys)
      rw [runV] at passes
      rw [empty, List.foldl_nil, passes] at left
      rw [tableEntry, left]
      refine ⟨pendingV.trans empty, rfl, ⟨_, begun, rfl, Bool.or_true _⟩, ?_⟩
      show v.ca.openCoils.map _ = _
      rw [named, ca]
      rfl
  case count =>
    rw [exec_entryPulse_counted run, show min (2 ^ 32 - 1) (s.tiu.entryCount + 1) = s.tiu.entryCount by omega]
  · rw [entryLength_of low high, min_eq_left within, decide_eq_false (not_lt.2 within)]
  · rw [entryLength_of low high, min_eq_right above.le, decide_eq_true above]

end Sys2Proof.Machine
end

section
/-! PROOF. Names at a cut (R30, R31): station-made names differ for 10,000,000 numbers on end, and the search passes over those taken. -/

namespace Sys2Proof.Machine

/-! ### Station-made names (R31) -/

theorem decimalDigits_inj (n : Nat) {v w : Nat} (hv : v < 10 ^ n) (hw : w < 10 ^ n) (h : decimalDigits n v = decimalDigits n w) : v = w := by
  induction n generalizing v w with
  | zero => omega
  | succ n ih =>
    rw [decimalDigits, decimalDigits] at h
    obtain ⟨high, low⟩ := List.append_inj' h rfl
    have tens : v / 10 = w / 10 := ih (Nat.div_lt_of_lt_mul (by rw [pow_succ'] at hv; exact hv))
      (Nat.div_lt_of_lt_mul (by rw [pow_succ'] at hw; exact hw)) high
    have byte (x : Nat) : 0x30 + x % 10 < 2 ^ 8 := by have := Nat.mod_lt x (show 0 < 10 by decide); omega
    have digit := congrArg BitVec.toNat (List.singleton_inj.1 low)
    rw [BitVec.toNat_ofNat, BitVec.toNat_ofNat, Nat.mod_eq_of_lt (byte v), Nat.mod_eq_of_lt (byte w)] at digit
    omega

theorem stationName_inj (node : Node) {n i j : Nat} (hi : i < 10000000) (hj : j < 10000000)
    (h : stationName node (n + i) = stationName node (n + j)) : i = j := by
  unfold stationName at h
  have digits := decimalDigits_inj 7 (Nat.mod_lt _ (by decide)) (Nat.mod_lt _ (by decide)) (List.append_cancel_left h)
  omega

/-- The search passes over names that are taken, and stops at one that is not while it may look further. -/
theorem searchName_spec (node : Node) (taken : List CoilId) (fuel n : Nat) : ∃ m ≤ fuel,
    searchName node taken fuel n = stationName node (n + m) ∧ (∀ j < m, stationName node (n + j) ∈ taken)
      ∧ (m < fuel → stationName node (n + m) ∉ taken) := by
  induction fuel generalizing n with
  | zero => exact ⟨0, le_refl _, rfl, fun _ h => absurd h (Nat.not_lt_zero _), fun h => absurd h (Nat.lt_irrefl _)⟩
  | succ fuel ih =>
    rw [searchName]
    by_cases held : stationName node n ∈ taken
    · rw [if_pos (List.contains_iff_mem.2 held)]
      obtain ⟨m, hm, name, passed, stops⟩ := ih (n + 1)
      have shift (j : Nat) : n + 1 + j = n + (j + 1) := by omega
      refine ⟨m + 1, Nat.succ_le_succ hm, by rw [name, shift], fun j hj => ?_, fun h => ?_⟩
      · cases j with
        | zero => exact held
        | succ j => rw [← shift]; exact passed j (Nat.lt_of_succ_lt_succ hj)
      · rw [← shift]
        exact stops (Nat.lt_of_succ_lt_succ h)
    · rw [if_neg (fun h => held (List.contains_iff_mem.1 h))]
      exact ⟨0, Nat.zero_le _, rfl, fun _ h => absurd h (Nat.not_lt_zero _), fun _ => held⟩

/-- Fewer than 10,000,000 names taken leave one of as many and one more free. -/
theorem searchName_free (node : Node) {taken : List CoilId} (few : taken.length < 10000000) (n : Nat) :
    searchName node taken (taken.length + 1) n ∉ taken := by
  obtain ⟨m, hm, name, passed, stops⟩ := searchName_spec node taken (taken.length + 1) n
  by_cases stopped : m < taken.length + 1
  · rw [name]
    exact stops stopped
  · have all : (List.range (taken.length + 1)).map (fun j => stationName node (n + j)) ⊆ taken := fun x hx => by
      obtain ⟨j, hj, rfl⟩ := List.mem_map.1 hx
      exact passed j (lt_of_lt_of_le (List.mem_range.1 hj) (not_lt.1 stopped))
    have different : ((List.range (taken.length + 1)).map (fun j => stationName node (n + j))).Nodup :=
      List.Nodup.map_on (fun i hi j hj h => stationName_inj node (by have := List.mem_range.1 hi; omega)
        (by have := List.mem_range.1 hj; omega) h) List.nodup_range
    have length := (List.subperm_of_subset different all).length_le
    rw [List.length_map, List.length_range] at length
    exact absurd length (Nat.not_succ_le_self _)

end Sys2Proof.Machine
end

section
/-! PROOF. A cut that closes the open coils: each lane's record and name, while none of the closing coils is ready to be handed over
(R29 to R31, R35). -/

namespace Sys2Proof.Machine

/-! ### Handing over (R35) -/

theorem handReady_of_none {s : State} (h : s.ca.closing = []) : handReady s = s := by rw [handReady, h, List.length_nil, handReadyN]

/-- The oldest closing coil is not ready: none is handed over. -/
theorem handReady_of_waits {s : State} {r : OutputRecord} {rest : List OutputRecord} (h : s.ca.closing = r :: rest)
    (waits : readyToHand (writtenMark s) r = false) : handReady s = s := by
  rw [handReady, h, List.length_cons, handReadyN, h]
  exact if_neg (by rw [waits]; exact Bool.false_ne_true)

/-- A coil over the interval of a cut whose last cell is not yet written. -/
structure Unwritten (s : State) (c0 c : Nat) : Prop where
  mark : writtenMark s < cellFrom c s.cx.pitch
  owns : cellFrom c0 s.cx.pitch < cellFrom c s.cx.pitch

/-- A record over the interval of the cut in the cells of the station's pitch. -/
def OutputRecord.Over (s : State) (c0 c : Nat) (r : OutputRecord) : Prop := r.c0 = c0 ∧ r.c1 = c ∧ r.pitch = s.cx.pitch

theorem readyToHand_of_unwritten {s : State} {c0 c : Nat} (h : Unwritten s c0 c) {r : OutputRecord} (spans : r.Over s c0 c) :
    readyToHand (writtenMark s) r = false := by
  obtain ⟨hc0, hc1, hp⟩ := spans
  rw [readyToHand, hc0, hc1, hp, decide_eq_false (not_le.2 h.mark), decide_eq_false (not_le.2 h.owns), Bool.or_false]

/-! ### One lane closes (R29, R30) -/

/-- The names taken when a lane closes behind those of the cut that closed before it (R30). -/
def takenNames (s : State) (before : List OutputRecord) : List CoilId :=
  directoryNames s ++ (before.map (fun r => r.id) ++ awaitingNames s) ++ before.map (fun r => r.id)

/-- The record of a lane's coil and its name, behind those of the cut that closed before it. -/
def LaneCloses (s : State) (c : Nat) (mark : CoilFlags → CoilFlags) (before : List OutputRecord) (o : OpenCoil) (r : OutputRecord) : Prop :=
  ∃ id made, r = closedRecord s c mark id made o
    ∧ (laneName s o.lane ≠ [] → laneName s o.lane ∉ takenNames s before → id = laneName s o.lane ∧ made = false)
    ∧ (laneName s o.lane = [] ∨ laneName s o.lane ∈ takenNames s before →
        made = true ∧ id = searchName s.bi.node (takenNames s before) ((takenNames s before).length + 1) o.seq)

theorem LaneCloses.over {s : State} {c : Nat} {mark : CoilFlags → CoilFlags} {before : List OutputRecord} {o : OpenCoil} {r : OutputRecord}
    (h : LaneCloses s c mark before o r) : r.Over s o.c0 c := by
  obtain ⟨id, made, rfl, _⟩ := h
  exact ⟨rfl, rfl, rfl⟩

/-- The coil assembler once a lane closed. -/
def Ca.laneClosed (o : OpenCoil) (r : OutputRecord) (a : Ca) : Ca :=
  { a with
    names := a.names.setIfInBounds (o.lane - 1) []
    openCoils := a.openCoils.drop 1
    closing := a.closing ++ [r]
    lastCoil := some r }

theorem closeLane_of {s : State} {c0 c : Nat} {before : List OutputRecord} {o : OpenCoil} (mark : CoilFlags → CoilFlags)
    (closing : s.ca.closing = before) (few : before.length < 32) (spans : ∀ q ∈ before, q.Over s c0 c) (start : o.c0 = c0)
    (waits : Unwritten s c0 c) :
    ∃ r, closeLane c mark (directoryNames s) (s, before.map (fun r => r.id)) o
        = ({ s with ca := s.ca.laneClosed o r }, (before ++ [r]).map (fun r => r.id)) ∧ LaneCloses s c mark before o r := by
  subst start
  have taken : directoryNames s ++ heldNames s ++ before.map (fun r => r.id) = takenNames s before := by rw [heldNames, closing, takenNames]
  have room : finaliseOldest { s with
      ca.names := s.ca.names.setIfInBounds (o.lane - 1) [], ca.openCoils := s.ca.openCoils.drop 1 } = { s with
      ca.names := s.ca.names.setIfInBounds (o.lane - 1) [], ca.openCoils := s.ca.openCoils.drop 1 } := if_neg (by
    rw [not_le]
    show s.ca.closing.length < 32
    rw [closing]
    exact few)
  have hands (r : OutputRecord) (hr : r.Over s o.c0 c) : handReady { s with ca := s.ca.laneClosed o r } = { s with ca := s.ca.laneClosed o r } := by
    cases before with
    | nil =>
      exact handReady_of_waits (s := { s with ca := s.ca.laneClosed o r }) (r := r) (rest := []) (by rw [Ca.laneClosed, closing]; rfl)
        (readyToHand_of_unwritten waits hr)
    | cons q rest =>
      exact handReady_of_waits (s := { s with ca := s.ca.laneClosed o r }) (r := q) (rest := rest ++ [r])
        (by rw [Ca.laneClosed, closing]; rfl) (readyToHand_of_unwritten waits (spans q List.mem_cons_self))
  unfold closeLane
  dsimp only
  rw [taken, room]
  generalize hmade : (laneName s o.lane == [] || (takenNames s before).contains (laneName s o.lane)) = made
  generalize hid : (if made then searchName s.bi.node (takenNames s before) ((takenNames s before).length + 1) o.seq
    else laneName s o.lane) = id
  refine ⟨closedRecord s c mark id made o, ?_, id, made, rfl, fun named free => ?_, fun other => ?_⟩
  · refine Prod.ext (hands _ ⟨rfl, rfl, rfl⟩) ?_
    rw [List.map_append]
    rfl
  · have own : made = false := by
      rw [← hmade, beq_eq_false_iff_ne.2 named, Bool.false_or, Bool.eq_false_iff]
      exact fun h => free (List.contains_iff_mem.1 h)
    subst own
    exact ⟨hid.symm, rfl⟩
  · have station : made = true := by
      rw [← hmade, Bool.or_eq_true, beq_iff_eq, List.contains_iff_mem]
      exact other
    subst station
    exact ⟨rfl, hid.symm⟩

/-! ### Every lane closes (R29) -/

/-- What a cut's closings leave: the records in lane order, each with its name, and the names used up. -/
structure LanesClose (s : State) (c : Nat) (mark : CoilFlags → CoilFlags) (before : List OutputRecord) (coils : List OpenCoil)
    (names : Vector CoilId 8) (records : List OutputRecord) : Prop where
  length : records.length = coils.length
  closes : ∀ i o r, coils[i]? = some o → records[i]? = some r → LaneCloses s c mark (before ++ records.take i) o r
  used : ∀ o ∈ coils, names.toList.getD (o.lane - 1) [] = []
  stands : ∀ lane, (∀ o ∈ coils, o.lane - 1 ≠ lane) → names.toList.getD lane [] = s.ca.names.toList.getD lane []

theorem closeLanes_of {s : State} {c0 c : Nat} {before : List OutputRecord} {coils : List OpenCoil} (mark : CoilFlags → CoilFlags)
    (closing : s.ca.closing = before) (few : before.length + coils.length ≤ 32) (spans : ∀ q ∈ before, q.Over s c0 c)
    (start : ∀ o ∈ coils, o.c0 = c0) (lanes : ∀ o ∈ coils, o.lane - 1 < 8) (distinct : (coils.map (fun o => o.lane - 1)).Nodup)
    (waits : Unwritten s c0 c) :
    ∃ names records, (coils.foldl (closeLane c mark (directoryNames s)) (s, before.map (fun r => r.id))).1 = { s with ca := { s.ca with
        names := names, openCoils := s.ca.openCoils.drop coils.length, closing := before ++ records
        lastCoil := records.getLast?.or s.ca.lastCoil } }
      ∧ LanesClose s c mark before coils names records := by
  induction coils generalizing s before with
  | nil =>
    refine ⟨s.ca.names, [], ?_, rfl, fun i o r h => (by cases h), fun o h => absurd h List.not_mem_nil, fun lane _ => rfl⟩
    rw [List.append_nil, ← closing]
    rfl
  | cons o rest ih =>
    obtain ⟨firstStart, restStart⟩ := List.forall_mem_cons.1 start
    obtain ⟨firstLane, restLanes⟩ := List.forall_mem_cons.1 lanes
    rw [List.map_cons, List.nodup_cons] at distinct
    rw [List.length_cons] at few
    obtain ⟨r, closed, first⟩ := closeLane_of mark closing (by omega) spans firstStart waits
    have overR : ∀ q ∈ before ++ [r], q.Over s c0 c := fun q hq => by
      rcases List.mem_append.1 hq with hq | hq
      · exact spans q hq
      · rw [List.mem_singleton.1 hq, ← firstStart]
        exact first.over
    obtain ⟨names, records, left, length, closes, used, stands⟩ := ih (s := { s with ca := s.ca.laneClosed o r }) (before := before ++ [r])
      (by rw [← closing]; rfl) (by rw [List.length_append, List.length_singleton]; omega) overR restStart restLanes distinct.2
      ⟨waits.mark, waits.owns⟩
    have name (i : Nat) : (s.ca.laneClosed o r).names.toList.getD i [] = if i = o.lane - 1 then [] else s.ca.names.toList.getD i [] :=
      getD_setIfInBounds _ firstLane []
    have apart : ∀ p ∈ rest, p.lane - 1 ≠ o.lane - 1 := fun p hp same =>
      distinct.1 (List.mem_map.2 ⟨p, hp, same⟩)
    have assoc (l : List OutputRecord) : before ++ [r] ++ l = before ++ r :: l := by rw [List.append_assoc, List.singleton_append]
    refine ⟨names, r :: records, ?_, ?_, ?_, ?_, ?_⟩
    · rw [List.foldl_cons, closed]
      refine left.trans ?_
      have last : (r :: records).getLast?.or s.ca.lastCoil = records.getLast?.or (some r) := by
        rw [List.getLast?_cons]
        cases records.getLast? <;> rfl
      rw [last, assoc]
      show ({ s with ca := { s.ca with names := names, openCoils := (s.ca.openCoils.drop 1).drop rest.length
                                       closing := before ++ r :: records, lastCoil := records.getLast?.or (some r) } } : State) = _
      rw [List.drop_drop, Nat.add_comm 1]
      rfl
    · rw [List.length_cons, length, List.length_cons]
    · intro i p q hp hq
      cases i with
      | zero =>
        obtain rfl : o = p := Option.some.inj hp
        obtain rfl : r = q := Option.some.inj hq
        rw [List.take_zero, List.append_nil]
        exact first
      | succ i =>
        have later := closes i p q hp hq
        have own : laneName { s with ca := s.ca.laneClosed o r } p.lane = laneName s p.lane :=
          (name _).trans (if_neg (apart p (List.mem_of_getElem? hp)))
        rw [assoc] at later
        obtain ⟨id, made, record, free, taken⟩ := later
        rw [own] at free taken
        exact ⟨id, made, record, free, taken⟩
    · intro p hp
      rcases List.mem_cons.1 hp with rfl | hp
      · rw [stands _ apart]
        exact (name _).trans (if_pos rfl)
      · exact used p hp
    · intro lane other
      obtain ⟨notFirst, notRest⟩ := List.forall_mem_cons.1 other
      rw [stands lane notRest]
      exact (name lane).trans (if_neg (Ne.symm notFirst))

end Sys2Proof.Machine
end

section
/-! PROOF. Cuts: what a lane's closing leaves of the coil assembler, the coils that open at the cut, and the records that a cut gives
(R27 to R35). -/

namespace Sys2Proof.Machine

/-! ### What a closing leaves (R29, R35 to R37) -/

/-- The coil assembler without what a closing changes. -/
def Ca.lessCut (a : Ca) : Ca := { a with openCoils := [], names := Vector.replicate 8 [], closing := [], lastCoil := none }

/-- A closing changes the open and closing coils, the pending names and the last coil of the assembler alone, and no stage. -/
structure CutFrame (s t : State) : Prop where
  ca : t.ca.lessCut = s.ca.lessCut
  stage : t.ar.stage = s.ar.stage

namespace CutFrame

theorem refl (s : State) : CutFrame s s := ⟨rfl, rfl⟩

theorem trans {s t u : State} (h : CutFrame s t) (g : CutFrame t u) : CutFrame s u := ⟨g.ca.trans h.ca, g.stage.trans h.stage⟩

/-- The same, the last move first. -/
theorem after {s t u : State} (g : CutFrame t u) (h : CutFrame s t) : CutFrame s u := h.trans g

theorem ofArchive {s t : State} (h : ArchiveMove s t) : CutFrame s t :=
  ⟨by rw [h.ca], congrArg (fun u => u.ar.stage) h.rest⟩

variable {s t : State} (h : CutFrame s t)
include h

theorem table : t.ca.table = s.ca.table := (congrArg Ca.table h.ca : t.ca.lessCut.table = s.ca.lessCut.table)
theorem exitCoil : t.ca.exitCoil = s.ca.exitCoil := (congrArg Ca.exitCoil h.ca : t.ca.lessCut.exitCoil = s.ca.lessCut.exitCoil)
theorem outSeq : t.ca.outSeq = s.ca.outSeq := (congrArg Ca.outSeq h.ca : t.ca.lessCut.outSeq = s.ca.lessCut.outSeq)
theorem laneCount : t.ca.laneCount = s.ca.laneCount := (congrArg Ca.laneCount h.ca : t.ca.lessCut.laneCount = s.ca.lessCut.laneCount)
theorem exitRef : exitRef t = exitRef s := by
  unfold Machine.exitRef tableEntry
  rw [h.exitCoil, h.table]

end CutFrame

theorem handCoil_cut (r : OutputRecord) (s : State) : CutFrame s (handCoil r s) :=
  .after (.ofArchive (reclaimMoment_move _)) <| .after (.ofArchive (handItem_move _ _)) ⟨rfl, rfl⟩

theorem handReadyN_cut (n : Nat) (s : State) : CutFrame s (handReadyN n s) := by
  induction n generalizing s with
  | zero => exact .refl s
  | succ n ih =>
    unfold handReadyN
    split
    · exact .refl s
    · split
      · exact .after (ih _) <| .after (handCoil_cut _ _) ⟨rfl, rfl⟩
      · exact .refl s

theorem finaliseOldest_cut (s : State) : CutFrame s (finaliseOldest s) := by
  unfold finaliseOldest
  split
  · split
    · exact .refl s
    · exact .after (handCoil_cut _ _) ⟨rfl, rfl⟩
  · exact .refl s

theorem closeLane_cut (c : Nat) (mark : CoilFlags → CoilFlags) (dir : List CoilId) (p : State × List CoilId) (o : OpenCoil) :
    CutFrame p.1 (closeLane c mark dir p o).1 := by
  unfold closeLane
  dsimp only
  refine .after (handReadyN_cut _ _) ?_
  refine .after (t := finaliseOldest { p.1 with
    ca.names := p.1.ca.names.setIfInBounds (o.lane - 1) [], ca.openCoils := p.1.ca.openCoils.drop 1 }) ⟨rfl, rfl⟩ ?_
  exact .after (finaliseOldest_cut _) ⟨rfl, rfl⟩

theorem closeLanes_cut (c : Nat) (mark : CoilFlags → CoilFlags) (dir : List CoilId) (coils : List OpenCoil) (p : State × List CoilId) :
    CutFrame p.1 (coils.foldl (closeLane c mark dir) p).1 := by
  induction coils generalizing p with
  | nil => exact .refl _
  | cons o rest ih => exact .after (ih _) (closeLane_cut c mark dir p o)

/-! ### The coils that open (R27) -/

/-- The coil that opens at c in the i-th lane. -/
def opened (s : State) (c : Nat) (i : Nat) : OpenCoil :=
  ⟨i + 1, min (2 ^ 32 - 1) (s.ca.outSeq + i), c, [⟨exitRef s, 0⟩], 0, { CoilFlags.clear with noTrend := s.ar.stage != .normal }⟩

theorem openLanes_of {s : State} (h : s.ca.outSeq ≤ 2 ^ 32 - 1) (c n : Nat) : ((List.range n).map (· + 1)).foldl (openLane c) s
    = { s with ca := { s.ca with
        openCoils := s.ca.openCoils ++ (List.range n).map (opened s c), outSeq := min (2 ^ 32 - 1) (s.ca.outSeq + n) } } := by
  induction n with
  | zero =>
    rw [List.range_zero, List.map_nil, List.foldl_nil, List.map_nil, List.append_nil, Nat.add_zero, min_eq_right h]
  | succ n ih =>
    have next : nextSeq (min (2 ^ 32 - 1) (s.ca.outSeq + n)) = min (2 ^ 32 - 1) (s.ca.outSeq + (n + 1)) := by
      unfold nextSeq
      omega
    rw [List.range_succ, List.map_append, List.foldl_append, ih, List.map_append, ← List.append_assoc, ← next]
    rfl

theorem openCoilsAt_of {s : State} (h : s.ca.outSeq ≤ 2 ^ 32 - 1) (c : Nat) : openCoilsAt c s = { s with ca := { s.ca with
    openCoils := (List.range s.ca.laneCount).map (opened s c)
    outSeq := min (2 ^ 32 - 1) (s.ca.outSeq + s.ca.laneCount) } } :=
  openLanes_of (s := { s with ca.openCoils := [] }) h c s.ca.laneCount

/-- Opening coils changes the open coils and the output sequence alone. -/
theorem openCoilsAt_rest (c : Nat) (s : State) :
    ∃ coils seq, openCoilsAt c s = { s with ca := { s.ca with openCoils := coils, outSeq := seq } } := by
  have opens (lanes : List Nat) (u : State) :
      ∃ coils seq, lanes.foldl (openLane c) u = { u with ca := { u.ca with openCoils := coils, outSeq := seq } } := by
    induction lanes generalizing u with
    | nil => exact ⟨_, _, rfl⟩
    | cons lane rest ih =>
      obtain ⟨coils, seq, h⟩ := ih (openLane c u lane)
      exact ⟨coils, seq, h⟩
  exact opens _ _

/-! ### A cut (R27, R29, R33) -/

theorem cutCoils_frame (c : Nat) (mark : CoilFlags → CoilFlags) (s : State) : ∃ v, CutFrame s v
    ∧ cutCoils c mark s = raise .coilClosed (openCoilsAt c v) :=
  ⟨_, closeLanes_cut c mark (directoryNames s) s.ca.openCoils (s, []), rfl⟩

/-- The flags that a cut firing an event sets. -/
def cutMark (broken : Bool) : CoilFlags → CoilFlags := if broken then CoilFlags.setBroken else id

theorem cutCloses_iff {s : State} {c0 : Nat} (h : openStart s = some c0) : cutCloses s = decide (c0 < runCoord s) := by
  rw [cutCloses, h]

/-- An EXIT-CUT or a STRIP-BREAK above the open coils' start closes them. -/
theorem fireCut_closes {s : State} {c0 : Nat} (h : openStart s = some c0) (above : c0 < runCoord s) (broken : Bool) :
    fireKinds ⟨false, false, !broken, broken⟩ s = cutCoils (runCoord s) (cutMark broken) s := by
  have closes : cutCloses s = true := (cutCloses_iff h).trans (decide_eq_true above)
  cases broken
  · exact if_pos closes
  · exact if_pos closes

theorem fireCut_stands {s : State} {c0 : Nat} (h : openStart s = some c0) (below : runCoord s ≤ c0) :
    fireKinds ⟨false, false, true, false⟩ s = s
      ∧ fireKinds ⟨false, false, false, true⟩ s
        = { s with ca.openCoils := s.ca.openCoils.map (fun c => { c with flags := c.flags.setBroken }) } := by
  have stands : ¬cutCloses s = true := by
    rw [cutCloses_iff h, decide_eq_true_iff]
    exact not_lt.2 below
  exact ⟨if_neg stands, if_neg stands⟩

/-- A cut with nothing closing yet and cells that are not written: every lane's record waits on the closing list. -/
theorem cutCoils_of {s : State} {c0 c : Nat} (mark : CoilFlags → CoilFlags) (few : s.ca.openCoils.length ≤ 32) (closing : s.ca.closing = [])
    (start : ∀ o ∈ s.ca.openCoils, o.c0 = c0) (lanes : ∀ o ∈ s.ca.openCoils, o.lane - 1 < 8)
    (distinct : (s.ca.openCoils.map (fun o => o.lane - 1)).Nodup) (waits : Unwritten s c0 c) :
    ∃ names records, cutCoils c mark s = raise .coilClosed (openCoilsAt c { s with ca := { s.ca with
        names := names, openCoils := s.ca.openCoils.drop s.ca.openCoils.length, closing := records
        lastCoil := records.getLast?.or s.ca.lastCoil } })
      ∧ LanesClose s c mark [] s.ca.openCoils names records := by
  obtain ⟨names, records, closed, lanesClose⟩ := closeLanes_of mark closing (by rw [List.length_nil, Nat.zero_add]; exact few)
    (fun q h => absurd h List.not_mem_nil) start lanes distinct waits
  refine ⟨names, records, ?_, lanesClose⟩
  rw [cutCoils]
  exact congrArg (fun u => raise .coilClosed (openCoilsAt c u)) closed

/-! ### The names that a cut gives (R30, R31) -/

theorem mem_takenNames {s : State} (closing : s.ca.closing = []) (before : List OutputRecord) (x : CoilId) :
    x ∈ takenNames s before ↔ isDuplicate s x = true ∨ ∃ q ∈ before, q.id = x := by
  rw [isDuplicate, List.contains_iff_mem, heldNames, closing, takenNames]
  simp only [List.mem_append, List.mem_map, List.map_nil, List.not_mem_nil, false_or]
  tauto

theorem length_takenNames {s : State} (closing : s.ca.closing = []) (before : List OutputRecord) :
    (takenNames s before).length = (directoryNames s ++ heldNames s).length + 2 * before.length := by
  rw [heldNames, closing, takenNames]
  simp only [List.length_append, List.length_map, List.length_nil]
  omega

/-- What a lane's record holds. -/
theorem LaneCloses.record {s : State} {c : Nat} {mark : CoilFlags → CoilFlags} {before : List OutputRecord} {o : OpenCoil} {r : OutputRecord}
    (h : LaneCloses s c mark before o r) (keeps : ∀ f, (mark f).stationNamed = f.stationNamed) :
    r = closedRecord s c mark r.id r.flags.stationNamed o := by
  obtain ⟨id, made, rfl, _⟩ := h
  have same : (closedRecord s c mark id made o).flags.stationNamed = made := keeps _
  rw [same]
  rfl

/-- The name of a lane's record. -/
theorem LaneCloses.name {s : State} {c : Nat} {mark : CoilFlags → CoilFlags} {before : List OutputRecord} {o : OpenCoil} {r : OutputRecord}
    (h : LaneCloses s c mark before o r) (keeps : ∀ f, (mark f).stationNamed = f.stationNamed) :
    (laneName s o.lane ≠ [] → laneName s o.lane ∉ takenNames s before → r.id = laneName s o.lane ∧ r.flags.stationNamed = false)
      ∧ (laneName s o.lane = [] ∨ laneName s o.lane ∈ takenNames s before →
          r.flags.stationNamed = true ∧ ∃ n, r.id = stationName s.bi.node (o.seq + n)
            ∧ ∀ m, m < n → stationName s.bi.node (o.seq + m) ∈ takenNames s before)
      ∧ ((takenNames s before).length < 10000000 → r.id ∉ takenNames s before) := by
  obtain ⟨id, made, rfl, free, taken⟩ := h
  have same : (closedRecord s c mark id made o).flags.stationNamed = made := keeps _
  rw [same]
  refine ⟨free, fun other => ?_, fun few => ?_⟩
  · obtain ⟨station, name⟩ := taken other
    obtain ⟨n, _, found, passed, _⟩ := searchName_spec s.bi.node (takenNames s before) ((takenNames s before).length + 1) o.seq
    exact ⟨station, n, name.trans found, passed⟩
  · show id ∉ takenNames s before
    by_cases other : laneName s o.lane = [] ∨ laneName s o.lane ∈ takenNames s before
    · rw [(taken other).2]
      exact searchName_free _ few _
    · obtain ⟨named, own⟩ := not_or.1 other
      rw [(free named own).1]
      exact own

theorem cutMark_stationNamed (broken : Bool) (f : CoilFlags) : (cutMark broken f).stationNamed = f.stationNamed := by
  cases broken <;> rfl

theorem cutMark_flags (broken : Bool) (f : CoilFlags) (noTrend stationNamed : Bool) :
    cutMark broken { f with noTrend := noTrend, stationNamed := stationNamed }
      = { f with broken := f.broken || broken, noTrend := noTrend, stationNamed := stationNamed } := by
  cases broken
  · rw [Bool.or_false]
    rfl
  · rw [Bool.or_true]
    rfl

/-- The last parent segment of a coil that closes above its beginning, and how many there are (R29). -/
theorem boundSegments_concat {len : Nat} {last : OpenSegment} (h : last.t0 < len) (earlier : List OpenSegment) :
    (boundSegments len (earlier ++ [last])).getLast? = some ⟨last.ref, last.t0, len⟩
      ∧ (boundSegments len (earlier ++ [last])).length = (earlier ++ [last]).length := by
  have alone : boundSegments len [last] = [⟨last.ref, last.t0, len⟩] := if_neg h.ne
  induction earlier with
  | nil => exact ⟨by rw [List.nil_append, alone]; rfl, by rw [List.nil_append, alone]; rfl⟩
  | cons x rest ih =>
    obtain ⟨tail, length⟩ := ih
    obtain ⟨y, more, hy⟩ : ∃ y more, rest ++ [last] = y :: more := List.exists_cons_of_ne_nil (by simp)
    rw [List.cons_append, hy, boundSegments]
    rw [hy] at tail length
    refine ⟨?_, congrArg (· + 1) length⟩
    rw [List.getLast?_cons, tail]
    rfl

end Sys2Proof.Machine
end

section
/-! PROOF. The cuts that a filtered change fires, on one lane and on several (R27 to R35). -/

namespace Sys2Proof.Machine

/-! ### What a cut looks at once a filtered change is taken -/

namespace AsTaken

variable {s u : State} (h : AsTaken s u)
include h

theorem openStart : openStart u = openStart s := by rw [Machine.openStart, Machine.openStart, h.ca]

theorem exitRef : exitRef u = exitRef s := by
  unfold Machine.exitRef tableEntry
  rw [h.ca]

theorem laneName (lane : Nat) : laneName u lane = laneName s lane := by rw [Machine.laneName, Machine.laneName, h.ca]

theorem isDuplicate (id : CoilId) : isDuplicate u id = isDuplicate s id := by
  unfold Machine.isDuplicate directoryNames heldNames awaitingNames awaiting
  rw [h.ar, h.ca]

theorem names : directoryNames u ++ heldNames u = directoryNames s ++ heldNames s := by
  unfold directoryNames heldNames awaitingNames awaiting
  rw [h.ar, h.ca]

theorem unwritten {c0 c : Nat} (mark : writtenMark s < cellFrom c s.cx.pitch) (owns : cellFrom c0 s.cx.pitch < cellFrom c s.cx.pitch) :
    Unwritten u c0 c := by
  refine ⟨?_, by rw [h.cx]; exact owns⟩
  unfold writtenMark at mark ⊢
  rw [h.cx]
  exact mark

theorem flag (a : Attention) : flagSet a u = flagSet a s := by rw [flagSet, flagSet, h.pp]

theorem opened (c : Nat) : opened u c = opened s c := by
  funext i
  rw [Machine.opened, Machine.opened, h.exitRef, h.ca, h.ar]

end AsTaken

theorem CutFrame.opened {s t : State} (h : CutFrame s t) (c : Nat) : opened t c = opened s c := by
  funext i
  rw [Machine.opened, Machine.opened, h.exitRef, h.outSeq, h.stage]

/-- A cut that a filtered change fires above the open coils' start. -/
theorem fires_cut {k : Fin 12} {s : State} {c0 : Nat} {broken : Bool} (fires : Fires k s ⟨false, false, !broken, broken⟩)
    (h : openStart s = some c0) (above : c0 < runCoord s) : ∃ u, AsTaken s u
      ∧ exec (.filteredChange k) s = .next (settleArchive (cutCoils (runCoord s) (cutMark broken) u)) := by
  obtain ⟨u, taken, ran⟩ := fires_taken fires
  rw [fireCut_closes (taken.openStart.trans h) (by rw [taken.run]; exact above), taken.run] at ran
  exact ⟨u, taken, ran⟩

/-- What every cut leaves, whatever it closes. -/
theorem fires_cut_frame {k : Fin 12} {s : State} {c0 : Nat} {broken : Bool} (fires : Fires k s ⟨false, false, !broken, broken⟩)
    (h : openStart s = some c0) (above : c0 < runCoord s) : ∃ t, exec (.filteredChange k) s = .next t ∧ flagSet .coilClosed t = true
      ∧ (s.ca.outSeq ≤ 2 ^ 32 - 1 → t.ca.openCoils = (List.range s.ca.laneCount).map (opened s (runCoord s)))
      ∧ t.ca.welds = s.ca.welds ∧ t.ca.boundaries = s.ca.boundaries ∧ t.ca.table = s.ca.table
      ∧ t.ca.entryQueue = s.ca.entryQueue ∧ t.ca.inSeq = s.ca.inSeq ∧ t.ca.exitCoil = s.ca.exitCoil := by
  obtain ⟨u, taken, ran⟩ := fires_cut fires h above
  obtain ⟨v, frame, cut⟩ := cutCoils_frame (runCoord s) (cutMark broken) u
  rw [cut] at ran
  have left := (settleArchive_move (raise .coilClosed (openCoilsAt (runCoord s) v))).ca
  rw [raise_ca] at left
  have flag := flagSet_settleArchive_raised .coilClosed (openCoilsAt (runCoord s) v)
  generalize settleArchive (raise .coilClosed (openCoilsAt (runCoord s) v)) = t at ran left flag
  have same : v.ca.lessCut = s.ca.lessCut := frame.ca.trans (by rw [taken.ca])
  obtain ⟨coils, seq, rest⟩ := openCoilsAt_rest (runCoord s) v
  refine ⟨t, ran, flag, fun room => ?_, ?_⟩
  · rw [left, openCoilsAt_of (by rw [frame.outSeq, taken.ca]; exact room), frame.opened, taken.opened, frame.laneCount, taken.ca]
  · rw [left, rest]
    exact ⟨(congrArg Ca.welds same : v.ca.lessCut.welds = s.ca.lessCut.welds),
      (congrArg Ca.boundaries same : v.ca.lessCut.boundaries = s.ca.lessCut.boundaries),
      (congrArg Ca.table same : v.ca.lessCut.table = s.ca.lessCut.table),
      (congrArg Ca.entryQueue same : v.ca.lessCut.entryQueue = s.ca.lessCut.entryQueue),
      (congrArg Ca.inSeq same : v.ca.lessCut.inSeq = s.ca.lessCut.inSeq),
      (congrArg Ca.exitCoil same : v.ca.lessCut.exitCoil = s.ca.lessCut.exitCoil)⟩

/-- What a cut leaves when nothing closes yet and the cells are not written: every lane's record, in lane order. -/
theorem fires_cut_records {k : Fin 12} {s : State} {c0 : Nat} {broken : Bool} (fires : Fires k s ⟨false, false, !broken, broken⟩)
    (some : s.ca.openCoils ≠ []) (few : s.ca.openCoils.length ≤ 32) (start : ∀ o ∈ s.ca.openCoils, o.c0 = c0)
    (lanes : ∀ o ∈ s.ca.openCoils, o.lane - 1 < 8) (distinct : (s.ca.openCoils.map (fun o => o.lane - 1)).Nodup) (above : c0 < runCoord s)
    (closing : s.ca.closing = []) (mark : writtenMark s < cellFrom (runCoord s) s.cx.pitch)
    (owns : cellFrom c0 s.cx.pitch < cellFrom (runCoord s) s.cx.pitch) :
    ∃ t u, exec (.filteredChange k) s = .next t ∧ AsTaken s u
      ∧ LanesClose u (runCoord s) (cutMark broken) [] s.ca.openCoils t.ca.names t.ca.closing
      ∧ t.ca.lastCoil = t.ca.closing.getLast?.or s.ca.lastCoil := by
  have begins : openStart s = .some c0 := by
    obtain ⟨o, rest, ho⟩ := List.exists_cons_of_ne_nil some
    rw [openStart, ho, List.head?_cons, Option.map_some, start o (by rw [ho]; exact List.mem_cons_self)]
  obtain ⟨u, taken, ran⟩ := fires_cut fires begins above
  obtain ⟨names, records, cut, lanesClose⟩ := cutCoils_of (s := u) (c0 := c0) (c := runCoord s) (cutMark broken) (by rw [taken.ca]; exact few)
    (by rw [taken.ca]; exact closing) (by rw [taken.ca]; exact start) (by rw [taken.ca]; exact lanes) (by rw [taken.ca]; exact distinct)
    (taken.unwritten mark owns)
  rw [cut] at ran
  obtain ⟨coils, seq, rest⟩ := openCoilsAt_rest (runCoord s) { u with ca := { u.ca with
    names := names, openCoils := u.ca.openCoils.drop u.ca.openCoils.length, closing := records
    lastCoil := records.getLast?.or u.ca.lastCoil } }
  rw [rest] at ran
  have left := (settleArchive_move (raise .coilClosed { u with ca := { u.ca with
    names := names, openCoils := coils, outSeq := seq, closing := records, lastCoil := records.getLast?.or u.ca.lastCoil } })).ca
  rw [raise_ca] at left
  refine ⟨_, u, ran, taken, ?_, ?_⟩
  · rw [left, ← taken.ca]
    exact lanesClose
  · rw [left, taken.ca]

/-- What a lane's record holds, and its name, by R29 to R31. -/
theorem LaneCloses.holds {s u : State} {c : Nat} {broken : Bool} {before : List OutputRecord} {o : OpenCoil} {r : OutputRecord}
    (h : LaneCloses u c (cutMark broken) before o r) (taken : AsTaken s u) (closing : s.ca.closing = []) :
    r = closedRecord s c (cutMark broken) r.id r.flags.stationNamed o
      ∧ r.flags = { o.flags with
          broken := o.flags.broken || broken
          noTrend := o.flags.noTrend || s.ar.stage != .normal
          stationNamed := r.flags.stationNamed }
      ∧ (laneName s o.lane ≠ [] → isDuplicate s (laneName s o.lane) = false → (∀ q ∈ before, q.id ≠ laneName s o.lane) →
          r.id = laneName s o.lane ∧ r.flags.stationNamed = false)
      ∧ (laneName s o.lane = [] ∨ isDuplicate s (laneName s o.lane) = true ∨ (∃ q ∈ before, q.id = laneName s o.lane) →
          r.flags.stationNamed = true ∧ ∃ n, r.id = stationName s.bi.node (o.seq + n)
            ∧ ∀ m, m < n → isDuplicate s (stationName s.bi.node (o.seq + m)) = true
                ∨ ∃ q ∈ before, q.id = stationName s.bi.node (o.seq + m))
      ∧ ((directoryNames s ++ heldNames s).length + 2 * before.length < 10000000 →
          isDuplicate s r.id = false ∧ ∀ q ∈ before, q.id ≠ r.id) := by
  have closingU : u.ca.closing = [] := by rw [taken.ca]; exact closing
  have held (x : CoilId) : x ∈ takenNames u before ↔ isDuplicate s x = true ∨ ∃ q ∈ before, q.id = x := by
    rw [mem_takenNames closingU, taken.isDuplicate]
  have record : r = closedRecord s c (cutMark broken) r.id r.flags.stationNamed o := by
    have eq := h.record (cutMark_stationNamed broken)
    unfold closedRecord at eq ⊢
    rw [taken.ca, taken.cx, taken.ar] at eq
    exact eq
  obtain ⟨free, taken', fresh⟩ := h.name (cutMark_stationNamed broken)
  rw [taken.laneName, held] at free taken'
  rw [taken.bi] at taken'
  simp only [held] at taken'
  rw [held] at fresh
  refine ⟨record, ?_, fun named single alone => ?_, taken', fun few => ?_⟩
  · exact (congrArg OutputRecord.flags record).trans (cutMark_flags broken o.flags _ _)
  · refine free named fun other => ?_
    rcases other with dup | ⟨q, hq, same⟩
    · rw [single] at dup
      exact Bool.noConfusion dup
    · exact alone q hq same
  · have own := fresh (by rw [length_takenNames closingU, taken.names]; exact few)
    obtain ⟨single, alone⟩ := not_or.1 own
    exact ⟨Bool.eq_false_iff.2 single, fun q hq same => alone ⟨q, hq, same⟩⟩

end Sys2Proof.Machine
end

section
/-! PROOF. The obligation about cuts (R27 to R35). -/

namespace Sys2Proof.Machine

/-- The lanes of an open station, 1 to as many as there are coils, are below 8 from 0 and differ. -/
theorem lanes_of {coils : List OpenCoil} (few : coils.length ≤ 8)
    (h : coils.map (fun o => o.lane) = (List.range coils.length).map (fun i => i + 1)) :
    (∀ o ∈ coils, o.lane - 1 < 8) ∧ (coils.map (fun o => o.lane - 1)).Nodup := by
  have below : coils.map (fun o => o.lane - 1) = List.range coils.length := by
    have := congrArg (List.map (· - 1)) h
    rw [List.map_map, List.map_map] at this
    exact this.trans (List.map_id _)
  refine ⟨fun o ho => ?_, by rw [below]; exact List.nodup_range⟩
  have listed : o.lane - 1 ∈ coils.map (fun o => o.lane - 1) := List.mem_map.2 ⟨o, ho, rfl⟩
  rw [below, List.mem_range] at listed
  exact lt_of_lt_of_le listed few

/-- The names of a cut differ: each is free of those behind which it was given. -/
theorem LanesClose.names_nodup {s u : State} {c : Nat} {broken : Bool} {coils : List OpenCoil} {names : Vector CoilId 8}
    {records : List OutputRecord} (h : LanesClose u c (cutMark broken) [] coils names records) (taken : AsTaken s u)
    (closing : s.ca.closing = []) (few : coils.length ≤ 8) (free : (directoryNames s ++ heldNames s).length < 9000000) :
    (records.map (fun r => r.id)).Nodup ∧ ∀ r ∈ records, isDuplicate s r.id = false := by
  have fresh (i : Nat) (hi : i < records.length) : isDuplicate s records[i].id = false ∧ ∀ q ∈ records.take i, q.id ≠ records[i].id := by
    have there : i < coils.length := h.length ▸ hi
    have closes := h.closes i coils[i] records[i] (List.getElem?_eq_getElem there) (List.getElem?_eq_getElem hi)
    rw [List.nil_append] at closes
    obtain ⟨_, _, _, _, unique⟩ := closes.holds taken closing
    refine unique ?_
    rw [List.length_take]
    omega
  refine ⟨List.pairwise_iff_getElem.2 fun i j hi hj less => ?_, fun r hr => ?_⟩
  · rw [List.length_map] at hi hj
    rw [List.getElem_map, List.getElem_map]
    exact (fresh j hj).2 _ (List.mem_take_iff_getElem.2 ⟨i, by omega, rfl⟩)
  · obtain ⟨i, hi, rfl⟩ := List.mem_iff_getElem.1 hr
    exact (fresh i hi).1

/-- Settles O21: cuts at and above the open coils' start, on one lane and on several. -/
theorem cutsCloseAndOpenEveryLane : Obligations.CutsCloseAndOpenEveryLane := by
  unfold Obligations.CutsCloseAndOpenEveryLane
  refine ⟨fun k s c0 broken fires begins => ⟨fun below cut => ?stands, fun above room => ?opens⟩,
    fun k s c0 fires begins => ⟨fun below => ?broken, fun above => ?breaks⟩,
    fun k s o last earlier broken fires coils lane lanes above segments long closing mark owns => ?single,
    fun k s c0 coils broken fires hcoils some few start lanes above closing mark owns free => ?several⟩
  case stands =>
    subst cut
    obtain ⟨u, taken, ran⟩ := fires_taken fires
    have stands : fireKinds ⟨false, false, !false, false⟩ u = u :=
      (fireCut_stands (taken.openStart.trans begins) (by rw [taken.run]; exact below)).1
    rw [stands] at ran
    exact ⟨_, ran, (settleArchive_move u).ca.trans taken.ca, (flagSet_settleArchive (by decide)).trans (taken.flag _)⟩
  case opens =>
    obtain ⟨t, ran, flag, coils, rest⟩ := fires_cut_frame fires begins above
    exact ⟨t, ran, flag, coils room, rest⟩
  case broken =>
    obtain ⟨u, taken, ran⟩ := fires_taken fires
    rw [(fireCut_stands (taken.openStart.trans begins) (by rw [taken.run]; exact below)).2] at ran
    refine ⟨_, ran, ?_, (flagSet_settleArchive (by decide)).trans (taken.flag _)⟩
    rw [(settleArchive_move _).ca, taken.ca]
    rfl
  case breaks =>
    obtain ⟨t, ran, flag, _, welds, boundaries, table, queue, _, exit⟩ := fires_cut_frame (broken := true) fires begins above
    exact ⟨t, ran, flag, queue, table, welds, boundaries, exit⟩
  case single =>
    have one (P : OpenCoil → Prop) (h : P o) : ∀ p ∈ s.ca.openCoils, P p := by
      rw [coils]
      exact List.forall_mem_singleton.2 h
    obtain ⟨t, u, ran, taken, lanesClose, lastCoil⟩ := fires_cut_records fires (by rw [coils]; exact List.cons_ne_nil _ _)
      (by rw [coils, List.length_singleton]; decide) (one _ rfl) (one (fun p => p.lane - 1 < 8) (by rw [lane]; decide)) (by rw [coils]; exact List.nodup_singleton _)
      above closing mark owns
    rw [coils] at lanesClose
    obtain ⟨r, hr⟩ := List.length_eq_one_iff.1 lanesClose.length
    have closes := lanesClose.closes 0 o r rfl (by rw [hr]; rfl)
    rw [List.take_zero, List.append_nil] at closes
    obtain ⟨record, flags, own, station, fresh⟩ := closes.holds taken closing
    rw [lane] at own station
    obtain ⟨tail, length⟩ := boundSegments_concat long earlier
    rw [← segments] at tail length
    have bound : r.segments = boundSegments (runCoord s - o.c0) o.segments := congrArg OutputRecord.segments record
    refine ⟨t, r, ran, hr, by rw [lastCoil, hr]; rfl, congrArg OutputRecord.seq record, ?_, congrArg OutputRecord.c0 record,
      congrArg OutputRecord.c1 record, congrArg OutputRecord.further record, congrArg OutputRecord.revision record, bound ▸ tail,
      bound ▸ length, flags, fun named free => own named free (fun q h => absurd h List.not_mem_nil), fun other => ?_, fun free => ?_, ?_⟩
    · exact (congrArg OutputRecord.lane record).trans (if_neg (by rw [lanes]; decide))
    · obtain ⟨made, n, name, passed⟩ := station (other.imp_right .inl)
      exact ⟨made, n, name, fun m hm => (passed m hm).resolve_right (fun ⟨q, h, _⟩ => absurd h List.not_mem_nil)⟩
    · exact (fresh (by rw [List.length_nil]; omega)).1
    · have used := lanesClose.used o (List.mem_singleton_self o)
      rw [lane] at used
      exact used
  case several =>
    subst hcoils
    obtain ⟨below, distinct⟩ := lanes_of few lanes
    obtain ⟨t, u, ran, taken, lanesClose, lastCoil⟩ := fires_cut_records fires some (few.trans (by decide)) start below distinct above
      closing mark owns
    obtain ⟨nodup, fresh⟩ := lanesClose.names_nodup taken closing few free
    have closed : t.ca.closing ≠ [] := fun none => some (List.length_eq_zero_iff.1 (by rw [← lanesClose.length, none]; rfl))
    refine ⟨t, ran, lanesClose.length, ?_, nodup, fresh, lanesClose.used, fun i o r ho hr => ?_⟩
    · rw [lastCoil, List.getLast?_eq_some_getLast closed]
      rfl
    · have closes := lanesClose.closes i o r ho hr
      rw [List.nil_append] at closes
      obtain ⟨record, flags, own, station, _⟩ := closes.holds taken closing
      exact ⟨congrArg OutputRecord.seq record, congrArg OutputRecord.lane record,
        (congrArg OutputRecord.c0 record).trans (start o (List.mem_of_getElem? ho)), congrArg OutputRecord.c1 record,
        congrArg OutputRecord.further record, congrArg OutputRecord.revision record, congrArg OutputRecord.pitch record, flags, own, station⟩

end Sys2Proof.Machine
end

section
/-! PROOF. An advance of the run coordinate: the boundary that is due, the forced cut at the length limit, the front cell that retires and
the closing coil that is handed over with it (R11, R12, R24, R32, R35, R53 to R57). -/

namespace Sys2Proof.Machine

/-! ### The blocks that take an advance (R12) -/

theorem exec_exitPulse_of {s u : State} (run : s.pp.station = .run) (total : s.tiu.exitTotal ≠ BitVec.allOnes 48)
    (hu : u = { s with tiu.exitTotal := s.tiu.exitTotal + 1 }) :
    (runCoord u ≤ runCoord s → exec (.exitPulse true) s = .next u)
      ∧ (runCoord s < runCoord u → exec (.exitPulse true) s
          = .next (settleArchive (advanceCells (runCoord u) (advanceCoils (runCoord u) u)))) := by
  rw [exec_exitPulse_counted run, countExitPulse_of_ne total, ← hu]
  exact ⟨fun stands => by rw [if_neg (not_lt.2 stands)], fun rises => by rw [if_pos rises, advanceTrack]⟩

/-- The coils below the length limit go on once the boundaries due have passed. -/
theorem advanceCoils_of_short {r : Nat} {s v : State} (passed : passDue r s = v)
    (short : ∀ c0, openStart v = some c0 → r < c0 + 4000000) : advanceCoils r s = v := by
  rw [advanceCoils, passed]
  cases start : openStart v with
  | none => rfl
  | some c0 =>
    dsimp only
    have below := short c0 start
    exact if_neg (by unfold lengthLimit; omega)

theorem advanceCoils_of_limit {r c0 : Nat} {s : State} (due : ∀ b ∈ s.ca.boundaries, r < b.w) (start : openStart s = some c0)
    (long : c0 + 4000000 ≤ r) : advanceCoils r s = cutCoils r CoilFlags.setForced s := by
  rw [advanceCoils, passDue_of_none due, start]
  exact if_pos (by unfold lengthLimit; omega)

theorem advanceCells_of {r front : Nat} {s : State} (hf : s.cx.front = some front) :
    (r < (front + 1) * s.cx.pitch + s.cx.allowance → advanceCells r s = s)
      ∧ ((front + 1) * s.cx.pitch + s.cx.allowance ≤ r → advanceCells r s = retireFront front s) := by
  rw [advanceCells, hf]
  exact ⟨fun ahead => if_neg (not_le.2 ahead), fun reached => if_pos reached⟩

/-- The state with the front cell out of the window. -/
def frontLeft (front : Nat) (s : State) : State :=
  { s with cx.front := some (front + 1), cx.window := s.cx.window.filter (fun c => c.1 != front) }

/-- The rows of R53 to R55. -/
theorem retireFront_rows (front : Nat) (s : State) :
    (s.ar.stage = .normal → s.cx.staging.length < 512 → retireFront front s = handReady { frontLeft front s with
        cx.staging := s.cx.staging ++ [⟨front, s.cx.pitch, windowCell s front, s.now, true⟩] })
      ∧ (s.ar.stage = .normal → 512 ≤ s.cx.staging.length → retireFront front s = handReady (markIncomplete front (frontLeft front s)))
      ∧ (s.ar.stage ≠ .normal → retireFront front s = handReady (frontLeft front s)) := by
  refine ⟨fun stage room => ?_, fun stage full => ?_, fun stage => ?_⟩
  · exact congrArg handReady ((if_pos stage).trans (if_pos room))
  · exact congrArg handReady ((if_pos stage).trans (if_neg (not_lt.2 full)))
  · exact congrArg handReady (if_neg stage)

theorem markIncomplete_of_noneClosing {s : State} (h : s.ca.closing = []) (cell : Nat) : markIncomplete cell s = { s with
    ca.openCoils := s.ca.openCoils.map (fun o => { o with
      flags.incomplete := o.flags.incomplete || decide (2 * o.c0 ≤ (2 * cell + 1) * s.cx.pitch) }) } := by
  have marked : (fun o : OpenCoil => if openOwnsCell o.c0 s.cx.pitch cell then { o with flags := o.flags.setIncomplete } else o)
      = fun o => { o with flags.incomplete := o.flags.incomplete || decide (2 * o.c0 ≤ (2 * cell + 1) * s.cx.pitch) } := by
    funext o
    unfold openOwnsCell
    by_cases owns : 2 * o.c0 ≤ (2 * cell + 1) * s.cx.pitch
    · rw [if_pos (decide_eq_true owns), decide_eq_true owns, Bool.or_true]
      rfl
    · rw [if_neg (by rw [decide_eq_false owns]; exact Bool.false_ne_true), decide_eq_false owns, Bool.or_false]
  rw [markIncomplete, marked, h, List.map_nil, ← h]

/-- With no coil closing the cell that retires leaves the closing list as it is. -/
theorem retireFront_noneClosing {s : State} (h : s.ca.closing = []) (front : Nat) :
    (s.ar.stage = .normal → s.cx.staging.length < 512 → retireFront front s = { frontLeft front s with
        cx.staging := s.cx.staging ++ [⟨front, s.cx.pitch, windowCell s front, s.now, true⟩] })
      ∧ (s.ar.stage = .normal → 512 ≤ s.cx.staging.length → retireFront front s = { frontLeft front s with
          ca.openCoils := s.ca.openCoils.map (fun o => { o with
            flags.incomplete := o.flags.incomplete || decide (2 * o.c0 ≤ (2 * front + 1) * s.cx.pitch) }) })
      ∧ (s.ar.stage ≠ .normal → retireFront front s = frontLeft front s) := by
  obtain ⟨staged, full, dropped⟩ := retireFront_rows front s
  refine ⟨fun stage room => ?_, fun stage many => ?_, fun stage => ?_⟩
  · exact (staged stage room).trans (handReady_of_none (s := { frontLeft front s with
      cx.staging := s.cx.staging ++ [⟨front, s.cx.pitch, windowCell s front, s.now, true⟩] }) h)
  · rw [full stage many, markIncomplete_of_noneClosing (s := frontLeft front s) h front]
    exact handReady_of_none (s := { frontLeft front s with
      ca.openCoils := s.ca.openCoils.map (fun o => { o with
        flags.incomplete := o.flags.incomplete || decide (2 * o.c0 ≤ (2 * front + 1) * s.cx.pitch) }) }) h
  · exact (dropped stage).trans (handReady_of_none (s := frontLeft front s) h)

/-! ### A coil handed over as the mark rises (R35, R36, R57) -/

theorem reclaimMoment_writeQueue (s : State) : (reclaimMoment s).ar.writeQueue = s.ar.writeQueue := by
  unfold reclaimMoment
  split
  · split
    · rw [chooseSegment_eq, failAmendRead_ar]
      rfl
    · rfl
  · rfl

/-- A reclaim choice fills no directory. -/
theorem directoryFull_reclaimMoment {s : State} (idle : s.ar.pageWrite = none) (room : directoryFull s = false) :
    directoryFull (reclaimMoment s) = false := by
  have used (u : State) (none : u.ar.pageWrite = .none) : placesUsed u = u.ar.outs.length + u.ar.ins.length := by
    have taken : placesTaken u = 0 := by rw [placesTaken, none]
    rw [placesUsed, taken, Nat.add_zero]
  unfold directoryFull at room ⊢
  rw [used _ idle] at room
  rw [used _ ((reclaimMoment_move s).pageWrite.trans idle)]
  rw [decide_eq_false_iff_not, not_le] at room ⊢
  refine lt_of_le_of_lt (Nat.add_le_add ?_ ?_) room
  · unfold reclaimMoment
    split
    · split
      · rw [chooseSegment_eq, failAmendRead_ar]
        exact List.length_filter_le _ _
      · exact le_refl _
    · exact le_refl _
  · unfold reclaimMoment
    split
    · split
      · rw [chooseSegment_eq, failAmendRead_ar]
        exact List.length_filter_le _ _
      · exact le_refl _
    · exact le_refl _

/-- A closing coil handed over with room in the queue and in the directory. -/
theorem handCoil_of_room {s : State} {r : OutputRecord} (stage : s.ar.stage ≠ .full) (room : s.ar.writeQueue.length < 64)
    (directory : directoryFull s = false) (idle : s.ar.pageWrite = none) : directoryFull (handCoil r s) = false
      ∧ (handCoil r s).ar.writeQueue = s.ar.writeQueue ++ [.output r] ∧ (handCoil r s).cx = s.cx
      ∧ (handCoil r s).ca = { s.ca with lastCoil := s.ca.lastCoil.map (fun l => if l.id = r.id then r else l) } := by
  obtain ⟨flags, handed⟩ := handItem_of_room (w := .output r)
    (s := { s with ca.lastCoil := s.ca.lastCoil.map (fun l => if l.id = r.id then r else l) }) stage
    (by rw [directoryStuck, show directoryFull { s with ca.lastCoil := s.ca.lastCoil.map (fun l => if l.id = r.id then r else l) } = false
      from directory, Bool.false_and, Bool.and_false]) room
  rw [handCoil]
  dsimp only
  rw [handed]
  refine ⟨directoryFull_reclaimMoment idle ((directoryFull_congr rfl rfl rfl).trans directory), reclaimMoment_writeQueue _,
    (reclaimMoment_move _).cx, (reclaimMoment_move _).ca⟩

theorem handReady_of_one {s : State} {r : OutputRecord} (h : s.ca.closing = [r]) (ready : readyToHand (writtenMark s) r = true) :
    handReady s = handCoil r { s with ca.closing := [] } := by
  rw [handReady, h, List.length_singleton, handReadyN, h]
  dsimp only
  rw [if_pos ready, handReadyN]

/-! ### The obligation -/

/-- An advance with no coil closing. -/
theorem advance_rows {s : State} {r front : Nat} (due : ∀ b ∈ s.ca.boundaries, r < b.w)
    (short : ∀ c0, openStart s = some c0 → r < c0 + 4000000) (closing : s.ca.closing = []) (hf : s.cx.front = some front) :
    (r < (front + 1) * s.cx.pitch + s.cx.allowance → advanceCells r (advanceCoils r s) = s)
      ∧ ((front + 1) * s.cx.pitch + s.cx.allowance ≤ r → s.ar.stage = .normal → s.cx.staging.length < 512 →
          advanceCells r (advanceCoils r s) = { frontLeft front s with
            cx.staging := s.cx.staging ++ [⟨front, s.cx.pitch, windowCell s front, s.now, true⟩] })
      ∧ ((front + 1) * s.cx.pitch + s.cx.allowance ≤ r → s.ar.stage = .normal → 512 ≤ s.cx.staging.length →
          advanceCells r (advanceCoils r s) = { frontLeft front s with
            ca.openCoils := s.ca.openCoils.map (fun o => { o with
              flags.incomplete := o.flags.incomplete || decide (2 * o.c0 ≤ (2 * front + 1) * s.cx.pitch) }) })
      ∧ ((front + 1) * s.cx.pitch + s.cx.allowance ≤ r → s.ar.stage ≠ .normal → advanceCells r (advanceCoils r s) = frontLeft front s) := by
  rw [advanceCoils_of_short (passDue_of_none due) short]
  obtain ⟨stands, retires⟩ := advanceCells_of (r := r) hf
  obtain ⟨staged, full, dropped⟩ := retireFront_noneClosing closing front
  exact ⟨stands, fun reached normal room => (retires reached).trans (staged normal room),
    fun reached normal many => (retires reached).trans (full normal many), fun reached other => (retires reached).trans (dropped other)⟩

/-- The front cell retires with no coil closing. -/
theorem advance_retires {s u : State} {front : Nat} (run : s.pp.station = .run) (total : s.tiu.exitTotal ≠ BitVec.allOnes 48)
    (hu : u = { s with tiu.exitTotal := s.tiu.exitTotal + 1 }) (rises : runCoord s < runCoord u)
    (due : ∀ b ∈ s.ca.boundaries, runCoord u < b.w) (short : ∀ c0, openStart s = some c0 → runCoord u < c0 + 4000000)
    (closing : s.ca.closing = []) (hf : s.cx.front = some front) :
    (runCoord u < (front + 1) * s.cx.pitch + s.cx.allowance → exec (.exitPulse true) s = .next (settleArchive u))
      ∧ ((front + 1) * s.cx.pitch + s.cx.allowance ≤ runCoord u → s.ar.stage = .normal → s.cx.staging.length < 512 →
          exec (.exitPulse true) s = .next (settleArchive { u with
            cx.front := some (front + 1)
            cx.window := s.cx.window.filter (fun c => c.1 != front)
            cx.staging := s.cx.staging ++ [⟨front, s.cx.pitch, windowCell s front, s.now, true⟩] }))
      ∧ ((front + 1) * s.cx.pitch + s.cx.allowance ≤ runCoord u → s.ar.stage = .normal → 512 ≤ s.cx.staging.length →
          exec (.exitPulse true) s = .next (settleArchive { u with
            cx.front := some (front + 1)
            cx.window := s.cx.window.filter (fun c => c.1 != front)
            ca.openCoils := s.ca.openCoils.map (fun o => { o with
              flags.incomplete := o.flags.incomplete || decide (2 * o.c0 ≤ (2 * front + 1) * s.cx.pitch) }) }))
      ∧ ((front + 1) * s.cx.pitch + s.cx.allowance ≤ runCoord u → s.ar.stage ≠ .normal →
          exec (.exitPulse true) s = .next (settleArchive { u with
            cx.front := some (front + 1)
            cx.window := s.cx.window.filter (fun c => c.1 != front) })) := by
  have ran := (exec_exitPulse_of run total hu).2 rises
  have settled {v : State} (h : advanceCells (runCoord u) (advanceCoils (runCoord u) u) = v) :
      exec (.exitPulse true) s = .next (settleArchive v) := by rw [ran, h]
  subst hu
  obtain ⟨stands, staged, full, dropped⟩ := advance_rows (s := { s with tiu.exitTotal := s.tiu.exitTotal + 1 }) due short closing hf
  exact ⟨fun ahead => settled (stands ahead), fun reached normal room => settled (staged reached normal room),
    fun reached normal many => settled (full reached normal many), fun reached other => settled (dropped reached other)⟩

theorem advanceTrack_free (r : Nat) (s : State) : (advanceTrack r s).free = s.free :=
  calc (advanceTrack r s).free
    _ = (advanceCells r (advanceCoils r s)).free := (settleArchive_move _).free
    _ = (advanceCoils r s).free := (advanceCells_line r _).free
    _ = s.free := (advanceCoils_line r s).free

theorem pass_c0 (w : Nat) (ref : Option Nat) (o : OpenCoil) : (o.pass w ref).c0 = o.c0 := by
  unfold OpenCoil.pass
  split
  · rfl
  · split
    · rfl
    · split <;> rfl

/-- A passage leaves the open coils' start. -/
theorem openStart_pass (w : Nat) (ref : Option Nat) (coils : List OpenCoil) :
    (coils.map (OpenCoil.pass w ref)).head?.map (fun c => c.c0) = coils.head?.map (fun c => c.c0) := by
  cases coils with
  | nil => rfl
  | cons o rest => exact congrArg some (pass_c0 w ref o)

theorem openCoilsAt_one {s : State} (h : s.ca.laneCount = 1) (c : Nat) : openCoilsAt c s = { s with ca := { s.ca with
    openCoils := [⟨1, s.ca.outSeq, c, [⟨exitRef s, 0⟩], 0, { CoilFlags.clear with noTrend := s.ar.stage != .normal }⟩]
    outSeq := nextSeq s.ca.outSeq } } := by
  rw [openCoilsAt, h]
  rfl

/-- A cut on one lane. -/
theorem cutCoils_of_one {s : State} {o : OpenCoil} {c : Nat} (mark : CoilFlags → CoilFlags) (coils : s.ca.openCoils = [o]) (lane : o.lane = 1)
    (lanes : s.ca.laneCount = 1) (closing : s.ca.closing = []) (waits : Unwritten s o.c0 c) :
    ∃ r, (∃ v, cutCoils c mark s = raise .coilClosed v ∧ v.ca.closing = [r] ∧ v.ca.lastCoil = some r
        ∧ v.ca.openCoils
          = [⟨1, s.ca.outSeq, c, [⟨exitRef s, 0⟩], 0, { CoilFlags.clear with noTrend := s.ar.stage != .normal }⟩] ∧ v.cx = s.cx)
      ∧ LaneCloses s c mark [] o r := by
  have one (P : OpenCoil → Prop) (h : P o) : ∀ p ∈ s.ca.openCoils, P p := by
    rw [coils]
    exact List.forall_mem_singleton.2 h
  obtain ⟨names, records, cut, lanesClose⟩ := cutCoils_of (c0 := o.c0) (c := c) mark (by rw [coils, List.length_singleton]; decide) closing
    (one _ rfl) (one (fun p => p.lane - 1 < 8) (by rw [lane]; decide)) (by rw [coils]; exact List.nodup_singleton _) waits
  rw [coils] at lanesClose
  obtain ⟨r, rfl⟩ := List.length_eq_one_iff.1 lanesClose.length
  have closes := lanesClose.closes 0 o r rfl rfl
  rw [List.take_zero, List.append_nil] at closes
  rw [openCoilsAt_one (s := { s with ca := { s.ca with
    names := names, openCoils := s.ca.openCoils.drop s.ca.openCoils.length, closing := [r]
    lastCoil := [r].getLast?.or s.ca.lastCoil } }) lanes] at cut
  exact ⟨r, ⟨_, cut, rfl, rfl, rfl, rfl⟩, closes⟩

/-- Settles O16: an advance without and with a boundary, a forced cut and a coil handed over, and the total past its width. -/
theorem advanceRetiresTheFrontCell : Obligations.AdvanceRetiresTheFrontCell := by
  unfold Obligations.AdvanceRetiresTheFrontCell
  refine ⟨fun s u front run total hu => ⟨(exec_exitPulse_of run total hu).1, fun rises due short closing hf =>
      advance_retires run total hu rises due short closing hf⟩,
    fun s run total => ?width, fun s u front run total hu rises hf => ⟨fun b later f boundaries isDue notDue noExit hb short ahead => ?passes,
      fun o last earlier due coils lane lanes long segments last' closing mark owns ahead => ?forced,
      fun r due short closing stage staging idle directory room reached ready => ?handed⟩⟩
  case width =>
    have counted : countExitPulse s = { s with
      tiu.exitTotal := Config.exitTotalBeyond s.free, tiu.exitOver := true, free := s.free + 1 } := if_pos total
    have ran := exec_exitPulse_counted run
    rw [counted] at ran
    refine ⟨_, ran, ?_⟩
    split
    · have tiu := advanceTrack_tiu (runCoord { s with
        tiu.exitTotal := Config.exitTotalBeyond s.free, tiu.exitOver := true, free := s.free + 1 }) { s with
        tiu.exitTotal := Config.exitTotalBeyond s.free, tiu.exitOver := true, free := s.free + 1 }
      refine ⟨tiu, (advanceTrack_free _ _), ?_⟩
      rw [runCoord, tiu]
      exact if_pos rfl
    · exact ⟨rfl, rfl, if_pos rfl⟩
  case passes =>
    have ran := (exec_exitPulse_of run total hu).2 rises
    have passed := (passDue_of_one (r := runCoord u) (s := u) (b := b) (later := later) (by rw [hu]; exact boundaries) isDue notDue).trans
      (passBoundary_first (s := { u with ca.boundaries := later }) (f := f) (by rw [hu]; exact noExit) (by rw [hu]; exact hb))
    have begun := (find_begun b s.ca.table).trans (congrArg (Option.map _) hb)
    have start : openStart { u with ca := Ca.passed b (if f.id = [] then none else some b.starting) { u.ca with boundaries := later } }
        = openStart s := by
      rw [hu]
      exact openStart_pass _ _ _
    obtain ⟨stands, _⟩ := advanceCells_of (r := runCoord u) (front := front) (s := { u with
      ca := Ca.passed b (if f.id = [] then none else some b.starting) { u.ca with boundaries := later } }) (by rw [hu]; exact hf)
    rw [advanceCoils_of_short passed (by rw [start]; exact short), stands (by rw [hu] at ahead ⊢; exact ahead)] at ran
    refine ⟨_, f.begun b, ran, ?_⟩
    rw [tableEntry, (settleArchive_move _).ca, (settleArchive_move _).cx, hu]
    exact ⟨rfl, rfl, begun, rfl, rfl, rfl, rfl⟩
  case forced =>
    have ran := (exec_exitPulse_of run total hu).2 rises
    have ca : u.ca = s.ca := by rw [hu]
    have cx : u.cx = s.cx := by rw [hu]
    have mark' : writtenMark u < cellFrom (runCoord u) s.cx.pitch := by
      unfold writtenMark at mark ⊢
      rw [cx]
      exact mark
    have limit := advanceCoils_of_limit (r := runCoord u) (c0 := o.c0) (s := u) (by rw [ca]; exact due)
      (by rw [openStart, ca, coils]; rfl) long
    obtain ⟨r, cut, closes⟩ := cutCoils_of_one (s := u) (o := o) (c := runCoord u) CoilFlags.setForced (by rw [ca]; exact coils) lane
      (by rw [ca]; exact lanes) (by rw [ca]; exact closing) ⟨by rw [cx]; exact mark', by rw [cx]; exact owns⟩
    obtain ⟨v, forced, closed, last, opens, sameCx⟩ := cut
    obtain ⟨stands, _⟩ := advanceCells_of (r := runCoord u) (front := front) (s := raise .coilClosed v) (by rw [raise_cx, sameCx, cx]; exact hf)
    rw [limit, forced, stands (by rw [raise_cx, sameCx, cx]; exact ahead)] at ran
    have record := closes.record (fun _ => rfl)
    refine ⟨_, r, ran, ?_⟩
    rw [(settleArchive_move (raise .coilClosed v)).ca, raise_ca, closed, last, opens]
    refine ⟨rfl, rfl, congrArg OutputRecord.seq record, congrArg OutputRecord.c0 record, congrArg OutputRecord.c1 record,
      congrArg (fun r => r.flags.forced) record, flagSet_settleArchive_raised _ _, ?_⟩
    rw [hu]
    rfl
  case handed =>
    have ran := (exec_exitPulse_of run total hu).2 rises
    have advanced : advanceCells (runCoord u) (advanceCoils (runCoord u) u) = handCoil r { frontLeft front u with ca.closing := [] } := by
      rw [advanceCoils_of_short (v := u) (passDue_of_none (by rw [hu] at due ⊢; exact due)) (by rw [hu] at short ⊢; exact short),
        (advanceCells_of (s := u) (front := front) (by rw [hu]; exact hf)).2 (by rw [hu] at reached ⊢; exact reached),
        (retireFront_rows front u).2.2 (by rw [hu]; exact fun normal => Stage.noConfusion (normal.symm.trans stage))]
      refine handReady_of_one (s := frontLeft front u) (by rw [hu]; exact closing) ?_
      have mark : writtenMark (frontLeft front u) = front + 1 := by
        have none : (frontLeft front u).cx.staging = [] := by rw [hu]; exact staging
        rw [writtenMark, none]
        rfl
      rw [readyToHand, mark, decide_eq_true ready, Bool.true_or]
    obtain ⟨directory', queue, cx, ca⟩ := handCoil_of_room (s := { frontLeft front u with ca.closing := [] }) (r := r)
      (by rw [hu]; exact fun full => Stage.noConfusion (full.symm.trans stage)) (by rw [hu]; exact room)
      ((directoryFull_congr (s := s) (by rw [hu]; rfl) (by rw [hu]; rfl) (by rw [hu]; rfl)).trans directory) (by rw [hu]; exact idle)
    rw [advanced] at ran
    obtain ⟨flags, settled⟩ := settleArchive_of_directoryRoom directory'
    rw [settled] at ran
    refine ⟨_, ran, ?_⟩
    rw [ca, queue, cx, hu]
    exact ⟨rfl, rfl, rfl, staging⟩

end Sys2Proof.Machine
end

section
/-! PROOF. O40 and O41: the page of a context's record, its cell pages, the own records placed as they become known, and the bytes of a
LEVEL record. -/

namespace Sys2Proof.Machine

/-! ### The next segment begun (R145) -/

/-- A SEEK offered for a fetch slot leaves the contexts, the archive and what is looped. -/
theorem send_seek_beside {f : OutFrame} {k : Fin 8} (owner : f.owner = .slot k) (dest : f.dest = 0) (s : State) :
    (send f s).pe.contexts = s.pe.contexts ∧ (send f s).ar = s.ar ∧ (send f s).bi.looped = s.bi.looped := by
  by_cases node : s.bi.node = 0
  · rw [send_of_strapped node, report, owner]
    obtain ⟨v, hv⟩ := onSlot_slots k (reportToSlot f.kind f.tag s.now) s
    dsimp only
    rw [hv]
    exact ⟨rfl, rfl, rfl⟩
  · rw [send_of_other node (by rw [dest]; exact fun same => node same.symm)]
    exact ⟨rfl, rfl, Bi.offered_looped _ _⟩

/-- A context past parent segments: the walk over them, its counts and its fetch aside, it is as it was. -/
structure WalkedOn (x y : PullContext) : Prop where
  phase : y.phase = x.phase ∨ y.phase = .closing
  rest : { y with phase := x.phase, cursor := x.cursor, counts := x.counts, fetch := x.fetch, slot := x.slot } = x

/-- A context that takes a slot, or waits for one. -/
theorem takeSlot_leaves {s : State} {c : Fin 6} {x : PullContext} (hx : ctxAt s c = some x) (plan : FetchPlan) :
    ∃ slot, ctxAt (takeSlot c plan s) c = some { x with fetch := some plan, slot := slot } ∧ (takeSlot c plan s).ar = s.ar
      ∧ (takeSlot c plan s).bi.looped = s.bi.looped := by
  rw [takeSlot]
  cases freeSlotNum s with
  | none =>
    dsimp only
    rw [onCtx_of (s := { s with pe.waiting := s.pe.waiting ++ [c] }) hx]
    exact ⟨x.slot, (ctxAt_setCtx c c _ _).trans (if_pos rfl), rfl, rfl⟩
  | some k =>
    dsimp only
    rw [beginFetch_eq hx]
    obtain ⟨contexts, ar, looped⟩ := send_seek_beside (k := k)
      (f := ⟨0, .seek, nextTag s, countedBytes plan.parent, .context, .slot k⟩) rfl rfl (fetchBegun c k plan x s)
    refine ⟨some k, ?_, ar, looped⟩
    rw [ctxAt, contexts]
    exact (ctxAt_fetchBegun c c k plan x s).trans (if_pos rfl)

theorem nextSegment_leaves {s : State} {c : Fin 6} {x : PullContext} (hx : ctxAt s c = some x) :
    ∃ y, ctxAt (nextSegment c s) c = some y ∧ WalkedOn x y ∧ (nextSegment c s).ar = s.ar
      ∧ (nextSegment c s).bi.looped = s.bi.looped := by
  have idle : nextSegment c s = s → ∃ y, ctxAt (nextSegment c s) c = some y ∧ WalkedOn x y ∧ (nextSegment c s).ar = s.ar
      ∧ (nextSegment c s).bi.looped = s.bi.looped := fun same => by
    rw [same]
    exact ⟨x, hx, ⟨.inl rfl, rfl⟩, rfl, rfl⟩
  cases hg : x.grid with
  | none =>
    refine idle ?_
    rw [nextSegment, hx]
    dsimp only
    rw [hg]
  | some g =>
    cases hr : x.record with
    | none =>
      refine idle ?_
      rw [nextSegment, hx]
      dsimp only
      rw [hg, hr]
    | some r =>
      by_cases all : (segmentEnds s x.depth g r x.cursor).all Settled.unfetched = true
      · obtain ⟨n, hn⟩ := nextSegment_closes hx hg hr all
        rw [hn]
        exact ⟨_, (ctxAt_setCtx c c _ _).trans (if_pos rfl), ⟨.inr rfl, rfl⟩, rfl, rfl⟩
      · obtain ⟨before, plan, after, split, unfetched⟩ := exists_first_fetch all
        rw [nextSegment_fetches hx hg hr split unfetched]
        obtain ⟨slot, hy, ar, looped⟩ := takeSlot_leaves (s := setCtx c (some { x with
          cursor := x.cursor + before.length + 1, counts := before.foldl countEnd x.counts }) s)
          ((ctxAt_setCtx c c _ _).trans (if_pos rfl)) plan
        exact ⟨_, hy, ⟨.inl rfl, rfl⟩, ar, looped⟩

/-! ### Own records placed, and LOCAL ended (R142 to R144, R172) -/

/-- What LOCAL keeps of a context while its own records are placed: the relay buffer only grows. -/
structure LocalFrame (x y : PullContext) : Prop where
  requester : y.requester = x.requester
  tag : y.tag = x.tag
  record : y.record = x.record
  grid : y.grid = x.grid
  clamped : y.clamped = x.clamped
  relay : x.relay <+: y.relay

theorem LocalFrame.trans {x y z : PullContext} (h : LocalFrame x y) (g : LocalFrame y z) : LocalFrame x z :=
  ⟨g.requester.trans h.requester, g.tag.trans h.tag, g.record.trans h.record, g.grid.trans h.grid, g.clamped.trans h.clamped,
    h.relay.trans g.relay⟩

theorem WalkedOn.field {α : Type} {x y : PullContext} (h : WalkedOn x y) (f : PullContext → α)
    (beside : ∀ z phase cursor counts fetch slot,
      f { z with phase := phase, cursor := cursor, counts := counts, fetch := fetch, slot := slot } = f z) : f y = f x :=
  (beside y _ _ _ _ _).symm.trans (congrArg f h.rest)

/-- A context with as many of its own records as the relay buffer had room for. -/
def ownPlaced (s : State) (x : PullContext) : PullContext :=
  { x with
    relay := x.relay ++ ((ownRecords s x).drop x.placed).take (64 - x.relay.length)
    placed := x.placed + (((ownRecords s x).drop x.placed).take (64 - x.relay.length)).length }

theorem ownPlaced_frame (s : State) (x : PullContext) : LocalFrame x (ownPlaced s x) :=
  ⟨rfl, rfl, rfl, rfl, rfl, List.prefix_append _ _⟩

theorem placeOwn_eq {s : State} {c : Fin 6} {x : PullContext} (hx : ctxAt s c = some x) :
    placeOwn c s = setCtx c (some (ownPlaced s x)) s := by rw [placeOwn, onCtx_of hx]; rfl

theorem ArchiveMove.reading {s t : State} (m : ArchiveMove s t) : t.ar.reading = s.ar.reading := by
  have same := congrArg (fun u : State => u.ar.reading) m.rest
  exact same

/-- LOCAL is over for a context: pin and accumulators are let go. -/
structure LocalOver (x y : PullContext) : Prop extends LocalFrame x y where
  sameRelay : y.relay = x.relay
  cellsRead : y.cellsRead = x.cellsRead
  phase : y.phase = .segments ∨ y.phase = .closing
  accums : y.accums = []
  pin : y.pin = none

theorem leaveLocal_leaves {s : State} {c : Fin 6} {x : PullContext} (hx : ctxAt s c = some x) :
    ∃ y, ctxAt (leaveLocal c s) c = some y ∧ LocalOver x y ∧ (leaveLocal c s).ar.reading = s.ar.reading
      ∧ (leaveLocal c s).bi.looped = s.bi.looped := by
  have released : releasePin c (onCtx c (fun x => { x with phase := .segments, accums := [] }) s)
      = reclaimMoment (setCtx c (some { x with phase := .segments, accums := [], pin := none }) s) := by
    rw [onCtx_of hx, releasePin, onCtx_of ((ctxAt_setCtx c c _ _).trans (if_pos rfl)), setCtx_setCtx]
  have move := reclaimMoment_move (setCtx c (some { x with phase := .segments, accums := [], pin := none }) s)
  obtain ⟨y, hy, walked, ar, looped⟩ := nextSegment_leaves (s := reclaimMoment (setCtx c _ s))
    ((ctxAt_congr move.pe c).trans ((ctxAt_setCtx c c _ s).trans (if_pos rfl)))
  have relay := walked.field PullContext.relay (fun _ _ _ _ _ _ => rfl)
  rw [leaveLocal, released]
  refine ⟨y, hy, ⟨⟨walked.field PullContext.requester (fun _ _ _ _ _ _ => rfl), walked.field PullContext.tag (fun _ _ _ _ _ _ => rfl),
    walked.field PullContext.record (fun _ _ _ _ _ _ => rfl), walked.field PullContext.grid (fun _ _ _ _ _ _ => rfl),
    walked.field PullContext.clamped (fun _ _ _ _ _ _ => rfl), by rw [relay]⟩, relay,
    walked.field PullContext.cellsRead (fun _ _ _ _ _ _ => rfl), walked.phase,
    walked.field PullContext.accums (fun _ _ _ _ _ _ => rfl), walked.field PullContext.pin (fun _ _ _ _ _ _ => rfl)⟩, ?_, ?_⟩
  · rw [ar]
    exact move.reading
  · rw [looped, move.bi, setCtx_bi]

/-- What is so after own records were placed: LOCAL is over exactly when the last one was. -/
structure OwnContinued (own : List RecordBytes) (x y : PullContext) : Prop extends LocalFrame x y where
  grown : y.relay = x.relay ++ (own.drop x.placed).take (64 - x.relay.length)
  cellsRead : y.cellsRead = x.cellsRead
  done : x.phase = .localRecords → x.cellsRead = true → (own.drop x.placed).length ≤ 64 - x.relay.length →
    (y.phase = .segments ∨ y.phase = .closing) ∧ y.accums = [] ∧ y.pin = none
  stays : 64 - x.relay.length < (own.drop x.placed).length →
    y.phase = x.phase ∧ y.accums = x.accums ∧ y.placed = x.placed + (64 - x.relay.length) ∧ y.pin = x.pin

theorem continueLocal_continues {s : State} {c : Fin 6} {x : PullContext} (hx : ctxAt s c = some x) :
    ∃ y, ctxAt (continueLocal c s) c = some y ∧ OwnContinued (ownRecords s x) x y ∧ (continueLocal c s).ar.reading = s.ar.reading
      ∧ (continueLocal c s).bi.looped = s.bi.looped := by
  have own : ∀ u, ownRecords (setCtx c u s) (ownPlaced s x) = ownRecords s x := fun _ => rfl
  have placed : (ownPlaced s x).placed = x.placed + min (64 - x.relay.length) ((ownRecords s x).length - x.placed) := by
    rw [ownPlaced, List.length_take, List.length_drop]
  have held := (ctxAt_setCtx c c (some (ownPlaced s x)) s).trans (if_pos rfl)
  unfold continueLocal
  rw [placeOwn_eq hx]
  dsimp only
  rw [held]
  dsimp only
  rw [own]
  by_cases isOver : (ownPlaced s x).phase = .localRecords ∧ (ownPlaced s x).cellsRead = true
      ∧ (ownRecords s x).length ≤ (ownPlaced s x).placed
  · rw [if_pos isOver]
    obtain ⟨y, hy, left, reading, looped⟩ := leaveLocal_leaves held
    refine ⟨y, hy, ⟨(ownPlaced_frame s x).trans left.toLocalFrame, left.sameRelay, left.cellsRead,
      fun _ _ _ => ⟨left.phase, left.accums, left.pin⟩, fun more => ?_⟩, reading, looped⟩
    have reached := isOver.2.2
    rw [placed] at reached
    rw [List.length_drop] at more
    omega
  · rw [if_neg isOver]
    have reached : ((ownRecords s x).drop x.placed).length ≤ 64 - x.relay.length → (ownRecords s x).length ≤ (ownPlaced s x).placed :=
      fun all => by
        rw [List.length_drop] at all
        rw [placed]
        omega
    have filled : 64 - x.relay.length < ((ownRecords s x).drop x.placed).length →
        (ownPlaced s x).placed = x.placed + (64 - x.relay.length) := fun more => by
      rw [List.length_drop] at more
      rw [placed, Nat.min_eq_left more.le]
    exact ⟨_, held, ⟨ownPlaced_frame s x, rfl, rfl, fun phase read all => absurd ⟨phase, read, reached all⟩ isOver,
      fun more => ⟨rfl, rfl, filled more, rfl⟩⟩, rfl, rfl⟩

/-- The reading of cells ends: the records that follow are placed (R144). -/
theorem endCellReading_eq {s : State} {c : Fin 6} {x : PullContext} (hx : ctxAt s c = some x) :
    endCellReading c s = continueLocal c (setCtx c (some { x with cellsRead := true }) s) := by
  rw [endCellReading, onCtx_of hx]

theorem endCellReading_continues {s : State} {c : Fin 6} {x : PullContext} (hx : ctxAt s c = some x) :
    ∃ y, ctxAt (endCellReading c s) c = some y ∧ OwnContinued (ownRecords s { x with cellsRead := true }) { x with cellsRead := true } y
      ∧ (endCellReading c s).ar.reading = s.ar.reading ∧ (endCellReading c s).bi.looped = s.bi.looped := by
  rw [endCellReading_eq hx]
  exact continueLocal_continues (x := { x with cellsRead := true }) ((ctxAt_setCtx c c _ s).trans (if_pos rfl))

/-! ### The next cell page (R144) -/

theorem askCells_asks {s : State} {c : Fin 6} {x : PullContext} {e : OutEntry} {r : OutputRecord} {seg page : Nat}
    (hx : ctxAt s c = some x) (he : x.entry = some e) (hr : x.record = some r) (next : nextCellPage s x e r = some (seg, page)) :
    askCells c s = setCtx c (some { x with readAt := some (seg, page) })
      { s with ar.readQueue := s.ar.readQueue ++ [⟨seg, page, .cells c⟩] } := by
  have asked : askCells c s = onCtx c (fun x => { x with readAt := some (seg, page) })
      { s with ar.readQueue := s.ar.readQueue ++ [⟨seg, page, .cells c⟩] } := by
    rw [askCells, hx]
    dsimp only
    rw [he, hr]
    dsimp only
    rw [next]
  rw [asked]
  exact onCtx_of (s := { s with ar.readQueue := s.ar.readQueue ++ [⟨seg, page, .cells c⟩] }) hx _

theorem askCells_setCtx_asks {s : State} {c : Fin 6} {x : PullContext} {e : OutEntry} {r : OutputRecord} {seg page : Nat}
    (he : x.entry = some e) (hr : x.record = some r) (next : nextCellPage s x e r = some (seg, page)) :
    askCells c (setCtx c (some x) s) = setCtx c (some { x with readAt := some (seg, page) })
      { s with ar.readQueue := s.ar.readQueue ++ [⟨seg, page, .cells c⟩] } := by
  rw [askCells_asks ((ctxAt_setCtx c c (some x) s).trans (if_pos rfl)) he hr next]
  exact setCtx_setCtx c (some x) _ { s with ar.readQueue := s.ar.readQueue ++ [⟨seg, page, .cells c⟩] }

theorem askCells_ends {s : State} {c : Fin 6} {x : PullContext} {e : OutEntry} {r : OutputRecord}
    (hx : ctxAt s c = some x) (he : x.entry = some e) (hr : x.record = some r) (next : nextCellPage s x e r = none) :
    askCells c s = endCellReading c s := by
  rw [askCells, hx]
  dsimp only
  rw [he, hr]
  dsimp only
  rw [next]

theorem askCells_frame {s : State} {c : Fin 6} {x : PullContext} {e : OutEntry} {r : OutputRecord}
    (hx : ctxAt s c = some x) (he : x.entry = some e) (hr : x.record = some r) :
    ∃ y, ctxAt (askCells c s) c = some y ∧ LocalFrame x y ∧ (askCells c s).ar.reading = s.ar.reading
      ∧ (askCells c s).bi.looped = s.bi.looped := by
  cases next : nextCellPage s x e r with
  | none =>
    obtain ⟨y, hy, ended, reading, looped⟩ := endCellReading_continues hx
    rw [askCells_ends hx he hr next]
    exact ⟨y, hy, LocalFrame.trans (x := x) (y := { x with cellsRead := true }) ⟨rfl, rfl, rfl, rfl, rfl, List.prefix_rfl⟩
      ended.toLocalFrame, reading, looped⟩
  | some at' =>
    rw [askCells_asks hx he hr next]
    exact ⟨_, (ctxAt_setCtx c c _ _).trans (if_pos rfl), ⟨rfl, rfl, rfl, rfl, rfl, List.prefix_rfl⟩, rfl, rfl⟩

/-! ### The record page (R141, R142) -/

/-- A context that enters LOCAL with its record (R141). -/
def recordTaken (s : State) (x : PullContext) (e : OutEntry) (r : OutputRecord) (g : Grid) (clamped : Bool) : PullContext :=
  { x with
    record := some { r with flags := e.flags }
    grid := some g
    clamped := clamped
    accums := List.replicate g.n (List.replicate s.cx.channels.length Accum.zero)
    phase := .localRecords }

theorem enterLocal_frame {s : State} {x : PullContext} {e : OutEntry} (he : x.entry = some e) (c : Fin 6) (r : OutputRecord) (g : Grid)
    (clamped : Bool) :
    ∃ y, ctxAt (enterLocal c x e r g clamped s) c = some y ∧ LocalFrame (ownPlaced s (recordTaken s x e r g clamped)) y
      ∧ (enterLocal c x e r g clamped s).ar.reading = s.ar.reading ∧ (enterLocal c x e r g clamped s).bi.looped = s.bi.looped := by
  have placed : placeOwn c (setCtx c (some (recordTaken s x e r g clamped)) s)
      = setCtx c (some (ownPlaced s (recordTaken s x e r g clamped))) s := by
    rw [placeOwn_eq ((ctxAt_setCtx c c _ s).trans (if_pos rfl)), setCtx_setCtx]
    rfl
  have held := (ctxAt_setCtx c c (some (ownPlaced s (recordTaken s x e r g clamped))) s).trans (if_pos rfl)
  have unfolded : enterLocal c x e r g clamped s
      = if cellFrom r.c1 r.pitch ≤ cellFrom r.c0 r.pitch
        then endCellReading c (placeOwn c (setCtx c (some (recordTaken s x e r g clamped)) s))
        else askCells c (placeOwn c (setCtx c (some (recordTaken s x e r g clamped)) s)) := rfl
  rw [unfolded, placed]
  split
  · obtain ⟨y, hy, ended, reading, looped⟩ := endCellReading_continues held
    exact ⟨y, hy, LocalFrame.trans (y := { ownPlaced s (recordTaken s x e r g clamped) with cellsRead := true })
      ⟨rfl, rfl, rfl, rfl, rfl, List.prefix_rfl⟩ ended.toLocalFrame, reading, looped⟩
  · exact askCells_frame held he rfl

theorem takeRecordPage_of {s : State} {c : Fin 6} {x : PullContext} {e : OutEntry} {r : OutputRecord} {g : Grid} {clamped : Bool}
    {page : Option Page} (hx : ctxAt s c = some x) (he : x.entry = some e) (stored : storedOutput page e.loc.place e.seq = some r)
    (form : x.form.gridOn (r.c1 - r.c0) = some (g, clamped)) : takeRecordPage c page s = enterLocal c x e r g clamped s := by
  rw [takeRecordPage, hx]
  dsimp only
  rw [he]
  dsimp only
  rw [stored]
  dsimp only
  rw [form]

/-- A page that holds no such record ends the pull NOT-FOUND (R141). -/
theorem takeRecordPage_absent {s : State} {c : Fin 6} {x : PullContext} {e : OutEntry} {page : Option Page} (hx : ctxAt s c = some x)
    (he : x.entry = some e) (stored : storedOutput page e.loc.place e.seq = none) :
    takeRecordPage c page s = reclaimMoment (setCtx c (some (x.close .notFound)) s) := by
  rw [takeRecordPage, hx]
  dsimp only
  rw [he]
  dsimp only
  rw [stored]

theorem storedOutput_of {seq place n : Nat} {items : List PageItem} {r : OutputRecord}
    (h : items[place]? = some (.item (.output r))) (same : r.seq = n) : storedOutput (some (.data seq items)) place n = some r := by
  unfold storedOutput
  rw [show (dataItems (some (Page.data seq items))).getD [] = items from rfl, h]
  exact if_pos same

/-! ### The LEVEL record (R142, R217) -/

theorem getLsbD_bitIf (b : Bool) {k : Nat} (hk : k < 8) (i : Nat) : (bitIf b k).getLsbD i = (b && decide (i = k)) := by
  unfold bitIf
  cases b with
  | false => simp
  | true =>
    rw [if_pos rfl, BitVec.getLsbD_ofNat, Nat.testBit_two_pow, Bool.true_and]
    by_cases same : i = k
    · rw [decide_eq_true same, decide_eq_true same.symm, decide_eq_true (by omega)]
      rfl
    · rw [decide_eq_false same, decide_eq_false (Ne.symm same), Bool.and_false]

/-- The bits of a coil's flags (R217). -/
theorem flagsByte_bits (f : CoilFlags) :
    f.byte.getLsbD 7 = f.incomplete ∧ f.byte.getLsbD 6 = f.broken ∧ f.byte.getLsbD 5 = f.forced ∧ f.byte.getLsbD 4 = f.noTrend
      ∧ f.byte.getLsbD 3 = f.stationNamed ∧ f.byte.getLsbD 2 = f.frozen ∧ f.byte.getLsbD 1 = f.amended
      ∧ f.byte.getLsbD 0 = f.overflow := by
  unfold CoilFlags.byte
  simp only [BitVec.getLsbD_or, getLsbD_bitIf _ (show 7 < 8 by decide), getLsbD_bitIf _ (show 6 < 8 by decide),
    getLsbD_bitIf _ (show 5 < 8 by decide), getLsbD_bitIf _ (show 4 < 8 by decide), getLsbD_bitIf _ (show 3 < 8 by decide),
    getLsbD_bitIf _ (show 2 < 8 by decide), getLsbD_bitIf _ (show 1 < 8 by decide), getLsbD_bitIf _ (show 0 < 8 by decide)]
  simp

theorem threeMarks_bits (a b c : Bool) :
    (bitIf a 0 ||| bitIf b 1 ||| bitIf c 2).getLsbD 0 = a ∧ (bitIf a 0 ||| bitIf b 1 ||| bitIf c 2).getLsbD 1 = b
      ∧ (bitIf a 0 ||| bitIf b 1 ||| bitIf c 2).getLsbD 2 = c ∧ (bitIf a 0 ||| bitIf b 1 ||| bitIf c 2).toNat < 8 := by
  cases a <;> cases b <;> cases c <;> decide

/-- The fields of a LEVEL record. -/
def levelFields (s : State) (x : PullContext) (e : OutEntry) (r : OutputRecord) (g : Grid) : List (List Byte) :=
  [[BitVec.ofNat 8 (16 + x.level)], [BitVec.ofNat 8 s.bi.node.toNat], filledBytes 16 r.id, beBytes 4 (r.c1 - r.c0), [r.flags.byte],
    [bitIf (isKept s r.id) 0 ||| bitIf (isKeptPartial s r.id) 1 ||| bitIf x.clamped 2],
    [BitVec.ofNat 8 (if e.firstBlock.isSome then r.pitch else 0)], [BitVec.ofNat 8 s.cx.channels.length],
    [BitVec.ofNat 8 (r.lane.getD 0 * 16 + r.segments.length)], [BitVec.ofNat 8 (g.n - 1)]]

theorem levelRecord_eq (s : State) (x : PullContext) (e : OutEntry) (r : OutputRecord) (g : Grid) :
    levelRecord s x e r g = (levelFields s x e r g).flatten := by
  simp only [levelRecord, recordStart, levelFields, List.flatten_cons, List.flatten_nil, List.append_nil, List.append_assoc,
    List.cons_append, List.nil_append, Nat.reduceMul]

theorem levelFields_offset {r : OutputRecord} (id : r.id.length ≤ 16) (s : State) (x : PullContext) (e : OutEntry) (g : Grid) (k : Nat) :
    (((levelFields s x e r g).take k).map List.length).sum = (([1, 1, 16, 4, 1, 1, 1, 1, 1, 1] : List Nat).take k).sum := by
  have lengths : (levelFields s x e r g).map List.length = [1, 1, 16, 4, 1, 1, 1, 1, 1, 1] := by
    simp only [levelFields, List.map_cons, List.map_nil, filledBytes_length id, beBytes_length, List.length_singleton]
  rw [List.map_take, lengths]

/-- Settles O40: the record page that fails and the one that holds the record, and the LEVEL record field by field. -/
theorem recordReadGivesTheContextItsRecord : Obligations.RecordReadGivesTheContextItsRecord := by
  unfold Obligations.RecordReadGivesTheContextItsRecord
  refine ⟨fun s r c x e hr kept reader hx he looped => ⟨?fails, fun seq items record grid clamped page place same form => ?taken⟩,
    fun s x e r g d level id len pitch channels segments lane one most hd => ?level⟩
  case fails =>
    refine ⟨_, recordReadComplete_of hr reader true, ?_⟩
    rw [completeRead_taken kept, if_pos rfl,
      takeRecordPage_absent (s := { s with ar.reading := none, now := max s.now (r.began + 100) }) hx he rfl]
    have move := reclaimMoment_move (setCtx c (some (x.close .notFound)) { s with ar.reading := none, now := max s.now (r.began + 100) })
    have quiet : (reclaimMoment (setCtx c (some (x.close .notFound))
        { s with ar.reading := none, now := max s.now (r.began + 100) })).bi.looped = [] := by
      rw [move.bi, setCtx_bi, looped]
    refine ⟨?_, ?_⟩
    · rw [settle_eq quiet]
      exact (move.trans (settleArchive_move _)).reading
    · rw [ctxAt_settle quiet]
      exact (ctxAt_congr move.pe c).trans ((ctxAt_setCtx c c _ _).trans (if_pos rfl))
  case taken =>
    obtain ⟨y, hy, frame, reading, quiet⟩ := enterLocal_frame (s := { s with ar.reading := none, now := max s.now (r.began + 100) })
      he c record grid clamped
    replace quiet := quiet.trans looped
    refine ⟨_, y, recordReadComplete_of hr reader false, ?_⟩
    rw [completeRead_taken kept, if_neg Bool.false_ne_true,
      takeRecordPage_of (s := { s with ar.reading := none, now := max s.now (r.began + 100) }) hx he
        (by rw [page]; exact storedOutput_of place same) form]
    refine ⟨?_, (ctxAt_settle quiet c).trans hy, frame.record, frame.grid, frame.clamped, frame.requester, frame.tag,
      fun empty first => ?_⟩
    · rw [settle_eq quiet]
      exact (settleArchive_move _).reading.trans reading
    · obtain ⟨more, grown⟩ := frame.relay
      rw [← grown]
      unfold ownPlaced recordTaken ownRecords
      simp only [empty, first, he, List.drop_zero, List.nil_append, List.length_nil, Nat.sub_zero, List.take_succ_cons, List.cons_append,
        List.head?_cons]
      rfl
  case level =>
    have offset := levelFields_offset id s x e g
    have node : s.bi.node.toNat < 256 := lt_trans s.bi.node.isLt (by decide)
    have marks : byteAt (levelFields s x e r g).flatten 23
        = bitIf (isKept s r.id) 0 ||| bitIf (isKeptPartial s r.id) 1 ||| bitIf x.clamped 2 := byteAt_field _ 5 23 rfl (offset 5)
    have flags : byteAt (levelFields s x e r g).flatten 22 = r.flags.byte := byteAt_field _ 4 22 rfl (offset 4)
    rw [hd, levelRecord_eq, marks, flags]
    exact ⟨by rw [List.length_flatten]; exact offset 10, natAt_byteField _ 0 0 rfl (offset 0) (by omega),
      natAt_byteField _ 1 1 rfl (offset 1) node, slice_field _ 2 2 16 rfl (offset 2) (filledBytes_length id),
      natAt_field _ 3 18 4 rfl (offset 3) (by omega), flagsByte_bits _, threeMarks_bits _ _ _,
      natAt_byteField _ 6 24 rfl (offset 6) (by split <;> omega), natAt_byteField _ 7 25 rfl (offset 7) (by omega),
      natAt_byteField _ 8 26 rfl (offset 8) (by omega), natAt_byteField _ 9 27 rfl (offset 9) (by omega)⟩

/-! ### Cell pages (R144) -/

/-- The blocks of a coil's pitch on a page as read. -/
theorem takeCellPage_eq {s : State} {c : Fin 6} {x : PullContext} {r : OutputRecord} {g : Grid} {page : Option Page}
    {blocks : List (Nat × List (List CellEntry))} {accums : List (List Accum)} (hx : ctxAt s c = some x) (hr : x.record = some r)
    (hg : x.grid = some g) (hb : blocks = blocksOf r.pitch ((dataItems page).getD []))
    (ha : accums = blocks.foldl (fun a b => addBlock g r b.1 b.2 a) x.accums) :
    takeCellPage c page s
      = if blocks.any (fun b => decide (cellFrom r.c1 r.pitch ≤ b.1 + b.2.length))
        then endCellReading c (setCtx c (some { x with accums := accums }) s)
        else askCells c (setCtx c (some { x with accums := accums }) s) := by
  subst ha hb
  rw [takeCellPage, hx]
  dsimp only
  rw [hr, hg]

theorem readItems_eq (s : State) (r : Reading) (failed : Bool) :
    (dataItems (if failed then some .torn else s.flash.at r.request.seg r.request.page)).getD []
      = if failed then [] else (dataItems (s.flash.at r.request.seg r.request.page)).getD [] := by
  cases failed <;> rfl

/-- Rows of one length side by side: where an element of a row stands. -/
theorem getElem?_flatMap_rows {α : Type} (f : Nat → Nat → α) {rows n j ch : Nat} (hj : j < rows) (hch : ch < n) :
    ((List.range rows).flatMap (fun j => (List.range n).map (f j)))[j * n + ch]? = some (f j ch) := by
  induction rows with
  | zero => exact absurd hj (Nat.not_lt_zero _)
  | succ rows ih =>
    have length : ((List.range rows).flatMap (fun j => (List.range n).map (f j))).length = rows * n := by
      rw [List.length_flatMap]
      simp
    rw [List.range_succ, List.flatMap_append, List.flatMap_singleton]
    by_cases last : j = rows
    · subst last
      rw [List.getElem?_append_right (by rw [length]; omega), length, Nat.add_sub_cancel_left, List.getElem?_map,
        List.getElem?_range hch]
      rfl
    · have below : j * n + n ≤ rows * n := by
        rw [← Nat.succ_mul]
        exact Nat.mul_le_mul_right n (by omega)
      rw [List.getElem?_append_left (by rw [length]; omega)]
      exact ih (by omega)

/-- Settles O41: the page that asks for the next one and the page that ends the reading, and where a BIN record stands. -/
theorem cellPageIsAddedAndTheNextAskedFor : Obligations.CellPageIsAddedAndTheNextAskedFor := by
  unfold Obligations.CellPageIsAddedAndTheNextAskedFor
  refine ⟨fun s r failed c x e record grid items blocks accums hr kept reader hx he record_x grid_x hitems hblocks haccums =>
    ⟨fun short seg page next => ?asks, fun last looped => ?ends⟩,
    fun s x e record grid j ch n he record_x grid_x read hn hj hch => ?place⟩
  case asks =>
    rw [cellPageReadComplete_of hr reader, completeRead_taken kept,
      takeCellPage_eq (s := { s with ar.reading := none, now := max s.now (r.began + 100) }) hx record_x grid_x
        (by rw [readItems_eq, ← hitems]; exact hblocks) haccums, if_neg]
    · rw [askCells_setCtx_asks (s := { s with ar.reading := none, now := max s.now (r.began + 100) }) (x := { x with accums := accums })
        he record_x next]
    · rw [List.any_eq_true]
      rintro ⟨b, hb, reaches⟩
      exact absurd (short b hb) (not_lt.2 (of_decide_eq_true reaches))
  case ends =>
    have held := (ctxAt_setCtx c c (some { x with accums := accums })
      { s with ar.reading := none, now := max s.now (r.began + 100) }).trans (if_pos rfl)
    have taken : takeCellPage c (if failed then some .torn else s.flash.at r.request.seg r.request.page)
          { s with ar.reading := none, now := max s.now (r.began + 100) }
        = endCellReading c (setCtx c (some { x with accums := accums }) { s with ar.reading := none, now := max s.now (r.began + 100) }) := by
      rw [takeCellPage_eq (s := { s with ar.reading := none, now := max s.now (r.began + 100) }) hx record_x grid_x
        (by rw [readItems_eq, ← hitems]; exact hblocks) haccums]
      split
      · rfl
      · next short =>
        refine askCells_ends held he record_x (last.resolve_left ?_)
        rintro ⟨b, hb, reaches⟩
        exact short (List.any_eq_true.2 ⟨b, hb, decide_eq_true reaches⟩)
    obtain ⟨y, hy, went, reading, same⟩ := endCellReading_continues held
    have quiet := same.trans looped
    refine ⟨_, y, cellPageReadComplete_of hr reader failed, ?_⟩
    rw [completeRead_taken kept, taken]
    refine ⟨?_, (ctxAt_settle quiet c).trans hy, went.cellsRead, fun own room hown hroom => ?_⟩
    · rw [settle_eq quiet]
      exact (settleArchive_move _).reading.trans reading
    · subst hown hroom
      exact ⟨went.grown, fun phase => ⟨fun all => went.done phase rfl all, fun more => by rw [← phase]; exact went.stays more⟩⟩
  case place =>
    subst hn
    have channels : (s.cx.channels.zipIdx.map (fun p => chanRecord x.level s.bi.node p.2 p.1)).length = s.cx.channels.length := by
      rw [List.length_map, List.length_zipIdx]
    rw [ownRecords, he, record_x, grid_x]
    dsimp only
    rw [read, if_pos rfl, show 1 + s.cx.channels.length + (j * s.cx.channels.length + ch)
        = s.cx.channels.length + (j * s.cx.channels.length + ch) + 1 by omega, List.getElem?_cons_succ,
      List.getElem?_append_right (by rw [channels]; omega), channels, Nat.add_sub_cancel_left]
    exact getElem?_flatMap_rows (fun j ch => binRecord x.level s.bi.node (grid.f + j) ch ((x.accums.getD j []).getD ch .zero)) hj hch

end Sys2Proof.Machine
end

section
/-! PROOF. O30: a pair of readings ignored, late or entered, and a set of pairs as its pairs one after another. -/

namespace Sys2Proof.Machine

/-! ### A sample in its entry (R50, R51) -/

theorem addSample_sums (e : CellEntry) (v : Int) :
    (e.count < 65535 → (e.addSample v).count = e.count + 1 ∧ (e.addSample v).sum = e.sum + v ∧ (e.addSample v).sat = e.sat)
      ∧ (65535 ≤ e.count → (e.addSample v).count = e.count ∧ (e.addSample v).sum = e.sum ∧ (e.addSample v).sat = true) := by
  unfold CellEntry.addSample
  refine ⟨fun room => ⟨if_pos room, if_pos room, ?_⟩, fun full => ⟨if_neg (not_lt.2 full), if_neg (not_lt.2 full), ?_⟩⟩
  · dsimp only
    rw [decide_eq_false (not_le.2 room), Bool.or_false]
  · dsimp only
    rw [decide_eq_true full, Bool.or_true]

theorem addSample_ends (e : CellEntry) (v : Int) :
    (e.count = 0 → (e.addSample v).least = some v ∧ (e.addSample v).greatest = some v)
      ∧ (∀ lo hi, 0 < e.count → e.least = some lo → e.greatest = some hi →
          (e.addSample v).least = some (min lo v) ∧ (e.addSample v).greatest = some (max hi v)) := by
  unfold CellEntry.addSample
  refine ⟨fun first => ⟨if_pos first, if_pos first⟩, fun lo hi counted least greatest => ?_⟩
  have later : e.count ≠ 0 := by omega
  dsimp only
  rw [if_neg later, if_neg later, least, greatest]
  exact ⟨rfl, rfl⟩

/-! ### One pair (R47, R48, R52) -/

theorem takePair_ignored {delay : Nat} {s : State} {p : Nat × Int} (h : s.cx.channels[p.1]? = none ∨ s.cx.front = none ∨ p.2 = -32768)
    (n : Nat) : takePair delay (s, n) p = (s, n) := by
  unfold takePair
  dsimp only
  cases channel : s.cx.channels[p.1]? with
  | none => rfl
  | some ch =>
    cases front : s.cx.front with
    | none => rfl
    | some f =>
      rw [channel, front] at h
      exact if_pos ((h.resolve_left (Option.some_ne_none _)).resolve_left (Option.some_ne_none _))

theorem takePair_of {delay : Nat} {s : State} {p : Nat × Int} {ch : Channel} {front : Nat} {cell : Int}
    (channel : s.cx.channels[p.1]? = some ch) (open' : s.cx.front = some front) (reading : p.2 ≠ -32768)
    (position : Int.fdiv (samplePosition (runCoord s) ch.lag delay) s.cx.pitch = cell) (n : Nat) :
    takePair delay (s, n) p
      = if cell < front then (raise .lateSample (if cell < 0 then s else markIncomplete cell.toNat s), n)
        else ({ s with cx.window := putKey cell.toNat ((windowCell s cell.toNat).modify p.1 (fun e => e.addSample p.2)) s.cx.window },
          n + 1) := by
  subst position
  unfold takePair
  dsimp only
  rw [channel, open']
  exact if_neg reading

/-- The cell of a position: the one whose stretch holds it (R48). -/
theorem fdiv_pitch_eq {pitch : Nat} {pos cell : Int} (hp : 0 < pitch) (low : cell * pitch ≤ pos) (high : pos < (cell + 1) * pitch) :
    Int.fdiv pos pitch = cell := by
  have positive : (0 : Int) < pitch := by exact_mod_cast hp
  rw [Int.fdiv_eq_ediv_of_nonneg _ positive.le]
  have above : pos / pitch < cell + 1 := Int.ediv_lt_of_lt_mul positive high
  have below : cell ≤ pos / pitch := Int.le_ediv_of_mul_le positive low
  omega

/-- A pair adds at most 1 to the count and leaves the tracking unit and the station's state. -/
theorem takePair_adds (delay : Nat) (s : State) (p : Nat × Int) :
    ∃ u k, k ≤ 1 ∧ u.tiu = s.tiu ∧ u.pp.station = s.pp.station ∧ ∀ n, takePair delay (s, n) p = (u, n + k) := by
  by_cases ignored : s.cx.channels[p.1]? = none ∨ s.cx.front = none ∨ p.2 = -32768
  · exact ⟨s, 0, Nat.zero_le _, rfl, rfl, takePair_ignored ignored⟩
  · obtain ⟨channel, open', reading⟩ := not_or.1 ignored |>.imp_right not_or.1
    obtain ⟨ch, channel⟩ := Option.ne_none_iff_exists'.1 channel
    obtain ⟨front, open'⟩ := Option.ne_none_iff_exists'.1 open'
    have taken := takePair_of (delay := delay) channel open' reading rfl
    by_cases late : Int.fdiv (samplePosition (runCoord s) ch.lag delay) s.cx.pitch < front
    · refine ⟨_, 0, Nat.zero_le _, ?_, ?_, fun n => (taken n).trans (if_pos late)⟩
      · rw [raise_tiu]
        split <;> rfl
      · show (if _ then s else markIncomplete _ s).pp.station = _
        split <;> rfl
    · refine ⟨_, 1, le_refl _, ?_, ?_, fun n => (taken n).trans ((if_neg late).trans rfl)⟩ <;> rfl

/-! ### A set of pairs (R46) -/

theorem takePairs_add (delay : Nat) (pairs : List (Nat × Int)) (s : State) :
    ∃ u k, k ≤ pairs.length ∧ u.tiu = s.tiu ∧ u.pp.station = s.pp.station
      ∧ ∀ n, pairs.foldl (takePair delay) (s, n) = (u, n + k) := by
  induction pairs generalizing s with
  | nil => exact ⟨s, 0, le_refl _, rfl, rfl, fun _ => rfl⟩
  | cons p pairs ih =>
    obtain ⟨u, k, few, tiu, station, first⟩ := takePair_adds delay s p
    obtain ⟨v, j, fewer, tiu', station', rest⟩ := ih u
    refine ⟨v, k + j, by rw [List.length_cons]; omega, tiu'.trans tiu, station'.trans station, fun n => ?_⟩
    rw [List.foldl_cons, first, rest, Nat.add_assoc]

/-- A set acts as its pairs one after another, the counts added (R46). -/
theorem takeSet_append (delay : Nat) (pairs : List (Nat × Int)) (s : State) :
    ∃ u j, j ≤ pairs.length ∧ u.pp.station = s.pp.station ∧ takeSet pairs delay s = (u, j)
      ∧ ∀ more, ∃ v k, k ≤ more.length ∧ takeSet more delay u = (v, k) ∧ takeSet (pairs ++ more) delay s = (v, j + k) := by
  by_cases halted : s.tiu.halted = true
  · have still : ∀ l, takeSet l delay s = (s, 0) := fun l => if_pos halted
    exact ⟨s, 0, Nat.zero_le _, rfl, still pairs, fun more => ⟨s, 0, Nat.zero_le _, still more, still _⟩⟩
  · obtain ⟨u, j, few, tiu, station, taken⟩ := takePairs_add delay pairs s
    refine ⟨u, j, few, station, (if_neg halted).trans ((taken 0).trans (by rw [Nat.zero_add])), fun more => ?_⟩
    obtain ⟨v, k, fewer, _, _, rest⟩ := takePairs_add delay more u
    refine ⟨v, k, fewer, (if_neg (by rw [tiu]; exact halted)).trans ((rest 0).trans (by rw [Nat.zero_add])), (if_neg halted).trans ?_⟩
    rw [List.foldl_append, taken, rest, Nat.zero_add]

/-! ### The fields of a set (R220) -/

theorem slice_cons_append_left (h : Byte) (a b : List Byte) (i m : Nat) (within : i + m ≤ a.length) :
    slice (h :: (a ++ b)) (1 + i) m = slice a i m := by
  rw [slice, Nat.add_comm 1 i, List.drop_succ_cons, List.drop_append_of_le_length (by omega),
    List.take_append_of_le_length (by rw [List.length_drop]; omega), slice]

theorem slice_cons_append_right (h : Byte) (a b : List Byte) (i m : Nat) :
    slice (h :: (a ++ b)) (1 + a.length + i) m = slice b i m := by
  rw [slice, show 1 + a.length + i = a.length + i + 1 by omega, List.drop_succ_cons, List.drop_append,
    List.drop_eq_nil_of_le (by omega), List.nil_append, Nat.add_sub_cancel_left, slice]

/-- The pairs of a set are read from their own bytes alone. -/
theorem samplePairs_append (h g : Byte) {n m : Nat} {first second : List Byte} (rest : List Byte) (hn : first.length = 3 * n) :
    samplePairs (n + m) (h :: (first ++ second ++ rest)) = samplePairs n (h :: (first ++ rest)) ++ samplePairs m (g :: (second ++ rest)) := by
  unfold samplePairs
  rw [List.range_add, List.map_append, List.map_map]
  have front : ∀ (r : List Byte) i, i < n →
      slice (h :: (first ++ r)) (1 + 3 * i) 1 = slice first (3 * i) 1
        ∧ slice (h :: (first ++ r)) (2 + 3 * i) 2 = slice first (3 * i + 1) 2 := fun r i hi =>
    ⟨slice_cons_append_left h first r _ _ (by omega), by
      rw [show 2 + 3 * i = 1 + (3 * i + 1) by omega]
      exact slice_cons_append_left h first r _ _ (by omega)⟩
  have back : ∀ i, slice (h :: (first ++ (second ++ rest))) (1 + 3 * (n + i)) 1 = slice (second ++ rest) (3 * i) 1
      ∧ slice (h :: (first ++ (second ++ rest))) (2 + 3 * (n + i)) 2 = slice (second ++ rest) (3 * i + 1) 2 := fun i =>
    ⟨by rw [show 1 + 3 * (n + i) = 1 + first.length + 3 * i by omega, slice_cons_append_right],
      by rw [show 2 + 3 * (n + i) = 1 + first.length + (3 * i + 1) by omega, slice_cons_append_right]⟩
  congr 1
  · refine List.map_congr_left (fun i hi => ?_)
    obtain ⟨channel, value⟩ := front (second ++ rest) i (List.mem_range.1 hi)
    obtain ⟨channel', value'⟩ := front rest i (List.mem_range.1 hi)
    rw [List.append_assoc, natAt, intAt, natAt, intAt, channel, value, channel', value']
  · refine List.map_congr_left (fun i hi => ?_)
    obtain ⟨channel, value⟩ := back i
    have own : ∀ j, slice (g :: (second ++ rest)) (1 + j) = slice (second ++ rest) j := fun j => by
      funext k
      rw [slice, Nat.add_comm 1 j, List.drop_succ_cons, slice]
    rw [Function.comp_apply, List.append_assoc, natAt, intAt, channel, value, natAt, intAt, own, show 2 + 3 * i = 1 + (3 * i + 1) by omega,
      own]

/-- The delay stands behind the pairs. -/
theorem natAt_delay (h : Byte) {n : Nat} {pairs : List Byte} (delay : List Byte) (hn : pairs.length = 3 * n) :
    natAt (h :: (pairs ++ delay)) (1 + 3 * n) 2 = natAt delay 0 2 := by
  rw [natAt, natAt, ← hn]
  exact congrArg beNat (slice_cons_append_right h pairs delay 0 2)

theorem exec_sample_of {fields : List Byte} {s : State} {n : Nat} (run : s.pp.station = .run) (count : natAt fields 0 1 = n)
    (one : 1 ≤ n) (most : n ≤ 16) (length : fields.length = 1 + 3 * n ∨ fields.length = 3 + 3 * n) :
    exec (.sample fields) s = .next (withResponse 0x0B fields
      [0x00, BitVec.ofNat 8 (takeSet (samplePairs n fields) (natAt fields (1 + 3 * n) 2) s).2]
      (takeSet (samplePairs n fields) (natAt fields (1 + 3 * n) 2) s).1) := by
  subst count
  rw [exec_sample, execSample, if_neg (not_not.2 run)]
  dsimp only
  rw [if_neg (by omega)]
  rfl

theorem natAt_ofNat_head {n : Nat} (h : n < 256) (rest : List Byte) : natAt (BitVec.ofNat 8 n :: rest) 0 1 = n := by
  rw [natAt, show slice (BitVec.ofNat 8 n :: rest) 0 1 = [BitVec.ofNat 8 n] from rfl, beNat_one, BitVec.toNat_ofNat,
    Nat.mod_eq_of_lt h]

/-! ### Coils marked by a late sample (R52) -/

theorem openOwnsCell_toNat {c0 p : Nat} {cell : Int} (h : 0 ≤ cell) :
    openOwnsCell c0 p cell.toNat = decide (2 * (c0 : Int) ≤ (2 * cell + 1) * p ∧ 0 ≤ cell) := by
  obtain ⟨c, rfl⟩ := Int.eq_ofNat_of_zero_le h
  rw [openOwnsCell, decide_eq_decide, Int.toNat_natCast]
  refine ⟨fun own => ⟨by exact_mod_cast own, h⟩, fun own => by exact_mod_cast own.1⟩

theorem ownsCell_toNat {c0 c1 p : Nat} {cell : Int} (h : 0 ≤ cell) :
    ownsCell c0 c1 p cell.toNat
      = decide (0 ≤ cell ∧ 2 * (c0 : Int) ≤ (2 * cell + 1) * p ∧ (2 * cell + 1) * p < 2 * (c1 : Int)) := by
  obtain ⟨c, rfl⟩ := Int.eq_ofNat_of_zero_le h
  rw [Int.toNat_natCast]
  apply Bool.eq_iff_iff.2
  rw [ownsCell_iff, decide_eq_true_eq]
  refine ⟨fun own => ⟨h, by exact_mod_cast own.1, by exact_mod_cast own.2⟩, fun own => ⟨by exact_mod_cast own.2.1, by exact_mod_cast own.2.2⟩⟩

/-- INCOMPLETE set when a condition holds. -/
theorem CoilFlags.setIncomplete_when (f : CoilFlags) (b : Bool) :
    (if b then f.setIncomplete else f) = { f with incomplete := f.incomplete || b } := by
  cases b with
  | false => rw [if_neg Bool.false_ne_true, Bool.or_false]
  | true => rw [if_pos rfl, Bool.or_true, CoilFlags.setIncomplete]

/-- The coils a late sample of a cell marks. -/
theorem lateMarks (cell : Int) (s : State) :
    (if cell < 0 then s else markIncomplete cell.toNat s).ca.openCoils
        = s.ca.openCoils.map (fun o =>
          { o with flags.incomplete := o.flags.incomplete || decide (2 * (o.c0 : Int) ≤ (2 * cell + 1) * s.cx.pitch ∧ 0 ≤ cell) })
      ∧ (if cell < 0 then s else markIncomplete cell.toNat s).ca.closing
        = s.ca.closing.map (fun r =>
          { r with flags.incomplete := r.flags.incomplete
              || decide (0 ≤ cell ∧ 2 * (r.c0 : Int) ≤ (2 * cell + 1) * r.pitch ∧ (2 * cell + 1) * r.pitch < 2 * (r.c1 : Int)) }) := by
  by_cases below : cell < 0
  · rw [if_pos below]
    have noOpen : ∀ o : OpenCoil, decide (2 * (o.c0 : Int) ≤ (2 * cell + 1) * s.cx.pitch ∧ 0 ≤ cell) = false := fun o =>
      decide_eq_false (fun h => absurd h.2 (not_le.2 below))
    have noClosing : ∀ r : OutputRecord, decide (0 ≤ cell ∧ 2 * (r.c0 : Int) ≤ (2 * cell + 1) * r.pitch
        ∧ (2 * cell + 1) * r.pitch < 2 * (r.c1 : Int)) = false := fun r => decide_eq_false (fun h => absurd h.1 (not_le.2 below))
    simp only [noOpen, noClosing, Bool.or_false, List.map_id']
    exact ⟨trivial, trivial⟩
  · rw [if_neg below]
    have from0 : 0 ≤ cell := not_lt.1 below
    refine ⟨List.map_congr_left (fun o _ => ?_), List.map_congr_left (fun r _ => ?_)⟩
    · rw [openOwnsCell_toNat from0, ← CoilFlags.setIncomplete_when]
      split <;> rfl
    · rw [ownsCell_toNat from0, ← CoilFlags.setIncomplete_when]
      split <;> rfl

/-- Settles O30: one pair by its channel, its reading and its cell, and several as one after another. -/
theorem sampleEntersTheCellOfItsPosition : Obligations.SampleEntersTheCellOfItsPosition := by
  unfold Obligations.SampleEntersTheCellOfItsPosition
  refine ⟨fun fields s number v run one length hnumber hv => ⟨fun ignored => ?ignored,
    fun ch front cell going channel reading open' pitch low high => ⟨fun late => ?late, fun within => ?entered⟩⟩,
    fun first last delay n s run some few hfirst hlast hdelay => ?several⟩
  case ignored =>
    have taken := exec_sample_of run one (le_refl _) (by decide) (by omega)
    have nothing : takeSet (samplePairs 1 fields) (natAt fields (1 + 3 * 1) 2) s = (s, 0) := by
      by_cases halted : s.tiu.halted = true
      · exact if_pos halted
      · refine (if_neg halted).trans ?_
        exact takePair_ignored (p := (natAt fields 1 1, intAt fields 2 2))
          (by rw [← hnumber, ← hv]; exact (ignored.resolve_left halted).imp_right .inr) 0
    rw [nothing] at taken
    exact taken
  case late =>
    have taken := exec_sample_of run one (le_refl _) (by decide) (by omega)
    have marked : takeSet (samplePairs 1 fields) (natAt fields (1 + 3 * 1) 2) s
        = (raise .lateSample (if cell < 0 then s else markIncomplete cell.toNat s), 0) :=
      (if_neg (by rw [going]; exact Bool.false_ne_true)).trans ((takePair_of (p := (natAt fields 1 1, intAt fields 2 2))
        (by rw [← hnumber]; exact channel) open' (by rw [← hv]; exact reading) (fdiv_pitch_eq pitch low high) 0).trans (if_pos late))
    rw [marked] at taken
    obtain ⟨openCoils, closing⟩ := lateMarks cell s
    refine ⟨_, taken, flagSet_raise_same _ _, ?_, ?_, openCoils, closing⟩
    · show (raise .lateSample _).cx = s.cx
      rw [raise_cx]
      split <;> rfl
    · show some _ = some _
      rw [List.take_of_length_le (by omega)]
      rfl
  case entered =>
    have taken := exec_sample_of run one (le_refl _) (by decide) (by omega)
    have put : takeSet (samplePairs 1 fields) (natAt fields (1 + 3 * 1) 2) s
        = ({ s with cx.window := putKey cell.toNat ((windowCell s cell.toNat).modify number (fun e => e.addSample v)) s.cx.window }, 1) := by
      rw [hnumber, hv]
      exact (if_neg (by rw [going]; exact Bool.false_ne_true)).trans ((takePair_of (p := (natAt fields 1 1, intAt fields 2 2))
        (by rw [← hnumber]; exact channel) open' (by rw [← hv]; exact reading) (fdiv_pitch_eq pitch low high) 0).trans
        (if_neg (not_lt.2 within)))
    rw [put] at taken
    refine ⟨_, taken, List.length_modify .., fun j other => ?_, fun e he => ⟨e.addSample v, ?_, (addSample_sums e v).1,
      (addSample_sums e v).2, (addSample_ends e v).1, (addSample_ends e v).2⟩⟩
    · exact List.getElem?_modify_ne _ _ (Ne.symm other)
    · rw [List.getElem?_modify_eq, he]
      rfl
  case several =>
    obtain ⟨u, j, most, station, begun, further⟩ := takeSet_append (natAt delay 0 2)
      (samplePairs n (BitVec.ofNat 8 n :: (first ++ delay))) s
    obtain ⟨v, k, atMost, ended, whole⟩ := further (samplePairs 1 (1 :: (last ++ delay)))
    have pairs : ∀ h : Byte, samplePairs n (h :: (first ++ delay)) = samplePairs n (BitVec.ofNat 8 n :: (first ++ delay)) := fun h => by
      refine List.map_congr_left (fun i _ => ?_)
      rw [natAt, intAt, natAt, intAt, show 2 + 3 * i = 1 + (3 * i + 1) by omega, slice, slice, Nat.add_comm 1, Nat.add_comm 1,
        List.drop_succ_cons, List.drop_succ_cons, slice, slice, List.drop_succ_cons, List.drop_succ_cons]
    refine ⟨u, v, j, k, ?_, ?_, ?_, ?_, ?_⟩
    · rw [exec_sample_of run (natAt_ofNat_head (by omega) _) some (by omega)
        (by rw [List.length_cons, List.length_append]; omega), natAt_delay _ delay hfirst, begun]
    · have head : natAt (1 :: (last ++ delay)) 0 1 = 1 := natAt_ofNat_head (by decide) _
      rw [exec_sample_of (station.trans run) head (le_refl _) (by decide) (by rw [List.length_cons, List.length_append]; omega),
        natAt_delay _ delay hlast, ended]
    · simpa [samplePairs] using most
    · simpa [samplePairs] using atMost
    · rw [exec_sample_of run (natAt_ofNat_head (by omega) _) (by omega) (by omega)
        (by rw [List.length_cons, List.length_append, List.length_append]; omega),
        natAt_delay _ delay (by rw [List.length_append]; omega), samplePairs_append _ 1 delay hfirst, pairs, whole]

end Sys2Proof.Machine
end

section
/-! PROOF. O27: what START sets, the rows of an activation, and the segment table. -/

namespace Sys2Proof.Machine

/-! ### Items dropped (R66, R82, R107) -/

/-- Whether a dropped item ends the commit of an amendment. -/
def failsCommit (a : Amending) : WriteItem → Bool
  | .amendedInput r => a.kind == .input && a.seq == r.seq
  | .amendedOutput r _ => a.kind == .output && a.seq == r.seq
  | .input _ | .output _ | .freezeMark _ _ => false

theorem isCommitting_of {s : State} {a : Amending} (h : s.ru.amend = .committing a) (kind : AmendKind) (seq : Nat) :
    isCommitting s kind seq = (a.kind == kind && a.seq == seq) := by rw [isCommitting, h]

theorem isCommitting_of_not {s : State} (h : ∀ a, s.ru.amend ≠ .committing a) (kind : AmendKind) (seq : Nat) :
    isCommitting s kind seq = false := by
  unfold isCommitting
  cases amend : s.ru.amend with
  | committing a => exact absurd amend (h a)
  | closed | opened _ | locked _ => rfl

theorem dropItem_amend_of_committing {s : State} {a : Amending} (h : s.ru.amend = .committing a) (w : WriteItem) :
    (dropItem w s).ru.amend = if failsCommit a w then .locked .writeFailed else .committing a := by
  have raised : (raise .archiveFull s).ru.amend = .committing a := h
  cases w with
  | input _ | output _ | freezeMark _ _ => exact raised
  | amendedInput r | amendedOutput r _ =>
    rw [dropItem]
    rw [isCommitting_of raised, failsCommit]
    split
    · rfl
    · exact raised

theorem dropItem_amend_of_not {s : State} (h : ∀ a, s.ru.amend ≠ .committing a) (w : WriteItem) :
    (dropItem w s).ru.amend = s.ru.amend := by
  have raised : ∀ a, (raise .archiveFull s).ru.amend ≠ .committing a := h
  cases w with
  | input _ | output _ | freezeMark _ _ => rfl
  | amendedInput r | amendedOutput r _ =>
    rw [dropItem]
    rw [isCommitting_of_not raised, if_neg Bool.false_ne_true]
    rfl

theorem dropItems_amend_of_not {s : State} (h : ∀ a, s.ru.amend ≠ .committing a) (l : List WriteItem) :
    (l.foldl (fun s w => dropItem w s) s).ru.amend = s.ru.amend := by
  induction l generalizing s with
  | nil => rfl
  | cons w l ih =>
    have same := dropItem_amend_of_not h w
    rw [List.foldl_cons, ih (by rw [same]; exact h), same]

/-- A commit whose item is among those dropped ends in LOCKED (R82, R107). -/
theorem dropItems_lock {s : State} {a : Amending} (h : s.ru.amend = .committing a) {l : List WriteItem}
    (hit : ∃ w ∈ l, failsCommit a w = true) : (l.foldl (fun s w => dropItem w s) s).ru.amend = .locked .writeFailed := by
  induction l generalizing s with
  | nil =>
    obtain ⟨w, hw, _⟩ := hit
    exact absurd hw List.not_mem_nil
  | cons w l ih =>
    have first := dropItem_amend_of_committing h w
    rw [List.foldl_cons]
    by_cases fails : failsCommit a w = true
    · rw [if_pos fails] at first
      rw [dropItems_amend_of_not (by rw [first]; exact fun _ => AmendState.noConfusion), first]
    · rw [if_neg fails] at first
      obtain ⟨v, hv, later⟩ := hit
      rcases List.mem_cons.1 hv with rfl | hv
      · exact absurd later fails
      · exact ih first ⟨v, hv, later⟩

theorem dropItem_ar (w : WriteItem) (s : State) : (dropItem w s).ar = s.ar := by
  cases w with
  | input _ | output _ | freezeMark _ _ => rfl
  | amendedInput r | amendedOutput r _ =>
    rw [dropItem]
    split <;> rfl

theorem dropItem_full (w : WriteItem) (s : State) : flagSet .archiveFull (dropItem w s) = true := by
  cases w with
  | input _ | output _ | freezeMark _ _ => exact flagSet_raise_same _ s
  | amendedInput r | amendedOutput r _ =>
    rw [dropItem]
    split
    · rw [lockAmend, flagSet_raise_other _ (by decide)]
      exact flagSet_raise_same _ s
    · exact flagSet_raise_same _ s

theorem dropItems_ar (l : List WriteItem) (s : State) : (l.foldl (fun s w => dropItem w s) s).ar = s.ar := by
  induction l generalizing s with
  | nil => rfl
  | cons w l ih => rw [List.foldl_cons, ih, dropItem_ar]

/-- Entering FULL (R82): the write queue is gone, and of the archive nothing else than the stage differs. -/
theorem enterFull_ar (s : State) : (enterFull s).ar = { s.ar with stage := .full, writeQueue := [] } := dropItems_ar _ _

theorem enterFull_move (s : State) : ArchiveMove { s with ar.stage := .full, ar.writeQueue := [] } (enterFull s) :=
  (ArchiveMove.foldl _ (fun s w => dropItem_move w s) _ _).trans (raise_move _ _)

theorem enterFull_locks {s : State} {a : Amending} (commit : s.ru.amend = .committing a)
    (hit : ∃ w ∈ s.ar.writeQueue, failsCommit a w = true) : (enterFull s).ru.amend = .locked .writeFailed :=
  dropItems_lock (s := { s with ar.stage := .full, ar.writeQueue := [] }) commit hit

/-! ### The rows of an activation (R80, R81, R82) -/

theorem activate_of_free {s : State} (h : 2 ≤ freeCount s ∨ freeCount s = 1 ∧ reclaimHope s = true) :
    activate s = reclaimMoment (afterActivation s) := by
  unfold activate
  rcases h with two | ⟨one, hope⟩
  · obtain ⟨n, hn⟩ := Nat.exists_eq_add_of_le' two
    rw [hn]
    rfl
  · rw [one]
    show reclaimMoment (if reclaimHope s = true then activateLowest s else enterRecordOnly (activateLowest s)) = _
    rw [if_pos hope]
    rfl

theorem activate_of_last {s : State} (one : freeCount s = 1) (noHope : reclaimHope s = false) :
    activate s = reclaimMoment (handReady (afterTrendStop (afterActivation s))) := by
  unfold activate
  rw [one]
  show reclaimMoment (if reclaimHope s = true then activateLowest s else enterRecordOnly (activateLowest s)) = _
  rw [if_neg (by rw [noHope]; exact Bool.false_ne_true)]
  rfl

theorem activate_of_waits {s : State} (empty : freeCount s = 0) (h : reclaimHope s = true ∨ s.ar.stage ≠ .recordOnly) :
    activate s = reclaimMoment { s with ar.activationWaits := true } := by
  unfold activate
  rw [empty]
  dsimp only
  by_cases hope : reclaimHope s = true
  · rw [if_pos hope]
    rfl
  · rw [if_neg hope]
    cases stage : s.ar.stage with
    | recordOnly => exact absurd stage (h.resolve_left hope)
    | normal | full => rfl

theorem activate_of_full {s : State} (empty : freeCount s = 0) (noHope : reclaimHope s = false) (stage : s.ar.stage = .recordOnly) :
    activate s = reclaimMoment (enterFull { s with ar.activationWaits := true }) := by
  unfold activate
  rw [empty]
  dsimp only
  rw [if_neg (by rw [noHope]; exact Bool.false_ne_true)]
  generalize ({ s with ar.activationWaits := true } : State) = u
  rw [stage]
  rfl

/-- An activation has one of four outcomes. -/
theorem activate_cases (s : State) :
    activate s = reclaimMoment (afterActivation s) ∨ activate s = reclaimMoment (handReady (afterTrendStop (afterActivation s)))
      ∨ activate s = reclaimMoment { s with ar.activationWaits := true }
      ∨ activate s = reclaimMoment (enterFull { s with ar.activationWaits := true }) := by
  by_cases two : 2 ≤ freeCount s
  · exact .inl (activate_of_free (.inl two))
  · by_cases hope : reclaimHope s = true
    · by_cases one : freeCount s = 1
      · exact .inl (activate_of_free (.inr ⟨one, hope⟩))
      · exact .inr (.inr (.inl (activate_of_waits (by omega) (.inl hope))))
    · have noHope := Bool.not_eq_true _ ▸ hope
      by_cases one : freeCount s = 1
      · exact .inr (.inl (activate_of_last one noHope))
      · by_cases stage : s.ar.stage = .recordOnly
        · exact .inr (.inr (.inr (activate_of_full (by omega) noHope stage)))
        · exact .inr (.inr (.inl (activate_of_waits (by omega) (.inr stage))))

/-- What the obligations look at of an open coil, its flags aside. -/
def OpenCoil.place (o : OpenCoil) : Nat × Nat × Nat × List OpenSegment := (o.lane, o.seq, o.c0, o.segments)

/-- What an activation without closing coils can do to the coils and the cells: NO-TREND on the open coils, staged cells dropped. -/
structure TrendStopped (s t : State) : Prop where
  ca : ∃ coils, t.ca = { s.ca with openCoils := coils } ∧ coils.map OpenCoil.place = s.ca.openCoils.map OpenCoil.place
  cx : t.cx = s.cx ∨ t.cx = { s.cx with staging := s.cx.staging.take (cellsInPage s) }

theorem TrendStopped.refl (s : State) : TrendStopped s s := ⟨⟨_, rfl, rfl⟩, .inl rfl⟩

theorem TrendStopped.thenArchive {s t u : State} (h : TrendStopped s t) (m : ArchiveMove t u) : TrendStopped s u :=
  ⟨by rw [m.ca]; exact h.ca, by rw [m.cx]; exact h.cx⟩

/-- Where no more cells are staged than the page being written holds, none is dropped. -/
theorem TrendStopped.cells {s t : State} (h : TrendStopped s t) (short : s.cx.staging.length ≤ cellsInPage s) : t.cx = s.cx := by
  rcases h.cx with same | dropped
  · exact same
  · rw [dropped, List.take_of_length_le short]

theorem activate_stops {s : State} (none : s.ca.closing = []) : TrendStopped s (activate s) := by
  have moment : ∀ u, TrendStopped s u → TrendStopped s (reclaimMoment u) := fun u h => h.thenArchive (reclaimMoment_move u)
  have still : TrendStopped s { s with ar.activationWaits := true } := ⟨⟨_, rfl, rfl⟩, .inl rfl⟩
  rcases activate_cases s with h | h | h | h
  · rw [h]
    exact moment _ ⟨⟨_, rfl, rfl⟩, .inl rfl⟩
  · rw [h, handReady_of_none (by show s.ca.closing.map _ = []; rw [none]; rfl)]
    refine moment _ ⟨⟨s.ca.openCoils.map (fun o => { o with flags.noTrend := true }), ?_, ?_⟩, .inr rfl⟩
    · show ({ s.ca with
          openCoils := s.ca.openCoils.map (fun o => { o with flags.noTrend := true })
          closing := s.ca.closing.map (fun r => { r with flags.noTrend := true }) } : Ca)
        = { s.ca with openCoils := s.ca.openCoils.map (fun o => { o with flags.noTrend := true }) }
      have same : s.ca.closing.map (fun r => { r with flags.noTrend := true }) = s.ca.closing := by rw [none, List.map_nil]
      rw [same]
    · rw [List.map_map]
      rfl
  · rw [h]
    exact moment _ still
  · rw [h]
    refine moment _ (TrendStopped.thenArchive ?_ (enterFull_move { s with ar.activationWaits := true }))
    exact ⟨⟨_, rfl, rfl⟩, .inl rfl⟩

theorem activateIfNone_eq (s : State) : activateIfNone s = if (activeSeg s).isSome then s else activate s := by
  unfold activateIfNone
  cases activeSeg s <;> rfl

theorem activateIfNone_stops {s : State} (none : s.ca.closing = []) : TrendStopped s (activateIfNone s) := by
  rw [activateIfNone_eq]
  split
  · exact .refl s
  · exact activate_stops none

/-! ### The segment table (R64, R80) -/

theorem lowestFree_ge (n : Nat) (segs : List SegEntry) : n ≤ lowestFree n segs := by
  induction segs generalizing n with
  | nil => exact le_refl _
  | cons e rest ih =>
    rw [lowestFree]
    split
    · have := ih (n + 1)
      omega
    · exact ih n

theorem lowestFree_of_above {n : Nat} {segs : List SegEntry} (h : ∀ g ∈ segs, n < g.num) : lowestFree n segs = n := by
  induction segs with
  | nil => rfl
  | cons e rest ih =>
    have first := h e List.mem_cons_self
    rw [lowestFree, if_neg (by omega)]
    exact ih (fun g hg => h g (List.mem_cons_of_mem _ hg))

/-- The lowest number that a rising table lacks. -/
theorem lowestFree_spec {segs : List SegEntry} (rising : segs.Pairwise (fun a b => a.num < b.num)) (n : Nat) :
    (∀ g ∈ segs, g.num ≠ lowestFree n segs) ∧ ∀ m, n ≤ m → m < lowestFree n segs → ∃ g ∈ segs, g.num = m := by
  induction segs generalizing n with
  | nil => exact ⟨fun g hg => absurd hg List.not_mem_nil, fun m low high => absurd high (not_lt.2 low)⟩
  | cons e rest ih =>
    obtain ⟨above, rising⟩ := List.pairwise_cons.1 rising
    rw [lowestFree]
    by_cases own : e.num = n
    · obtain ⟨absent, below⟩ := ih rising (n + 1)
      have beyond := lowestFree_ge (n + 1) rest
      rw [if_pos own]
      refine ⟨fun g hg => ?_, fun m low high => ?_⟩
      · rcases List.mem_cons.1 hg with rfl | hg
        · omega
        · exact absent g hg
      · by_cases first : m = n
        · exact ⟨e, List.mem_cons_self, own.trans first.symm⟩
        · obtain ⟨g, hg, number⟩ := below m (by omega) high
          exact ⟨g, List.mem_cons_of_mem _ hg, number⟩
    · obtain ⟨absent, below⟩ := ih rising n
      rw [if_neg own]
      refine ⟨fun g hg => ?_, fun m low high => ?_⟩
      · rcases List.mem_cons.1 hg with rfl | hg
        · by_cases less : g.num < n
          · have := lowestFree_ge n rest
            omega
          · rw [lowestFree_of_above (fun b hb => by have := above b hb; omega)]
            exact own
        · exact absent g hg
      · obtain ⟨g, hg, number⟩ := below m low high
        exact ⟨g, List.mem_cons_of_mem _ hg, number⟩

/-! ### START (R204) -/

/-- The station as START leaves it, an activation aside. -/
def started (c : Configuration) (s : State) : State :=
  beginTracking c.laneCount c.dw (startCells c.channels c.pitch c.allowance (takeBaseline { s with
    pp.lock := true
    pp.station := .run
    tiu.pairs := c.pairs
    tiu.exitWeight := c.exitWeight
    tiu.entryWeight := c.entryWeight }))

theorem startStation_eq (c : Configuration) (s : State) : startStation c s = activateIfNone (started c s) := rfl

/-- The coils as tracking begins (R7, R41). -/
structure TrackingBegun (laneCount dw : Nat) (s t : State) : Prop where
  coils : t.ca.openCoils.map OpenCoil.place
    = (List.range laneCount).map (fun i => (i + 1, min (2 ^ 32 - 1) (s.ca.outSeq + i), runCoord t, [⟨none, 0⟩]))
  rest : ∃ coils seq, t.ca = { Ca.atReset with
    inSeq := s.ca.inSeq, outSeq := seq, openCoils := coils, laneCount := laneCount, dw := dw }

theorem beginTracking_of {s : State} (h : s.ca.outSeq ≤ 2 ^ 32 - 1) (laneCount dw : Nat) :
    ∃ ca, beginTracking laneCount dw s = { s with ca := ca } ∧ TrackingBegun laneCount dw s { s with ca := ca } := by
  rw [beginTracking, openCoilsAt_of (s := { s with ca := { Ca.atReset with
    inSeq := s.ca.inSeq, outSeq := s.ca.outSeq, laneCount := laneCount, dw := dw } }) h]
  refine ⟨_, rfl, ?_, _, _, rfl⟩
  dsimp only
  rw [List.map_map]
  rfl

/-- Every coil, weld and boundary of before is gone (R7, R41). -/
theorem TrackingBegun.empty {laneCount dw : Nat} {s t : State} (h : TrackingBegun laneCount dw s t) :
    t.ca.entryCoil = none ∧ t.ca.exitCoil = none ∧ t.ca.entryQueue = [] ∧ t.ca.table = [] ∧ t.ca.welds = [] ∧ t.ca.boundaries = []
      ∧ t.ca.closing = [] ∧ t.ca.lastCoil = none ∧ t.ca.names = Vector.replicate 8 [] ∧ t.ca.inSeq = s.ca.inSeq
      ∧ t.ca.laneCount = laneCount ∧ t.ca.dw = dw := by
  obtain ⟨coils, seq, same⟩ := h.rest
  rw [same]
  exact ⟨rfl, rfl, rfl, rfl, rfl, rfl, rfl, rfl, rfl, rfl, rfl, rfl⟩

theorem TrackingBegun.thenStopped {laneCount dw : Nat} {s t u : State} (h : TrackingBegun laneCount dw s t) (g : TrendStopped t u)
    (coord : runCoord u = runCoord t) : TrackingBegun laneCount dw s u := by
  obtain ⟨coils, ca, places⟩ := g.ca
  obtain ⟨old, seq, same⟩ := h.rest
  refine ⟨?_, coils, seq, ?_⟩
  · rw [ca, coord, ← h.coils]
    exact places
  · rw [ca, same]

theorem runCoord_tiu {s t : State} (h : t.tiu = s.tiu) : runCoord t = runCoord s := by rw [runCoord, runCoord, h]

theorem started_of {s : State} (h : s.ca.outSeq ≤ 2 ^ 32 - 1) (c : Configuration) :
    ∃ ca, started c s = { s with
        ca := ca
        cx := ⟨c.channels, c.pitch, c.allowance, some (runCoord (started c s) / c.pitch), [], []⟩
        tiu := { s.tiu with
          pairs := c.pairs, exitWeight := c.exitWeight, entryWeight := c.entryWeight, entryCount := 0
          prev := c.pairs.edges s.tiu.filtered, halted := c.pairs.lineHalt.isMatch s.tiu.filtered }
        pp := { s.pp with lock := true, station := .run } }
      ∧ TrackingBegun c.laneCount c.dw s (started c s) := by
  have baseline := beginTracking_of (s := startCells c.channels c.pitch c.allowance (takeBaseline { s with
    pp.lock := true
    pp.station := .run
    tiu.pairs := c.pairs
    tiu.exitWeight := c.exitWeight
    tiu.entryWeight := c.entryWeight })) h c.laneCount c.dw
  obtain ⟨ca, begun, tracking⟩ := baseline
  refine ⟨ca, ?_, ?_⟩
  · rw [started, begun]
    rfl
  · rw [started, begun]
    exact ⟨tracking.coils, tracking.rest⟩

/-- START as the blocks have taken it, the activation after. -/
theorem start_takes {s : State} {c : Configuration} (h : s.ca.outSeq ≤ 2 ^ 32 - 1) {t : State} (ht : t = settle (startStation c s)) :
    t.pp = { s.pp with station := .run, lock := true, flags := t.pp.flags }
      ∧ t.tiu = { s.tiu with
          pairs := c.pairs, exitWeight := c.exitWeight, entryWeight := c.entryWeight, entryCount := 0
          prev := c.pairs.edges s.tiu.filtered, halted := c.pairs.lineHalt.isMatch s.tiu.filtered }
      ∧ t.cx = ⟨c.channels, c.pitch, c.allowance, some (runCoord t / c.pitch), [], []⟩ ∧ TrackingBegun c.laneCount c.dw s t
      ∧ t.flash = s.flash := by
  obtain ⟨ca, state, begun⟩ := started_of h c
  have line := activateIfNone_line (started c s)
  have none : (started c s).ca.closing = [] := by
    obtain ⟨_, _, same⟩ := begun.rest
    rw [same]
    rfl
  have stops := activateIfNone_stops none
  have bus := settle_move (startStation c s)
  rw [startStation_eq] at ht bus
  rw [← ht] at bus
  have tiu : t.tiu = (started c s).tiu := bus.tiu.trans line.tiu
  have kept : TrendStopped (started c s) t := ⟨by rw [bus.ca]; exact stops.ca, by rw [bus.cx]; exact stops.cx⟩
  have coord := runCoord_tiu tiu
  have port : t.pp = { (started c s).pp with flags := t.pp.flags } := line.port.trans bus.port
  refine ⟨port.trans ?_, tiu.trans ?_, ?_, begun.thenStopped kept coord, (bus.flash.trans line.flash).trans ?_⟩
  · rw [state]
  · rw [state]
  · have short : (started c s).cx.staging.length ≤ cellsInPage (started c s) := by
      rw [state]
      exact Nat.zero_le _
    rw [kept.cells short, coord]
    conv_lhs => rw [state]
  · rw [state]

theorem exec_start_of_none {s : State} (config : s.pp.station = .config) (absent : s.pp.config = none) :
    exec (.start []) s = .next (withResponse 0x06 [] [0x81] s) := by
  rw [exec_start, execStart, if_neg (not_not.2 config), if_neg (by decide), absent]
  rfl

theorem exec_start_of_some {s : State} {c : Configuration} (config : s.pp.station = .config) (held : s.pp.config = some c) :
    exec (.start []) s = .next (withResponse 0x06 [] [0x00] (settle (startStation c s))) := by
  rw [exec_start, execStart, if_neg (not_not.2 config), if_neg (by decide), held]
  exact congrArg Host.Outcome.next (accept_eq 0x06 [] [] (settle (startStation c s)))

/-- Settles O27: START by the configuration, the rows of an activation, and the segment table. -/
theorem startOpensTracking : Obligations.StartOpensTracking := by
  unfold Obligations.StartOpensTracking
  refine ⟨fun s config => ⟨fun absent => ?absent, fun c held h => ?held⟩, fun s => ⟨fun room => activate_of_free room,
    fun one noHope => activate_of_last one noHope, fun empty h => activate_of_waits empty h, fun empty noHope stage => ?full, ?hope,
    fun w stage => ?dropped⟩, fun e segs => ⟨find_putSeg_same e segs, fun n other => find_putSeg_other e segs other, fun rising => ?lowest⟩⟩
  case absent => exact exec_start_of_none config absent
  case held =>
    obtain ⟨t, ht⟩ : ∃ t, t = settle (startStation c s) := ⟨_, rfl⟩
    obtain ⟨pp, tiu, cx, begun, flash⟩ := start_takes h ht
    obtain ⟨ca, state, _⟩ := started_of h c
    obtain ⟨entryCoil, exitCoil, entryQueue, table, welds, boundaries, closing, lastCoil, _, _, lanes, dw⟩ := begun.empty
    refine ⟨withResponse 0x06 [] [0x00] t, (exec_start_of_some config held).trans (by rw [ht]), ?_, tiu, cx, begun.coils, entryCoil,
      exitCoil, entryQueue, table, welds, boundaries, closing, lastCoil, lanes, dw, .ofFlash flash, started c s, ?_, ?_⟩
    · exact congrArg (fun p : Pp => { p with buffer := some ⟨0x06, [], [0x00]⟩ }) pp
    · have active : activeSeg (started c s) = activeSeg s := by rw [state]; rfl
      rw [ht, startStation_eq, activateIfNone_eq, active]
    · rw [state]
      exact ⟨rfl, rfl, rfl, rfl, rfl⟩
  case full =>
    have commits : ∀ a, s.ru.amend = .committing a → (∃ w ∈ s.ar.writeQueue, failsCommit a w = true) →
        (enterFull { s with ar.activationWaits := true }).ru.amend = .locked .writeFailed := fun a commit hit =>
      enterFull_locks (s := { s with ar.activationWaits := true }) commit hit
    have move := enterFull_move { s with ar.activationWaits := true }
    have archive := enterFull_ar { s with ar.activationWaits := true }
    refine ⟨_, activate_of_full empty noHope stage, ?_, ?_, ?_, flagSet_raise_same _ _, ?_, ?_, ?_, ?_, move.cx, move.ca, move.pe,
      move.flash, fun a r commit same hit => commits a commit ⟨_, hit.2, ?_⟩, fun a r old commit same hit => commits a commit ⟨_, hit.2, ?_⟩⟩
    · rw [archive]
    · rw [archive]
    · rw [archive]
    · rw [archive]
    · rw [archive]
    · rw [archive]
    · rw [archive]
    · rw [failsCommit, hit.1, same, beq_self_eq_true, beq_self_eq_true, Bool.and_true]
    · rw [failsCommit, hit.1, same, beq_self_eq_true, beq_self_eq_true, Bool.and_true]
  case hope => rw [reclaimHope, Bool.or_eq_true]
  case dropped =>
    refine ⟨if_pos stage, dropItem_full w s, dropItem_ar w s, fun seq id freeze => ?_⟩
    rw [freeze]
    rfl
  case lowest =>
    obtain ⟨absent, below⟩ := lowestFree_spec rising 2
    exact ⟨absent, lowestFree_ge 2 segs, below⟩

end Sys2Proof.Machine
end

section
/-! PROOF. O28: RESTART, from the tasks it drops to the archive it leaves. -/

namespace Sys2Proof.Machine

/-! ### Tasks dropped (R99) -/

/-- Whether a KEEP task of a list came from a keep list entry. -/
def sourcedBy (tasks : List Task) (k : KeepEntry) : Bool :=
  tasks.any (fun t => t.kind == .keep && k.id == t.source && k.node == t.node && k.number == t.number)

/-- The keep list with the sources of the KEEP tasks PARTIAL. -/
def markSources (tasks : List Task) (keeps : List KeepEntry) : List KeepEntry :=
  keeps.map (fun k => if sourcedBy tasks k then { k with keptPartial := true } else k)

theorem markSources_nil (keeps : List KeepEntry) : markSources [] keeps = keeps :=
  (List.map_congr_left fun _ _ => if_neg Bool.false_ne_true).trans (List.map_id _)

/-- The mark a dropped task makes. -/
def dropTask (s : State) (t : Task) : State :=
  match t.kind with
  | .keep => markPartial t.source t.node t.number s
  | .unkeep => s

theorem dropTasks_eq (s : State) : dropTasks s = s.ru.tasks.foldl dropTask { s with ru.tasks := [], ru.head := none } := rfl

theorem sourcedBy_single (t : Task) (k : KeepEntry) :
    sourcedBy [t] k = (t.kind == .keep && k.isTriple t.source t.node t.number) := by
  rw [sourcedBy, List.any_cons, List.any_nil, Bool.or_false, KeepEntry.isTriple, Bool.and_assoc, Bool.and_assoc, Bool.and_assoc]

theorem sourcedBy_cons (t : Task) (tasks : List Task) (k : KeepEntry) :
    sourcedBy (t :: tasks) k = (sourcedBy [t] k || sourcedBy tasks k) := by
  simp only [sourcedBy, List.any_cons, List.any_nil, Bool.or_false]

theorem sourcedBy_marked (tasks : List Task) (k : KeepEntry) : sourcedBy tasks { k with keptPartial := true } = sourcedBy tasks k := rfl

theorem markSources_cons (t : Task) (tasks : List Task) (keeps : List KeepEntry) :
    markSources tasks (markSources [t] keeps) = markSources (t :: tasks) keeps := by
  unfold markSources
  rw [List.map_map]
  refine List.map_congr_left fun k _ => ?_
  rw [Function.comp_apply, sourcedBy_cons t tasks k]
  cases sourcedBy [t] k with
  | false => rw [if_neg Bool.false_ne_true, Bool.false_or]
  | true =>
    rw [if_pos rfl, sourcedBy_marked, Bool.true_or, if_pos rfl]
    split <;> rfl

theorem markTriple_eq_markSources {t : Task} (h : t.kind = .keep) (keeps : List KeepEntry) :
    markTriple t.source t.node t.number keeps = markSources [t] keeps := by
  refine List.map_congr_left fun k _ => ?_
  rw [sourcedBy_single, h, beq_self_eq_true, Bool.true_and]
  simp only [isTriple_iff]

theorem markSources_of_unkeep {t : Task} (h : t.kind = .unkeep) (keeps : List KeepEntry) : markSources [t] keeps = keeps := by
  refine (List.map_congr_left fun k _ => ?_).trans (List.map_id _)
  rw [sourcedBy_single, h]
  exact if_neg Bool.false_ne_true

/-- The state with another keep list, its image write ready or not. -/
def withKeeps (s : State) (ready : Bool) (keeps : List KeepEntry) : State := { s with ar.keepReady := ready, ru.keeps := keeps }

theorem ArchiveMove.withKeeps {s t : State} (m : ArchiveMove s t) (ready : Bool) (keeps : List KeepEntry) :
    ArchiveMove (withKeeps s ready keeps) (withKeeps t ready keeps) where
  rest := congrArg (fun u => Machine.withKeeps u ready keeps) m.rest
  flags := m.flags
  write := m.write
  freezes := m.freezes

theorem dropTask_move (s : State) (t : Task) :
    ∃ ready, ArchiveMove (withKeeps s ready (markSources [t] s.ru.keeps)) (dropTask s t) := by
  cases kind : t.kind with
  | unkeep =>
    rw [markSources_of_unkeep kind, dropTask, kind]
    exact ⟨s.ar.keepReady, .refl s⟩
  | keep =>
    rw [← markTriple_eq_markSources kind, dropTask, kind]
    dsimp only
    unfold markPartial
    split
    · rename_i present
      have marked : s.ru.keeps.map (fun k => if k.isTriple t.source t.node t.number then { k with keptPartial := true } else k)
          = markTriple t.source t.node t.number s.ru.keeps := by
        simp only [isTriple_iff, markTriple]
      rw [marked]
      exact ⟨true, keepChanged_move' { s with ru.keeps := markTriple t.source t.node t.number s.ru.keeps }⟩
    · rename_i absent
      have same := (markPartial_keeps t.source t.node t.number s).1
      rw [markPartial, if_neg absent] at same
      rw [← same]
      exact ⟨s.ar.keepReady, .refl s⟩

/-- Of the rest of the station dropped tasks leave what a moment of reclaim choice leaves. -/
theorem dropTaskList_move (tasks : List Task) (s : State) :
    ∃ ready, ArchiveMove (withKeeps s ready (markSources tasks s.ru.keeps)) (tasks.foldl dropTask s) := by
  induction tasks generalizing s with
  | nil =>
    rw [markSources_nil]
    exact ⟨s.ar.keepReady, .refl s⟩
  | cons t tasks ih =>
    obtain ⟨first, move⟩ := dropTask_move s t
    obtain ⟨ready, rest⟩ := ih (dropTask s t)
    have keeps : (dropTask s t).ru.keeps = markSources [t] s.ru.keeps := move.keeps
    rw [keeps, markSources_cons] at rest
    exact ⟨ready, (move.withKeeps ready (markSources (t :: tasks) s.ru.keeps)).trans rest⟩

theorem dropTask_of_noDemand {s : State} (none : reclaimDemand s = false) (t : Task) :
    dropTask s t = withKeeps s (s.ar.keepReady || s.ru.keeps.any (fun k => sourcedBy [t] k && !k.keptPartial))
      (markSources [t] s.ru.keeps) := by
  simp only [sourcedBy_single]
  cases kind : t.kind with
  | unkeep =>
    have nothing : s.ru.keeps.any (fun k => (TaskKind.unkeep == TaskKind.keep && k.isTriple t.source t.node t.number) && !k.keptPartial)
        = false := List.any_eq_false.2 (fun k _ => Bool.false_ne_true)
    rw [markSources_of_unkeep kind, dropTask, kind, nothing, Bool.or_false]
    rfl
  | keep =>
    rw [← markTriple_eq_markSources kind, dropTask, kind]
    dsimp only
    have guard : ∀ k : KeepEntry, ((TaskKind.keep == TaskKind.keep && k.isTriple t.source t.node t.number) && !k.keptPartial)
        = (k.isTriple t.source t.node t.number && !k.keptPartial) := fun k => rfl
    simp only [guard]
    unfold markPartial
    split
    · rename_i present
      have marked : s.ru.keeps.map (fun k => if k.isTriple t.source t.node t.number then { k with keptPartial := true } else k)
          = markTriple t.source t.node t.number s.ru.keeps := by
        simp only [isTriple_iff, markTriple]
      rw [marked, keepChanged_of_noDemand none, present, Bool.or_true]
      rfl
    · rename_i absent
      have same := (markPartial_keeps t.source t.node t.number s).1
      rw [markPartial, if_neg absent] at same
      rw [← same, Bool.eq_false_iff.2 absent, Bool.or_false]
      rfl

theorem any_or_any {α : Type} (p q : α → Bool) (l : List α) : l.any (fun a => p a || q a) = (l.any p || l.any q) := by
  induction l with
  | nil => rfl
  | cons a l ih =>
    rw [List.any_cons, List.any_cons, List.any_cons, ih]
    ac_rfl

theorem reclaimDemand_withKeeps (s : State) (ready : Bool) (keeps : List KeepEntry) :
    reclaimDemand (withKeeps s ready keeps) = reclaimDemand s := reclaimDemand_congr rfl rfl rfl rfl

/-- With no reclaim demanded dropped tasks mark the keep list and make an image write ready when a mark is new. -/
theorem dropTaskList_of_noDemand {tasks : List Task} {s : State} (none : reclaimDemand s = false) :
    tasks.foldl dropTask s = withKeeps s (s.ar.keepReady || s.ru.keeps.any (fun k => sourcedBy tasks k && !k.keptPartial))
      (markSources tasks s.ru.keeps) := by
  induction tasks generalizing s with
  | nil =>
    have nothing : s.ru.keeps.any (fun k => sourcedBy [] k && !k.keptPartial) = false :=
      List.any_eq_false.2 (fun k _ => Bool.false_ne_true)
    rw [markSources_nil, nothing, Bool.or_false]
    rfl
  | cons t tasks ih =>
    have new : ∀ k : KeepEntry, (sourcedBy (t :: tasks) k && !k.keptPartial)
        = ((sourcedBy [t] k && !k.keptPartial)
          || (sourcedBy tasks (if sourcedBy [t] k then { k with keptPartial := true } else k)
            && !(if sourcedBy [t] k then { k with keptPartial := true } else k).keptPartial)) := fun k => by
      rw [sourcedBy_cons t tasks k]
      cases sourcedBy [t] k with
      | false => rw [if_neg Bool.false_ne_true, Bool.false_and, Bool.false_or, Bool.false_or]
      | true =>
        rw [if_pos rfl, Bool.true_or, Bool.not_true, Bool.and_false, Bool.or_false]
    have all : s.ru.keeps.any (fun k => sourcedBy (t :: tasks) k && !k.keptPartial)
        = (s.ru.keeps.any (fun k => sourcedBy [t] k && !k.keptPartial)
          || (markSources [t] s.ru.keeps).any (fun k => sourcedBy tasks k && !k.keptPartial)) := by
      rw [markSources, List.any_map, ← any_or_any]
      exact congrArg s.ru.keeps.any (funext new)
    rw [List.foldl_cons, dropTask_of_noDemand none, ih ((reclaimDemand_withKeeps ..).trans none), all, ← Bool.or_assoc,
      ← markSources_cons t tasks s.ru.keeps]
    rfl

/-! ### No read waits and no amendment is open (R73, R102) -/

/-- The read queue is empty and the amendment closed. -/
structure ReadsGone (s : State) : Prop where
  queue : s.ar.readQueue = []
  amend : s.ru.amend = .closed

theorem ReadsGone.congr {s t : State} (h : ReadsGone s) (queue : t.ar.readQueue = s.ar.readQueue) (amend : t.ru.amend = s.ru.amend) :
    ReadsGone t := ⟨queue.trans h.queue, amend.trans h.amend⟩

theorem ReadsGone.reclaimMoment {s : State} (h : ReadsGone s) : ReadsGone (reclaimMoment s) := by
  unfold Machine.reclaimMoment
  split
  · split
    · rename_i g _
      have idle : failAmendRead g.num (segmentChosen g s) = segmentChosen g s :=
        if_neg (by
          show ¬ s.ar.readQueue.any _ = true
          rw [h.queue]
          exact Bool.false_ne_true)
      rw [chooseSegment_eq, idle]
      exact h.congr rfl rfl
    · exact h
  · exact h

theorem ReadsGone.dropItems {s : State} (h : ReadsGone s) (l : List WriteItem) : ReadsGone (l.foldl (fun s w => dropItem w s) s) :=
  h.congr (by rw [dropItems_ar]) (dropItems_amend_of_not (by rw [h.amend]; exact fun _ => AmendState.noConfusion) l)

theorem ReadsGone.raise {s : State} (h : ReadsGone s) (a : Attention) : ReadsGone (raise a s) := h.congr rfl rfl

theorem ReadsGone.settleArchive {s : State} (h : ReadsGone s) : ReadsGone (settleArchive s) := by
  have moment : ReadsGone (placeMoment s) := by
    unfold placeMoment
    split
    · exact h
    · split
      · exact h.reclaimMoment
      · exact h
  have dropped : ReadsGone (dropPlaceless (placeMoment s)) := by
    unfold dropPlaceless
    split
    · exact ReadsGone.dropItems (s := { placeMoment s with
        ar.writeQueue := (placeMoment s).ar.writeQueue.filter (fun w => !needsPlace (placeMoment s) w) }) (moment.congr rfl rfl) _
    · exact moment
  rw [Machine.settleArchive, raiseConditions_eq]
  exact dropped.congr rfl rfl

theorem ReadsGone.activate {s : State} (h : ReadsGone s) (none : s.ca.closing = []) : ReadsGone (activate s) := by
  have waits : ReadsGone { s with ar.activationWaits := true } := h.congr rfl rfl
  rcases activate_cases s with e | e | e | e
  · rw [e]
    exact (h.congr rfl rfl : ReadsGone (afterActivation s)).reclaimMoment
  · rw [e, handReady_of_none (by show s.ca.closing.map _ = []; rw [none]; rfl)]
    exact (h.congr rfl rfl : ReadsGone (afterTrendStop (afterActivation s))).reclaimMoment
  · rw [e]
    exact waits.reclaimMoment
  · rw [e]
    have full : ReadsGone (enterFull { s with ar.activationWaits := true }) :=
      (ReadsGone.dropItems (s := { s with ar.activationWaits := true, ar.stage := .full, ar.writeQueue := [] }) (h.congr rfl rfl) _).raise _
    exact full.reclaimMoment

/-! ### RESTART (R205) -/

/-- The station as RESTART leaves it, the tasks, an activation and READY aside. -/
def restarted (s : State) : State :=
  let t := restartCells (takeBaseline (restartBus (restartPulls s)))
  beginTracking t.ca.laneCount t.ca.dw t

theorem restartStation_eq (s : State) :
    restartStation s = raise .ready (reclaimMoment (activateIfNone (dropTasks (restarted s)))) := rfl

/-- What RESTART makes of the bus interface (R196). -/
def busRestarted (b : Bi) : Bi :=
  { b with
    queue :=
      match b.tx with
      | some t => if t.control then [{ t.frame with owner := .nobody }] else []
      | none => []
    tx := b.tx.map (fun t => { t with frame := { t.frame with owner := .nobody } })
    offers := []
    looped := [] }

theorem busRestarted_queue (b : Bi) : (busRestarted b).queue.length = if b.tx.any (fun x => x.control) then 1 else 0 := by
  unfold busRestarted
  cases b.tx with
  | none => rfl
  | some t =>
    dsimp only
    rw [Option.any_some]
    split <;> rfl

/-- The staged cells that RESTART leaves: those of the page being written (R63). -/
def stagingRestarted (s : State) : List StagedCell := (s.cx.staging.take (cellsInPage s)).map (fun c => { c with current := false })

theorem restarted_of {s : State} (h : s.ca.outSeq ≤ 2 ^ 32 - 1) :
    ∃ ca, restarted s = { s with
        ca := ca
        cx := { s.cx with front := some (runCoord s / s.cx.pitch), window := [], staging := stagingRestarted s }
        tiu := { s.tiu with
          entryCount := 0, prev := s.tiu.pairs.edges s.tiu.filtered, halted := s.tiu.pairs.lineHalt.isMatch s.tiu.filtered }
        pe := { Pe.atReset with tagCounter := s.pe.tagCounter }
        bi := busRestarted s.bi
        ru.amend := .closed
        ar.readQueue := []
        ar.reading := s.ar.reading.map (fun r => { r with discarded := true }) }
      ∧ TrackingBegun s.ca.laneCount s.ca.dw s (restarted s) := by
  obtain ⟨ca, begun, tracking⟩ := beginTracking_of (s := restartCells (takeBaseline (restartBus (restartPulls s)))) h s.ca.laneCount s.ca.dw
  have same : restarted s = { restartCells (takeBaseline (restartBus (restartPulls s))) with ca := ca } := begun
  refine ⟨ca, same.trans rfl, ?_⟩
  rw [same]
  exact ⟨tracking.coils, tracking.rest⟩

/-- What follows the blocks' RESTART leaves of them. -/
structure RestartFollowed (u t : State) : Prop where
  tiu : t.tiu = u.tiu
  cx : t.cx = u.cx
  pe : t.pe = u.pe
  bi : t.bi = u.bi
  flash : t.flash = u.flash
  port : PortStands u t
  ready : flagSet .ready t = true
  stops : TrendStopped u t
  reads : ReadsGone t
  tasks : t.ru.tasks = []
  head : t.ru.head = none
  keeps : t.ru.keeps = markSources u.ru.tasks u.ru.keeps

theorem restart_follows {u : State} (looped : u.bi.looped = []) (unclosed : u.ca.closing = []) (short : u.cx.staging.length ≤ cellsInPage u)
    (gone : ReadsGone u) : RestartFollowed u (settle (raise .ready (reclaimMoment (activateIfNone (dropTasks u))))) := by
  obtain ⟨ready, dropped⟩ := dropTaskList_move u.ru.tasks { u with ru.tasks := [], ru.head := none }
  rw [← dropTasks_eq] at dropped
  have goneD : ReadsGone (dropTasks u) := by
    have each : ∀ (l : List Task) (v : State), ReadsGone v → ReadsGone (l.foldl dropTask v) := fun l => by
      induction l with
      | nil => exact fun v hv => hv
      | cons t l ih =>
        refine fun v hv => ih _ ?_
        unfold dropTask
        split
        · unfold markPartial
          split
          · exact (hv.congr rfl rfl : ReadsGone { v with
              ru.keeps := v.ru.keeps.map (fun k => if k.isTriple t.source t.node t.number then { k with keptPartial := true } else k)
              ar.keepReady := true }).reclaimMoment
          · exact hv
        · exact hv
    exact each _ _ (gone.congr rfl rfl)
  have noneD : (dropTasks u).ca.closing = [] := by
    rw [dropped.ca]
    exact unclosed
  have line := activateIfNone_line (dropTasks u)
  have goneA : ReadsGone (activateIfNone (dropTasks u)) := by
    rw [activateIfNone_eq]
    split
    · exact goneD
    · exact goneD.activate noneD
  have moment := reclaimMoment_move (activateIfNone (dropTasks u))
  have quiet : (raise .ready (reclaimMoment (activateIfNone (dropTasks u)))).bi.looped = [] := by
    rw [raise_bi, moment.bi, line.bi, dropped.bi]
    exact looped
  have last : ArchiveMove (activateIfNone (dropTasks u)) (settle (raise .ready (reclaimMoment (activateIfNone (dropTasks u))))) := by
    rw [settle_eq quiet]
    exact (moment.thenRaise .ready).trans (settleArchive_move _)
  have raised : flagSet .ready (settle (raise .ready (reclaimMoment (activateIfNone (dropTasks u))))) = true := by
    rw [settle_eq quiet]
    exact flagSet_settleArchive_raised _ _
  have reads : ReadsGone (settle (raise .ready (reclaimMoment (activateIfNone (dropTasks u))))) := by
    rw [settle_eq quiet]
    exact (goneA.reclaimMoment.raise _).settleArchive
  have places : cellsInPage (dropTasks u) = cellsInPage u := by
    rw [cellsInPage, dropped.pageWrite, cellsInPage]
    rfl
  have stops : TrendStopped u (activateIfNone (dropTasks u)) := by
    have stopped := activateIfNone_stops noneD
    exact ⟨by rw [← show (dropTasks u).ca = u.ca from dropped.ca]; exact stopped.ca,
      by rw [← show (dropTasks u).cx = u.cx from dropped.cx, ← places]; exact stopped.cx⟩
  have kept := stops.thenArchive last
  refine ⟨(last.tiu.trans line.tiu).trans dropped.tiu, kept.cells short, (last.pe.trans line.pe).trans dropped.pe,
    (last.bi.trans line.bi).trans dropped.bi, (last.flash.trans line.flash).trans dropped.flash,
    (dropped.port.trans line.port).trans last.port, raised, kept, reads, ?_, ?_, ?_⟩
  · exact (last.tasks.trans line.tasks).trans dropped.tasks
  · have head := congrArg (fun v : State => v.ru.head) line.rest
    exact (last.head.trans head).trans dropped.head
  · exact (last.keeps.trans line.keeps).trans dropped.keeps

/-- With an ACTIVE segment and no reclaim demanded RESTART leaves the archive, an image write made ready aside. -/
theorem restart_leaves_archive {u : State} (looped : u.bi.looped = []) (active : (activeSeg u).isSome = true)
    (noDemand : reclaimDemand u = false) :
    (settle (raise .ready (reclaimMoment (activateIfNone (dropTasks u))))).ar
        = { u.ar with keepReady := u.ar.keepReady || u.ru.keeps.any (fun k => sourcedBy u.ru.tasks k && !k.keptPartial) }
      ∧ (settle (raise .ready (reclaimMoment (activateIfNone (dropTasks u))))).ru.freezes = u.ru.freezes := by
  have dropped := dropTaskList_of_noDemand (tasks := u.ru.tasks) (s := { u with ru.tasks := [], ru.head := none })
    ((reclaimDemand_congr rfl rfl rfl rfl).trans noDemand)
  rw [← dropTasks_eq] at dropped
  have stays : activateIfNone (dropTasks u) = dropTasks u := by
    have same : activeSeg (dropTasks u) = activeSeg u := by rw [dropped]; rfl
    rw [activateIfNone_eq, same, if_pos active]
  have demand : reclaimDemand (dropTasks u) = false := by
    rw [dropped, reclaimDemand_withKeeps]
    exact (reclaimDemand_congr rfl rfl rfl rfl).trans noDemand
  have directory : directoryFull (dropTasks u) = false := (Bool.or_eq_false_iff.1 demand).2
  have quiet : (raise .ready (dropTasks u)).bi.looped = [] := by
    rw [raise_bi, dropped]
    exact looped
  obtain ⟨flags, settled⟩ := settleArchive_of_directoryRoom (s := raise .ready (dropTasks u))
    ((directoryFull_congr rfl rfl rfl).trans directory)
  rw [stays, reclaimMoment_idle (.inl demand), settle_eq quiet, settled, dropped]
  exact ⟨rfl, rfl⟩

theorem exec_restart_of_run {s : State} (run : s.pp.station = .run) :
    exec (.restart []) s = .next (withResponse 0x07 [] [0x00] (settle (restartStation s))) := by
  rw [exec_restart, execRestart, if_neg (not_not.2 run), if_neg (by decide)]
  exact congrArg Host.Outcome.next (accept_eq 0x07 [] [] (settle (restartStation s)))

/-- Settles O28: the blocks as RESTART leaves them, and what the dropped tasks, an activation and the settling keep of them. -/
theorem restartReturnsToTheEmptyLine : Obligations.RestartReturnsToTheEmptyLine := by
  unfold Obligations.RestartReturnsToTheEmptyLine
  intro s run h
  obtain ⟨ca, state, begun⟩ := restarted_of h
  obtain ⟨_, _, _, _, _, _, unclosed, _⟩ := begun.empty
  have looped : (restarted s).bi.looped = [] := by rw [state]; rfl
  have short : (restarted s).cx.staging.length ≤ cellsInPage (restarted s) := by
    rw [state]
    show (stagingRestarted s).length ≤ cellsInPage s
    rw [stagingRestarted, List.length_map, List.length_take]
    exact Nat.min_le_left _ _
  have gone : ReadsGone (restarted s) := by rw [state]; exact ⟨rfl, rfl⟩
  have followed := restart_follows looped unclosed short gone
  have archive := restart_leaves_archive looped
  rw [← restartStation_eq] at followed archive
  obtain ⟨t, ht⟩ : ∃ t, t = settle (restartStation s) := ⟨_, rfl⟩
  rw [← ht] at followed archive
  have coord : runCoord t = runCoord s := (runCoord_tiu followed.tiu).trans (by rw [state]; rfl)
  have tracking := begun.thenStopped followed.stops (runCoord_tiu followed.tiu)
  have cells := followed.cx
  have coils := tracking.coils
  rw [coord] at coils
  obtain ⟨entryCoil, exitCoil, entryQueue, table, welds, boundaries, closing, lastCoil, names, inSeq, lanes, dw⟩ := tracking.empty
  have bus := followed.bi
  have port := followed.port
  have mark : writtenMark t = runCoord s / s.cx.pitch := by
    rw [writtenMark, cells, state]
    have nobody : (stagingRestarted s).find? (fun c => c.current) = none := by
      rw [List.find?_eq_none]
      intro c hc
      obtain ⟨d, _, rfl⟩ := List.mem_map.1 hc
      exact Bool.false_ne_true
    dsimp only
    rw [nobody]
    rfl
  rw [state] at cells bus port
  have keeps : t.ru.keeps = s.ru.keeps.map (fun k => if isTaskSource s k then { k with keptPartial := true } else k) :=
    followed.keeps.trans (by rw [state]; rfl)
  have contexts : t.pe = ⟨Vector.replicate 6 none, Vector.replicate 8 none, [], s.pe.tagCounter⟩ :=
    followed.pe.trans (by rw [state]; rfl)
  refine ⟨withResponse 0x07 [] [0x00] t, (exec_restart_of_run run).trans (by rw [ht]),
    congrArg (fun p : Pp => { p with buffer := some ⟨0x07, [], [0x00]⟩ }) port, followed.ready, followed.tiu.trans (by rw [state]),
    (congrArg Cx.front cells).trans rfl, (congrArg Cx.window cells).trans rfl, (congrArg Cx.channels cells).trans rfl,
    (congrArg Cx.pitch cells).trans rfl, (congrArg Cx.allowance cells).trans rfl, (congrArg Cx.staging cells).trans rfl, mark, coils,
    entryCoil, exitCoil, entryQueue, table, welds, boundaries, closing, lastCoil, names, inSeq,
    lanes, dw, followed.reads.queue, followed.tasks, followed.head, followed.reads.amend, keeps, fun active noDemand => ?_, contexts,
    (congrArg Bi.node bus).trans rfl, (congrArg Bi.lastSource bus).trans rfl, (congrArg Bi.silence bus).trans rfl,
    (congrArg Bi.pointer bus).trans rfl, (congrArg Bi.offers bus).trans rfl, ?_,
    .ofFlash (followed.flash.trans (by rw [state]))⟩
  · obtain ⟨left, freezes⟩ := archive (by rw [state]; exact active) (by rw [state]; exact noDemand)
    rw [state] at left freezes
    exact ⟨freezes, left⟩
  · exact (congrArg (fun b : Bi => b.queue.length) bus).trans (busRestarted_queue s.bi)

end Sys2Proof.Machine
end

section
/-! PROOF. O38: how a data page is formed from the write queue and the staging buffer. -/

namespace Sys2Proof.Machine

/-! ### Items from the head of the queue (R67, step 1) -/

/-- What step 1 of R67 takes: items from the head while each fits, and finds a place if it needs one. -/
structure ItemsTaken (s : State) (room used : Nat) (queue items : List WriteItem) : Prop where
  head : items <+: queue
  places : ∀ i w, items[i]? = some w → needsPlace s w = true → used + (items.take i).countP (needsPlace s) < 16384
  fit : (items.map WriteItem.room).sum ≤ room
  stop : ∀ w, queue[items.length]? = some w →
    room < (items.map WriteItem.room).sum + w.room ∨ needsPlace s w = true ∧ 16384 ≤ used + items.countP (needsPlace s)

theorem takeItems_taken (s : State) (room used : Nat) (queue : List WriteItem) :
    ItemsTaken s room used queue (takeItems s room used queue) := by
  induction queue generalizing room used with
  | nil =>
    refine ⟨List.prefix_rfl, fun i w h => ?_, Nat.zero_le _, fun w h => ?_⟩
    · exact absurd h (by rw [takeItems, List.getElem?_nil]; exact Option.some_ne_none w ∘ Eq.symm)
    · exact absurd h (by rw [List.getElem?_nil]; exact Option.some_ne_none w ∘ Eq.symm)
  | cons w queue ih =>
    rw [takeItems]
    by_cases full : room < w.room ∨ needsPlace s w = true ∧ 16384 ≤ used
    · rw [if_pos full]
      refine ⟨List.nil_prefix, fun i v h => ?_, Nat.zero_le _, fun v h => ?_⟩
      · exact absurd h (by rw [List.getElem?_nil]; exact Option.some_ne_none v ∘ Eq.symm)
      · obtain rfl := Option.some.inj h
        rw [List.map_nil, List.sum_nil, List.countP_nil, Nat.zero_add, Nat.add_zero]
        exact full
    · rw [if_neg full]
      obtain ⟨head, places, fit, stop⟩ := ih (room - w.room) (if needsPlace s w = true then used + 1 else used)
      generalize takeItems s (room - w.room) (if needsPlace s w = true then used + 1 else used) queue = items at head places fit stop
      have shift : ∀ l : List WriteItem, used + (w :: l).countP (needsPlace s)
          = (if needsPlace s w = true then used + 1 else used) + l.countP (needsPlace s) := fun l => by
        rw [List.countP_cons]
        split <;> omega
      refine ⟨(List.cons_prefix_cons).2 ⟨rfl, head⟩, fun i v h need => ?_, ?_, fun v h => ?_⟩
      · cases i with
        | zero =>
          obtain rfl := Option.some.inj h
          rw [List.take_zero, List.countP_nil]
          have := not_and.1 (not_or.1 full).2 need
          omega
        | succ i =>
          rw [List.take_succ_cons, shift]
          exact places i v h need
      · rw [List.map_cons, List.sum_cons]
        have := (not_or.1 full).1
        omega
      · rw [List.map_cons, List.sum_cons, shift]
        exact (stop v h).imp_left (fun _ => by omega)

/-! ### Cells in blocks (R65) -/

/-- The room that cells take in blocks, behind a cell whose successor is given (R65, R67). -/
def cellsRoom : Option (Nat × Nat) → List StagedCell → Nat
  | _, [] => 0
  | next, c :: rest => c.room + (if next = some (c.index, c.pitch) then 0 else 16) + cellsRoom (some (c.index + 1, c.pitch)) rest

theorem cellsRoom_none_cons (c : StagedCell) (rest : List StagedCell) :
    cellsRoom none (c :: rest) = c.room + 16 + cellsRoom (some (c.index + 1, c.pitch)) rest := by
  rw [cellsRoom, if_neg (show ¬(none : Option (Nat × Nat)) = some (c.index, c.pitch) from nofun)]

/-- The blocks of a staged list begin with its first cell. -/
theorem blockCells_cons (c : StagedCell) (rest : List StagedCell) :
    ∃ block more, blockCells (c :: rest) = .cells c.pitch c.index (c.entries :: block) :: more := by
  rw [blockCells]
  split
  · split
    · rename_i same
      rw [same.1]
      exact ⟨_, _, rfl⟩
    · exact ⟨_, _, rfl⟩
  · exact ⟨_, _, rfl⟩

theorem blockCells_nil : blockCells [] = [] := rfl

theorem blockCells_one (c : StagedCell) : blockCells [c] = [.cells c.pitch c.index [c.entries]] := rfl

/-- A further cell in front: it joins the first block when that follows it. -/
theorem blockCells_cons_cons {c d : StagedCell} {rest : List StagedCell} {block : List (List CellEntry)} {more : List PageItem}
    (h : blockCells (d :: rest) = .cells d.pitch d.index block :: more) :
    blockCells (c :: d :: rest) = if d.pitch = c.pitch ∧ d.index = c.index + 1 then .cells d.pitch c.index (c.entries :: block) :: more
      else .cells c.pitch c.index [c.entries] :: .cells d.pitch d.index block :: more := by
  rw [blockCells, h]

theorem cellsRoom_cons_cons (c d : StagedCell) (rest : List StagedCell) :
    cellsRoom none (c :: d :: rest)
      = c.room + cellsRoom none (d :: rest) + if d.pitch = c.pitch ∧ d.index = c.index + 1 then 0 else 16 := by
  rw [cellsRoom_none_cons, cellsRoom_none_cons, cellsRoom]
  have follows : some (c.index + 1, c.pitch) = some (d.index, d.pitch) ↔ d.pitch = c.pitch ∧ d.index = c.index + 1 := by
    rw [Option.some.injEq, Prod.mk.injEq]
    exact ⟨fun h => ⟨h.2.symm, h.1.symm⟩, fun h => ⟨h.2.symm, h.1.symm⟩⟩
  simp only [follows]
  omega

theorem room_cons (p first : Nat) (e : List CellEntry) (block : List (List CellEntry)) (c : StagedCell) (h : c.entries = e) (q k : Nat) :
    (PageItem.cells p first (e :: block)).room = c.room + (PageItem.cells q k block).room := by
  rw [PageItem.room, PageItem.room, List.map_cons, List.sum_cons, StagedCell.room, h]
  omega

/-- The room of the blocks is that of their cells and one head for each block (R65). -/
theorem blockCells_room (cells : List StagedCell) : ((blockCells cells).map PageItem.room).sum = cellsRoom none cells := by
  induction cells with
  | nil => rfl
  | cons c rest ih =>
    cases rest with
    | nil =>
      rw [blockCells_one, List.map_singleton, List.sum_singleton, cellsRoom_none_cons, cellsRoom,
        room_cons c.pitch c.index c.entries [] c rfl 0 0]
      rfl
    | cons d rest =>
      obtain ⟨block, more, blocks⟩ := blockCells_cons d rest
      rw [blocks, List.map_cons, List.sum_cons] at ih
      rw [blockCells_cons_cons blocks, cellsRoom_cons_cons, ← ih]
      split
      · rw [List.map_cons, List.sum_cons, room_cons d.pitch c.index c.entries _ c rfl d.pitch d.index]
        omega
      · rw [List.map_cons, List.sum_cons, List.map_cons, List.sum_cons, room_cons c.pitch c.index c.entries [] c rfl 0 0]
        show c.room + 16 + _ = _
        omega

theorem namedCells_cons (p first : Nat) (e : List CellEntry) (block : List (List CellEntry)) :
    (PageItem.cells p first (e :: block)).namedCells = (p, first, e) :: (PageItem.cells p (first + 1) block).namedCells := by
  rw [PageItem.namedCells, PageItem.namedCells, List.zipIdx_cons', List.map_cons, List.map_map]
  refine congrArg₂ _ rfl (List.map_congr_left fun c _ => ?_)
  show (p, first + (c.2 + 1), c.1) = (p, first + 1 + c.2, c.1)
  rw [Nat.add_assoc, Nat.add_comm 1]

/-- The blocks hold the cells in order, each under its pitch and index. -/
theorem blockCells_named (cells : List StagedCell) :
    (blockCells cells).flatMap PageItem.namedCells = cells.map (fun c => (c.pitch, c.index, c.entries)) := by
  induction cells with
  | nil => rfl
  | cons c rest ih =>
    have alone : (PageItem.cells c.pitch c.index [c.entries]).namedCells = [(c.pitch, c.index, c.entries)] := rfl
    cases rest with
    | nil => rfl
    | cons d rest =>
      obtain ⟨block, more, blocks⟩ := blockCells_cons d rest
      rw [blocks, List.flatMap_cons] at ih
      rw [blockCells_cons_cons blocks, List.map_cons, ← ih]
      split
      · rename_i follows
        rw [List.flatMap_cons, namedCells_cons, ← follows.2, follows.1]
        rfl
      · rw [List.flatMap_cons, List.flatMap_cons, alone]
        rfl

/-- Every thing that cells are grouped into is a block with a cell. -/
theorem blockCells_blocks (cells : List StagedCell) : ∀ b ∈ blockCells cells, ∃ p first block, b = .cells p first block ∧ block ≠ [] := by
  induction cells with
  | nil => exact fun b hb => absurd hb List.not_mem_nil
  | cons c rest ih =>
    cases rest with
    | nil =>
      intro b hb
      rw [blockCells_one, List.mem_singleton] at hb
      exact ⟨_, _, _, hb, List.cons_ne_nil _ _⟩
    | cons d rest =>
      obtain ⟨block, more, blocks⟩ := blockCells_cons d rest
      rw [blocks] at ih
      intro b hb
      rw [blockCells_cons_cons blocks] at hb
      split at hb
      · rcases List.mem_cons.1 hb with rfl | hb
        · exact ⟨_, _, _, rfl, List.cons_ne_nil _ _⟩
        · exact ih b (List.mem_cons_of_mem _ hb)
      · rcases List.mem_cons.1 hb with rfl | hb
        · exact ⟨_, _, _, rfl, List.cons_ne_nil _ _⟩
        · exact ih b hb

/-- A block ends at a gap or at a change of pitch. -/
theorem blockCells_apart (cells : List StagedCell) : ∀ i p first block q next more, (blockCells cells)[i]? = some (.cells p first block) →
    (blockCells cells)[i + 1]? = some (.cells q next more) → q ≠ p ∨ next ≠ first + block.length := by
  induction cells with
  | nil => exact fun i p first block q next more h => nomatch h
  | cons c rest ih =>
    cases rest with
    | nil => exact fun i p first block q next more _ h => nomatch h
    | cons d rest =>
      obtain ⟨block, more, blocks⟩ := blockCells_cons d rest
      rw [blocks] at ih
      rw [blockCells_cons_cons blocks]
      intro i p first cells q next other hi hnext
      split at hi
      · rename_i follows
        rw [if_pos follows] at hnext
        cases i with
        | zero =>
          obtain ⟨rfl, rfl, rfl⟩ := PageItem.cells.inj (Option.some.inj hi)
          have apart := ih 0 d.pitch d.index (d.entries :: block) q next other rfl hnext
          rw [List.length_cons, ← Nat.add_assoc, Nat.add_right_comm, ← follows.2]
          exact apart
        | succ i => exact ih (i + 1) p first cells q next other hi hnext
      · rename_i broken
        rw [if_neg broken] at hnext
        cases i with
        | zero =>
          obtain ⟨rfl, rfl, rfl⟩ := PageItem.cells.inj (Option.some.inj hi)
          obtain ⟨rfl, rfl, _⟩ := PageItem.cells.inj (Option.some.inj hnext)
          exact not_and_or.1 broken
        | succ i => exact ih i p first cells q next other hi hnext

/-! ### Cells that fit (R67, step 2) -/

/-- The index and pitch that continue a list of cells, or what was there before it. -/
def successor (next : Option (Nat × Nat)) (cells : List StagedCell) : Option (Nat × Nat) :=
  match cells.getLast? with
  | none => next
  | some c => some (c.index + 1, c.pitch)

theorem successor_cons (next : Option (Nat × Nat)) (c : StagedCell) (cells : List StagedCell) :
    successor next (c :: cells) = successor (some (c.index + 1, c.pitch)) cells := by
  unfold successor
  cases cells with
  | nil => rfl
  | cons d cells =>
    rw [List.getLast?_cons_cons]
    cases last : (d :: cells).getLast? with
    | none => exact absurd (List.getLast?_eq_none_iff.1 last) (List.cons_ne_nil _ _)
    | some e => rfl

/-- What step 2 of R67 takes: as many staged cells as fit, from the head on. -/
structure CellsFit (room : Nat) (next : Option (Nat × Nat)) (cells : List StagedCell) (fit : Nat × Nat) : Prop where
  most : fit.1 ≤ cells.length
  taken : cellsRoom next (cells.take fit.1) + fit.2 = room
  stop : ∀ c, cells[fit.1]? = some c →
    fit.2 < c.room + if successor next (cells.take fit.1) = some (c.index, c.pitch) then 0 else 16

theorem fitCells_fit (room : Nat) (next : Option (Nat × Nat)) (cells : List StagedCell) :
    CellsFit room next cells (fitCells room next cells) := by
  induction cells generalizing room next with
  | nil =>
    refine ⟨le_refl _, Nat.zero_add _, fun c h => ?_⟩
    exact absurd h (by rw [List.getElem?_nil]; exact Option.some_ne_none c ∘ Eq.symm)
  | cons c cells ih =>
    rw [fitCells]
    dsimp only
    by_cases full : room < c.room + if next = some (c.index, c.pitch) then 0 else 16
    · rw [if_pos full]
      refine ⟨Nat.zero_le _, Nat.zero_add _, fun d h => ?_⟩
      obtain rfl := Option.some.inj h
      exact full
    · rw [if_neg full]
      obtain ⟨most, taken, stop⟩ := ih (room - (c.room + if next = some (c.index, c.pitch) then 0 else 16)) (some (c.index + 1, c.pitch))
      refine ⟨Nat.succ_le_succ most, ?_, fun d h => ?_⟩
      · rw [List.take_succ_cons, cellsRoom]
        dsimp only
        omega
      · rw [List.take_succ_cons, successor_cons]
        exact stop d h

/-! ### The page (R67) -/

/-- The staged cells that a page may take: those of the buffer in NORMAL (R67). -/
def stagedForPage (s : State) : List StagedCell := if s.ar.stage = .normal then s.cx.staging else []

theorem planPage_items (s : State) : ItemsTaken s 4064 (placesUsed s) s.ar.writeQueue (planPage s).items := takeItems_taken ..

theorem planPage_cells (s : State) :
    ∃ left, CellsFit (4064 - ((planPage s).items.map WriteItem.room).sum) none (stagedForPage s) ((planPage s).cells, left)
      ∧ (planPage s).full = (decide ((planPage s).cells < (stagedForPage s).length)
          || (stagedForPage s).any (fun c => decide (left < c.room))) :=
  ⟨_, fitCells_fit .., rfl⟩

theorem items_room (items : List WriteItem) (blocks : List PageItem) :
    ((items.map PageItem.item ++ blocks).map PageItem.room).sum = (items.map WriteItem.room).sum + (blocks.map PageItem.room).sum := by
  rw [List.map_append, List.sum_append, List.map_map]
  rfl

/-- A cell that continues what a page takes continues its last cell. -/
theorem successor_of_take {cells : List StagedCell} {n : Nat} {index pitch : Nat} (hn : n ≤ cells.length)
    (h : successor none (cells.take n) = some (index, pitch)) :
    ∃ d, 0 < n ∧ cells[n - 1]? = some d ∧ d.pitch = pitch ∧ index = d.index + 1 := by
  unfold successor at h
  cases last : (cells.take n).getLast? with
  | none =>
    rw [last] at h
    exact nomatch h
  | some d =>
    rw [last] at h
    obtain ⟨rfl, rfl⟩ := Prod.mk.inj (Option.some.inj h)
    have held : cells.take n ≠ [] := fun empty => by
      rw [empty] at last
      exact nomatch last
    have positive : 0 < (cells.take n).length := List.length_pos_iff.2 held
    rw [List.length_take, Nat.min_eq_left hn] at positive
    rw [List.getLast?_eq_getElem?, List.length_take, Nat.min_eq_left hn, List.getElem?_take_of_lt (by omega)] at last
    exact ⟨d, positive, last, rfl, rfl⟩

/-- The room of the page as planned: what is left of 4,064, and why no further cell is taken. -/
theorem planPage_room (s : State) :
    ∃ left, (planPage s).cells ≤ s.cx.staging.length ∧ (s.ar.stage ≠ .normal → (planPage s).cells = 0 ∧ (planPage s).full = false)
      ∧ (((planPage s).items.map PageItem.item ++ blockCells (s.cx.staging.take (planPage s).cells)).map PageItem.room).sum + left = 4064
      ∧ (∀ c, s.ar.stage = .normal → s.cx.staging[(planPage s).cells]? = some c →
          left < c.room + if successor none (s.cx.staging.take (planPage s).cells) = some (c.index, c.pitch) then 0 else 16)
      ∧ (s.ar.stage = .normal → (planPage s).full = true →
          (planPage s).cells < s.cx.staging.length ∨ ∃ c ∈ s.cx.staging, left < c.room) := by
  obtain ⟨left, ⟨most, taken, stop⟩, full⟩ := planPage_cells s
  have fit := (planPage_items s).fit
  dsimp only at most taken stop
  have normal : s.ar.stage = .normal → stagedForPage s = s.cx.staging := fun h => if_pos h
  have other : s.ar.stage ≠ .normal → stagedForPage s = [] := fun h => if_neg h
  have within : (planPage s).cells ≤ s.cx.staging.length := by
    by_cases h : s.ar.stage = .normal
    · rw [normal h] at most
      exact most
    · rw [other h] at most
      exact most.trans (Nat.zero_le _)
  have same : (stagedForPage s).take (planPage s).cells = s.cx.staging.take (planPage s).cells := by
    by_cases h : s.ar.stage = .normal
    · rw [normal h]
    · rw [other h] at most ⊢
      rw [Nat.le_zero.1 most]
      rfl
  refine ⟨left, within, fun h => ?_, ?_, fun c h hc => ?_, fun h filled => ?_⟩
  · rw [other h] at most full
    have empty := Nat.le_zero.1 most
    rw [empty] at full
    exact ⟨empty, full⟩
  · rw [same] at taken
    rw [items_room, blockCells_room]
    omega
  · rw [normal h] at stop
    exact stop c hc
  · rw [full, Bool.or_eq_true, decide_eq_true_eq, List.any_eq_true, normal h] at filled
    exact filled.imp id (fun ⟨c, hc, short⟩ => ⟨c, hc, of_decide_eq_true short⟩)

/-- The state with a page issued. -/
def pageIssued (g : SegEntry) (p : PagePlan) (s : State) : State :=
  { s with
    ar.pageWrite := some ⟨g.num, g.written, p.items.map PageItem.item ++ blockCells (s.cx.staging.take p.cells), p.cells, s.now⟩
    ar.writeQueue := s.ar.writeQueue.drop p.items.length
    ar.lastServed := .write }

/-- No looped frame touches the page being written or what was served last. -/
theorem BusMove.pageKept {s t : State} (m : BusMove s t) : t.ar.pageWrite = s.ar.pageWrite ∧ t.ar.lastServed = s.ar.lastServed := by
  have page := congrArg (fun u : State => u.ar.pageWrite) m.rest
  have served := congrArg (fun u : State => u.ar.lastServed) m.rest
  exact ⟨page, served⟩

/-- DATA_PAGE_WRITE when granted (R67). -/
theorem dataPageWrite_of {s : State} {g : SegEntry} (can : canWriteData s = true) (active : activeSeg s = some g) :
    exec .dataPageWrite s = .next (settle (pageIssued g (planPage s) s)) := by
  rw [exec_dataPageWrite, execDataPageWrite, can, active]
  rfl

/-- Settling takes items from the write queue alone (R71). -/
theorem settleArchive_writeQueue (s : State) : (settleArchive s).ar.writeQueue.Sublist s.ar.writeQueue := by
  have moment : (placeMoment s).ar.writeQueue = s.ar.writeQueue := by
    unfold placeMoment
    split
    · rfl
    · split
      · exact reclaimMoment_writeQueue s
      · rfl
  have dropped : (dropPlaceless (placeMoment s)).ar.writeQueue.Sublist (placeMoment s).ar.writeQueue := by
    unfold dropPlaceless
    split
    · dsimp only
      rw [dropItems_ar]
      exact List.filter_sublist
    · exact List.Sublist.refl _
  rw [settleArchive, raiseConditions_eq]
  rw [moment] at dropped
  exact dropped

/-- Settles O38: the items and the cells of a page, what it leaves out, and the age that makes a partial page due. -/
theorem dataPageIsFormedFromQueueAndStaging : Obligations.DataPageIsFormedFromQueueAndStaging := by
  unfold Obligations.DataPageIsFormedFromQueueAndStaging
  refine ⟨fun s g can active => ?page, fun s cell rest staged => ?age⟩
  case page =>
    obtain ⟨head, places, fit, stop⟩ := planPage_items s
    obtain ⟨left, most, stage, room, ends, full⟩ := planPage_room s
    obtain ⟨_, _, _, ready, _⟩ := (canWriteData_iff s).1 can
    obtain ⟨_, _, _, due⟩ := (dataPageReady_iff s).1 ready
    have moved := settle_move (pageIssued g (planPage s) s)
    obtain ⟨pageWrite, lastServed⟩ := moved.pageKept
    refine ⟨_, (planPage s).items, blockCells (s.cx.staging.take (planPage s).cells), (planPage s).cells, 4064 - left,
      dataPageWrite_of can active, pageWrite, List.prefix_iff_eq_take.1 head, places, stop, most, fun other => (stage other).1,
      blockCells_named _, blockCells_blocks _, blockCells_apart _, by omega, Nat.sub_le _ _, fun c normal hc => ?_, fun none => ?_,
      lastServed, moved.cx, .ofFlash moved.flash, moved.tiu, moved.ca, fun looped => ?_⟩
    · have short := ends c normal hc
      split at short
      · rename_i follows
        obtain ⟨d, some', last, pitch, index⟩ := successor_of_take most follows
        exact .inl ⟨d, some', last, pitch, index, by omega⟩
      · exact .inr (by omega)
    · obtain ⟨some', why⟩ := due.resolve_left (not_not.2 none)
      have normal : s.ar.stage = .normal := by
        by_contra other
        have := (stage other).1
        omega
      refine ⟨some', ?_⟩
      rcases why with filled | many | aged
      · rcases full normal filled with fewer | ⟨c, hc, short⟩
        · exact .inl fewer
        · exact .inr (.inl ⟨c, hc, by omega⟩)
      · exact .inr (.inr (.inl many))
      · exact .inr (.inr (.inr aged))
    · rw [settle_eq (s := pageIssued g (planPage s) s) looped]
      exact settleArchive_writeQueue _
  case age =>
    refine ⟨_, ?_, rfl, ?_⟩
    · rw [exec_stagingAgeExpiry, execStagingAgeExpiry, staged]
      rfl
    · rw [stagingAged]
      dsimp only
      rw [staged]
      exact decide_eq_true (le_max_right _ _)

end Sys2Proof.Machine
end

section
/-! PROOF. What the completion of a data page does, step by step: cell ranges, segment sets, and the filing of items. -/

namespace Sys2Proof.Machine

/-! ### Cell ranges (R64, R68) -/

theorem mem_takeInCell {l : List CellRange} {c : CellName} {q : CellRange} (h : q ∈ takeInCell l c) :
    q ∈ l ∨ q = ⟨c.pitch, c.index, c.index⟩
      ∨ ∃ r ∈ l, r.pitch = c.pitch ∧ q = { r with lowest := min r.lowest c.index, highest := max r.highest c.index } := by
  induction l with
  | nil => exact .inr (.inl (List.mem_singleton.1 h))
  | cons a l ih =>
    rw [takeInCell] at h
    split at h
    · rename_i pitch
      rcases List.mem_cons.1 h with rfl | h
      · exact .inr (.inr ⟨a, List.mem_cons_self, pitch, rfl⟩)
      · exact .inl (List.mem_cons_of_mem _ h)
    · rcases List.mem_cons.1 h with rfl | h
      · exact .inl List.mem_cons_self
      · rcases ih h with old | new | ⟨r, hr, joined⟩
        · exact .inl (List.mem_cons_of_mem _ old)
        · exact .inr (.inl new)
        · exact .inr (.inr ⟨r, List.mem_cons_of_mem _ hr, joined⟩)

/-- A range is never narrowed. -/
theorem takeInCell_widens (l : List CellRange) (c : CellName) {r : CellRange} (h : r ∈ l) :
    ∃ q ∈ takeInCell l c, q.pitch = r.pitch ∧ q.lowest ≤ r.lowest ∧ r.highest ≤ q.highest := by
  induction l with
  | nil => exact absurd h List.not_mem_nil
  | cons a l ih =>
    rw [takeInCell]
    split
    · rcases List.mem_cons.1 h with rfl | h
      · exact ⟨_, List.mem_cons_self, rfl, min_le_left _ _, le_max_left _ _⟩
      · exact ⟨r, List.mem_cons_of_mem _ h, rfl, le_refl _, le_refl _⟩
    · rcases List.mem_cons.1 h with rfl | h
      · exact ⟨r, List.mem_cons_self, rfl, le_refl _, le_refl _⟩
      · obtain ⟨q, hq, wider⟩ := ih h
        exact ⟨q, List.mem_cons_of_mem _ hq, wider⟩

/-- What ranges come to when cells are taken in: they hold the cells and what they held, and end where one of these does. -/
structure RangesTaken (old : List CellRange) (cells : List CellName) (new : List CellRange) : Prop where
  holds : ∀ c ∈ cells, ∃ r ∈ new, r.pitch = c.pitch ∧ r.lowest ≤ c.index ∧ c.index ≤ r.highest
  widens : ∀ r ∈ old, ∃ q ∈ new, q.pitch = r.pitch ∧ q.lowest ≤ r.lowest ∧ r.highest ≤ q.highest
  lowest : ∀ q ∈ new, (∃ r ∈ old, r.pitch = q.pitch ∧ r.lowest = q.lowest) ∨ ∃ c ∈ cells, c.pitch = q.pitch ∧ c.index = q.lowest
  highest : ∀ q ∈ new, (∃ r ∈ old, r.pitch = q.pitch ∧ r.highest = q.highest) ∨ ∃ c ∈ cells, c.pitch = q.pitch ∧ c.index = q.highest

theorem takeInCells_taken (cells : List CellName) (old : List CellRange) : RangesTaken old cells (cells.foldl takeInCell old) := by
  induction cells generalizing old with
  | nil =>
    exact ⟨fun c hc => absurd hc List.not_mem_nil, fun r hr => ⟨r, hr, rfl, le_refl _, le_refl _⟩,
      fun q hq => .inl ⟨q, hq, rfl, rfl⟩, fun q hq => .inl ⟨q, hq, rfl, rfl⟩⟩
  | cons c cells ih =>
    obtain ⟨holds, widens, lowest, highest⟩ := ih (takeInCell old c)
    rw [List.foldl_cons]
    refine ⟨fun d hd => ?_, fun r hr => ?_, fun q hq => ?_, fun q hq => ?_⟩
    · rcases List.mem_cons.1 hd with rfl | hd
      · obtain ⟨r, hr, pitch, low, high⟩ := takeInCell_holds old d
        obtain ⟨q, hq, pitch', low', high'⟩ := widens r hr
        exact ⟨q, hq, pitch'.trans pitch, low'.trans low, high.trans high'⟩
      · exact holds d hd
    · obtain ⟨m, hm, pitch, low, high⟩ := takeInCell_widens old c hr
      obtain ⟨q, hq, pitch', low', high'⟩ := widens m hm
      exact ⟨q, hq, pitch'.trans pitch, low'.trans low, high.trans high'⟩
    · rcases lowest q hq with ⟨m, hm, pitch, low⟩ | ⟨d, hd, same⟩
      · rcases mem_takeInCell hm with kept | rfl | ⟨r, hr, joins, rfl⟩
        · exact .inl ⟨m, kept, pitch, low⟩
        · exact .inr ⟨c, List.mem_cons_self, pitch, low⟩
        · rcases min_choice r.lowest c.index with first | first
          · exact .inl ⟨r, hr, pitch, first.symm.trans low⟩
          · exact .inr ⟨c, List.mem_cons_self, joins.symm.trans pitch, first.symm.trans low⟩
      · exact .inr ⟨d, List.mem_cons_of_mem _ hd, same⟩
    · rcases highest q hq with ⟨m, hm, pitch, high⟩ | ⟨d, hd, same⟩
      · rcases mem_takeInCell hm with kept | rfl | ⟨r, hr, joins, rfl⟩
        · exact .inl ⟨m, kept, pitch, high⟩
        · exact .inr ⟨c, List.mem_cons_self, pitch, high⟩
        · rcases max_choice r.highest c.index with first | first
          · exact .inl ⟨r, hr, pitch, first.symm.trans high⟩
          · exact .inr ⟨c, List.mem_cons_self, joins.symm.trans pitch, first.symm.trans high⟩
      · exact .inr ⟨d, List.mem_cons_of_mem _ hd, same⟩

/-- The cells of a page, by index and pitch. -/
def pageNames (items : List PageItem) : List CellName :=
  items.flatMap (fun i =>
    match i with
    | .cells pitch first block => blockNames pitch first block
    | .item _ => [])

theorem rangeWith_eq (items : List PageItem) (r : List CellRange) : rangeWith r items = (pageNames items).foldl takeInCell r := by
  induction items generalizing r with
  | nil => rfl
  | cons i items ih =>
    have step : rangeWith r (i :: items) = rangeWith (rangeWith r [i]) items := rfl
    have names : pageNames (i :: items) = pageNames [i] ++ pageNames items := by
      unfold pageNames
      rw [List.flatMap_cons, List.flatMap_singleton]
    have first : rangeWith r [i] = (pageNames [i]).foldl takeInCell r := by
      cases i with
      | cells pitch first block =>
        have one : pageNames [.cells pitch first block] = blockNames pitch first block := List.append_nil _
        rw [one]
        rfl
      | item w => rfl
    rw [step, names, List.foldl_append, ← first, ih]

theorem mem_pageNames {items : List PageItem} {c : CellName} :
    c ∈ pageNames items ↔ ∃ pitch first block i, .cells pitch first block ∈ items ∧ i < block.length ∧ c = ⟨first + i, pitch⟩ := by
  unfold pageNames
  rw [List.mem_flatMap]
  constructor
  · rintro ⟨item, hitem, hc⟩
    cases item with
    | item w => exact absurd hc List.not_mem_nil
    | cells pitch first block =>
      obtain ⟨i, hi, rfl⟩ := List.mem_map.1 hc
      exact ⟨pitch, first, block, i, hitem, List.mem_range.1 hi, rfl⟩
  · rintro ⟨pitch, first, block, i, hitem, hi, rfl⟩
    exact ⟨_, hitem, List.mem_map.2 ⟨i, List.mem_range.2 hi, rfl⟩⟩

/-! ### Segment sets (R69) -/

theorem mem_putNat {n m : Nat} {l : List Nat} : n ∈ putNat m l ↔ n = m ∨ n ∈ l := by
  induction l with
  | nil => rw [putNat, List.mem_singleton]; simp
  | cons a l ih =>
    rw [putNat]
    split
    · exact List.mem_cons
    · split
      · rename_i same
        rw [same]
        simp
      · rw [List.mem_cons, List.mem_cons, ih]
        tauto

theorem mem_foldr_putNat {n : Nat} {l : List Nat} : n ∈ l.foldr putNat [] ↔ n ∈ l := by
  induction l with
  | nil => rfl
  | cons a l ih => rw [List.foldr_cons, mem_putNat, ih, List.mem_cons]

theorem loc_mem_segSetOf (segs : List SegEntry) (ins : List InEntry) (e : OutEntry) : e.loc.seg ∈ segSetOf segs ins e :=
  mem_foldr_putNat.2 List.mem_cons_self

theorem freeze_mem_segSetOf (segs : List SegEntry) (ins : List InEntry) {e : OutEntry} {n : Nat} (h : n ∈ e.freezeSegs) :
    n ∈ segSetOf segs ins e :=
  mem_foldr_putNat.2 (List.mem_cons_of_mem _ (List.mem_append_left _ (List.mem_append_right _ h)))

theorem input_mem_segSetOf (segs : List SegEntry) {ins : List InEntry} {e : OutEntry} {i : InEntry} (h : i ∈ ins)
    (ref : some i.seq ∈ e.refs) : i.loc.seg ∈ segSetOf segs ins e :=
  mem_foldr_putNat.2 (List.mem_cons_of_mem _ (List.mem_append_right _
    (List.mem_map.2 ⟨i, List.mem_filter.2 ⟨h, List.contains_iff_mem.2 ref⟩, rfl⟩)))

/-- A directory entry as a page's completion brings it up to the table and the flash (R69, R70). -/
def broughtUp (s : State) (e : OutEntry) : OutEntry :=
  let e := { e with segSet := segSetOf s.ar.segs s.ar.ins e }
  if e.firstBlock.isNone then { e with firstBlock := findFirstBlock s.flash e } else e

theorem fillFirstBlocks_refreshSets (s : State) : fillFirstBlocks (refreshSets s) = { s with ar.outs := s.ar.outs.map (broughtUp s) } := by
  unfold fillFirstBlocks refreshSets
  dsimp only
  rw [List.map_map]
  rfl

/-- An entry brought up keeps all but its segment set and its first block. -/
theorem broughtUp_keeps (s : State) (e : OutEntry) :
    (broughtUp s e).segSet = segSetOf s.ar.segs s.ar.ins e
      ∧ { broughtUp s e with segSet := e.segSet, firstBlock := e.firstBlock } = e := by
  unfold broughtUp
  dsimp only
  split <;> exact ⟨rfl, rfl⟩

theorem broughtUp_field {α : Type} (f : OutEntry → α) (beside : ∀ e set block, f { e with segSet := set, firstBlock := block } = f e)
    (s : State) (e : OutEntry) : f (broughtUp s e) = f e :=
  (beside (broughtUp s e) _ _).symm.trans (congrArg f (broughtUp_keeps s e).2)

/-! ### The completion of a page (R68) -/

/-- The page stands, its segment counts it, and its cells have left staging. -/
def pageStands (w : PageWrite) (g : SegEntry) (s : State) : State :=
  { s with
    flash := s.flash.put w.seg w.page (.data g.seq w.items)
    ar.segs := putSeg { g with written := w.page + 1, cells := rangeWith g.cells w.items } s.ar.segs
    ar.pageWrite := none
    cx.staging := s.cx.staging.drop w.cells }

/-- The same with its items filed. -/
def pageFiled (w : PageWrite) (g : SegEntry) (s : State) : State :=
  w.items.zipIdx.foldl (fileItem w.seg w.page) (pageStands w g s)

theorem completePage_of {s : State} {w : PageWrite} {g : SegEntry} (h : segEntry s w.seg = some g) :
    completePage w s
      = momentIf (outputAppears s w.items) (fullSegment w.seg (handReady (fillFirstBlocks (refreshSets (pageFiled w g s))))) := by
  rw [completePage, h]
  rfl

theorem exec_pageWriteComplete_of {s : State} {w : PageWrite} (h : s.ar.pageWrite = some w) :
    exec .pageWriteComplete s = .next (settle (completePage w (advanceTo (w.began + 1000) s))) := by
  rw [exec_pageWriteComplete, execPageWriteComplete, h]
  rfl

/-- Filing leaves the segment table, the counters and the page being written. -/
structure FiledFrame (s t : State) : Prop extends ArchiveMove s t where
  segs : t.ar.segs = s.ar.segs
  segSeq : t.ar.segSeq = s.ar.segSeq
  entries : t.ar.outs.length + t.ar.ins.length ≤ s.ar.outs.length + s.ar.ins.length + 1

theorem endCommit_ar (kind : AmendKind) (seq : Nat) (present : Bool) (s : State) : (endCommit kind seq present s).ar = s.ar := by
  unfold endCommit
  split
  · split <;> rfl
  · rfl

theorem fileItem_frame (seg page : Nat) (s : State) (p : PageItem × Nat) : FiledFrame s (fileItem seg page s p) := by
  have move := fileItem_move seg page s p
  obtain ⟨item, place⟩ := p
  cases item with
  | cells pitch first block => exact ⟨move, rfl, rfl, Nat.le_succ _⟩
  | item w =>
    cases w with
    | output r =>
      have appended : (fileItem seg page s (.item (.output r), place)).ar.outs.length ≤ s.ar.outs.length + 1
          ∧ (fileItem seg page s (.item (.output r), place)).ar = { s.ar with outs := (fileItem seg page s (.item (.output r), place)).ar.outs } := by
        unfold fileItem
        dsimp only
        split
        · refine ⟨?_, rfl⟩
          dsimp only
          rw [List.length_append]
          have := List.length_filter_le (fun e : OutEntry => e.id != r.id) s.ar.outs
          exact Nat.add_le_add_right this 1
        · exact ⟨Nat.le_succ _, rfl⟩
      obtain ⟨length, ar⟩ := appended
      refine ⟨move, by rw [ar], by rw [ar], ?_⟩
      have ins : (fileItem seg page s (.item (.output r), place)).ar.ins = s.ar.ins := by rw [ar]
      rw [ins]
      omega
    | input r =>
      unfold fileItem at move ⊢
      dsimp only at move ⊢
      split
      · refine ⟨by rw [if_pos ‹_›] at move; exact move, rfl, rfl, ?_⟩
        dsimp only
        rw [List.length_append]
        exact le_refl _
      · exact ⟨.refl s, rfl, rfl, Nat.le_succ _⟩
    | freezeMark seq id =>
      refine ⟨move, rfl, rfl, ?_⟩
      show (s.ar.outs.map _).length + _ ≤ _
      rw [List.length_map]
      exact Nat.le_succ _
    | amendedInput r =>
      have ar := endCommit_ar .input r.seq (inBySeq s r.seq).isSome
        { s with ar.ins := s.ar.ins.map (fun e => if e.seq = r.seq then e.amend r ⟨seg, page, place⟩ else e) }
      have filed : (fileItem seg page s (.item (.amendedInput r), place)).ar = _ := ar
      refine ⟨move, by rw [filed], by rw [filed], ?_⟩
      rw [filed]
      dsimp only
      rw [List.length_map]
      exact Nat.le_succ _
    | amendedOutput r old =>
      have ar := endCommit_ar .output r.seq (s.ar.outs.any (isAmended r old))
        { s with ar.outs := s.ar.outs.map (fun e => if isAmended r old e then e.amend r ⟨seg, page, place⟩ else e) }
      have filed : (fileItem seg page s (.item (.amendedOutput r old), place)).ar = _ := ar
      refine ⟨move, by rw [filed], by rw [filed], ?_⟩
      rw [filed]
      dsimp only
      rw [List.length_map]
      exact Nat.le_succ _

theorem fileItems_frame (seg page : Nat) (l : List (PageItem × Nat)) (s : State) :
    ArchiveMove s (l.foldl (fileItem seg page) s) ∧ (l.foldl (fileItem seg page) s).ar.segs = s.ar.segs
      ∧ (l.foldl (fileItem seg page) s).ar.segSeq = s.ar.segSeq
      ∧ (l.foldl (fileItem seg page) s).ar.outs.length + (l.foldl (fileItem seg page) s).ar.ins.length
        ≤ s.ar.outs.length + s.ar.ins.length + l.length := by
  induction l generalizing s with
  | nil => exact ⟨.refl s, rfl, rfl, le_refl _⟩
  | cons p l ih =>
    obtain ⟨move, segs, segSeq, entries⟩ := ih (fileItem seg page s p)
    have first := fileItem_frame seg page s p
    refine ⟨first.toArchiveMove.trans move, segs.trans first.segs, segSeq.trans first.segSeq, ?_⟩
    have := first.entries
    rw [List.foldl_cons, List.length_cons]
    omega

/-- What a page's filing leaves: its segment's entry, the other segments and the rest of the station. -/
structure PageFiled (w : PageWrite) (g : SegEntry) (s t : State) : Prop where
  move : ArchiveMove (pageStands w g s) t
  segs : t.ar.segs = putSeg { g with written := w.page + 1, cells := rangeWith g.cells w.items } s.ar.segs
  segSeq : t.ar.segSeq = s.ar.segSeq
  entries : t.ar.outs.length + t.ar.ins.length ≤ s.ar.outs.length + s.ar.ins.length + w.items.length

theorem pageFiled_filed (w : PageWrite) (g : SegEntry) (s : State) :
    PageFiled w g s (fillFirstBlocks (refreshSets (pageFiled w g s))) := by
  obtain ⟨move, segs, segSeq, entries⟩ := fileItems_frame w.seg w.page w.items.zipIdx (pageStands w g s)
  rw [List.length_zipIdx] at entries
  rw [fillFirstBlocks_refreshSets]
  refine ⟨move.trans ⟨rfl, .refl _, id, le_refl _⟩, segs, segSeq, ?_⟩
  dsimp only
  rw [List.length_map]
  exact entries

theorem segEntry_num {s : State} {n : Nat} {g : SegEntry} (h : segEntry s n = some g) : g.num = n := by
  have := List.find?_some h
  simpa using this

theorem PageFiled.entry {w : PageWrite} {g : SegEntry} {s t : State} (h : PageFiled w g s t) (hg : segEntry s w.seg = some g) :
    segEntry t w.seg = some { g with written := w.page + 1, cells := rangeWith g.cells w.items } := by
  have found := find_putSeg_same { g with written := w.page + 1, cells := rangeWith g.cells w.items } s.ar.segs
  rw [segEntry, h.segs]
  dsimp only at found
  rw [segEntry_num hg] at found ⊢
  exact found

theorem PageFiled.others {w : PageWrite} {g : SegEntry} {s t : State} (h : PageFiled w g s t) (hg : segEntry s w.seg = some g) {n : Nat}
    (other : n ≠ w.seg) : segEntry t n = segEntry s n := by
  rw [segEntry, h.segs]
  exact find_putSeg_other _ _ (by dsimp only; rw [segEntry_num hg]; exact other)

end Sys2Proof.Machine
end

section
/-! PROOF. O39: a completed data page, its segment, and the directory changes of its items. -/

namespace Sys2Proof.Machine

/-! ### The staged cells that a completion leaves (R56, R81) -/

theorem activate_cells (s : State) :
    (activate s).cx.staging <+: s.cx.staging ∧ (activate s).cx.front = s.cx.front ∧ (activate s).cx.window = s.cx.window := by
  refine ⟨?_, activate_window s⟩
  rcases activate_cases s with h | h | h | h
  · rw [h, (reclaimMoment_move _).cx]
    exact List.prefix_rfl
  · rw [h, (reclaimMoment_move _).cx, handReady_cx]
    exact List.take_prefix _ _
  · rw [h, (reclaimMoment_move _).cx]
  · rw [h, (reclaimMoment_move _).cx, enterFull_cx]

theorem fullSegment_cells (seg : Nat) (s : State) :
    (fullSegment seg s).cx.staging <+: s.cx.staging ∧ (fullSegment seg s).cx.front = s.cx.front
      ∧ (fullSegment seg s).cx.window = s.cx.window := by
  unfold fullSegment
  split
  · exact ⟨List.prefix_rfl, rfl, rfl⟩
  · split
    · exact activate_cells _
    · exact ⟨List.prefix_rfl, rfl, rfl⟩

theorem momentIf_archive (b : Bool) (s : State) : ArchiveMove s (momentIf b s) := by
  cases b with
  | false => exact .refl s
  | true => exact reclaimMoment_move s

/-- What every completion of a page brings (R56, R67, R68). -/
theorem completePage_brings {s : State} {w : PageWrite} {g : SegEntry} (h : segEntry s w.seg = some g) :
    (completePage w s).now = s.now ∧ (completePage w s).ar.pageWrite = none
      ∧ (completePage w s).flash = s.flash.put w.seg w.page (.data g.seq w.items) ∧ (completePage w s).tiu = s.tiu
      ∧ (completePage w s).cx.staging <+: s.cx.staging.drop w.cells ∧ (completePage w s).cx.front = s.cx.front
      ∧ (completePage w s).cx.window = s.cx.window := by
  have filed := (pageFiled_filed w g s).move
  rw [completePage_of h]
  generalize fillFirstBlocks (refreshSets (pageFiled w g s)) = u at filed
  obtain ⟨staging, front, window⟩ := fullSegment_cells w.seg (handReady u)
  have line := (handReady_line u).trans (fullSegment_line w.seg (handReady u))
  have moment := momentIf_archive (outputAppears s w.items) (fullSegment w.seg (handReady u))
  have written := congrArg (fun v : State => v.ar.pageWrite) line.rest
  refine ⟨(moment.now.trans line.now).trans filed.now, (moment.pageWrite.trans written).trans filed.pageWrite,
    (moment.flash.trans line.flash).trans filed.flash, (moment.tiu.trans line.tiu).trans filed.tiu, ?_, ?_, ?_⟩
  · rw [moment.cx]
    rw [handReady_cx, filed.cx] at staging
    exact staging
  · rw [moment.cx, front, handReady_cx, filed.cx]
    rfl
  · rw [moment.cx, window, handReady_cx, filed.cx]
    rfl

/-! ### A full segment (R68, R80) -/

/-- A completion that fills its segment, with no closing coil. -/
theorem completePage_of_last {s : State} {w : PageWrite} {g : SegEntry} (hg : segEntry s w.seg = some g) (last : w.page = 255)
    (closing : s.ca.closing = []) :
    ∃ u h, completePage w s = momentIf (outputAppears s w.items) (activate u) ∧ segEntry u w.seg = some h ∧ h.state = .used
      ∧ h.seq = g.seq ∧ h.written = 256 ∧ (∀ n, n ≠ w.seg → segEntry u n = segEntry s n) ∧ u.ar.segSeq = s.ar.segSeq
      ∧ u.ar.stage = s.ar.stage := by
  have filed := pageFiled_filed w g s
  rw [completePage_of hg]
  generalize fillFirstBlocks (refreshSets (pageFiled w g s)) = v at filed
  have entry := filed.entry hg
  have others : ∀ n, n ≠ w.seg → segEntry v n = segEntry s n := fun n => filed.others hg
  have number := segEntry_num hg
  generalize hh : ({ g with written := w.page + 1, cells := rangeWith g.cells w.items } : SegEntry) = h at entry
  have numberH : h.num = w.seg := by rw [← hh]; exact number
  have written : h.written = 256 := by rw [← hh]; dsimp only; omega
  have full : fullSegment w.seg v = activate { v with ar.segs := putSeg { h with state := .used } v.ar.segs } := by
    rw [fullSegment, entry]
    exact if_pos (by rw [written])
  refine ⟨{ v with ar.segs := putSeg { h with state := .used } v.ar.segs }, { h with state := .used }, ?_, ?_, rfl, ?_, written,
    fun n other => ?_, filed.segSeq, filed.move.stage⟩
  · rw [handReady_of_none (by rw [filed.move.ca]; exact closing), full]
  · show (putSeg { h with state := SegState.used } v.ar.segs).find? (fun g => g.num == w.seg) = _
    rw [← numberH]
    exact find_putSeg_same { h with state := SegState.used } v.ar.segs
  · rw [← hh]
  · exact (find_putSeg_other _ _ (by rw [numberH]; exact other)).trans (others n other)

/-! ### A completion with nothing else to settle (R68) -/

theorem length_putSeg_le (e : SegEntry) (l : List SegEntry) : (putSeg e l).length ≤ l.length + 1 := by
  induction l with
  | nil => exact le_refl _
  | cons a l ih =>
    rw [putSeg]
    split
    · exact le_refl _
    · split
      · exact Nat.le_succ _
      · rw [List.length_cons, List.length_cons]
        omega

/-- Where the directory has room, settling raises the archive's conditions and does no more (R84). -/
theorem settleArchive_of_room {s : State} (h : directoryFull s = false) : settleArchive s = raiseConditions s := by
  have noMoment : placeMoment s = s := by
    unfold placeMoment
    split
    · rfl
    · rw [h, Bool.and_false, if_neg Bool.false_ne_true]
  have noDrop : dropPlaceless s = s := by rw [dropPlaceless, directoryStuck, h, Bool.false_and, if_neg Bool.false_ne_true]
  rw [settleArchive, noMoment, noDrop]

/-- The station after a page's filing, at the moment of its completion. -/
def pageDone (w : PageWrite) (g : SegEntry) (s : State) : State :=
  fillFirstBlocks (refreshSets (pageFiled w g (advanceTo (w.began + 1000) s)))

/-- With room on every side the completion ends with the filing, and ARCHIVE-LOW and ARCHIVE-FULL as they hold. -/
theorem exec_pageWriteComplete_unhurried {s : State} {w : PageWrite} {g : SegEntry} (hw : s.ar.pageWrite = some w)
    (hg : segEntry s w.seg = some g) (before : w.page < 255) (calm : Unhurried s) (few : w.items.length ≤ 300) :
    exec .pageWriteComplete s = .next (raiseConditions (pageDone w g s)) := by
  have filed := pageFiled_filed w g (advanceTo (w.began + 1000) s)
  rw [exec_pageWriteComplete_of hw, completePage_of (s := advanceTo (w.began + 1000) s) hg]
  rw [← pageDone] at filed ⊢
  generalize pageDone w g s = u at filed ⊢
  have entry := filed.entry hg
  have noneClosing : u.ca.closing = [] := by
    rw [filed.move.ca]
    exact calm.closing
  have looped : u.bi.looped = [] := by
    rw [filed.move.bi]
    exact calm.looped
  have notFull : fullSegment w.seg u = u := by
    rw [fullSegment, entry]
    exact if_neg (by dsimp only; omega)
  have page : u.ar.pageWrite = none := filed.move.pageWrite
  have directory : directoryFull u = false := by
    have taken : placesTaken u = 0 := by rw [placesTaken, page]
    have used : placesUsed u < 16384 := by
      have entries := filed.entries
      have room := calm.directory
      rw [placesUsed, taken]
      show u.ar.outs.length + u.ar.ins.length + 0 < 16384
      have : u.ar.outs.length + u.ar.ins.length ≤ s.ar.outs.length + s.ar.ins.length + w.items.length := entries
      omega
    exact decide_eq_false (by omega)
  have demand : reclaimDemand u = false := by
    have length := length_putSeg_le { g with written := w.page + 1, cells := rangeWith g.cells w.items } s.ar.segs
    have segs : u.ar.segs = putSeg { g with written := w.page + 1, cells := rangeWith g.cells w.items } s.ar.segs := filed.segs
    have free := calm.segments
    rw [freeCount] at free
    rw [reclaimDemand, directory, Bool.or_false, freeCount, segs]
    exact decide_eq_false (by omega)
  have moment : ∀ b, momentIf b u = u := fun b => by
    cases b with
    | false => rfl
    | true => exact reclaimMoment_idle (.inl demand)
  rw [handReady_of_none noneClosing, notFull, moment, settle_eq looped, settleArchive_of_room directory]

/-- What the completion leaves of the filing: all but the two flags of the archive's conditions. -/
theorem flagSet_raiseConditions {a : Attention} (low : a ≠ .archiveLow) (full : a ≠ .archiveFull) (s : State) :
    flagSet a (raiseConditions s) = flagSet a s := by
  have both : ∀ (b : Bool) (u : State), flagSet a (if b then raise .archiveFull u else u) = flagSet a u := fun b u => by
    cases b with
    | false => rfl
    | true => exact flagSet_raise_other u full
  unfold raiseConditions
  dsimp only
  rw [both]
  split
  · exact flagSet_raise_other s low
  · rfl

theorem raiseConditions_rest (s : State) :
    (raiseConditions s).ar = s.ar ∧ (raiseConditions s).ru = s.ru ∧ (raiseConditions s).cx = s.cx ∧ (raiseConditions s).ca = s.ca := by
  rw [raiseConditions_eq]
  exact ⟨rfl, rfl, rfl, rfl⟩

/-! ### One item filed (R70, R101, R107) -/

/-- A page of one item: what is filed of it, and the entries brought up after. -/
theorem pageDone_of_one {w : PageWrite} {i : PageItem} (h : w.items = [i]) (g : SegEntry) (s : State) {u : State}
    (hu : u = fileItem w.seg w.page (pageStands w g (advanceTo (w.began + 1000) s)) (i, 0)) :
    pageDone w g s = { u with ar.outs := u.ar.outs.map (broughtUp u) } := by
  have filed : pageFiled w g (advanceTo (w.began + 1000) s) = u := by
    rw [hu, pageFiled, h]
    rfl
  rw [pageDone, filed, fillFirstBlocks_refreshSets]

theorem fewOfOne {w : PageWrite} {i : PageItem} (h : w.items = [i]) : w.items.length ≤ 300 := by
  rw [h, List.length_singleton]
  decide

/-- What the obligation looks at of an entry is not what is brought up. -/
theorem map_broughtUp {α : Type} (f : OutEntry → α)
    (beside : ∀ e set block, f { e with segSet := set, firstBlock := block } = f e) (s : State) (l : List OutEntry) :
    (l.map (broughtUp s)).map f = l.map f := by
  rw [List.map_map]
  exact List.map_congr_left (fun e _ => broughtUp_field f beside s e)

theorem forall_broughtUp {s : State} {l : List OutEntry} {P : OutEntry → Prop} (h : ∀ e ∈ l, P (broughtUp s e)) :
    ∀ e ∈ l.map (broughtUp s), P e := fun e he => by
  obtain ⟨d, hd, rfl⟩ := List.mem_map.1 he
  exact h d hd

theorem broughtUp_seg (s : State) (e : OutEntry) : (broughtUp s e).loc.seg ∈ (broughtUp s e).segSet := by
  rw [(broughtUp_keeps s e).1, broughtUp_field OutEntry.loc (fun _ _ _ => rfl)]
  exact loc_mem_segSetOf _ _ _

theorem fileItem_output {s : State} {r : OutputRecord} (place : needsPlace s (.output r) = true) (seg page k : Nat) :
    fileItem seg page s (.item (.output r), k)
      = { s with ar.outs := s.ar.outs.filter (fun e => e.id != r.id) ++ [newOutEntry r ⟨seg, page, k⟩] } := if_pos place

theorem fileItem_input {s : State} {r : InputRecord} (place : needsPlace s (.input r) = true) (seg page k : Nat) :
    fileItem seg page s (.item (.input r), k) = { s with ar.ins := s.ar.ins ++ [newInEntry r ⟨seg, page, k⟩] } := if_pos place

/-- The new entry is the one under its ID (R69, R70). -/
theorem find_newOutEntry (l : List OutEntry) (r : OutputRecord) (loc : Loc) (s : State) :
    ((l.filter (fun e => e.id != r.id) ++ [newOutEntry r loc]).map (broughtUp s)).find? (fun e => e.id == r.id)
      = some (broughtUp s (newOutEntry r loc)) := by
  have id : ∀ e, (broughtUp s e).id = e.id := broughtUp_field OutEntry.id (fun _ _ _ => rfl) s
  have absent : ((l.filter (fun e => e.id != r.id)).map (broughtUp s)).find? (fun e => e.id == r.id) = none := by
    rw [List.find?_eq_none]
    intro e he same
    obtain ⟨d, hd, rfl⟩ := List.mem_map.1 he
    rw [id, beq_iff_eq] at same
    exact bne_iff_ne.1 (List.mem_filter.1 hd).2 same
  rw [List.map_append, List.find?_append, absent, Option.none_or, List.map_singleton, List.find?_singleton, id]
  exact if_pos (beq_self_eq_true _)

theorem endCommit_freezes (kind : AmendKind) (seq : Nat) (present : Bool) (s : State) :
    (endCommit kind seq present s).ru.freezes = s.ru.freezes := by
  unfold endCommit
  split
  · split <;> rfl
  · rfl

/-- How the end of an amended record's write ends a commit (R107). -/
theorem commitEnds_of {kind : AmendKind} {seq : Nat} {present : Bool} {s v t : State} (amend : v.ru.amend = s.ru.amend)
    (flags : v.pp.flags = s.pp.flags) (left : t.ru.amend = (endCommit kind seq present v).ru.amend)
    (done : flagSet .amendDone t = flagSet .amendDone (endCommit kind seq present v))
    (lock : flagSet .amendLock t = flagSet .amendLock (endCommit kind seq present v)) : CommitEnds kind seq present s t := by
  refine ⟨fun a commit sameKind sameSeq => ?_, fun others => ?_⟩
  · have committing : isCommitting v kind seq = true := by
      rw [isCommitting_of (amend.trans commit), sameKind, sameSeq, beq_self_eq_true, beq_self_eq_true]
      rfl
    rw [endCommit, if_pos committing] at left done lock
    refine ⟨fun there => ?_, fun gone => ?_⟩
    · rw [if_pos there] at left done
      exact ⟨left, done.trans (flagSet_raise_same _ _)⟩
    · rw [if_neg (by rw [gone]; exact Bool.false_ne_true)] at left lock
      exact ⟨left, lock.trans (flagSet_raise_same _ _)⟩
  · have notCommitting : isCommitting v kind seq = false := by
      unfold isCommitting
      rw [amend]
      cases held : s.ru.amend with
      | committing a =>
        dsimp only
        rw [Bool.and_eq_false_iff, beq_eq_false_iff_ne, beq_eq_false_iff_ne]
        exact others a held
      | closed | opened _ | locked _ => rfl
    have stands : endCommit kind seq present v = v := if_neg (by rw [notCommitting]; exact Bool.false_ne_true)
    rw [stands] at left done lock
    have same : ∀ a, flagSet a v = flagSet a s := fun a => by rw [flagSet, flagSet, flags]
    exact ⟨left.trans amend, done.trans (same _), lock.trans (same _)⟩

/-- An entry whose output sequence a freeze mark names takes FROZEN and the mark's segment (R101). -/
def frozenIn (seg seq : Nat) (e : OutEntry) : OutEntry :=
  if e.seq = seq then { e with freezeSegs := putNat seg e.freezeSegs, flags := { e.flags with frozen := true } } else e

theorem frozenIn_shows (seg seq : Nat) (e : OutEntry) :
    ((frozenIn seg seq e).id, (frozenIn seg seq e).seq, (frozenIn seg seq e).loc, (frozenIn seg seq e).flags)
      = (e.id, e.seq, e.loc, { e.flags with frozen := e.flags.frozen || decide (e.seq = seq) }) := by
  unfold frozenIn
  split
  · rename_i same
    rw [decide_eq_true same, Bool.or_true]
  · rename_i other
    rw [decide_eq_false other, Bool.or_false]

theorem frozenIn_holds {seg seq : Nat} {e : OutEntry} (h : (frozenIn seg seq e).seq = seq) : seg ∈ (frozenIn seg seq e).freezeSegs := by
  unfold frozenIn at h ⊢
  split
  · exact mem_putNat.2 (.inl rfl)
  · rename_i other
    rw [if_neg other] at h
    exact absurd h other

/-- Settles O39: every completion, the one that fills its segment, and those that file one item. -/
theorem completedPageStandsAndIsFiled : Obligations.CompletedPageStandsAndIsFiled := by
  unfold Obligations.CompletedPageStandsAndIsFiled
  refine ⟨fun s w g hw hg small => ?stands, fun s w g r hw hg before one place closing looped free room queue => ?output,
    fun s w g hw hg last closing => ?last, fun s w g hw hg before calm => ⟨fun few => ?ranges, fun i one place => ?input,
      fun seq id one => ?freeze, fun r old one => ?amendedOutput, fun i one => ?amendedInput⟩⟩
  case stands =>
    obtain ⟨now, pageWrite, flash, tiu, staging, front, window⟩ := completePage_brings (s := advanceTo (w.began + 1000) s) hg
    have move := settle_move (completePage w (advanceTo (w.began + 1000) s))
    have at' : ∀ seg page, page < 256 → (settle (completePage w (advanceTo (w.began + 1000) s))).flash.at seg page
        = if w.seg = seg ∧ w.page = page then some (.data g.seq w.items) else s.flash.at seg page := fun seg page h => by
      rw [move.flash, flash]
      exact Flash.at_put _ _ small h
    refine ⟨_, exec_pageWriteComplete_of hw, move.now.trans now, move.pageKept.1.trans pageWrite, ?_, fun seg page h other => ?_, ?_,
      ?_, ?_, move.tiu.trans tiu⟩
    · rw [at' _ _ small, if_pos ⟨rfl, rfl⟩]
    · rw [at' _ _ h, if_neg (fun same => other.elim (fun ne => ne same.1.symm) (fun ne => ne same.2.symm))]
    · rw [move.cx]
      exact staging
    · rw [move.cx]
      exact front
    · rw [move.cx]
      exact window
  case output =>
    have ran := exec_pageWriteComplete_unhurried hw hg before ⟨closing, looped, queue, free, room⟩ (fewOfOne one)
    obtain ⟨u, hu⟩ : ∃ u, u = fileItem w.seg w.page (pageStands w g (advanceTo (w.began + 1000) s)) (.item (.output r), 0) := ⟨_, rfl⟩
    have filed := pageDone_of_one one g s hu
    rw [fileItem_output (s := pageStands w g (advanceTo (w.began + 1000) s)) place] at hu
    have outs : u.ar.outs = s.ar.outs.filter (fun e => e.id != r.id) ++ [newOutEntry r ⟨w.seg, w.page, 0⟩] := by rw [hu]; rfl
    refine ⟨_, broughtUp u (newOutEntry r ⟨w.seg, w.page, 0⟩), ran, ?_, broughtUp_field OutEntry.seq (fun _ _ _ => rfl) u _,
      broughtUp_field OutEntry.loc (fun _ _ _ => rfl) u _, broughtUp_field OutEntry.c0 (fun _ _ _ => rfl) u _,
      broughtUp_field OutEntry.c1 (fun _ _ _ => rfl) u _, broughtUp_field OutEntry.lane (fun _ _ _ => rfl) u _,
      broughtUp_field OutEntry.flags (fun _ _ _ => rfl) u _, broughtUp_field OutEntry.revision (fun _ _ _ => rfl) u _,
      broughtUp_field OutEntry.refs (fun _ _ _ => rfl) u _, ?_⟩
    · rw [outById, (raiseConditions_rest _).1, filed]
      dsimp only
      rw [outs]
      exact find_newOutEntry _ _ _ _
    · rw [(broughtUp_keeps u _).1]
      exact loc_mem_segSetOf _ _ (newOutEntry r ⟨w.seg, w.page, 0⟩)
  case last =>
    obtain ⟨u, h, done, entry, state, seq, written, others, segSeq, stage⟩ :=
      completePage_of_last (s := advanceTo (w.began + 1000) s) hg last closing
    refine ⟨u, h, ?_, entry, state, seq, written, others, segSeq, stage⟩
    rw [exec_pageWriteComplete_of hw, done]
    rfl
  case ranges =>
    have ran := exec_pageWriteComplete_unhurried hw hg before calm few
    have filed := (pageFiled_filed w g (advanceTo (w.began + 1000) s)).entry hg
    rw [← pageDone] at filed
    have taken := takeInCells_taken (pageNames w.items) g.cells
    rw [← rangeWith_eq] at taken
    obtain ⟨holds, widens, lowest, highest⟩ := taken
    refine ⟨_, { g with written := w.page + 1, cells := rangeWith g.cells w.items }, ran, ?_, rfl, rfl, rfl,
      fun pitch first block i hb hi => holds ⟨first + i, pitch⟩ (mem_pageNames.2 ⟨pitch, first, block, i, hb, hi, rfl⟩), widens,
      fun q hq => ⟨(lowest q hq).imp_right ?_, (highest q hq).imp_right ?_⟩⟩
    · rw [segEntry, (raiseConditions_rest _).1]
      exact filed
    · rintro ⟨c, hc, pitch, index⟩
      obtain ⟨p, first, block, i, hb, hi, rfl⟩ := mem_pageNames.1 hc
      exact ⟨first, block, i, by rw [← pitch]; exact hb, hi, index⟩
    · rintro ⟨c, hc, pitch, index⟩
      obtain ⟨p, first, block, i, hb, hi, rfl⟩ := mem_pageNames.1 hc
      exact ⟨first, block, i, by rw [← pitch]; exact hb, hi, index⟩
  case input =>
    have ran := exec_pageWriteComplete_unhurried hw hg before calm (fewOfOne one)
    obtain ⟨u, hu⟩ : ∃ u, u = fileItem w.seg w.page (pageStands w g (advanceTo (w.began + 1000) s)) (.item (.input i), 0) := ⟨_, rfl⟩
    have filed := pageDone_of_one one g s hu
    rw [fileItem_input (s := pageStands w g (advanceTo (w.began + 1000) s)) place] at hu
    have outs : u.ar.outs = s.ar.outs := by rw [hu]; rfl
    have ins : u.ar.ins = s.ar.ins ++ [newInEntry i ⟨w.seg, w.page, 0⟩] := by rw [hu]; rfl
    refine ⟨_, ran, ?_, ?_, ?_⟩
    · rw [(raiseConditions_rest _).1, filed]
      exact ins
    · rw [(raiseConditions_rest _).1, filed]
      exact (map_broughtUp _ (fun _ _ _ => rfl) u _).trans (by rw [outs])
    · rw [(raiseConditions_rest _).1, filed]
      refine forall_broughtUp fun e _ ref => ?_
      rw [broughtUp_field OutEntry.refs (fun _ _ _ => rfl)] at ref
      rw [(broughtUp_keeps u e).1]
      refine input_mem_segSetOf _ (i := newInEntry i ⟨w.seg, w.page, 0⟩) ?_ ref
      rw [ins]
      exact List.mem_append_right _ (List.mem_singleton_self _)
  case freeze =>
    have ran := exec_pageWriteComplete_unhurried hw hg before calm (fewOfOne one)
    obtain ⟨u, hu⟩ : ∃ u, u = fileItem w.seg w.page (pageStands w g (advanceTo (w.began + 1000) s)) (.item (.freezeMark seq id), 0) :=
      ⟨_, rfl⟩
    have filed := pageDone_of_one one g s hu
    have outs : u.ar.outs = s.ar.outs.map (frozenIn w.seg seq) := by rw [hu]; rfl
    have ins : u.ar.ins = s.ar.ins := by rw [hu]; rfl
    have freezes : u.ru.freezes = s.ru.freezes.erase seq := by rw [hu]; rfl
    refine ⟨_, ran, ?_, ?_, ?_, ?_⟩
    · rw [(raiseConditions_rest _).2.1, filed]
      exact freezes
    · rw [(raiseConditions_rest _).1, filed]
      exact ins
    · rw [(raiseConditions_rest _).1, filed]
      refine (map_broughtUp _ (fun _ _ _ => rfl) u _).trans ?_
      rw [outs, List.map_map]
      exact List.map_congr_left (fun e _ => frozenIn_shows w.seg seq e)
    · rw [(raiseConditions_rest _).1, filed]
      refine forall_broughtUp fun e he same => ?_
      rw [broughtUp_field OutEntry.seq (fun _ _ _ => rfl)] at same
      rw [outs] at he
      obtain ⟨d, _, rfl⟩ := List.mem_map.1 he
      rw [(broughtUp_keeps u _).1]
      exact freeze_mem_segSetOf _ _ (frozenIn_holds same)
  case amendedOutput =>
    have ran := exec_pageWriteComplete_unhurried hw hg before calm (fewOfOne one)
    obtain ⟨u, hu⟩ : ∃ u, u = fileItem w.seg w.page (pageStands w g (advanceTo (w.began + 1000) s)) (.item (.amendedOutput r old), 0) :=
      ⟨_, rfl⟩
    have filed := pageDone_of_one one g s hu
    obtain ⟨v, hv⟩ : ∃ v : State, v = { pageStands w g (advanceTo (w.began + 1000) s) with
      ar.outs := s.ar.outs.map (fun e => if isAmended r old e then e.amend r ⟨w.seg, w.page, 0⟩ else e) } := ⟨_, rfl⟩
    have ended : u = endCommit .output r.seq (s.ar.outs.any (isAmended r old)) v := by rw [hu, hv]; rfl
    have ar : u.ar = v.ar := by rw [ended, endCommit_ar]
    have outs : u.ar.outs = s.ar.outs.map (fun e => if isAmended r old e then e.amend r ⟨w.seg, w.page, 0⟩ else e) := by rw [ar, hv]
    have ins : u.ar.ins = s.ar.ins := by rw [ar, hv]; rfl
    have expired : u.ar.expired = s.ar.expired := by rw [ar, hv]; rfl
    have freezes : u.ru.freezes = s.ru.freezes := by rw [ended, endCommit_freezes, hv]; rfl
    have flag : ∀ a, flagSet a (pageDone w g s) = flagSet a u := fun a => by rw [filed]; rfl
    refine ⟨_, ran, commitEnds_of (v := v) ?_ ?_ ?_ ?_ ?_, ?_, ?_, ?_, ?_, ?_⟩
    · rw [hv]
      rfl
    · rw [hv]
      rfl
    · rw [(raiseConditions_rest _).2.1, filed, ← ended]
    · rw [flagSet_raiseConditions (by decide) (by decide), flag, ended]
    · rw [flagSet_raiseConditions (by decide) (by decide), flag, ended]
    · rw [(raiseConditions_rest _).1, filed]
      exact ins
    · rw [(raiseConditions_rest _).1, filed]
      exact expired
    · rw [(raiseConditions_rest _).2.1, filed]
      exact freezes
    · rw [(raiseConditions_rest _).1, filed]
      refine (map_broughtUp _ (fun _ _ _ => rfl) u _).trans ?_
      rw [outs, List.map_map]
      refine List.map_congr_left (fun e _ => ?_)
      rw [Function.comp_apply]
      split <;> rfl
    · rw [(raiseConditions_rest _).1, filed]
      exact forall_broughtUp fun e _ => broughtUp_seg u e
  case amendedInput =>
    have ran := exec_pageWriteComplete_unhurried hw hg before calm (fewOfOne one)
    obtain ⟨u, hu⟩ : ∃ u, u = fileItem w.seg w.page (pageStands w g (advanceTo (w.began + 1000) s)) (.item (.amendedInput i), 0) := ⟨_, rfl⟩
    have filed := pageDone_of_one one g s hu
    obtain ⟨v, hv⟩ : ∃ v : State, v = { pageStands w g (advanceTo (w.began + 1000) s) with
      ar.ins := s.ar.ins.map (fun e => if e.seq = i.seq then e.amend i ⟨w.seg, w.page, 0⟩ else e) } := ⟨_, rfl⟩
    have ended : u = endCommit .input i.seq (inBySeq s i.seq).isSome v := by rw [hu, hv]; rfl
    have ar : u.ar = v.ar := by rw [ended, endCommit_ar]
    have outs : u.ar.outs = s.ar.outs := by rw [ar, hv]; rfl
    have ins : u.ar.ins = s.ar.ins.map (fun e => if e.seq = i.seq then e.amend i ⟨w.seg, w.page, 0⟩ else e) := by rw [ar, hv]
    have flag : ∀ a, flagSet a (pageDone w g s) = flagSet a u := fun a => by rw [filed]; rfl
    refine ⟨_, ran, commitEnds_of (v := v) ?_ ?_ ?_ ?_ ?_, ?_, ?_⟩
    · rw [hv]
      rfl
    · rw [hv]
      rfl
    · rw [(raiseConditions_rest _).2.1, filed, ← ended]
    · rw [flagSet_raiseConditions (by decide) (by decide), flag, ended]
    · rw [flagSet_raiseConditions (by decide) (by decide), flag, ended]
    · rw [(raiseConditions_rest _).1, filed]
      exact ins
    · rw [(raiseConditions_rest _).1, filed]
      exact (map_broughtUp _ (fun _ _ _ => rfl) u _).trans (by rw [outs])

end Sys2Proof.Machine
end

section
/-! PROOF. The start-up scan (R87 to R89): a page read moves the scan's place and rebuilds the tables alone; the scan's end puts the run
origin and the counters above everything found, and the keep list to the newest image of the two keep segments. -/

namespace Sys2Proof.Machine

/-! ### The place of the scan (R87) -/

/-- A page whose read failed is seen torn, every other page as it stands. -/
theorem getKey_scanView (f : Flash) (failed : List Nat) (key : Nat) :
    getKey key (scanView f failed) = if key ∈ failed then some .torn else getKey key f.pages := by
  suffices seen : ∀ ps : List (Nat × Page), getKey key (failed.foldl (fun ps k => putKey k .torn ps) ps)
      = if key ∈ failed then some .torn else getKey key ps from seen f.pages
  induction failed with
  | nil => exact fun ps => rfl
  | cons k l ih =>
    intro ps
    rw [List.foldl_cons, ih]
    by_cases later : key ∈ l
    · rw [if_pos later, if_pos (List.mem_cons_of_mem _ later)]
    · rw [if_neg later]
      by_cases same : key = k
      · rw [same, getKey_putKey_same, if_pos List.mem_cons_self]
      · rw [getKey_putKey_other _ _ same, if_neg (by simp [same, later])]

/-- The reads that failed, with the one just made. -/
def failedAfter (failed : Bool) (c : Scan) : List Nat := if failed then putNat (pageKey c.seg c.page) c.failed else c.failed

theorem mem_failedAfter (failed : Bool) (c : Scan) :
    pageKey c.seg c.page ∈ failedAfter failed c ↔ failed = true ∨ pageKey c.seg c.page ∈ c.failed := by
  cases failed <;> simp [failedAfter, mem_putNat]

/-- The reading of the scan's segment ends at an erased page whose reads did not fail, and at the last page. -/
theorem endsSegment_iff (f : Flash) (failed : Bool) (c : Scan) :
    endsSegment (scanView f (failedAfter failed c)) c.seg c.page = true
      ↔ (failed = false ∧ pageKey c.seg c.page ∉ c.failed ∧ f.at c.seg c.page = none) ∨ c.page = 255 := by
  rw [endsSegment, Bool.or_eq_true, decide_eq_true_eq, Option.isNone_iff_eq_none, getKey_scanView]
  refine or_congr ?_ Iff.rfl
  by_cases torn : pageKey c.seg c.page ∈ failedAfter failed c
  · rw [if_pos torn]
    refine ⟨nofun, fun ⟨whole, unfailed, _⟩ => ?_⟩
    rcases (mem_failedAfter failed c).1 torn with now | before
    · exact absurd (whole.symm.trans now) Bool.false_ne_true
    · exact absurd before unfailed
  · rw [if_neg torn]
    rw [mem_failedAfter, not_or, Bool.not_eq_true] at torn
    exact ⟨fun erased => ⟨torn.1, torn.2, erased⟩, fun ⟨_, _, erased⟩ => erased⟩

@[simp] theorem Scan.advance_failed (last : Bool) (c : Scan) : (c.advance last).failed = c.failed := by
  unfold Scan.advance
  split
  · rfl
  · split <;> rfl

/-- The place after a page that does not end its segment. -/
theorem Scan.advance_within (c : Scan) : c.advance false = { c with page := c.page + 1 } := rfl

/-- The scan is done after segment 1. -/
theorem Scan.advance_last {c : Scan} (h : c.seg = 1) : c.advance true = { c with done := true } := if_pos h

/-- The place after a segment that is not segment 1. -/
theorem Scan.advance_next {c : Scan} (h : c.seg ≠ 1) :
    c.advance true = { c with seg := if c.seg = 4095 then 0 else c.seg + 1, page := 0 } := if_neg h

/-- The scan after a page read. -/
def scanMoved (failed : Bool) (f : Flash) (c : Scan) : Scan :=
  { Scan.advance (endsSegment (scanView f (failedAfter failed c)) c.seg c.page) { c with failed := failedAfter failed c } with
    began := c.began + 100 }

/-- A read that ends its segment: done after segment 1, and otherwise the next segment's first page. -/
theorem scanMoved_ends {failed : Bool} {f : Flash} {c : Scan} (going : c.done = false)
    (ends : endsSegment (scanView f (failedAfter failed c)) c.seg c.page = true) :
    (scanMoved failed f c).done = decide (c.seg = 1)
      ∧ (c.seg ≠ 1 → (scanMoved failed f c).page = 0 ∧ (scanMoved failed f c).seg = if c.seg = 4095 then 0 else c.seg + 1) := by
  rw [scanMoved, ends]
  by_cases one : c.seg = 1
  · rw [Scan.advance_last (c := { c with failed := failedAfter failed c }) one, decide_eq_true one]
    exact ⟨rfl, fun other => absurd one other⟩
  · rw [Scan.advance_next (c := { c with failed := failedAfter failed c }) one, decide_eq_false one]
    exact ⟨going, fun _ => ⟨rfl, rfl⟩⟩

/-- A read within its segment goes on to the next page. -/
theorem scanMoved_within {failed : Bool} {f : Flash} {c : Scan} (going : c.done = false)
    (within : endsSegment (scanView f (failedAfter failed c)) c.seg c.page = false) :
    (scanMoved failed f c).done = false ∧ (scanMoved failed f c).seg = c.seg ∧ (scanMoved failed f c).page = c.page + 1 := by
  rw [scanMoved, within, Scan.advance_within]
  exact ⟨going, rfl, rfl⟩

/-- The tables built change the archive's tables, the keep list and the assembler's counters alone. -/
theorem buildTables_leaves (view : List (Nat × Page)) (s : State) :
    (buildTables view s).now = s.now ∧ (buildTables view s).tiu = s.tiu ∧ (buildTables view s).cx = s.cx
      ∧ (buildTables view s).bi = s.bi ∧ (buildTables view s).pe = s.pe ∧ (buildTables view s).flash = s.flash
      ∧ (buildTables view s).ar.scan = s.ar.scan ∧ (buildTables view s).ar.writeQueue = s.ar.writeQueue := by
  simp only [buildTables, refreshSets, and_self]

/-- A page read moves the scan and the clock, and builds the tables of some view. -/
theorem exec_scanPageRead_of {s : State} {c : Scan} (failed : Bool) (hc : s.ar.scan = some c) (going : c.done = false) :
    ∃ view, exec (.scanPageRead failed) s
      = .next (buildTables view (advanceTo (c.began + 100) { s with ar.scan := some (scanMoved failed s.flash c) })) := by
  rw [exec_scanPageRead, execScanPageRead, hc]
  refine ⟨if (scanMoved failed s.flash c).done then scanView s.flash (failedAfter failed c)
    else scanBefore (scanMoved failed s.flash c).seg (scanMoved failed s.flash c).page (scanView s.flash (failedAfter failed c)),
    congrArg Host.Outcome.next ((if_neg ?_).trans rfl)⟩
  rw [going]
  exact Bool.false_ne_true

/-! ### Pages of a segment in order (R87) -/

/-- A page of the written run stands at some page of the segment. -/
theorem getKey_of_mem_writtenRun {view : List (Nat × Page)} {seg : Nat} {p : Page} :
    ∀ {fuel n : Nat}, p ∈ writtenRun view seg fuel n → ∃ j, getKey (pageKey seg j) view = some p
  | 0, _, h => nomatch h
  | fuel + 1, n, h => by
    rw [writtenRun] at h
    split at h
    · rename_i q hq
      rcases List.mem_cons.1 h with rfl | rest
      · exact ⟨n, hq⟩
      · exact getKey_of_mem_writtenRun rest
    · nomatch h

/-- A page before which no page of the segment is erased is in the written run. -/
theorem writtenRun_mem {view : List (Nat × Page)} {seg : Nat} {p : Page} :
    ∀ {fuel n : Nat} (d : Nat), d < fuel → (∀ j, j ≤ d → getKey (pageKey seg (n + j)) view ≠ none) →
      getKey (pageKey seg (n + d)) view = some p → p ∈ writtenRun view seg fuel n
  | 0, _, _, h, _, _ => absurd h (Nat.not_lt_zero _)
  | fuel + 1, n, d, h, written, found => by
    rw [writtenRun]
    split
    · rename_i q hq
      cases d with
      | zero =>
        obtain rfl : q = p := Option.some.inj (hq.symm.trans found)
        exact List.mem_cons_self
      | succ d =>
        refine List.mem_cons_of_mem _ (writtenRun_mem d (by omega) (fun j hj => ?_) ?_)
        · rw [show n + 1 + j = n + (j + 1) by omega]
          exact written (j + 1) (by omega)
        · rw [show n + 1 + d = n + (d + 1) by omega]
          exact found
    · rename_i hq
      exact absurd hq (written 0 (Nat.zero_le _))

/-- A segment's first page heads its written pages. -/
theorem segPages_head {view : List (Nat × Page)} {seg : Nat} {p : Page} (h : getKey (pageKey seg 0) view = some p) :
    (segPages view seg).head? = some p := by
  rw [segPages, writtenRun, h]
  rfl

/-! ### The keep area (R87) -/

theorem mem_imagesOf {view : List (Nat × Page)} {seg : Fin 2} {i : Nat × List KeepEntry × Fin 2} :
    i ∈ imagesOf view seg ↔ Page.keep i.1 i.2.1 ∈ segPages view seg.val ∧ i.2.2 = seg := by
  rw [imagesOf, List.mem_filterMap]
  constructor
  · rintro ⟨p, hp, hi⟩
    cases p with
    | keep n entries =>
      obtain rfl := Option.some.inj hi
      exact ⟨hp, rfl⟩
    | data _ _ => nomatch hi
    | torn => nomatch hi
  · obtain ⟨n, entries, k⟩ := i
    rintro ⟨hp, rfl⟩
    exact ⟨_, hp, rfl⟩

/-- The image with the highest sequence of a list's, the later of two that share it. -/
def bestImage (best : Option (Nat × List KeepEntry × Fin 2)) (i : Nat × List KeepEntry × Fin 2) :
    Option (Nat × List KeepEntry × Fin 2) :=
  match best with
  | none => some i
  | some b => if b.1 ≤ i.1 then some i else some b

theorem newestImage_eq (view : List (Nat × Page)) :
    newestImage view = (imagesOf view 0 ++ imagesOf view 1).foldl bestImage none := rfl

/-- A fold from an image ends at that image or one of the list's, with a sequence at or above all of theirs. -/
theorem foldl_bestImage (l : List (Nat × List KeepEntry × Fin 2)) (b : Nat × List KeepEntry × Fin 2) :
    ∃ i, l.foldl bestImage (some b) = some i ∧ (i = b ∨ i ∈ l) ∧ b.1 ≤ i.1 ∧ ∀ j ∈ l, j.1 ≤ i.1 := by
  induction l generalizing b with
  | nil => exact ⟨b, rfl, .inl rfl, le_refl _, nofun⟩
  | cons a l ih =>
    rw [List.foldl_cons, bestImage]
    by_cases newer : b.1 ≤ a.1
    · rw [if_pos newer]
      obtain ⟨i, fold, from', above, all⟩ := ih a
      refine ⟨i, fold, .inr ?_, newer.trans above, List.forall_mem_cons.2 ⟨above, all⟩⟩
      rcases from' with rfl | later
      · exact List.mem_cons_self
      · exact List.mem_cons_of_mem _ later
    · rw [if_neg newer]
      obtain ⟨i, fold, from', above, all⟩ := ih b
      exact ⟨i, fold, from'.imp_right (List.mem_cons_of_mem _), above, List.forall_mem_cons.2 ⟨by omega, all⟩⟩

/-- Where there is an image, the newest image is one of a keep segment's pages, with a sequence at or above it. -/
theorem newestImage_of_mem {view : List (Nat × Page)} {k : Fin 2} {n : Nat} {entries : List KeepEntry}
    (h : Page.keep n entries ∈ segPages view k.val) :
    ∃ i, newestImage view = some i ∧ n ≤ i.1 ∧ Page.keep i.1 i.2.1 ∈ segPages view i.2.2.val := by
  have listed : (n, entries, k) ∈ imagesOf view 0 ++ imagesOf view 1 := by
    rw [List.mem_append]
    obtain rfl | rfl : k = 0 ∨ k = 1 := by omega
    · exact .inl (mem_imagesOf.2 ⟨h, rfl⟩)
    · exact .inr (mem_imagesOf.2 ⟨h, rfl⟩)
  have stands : ∀ i ∈ imagesOf view 0 ++ imagesOf view 1, Page.keep i.1 i.2.1 ∈ segPages view i.2.2.val := by
    intro i hi
    rcases List.mem_append.1 hi with first | second
    · obtain ⟨page, seg⟩ := mem_imagesOf.1 first
      rw [seg]
      exact page
    · obtain ⟨page, seg⟩ := mem_imagesOf.1 second
      rw [seg]
      exact page
  rw [newestImage_eq]
  cases images : imagesOf view 0 ++ imagesOf view 1 with
  | nil => rw [images] at listed; nomatch listed
  | cons a l =>
    rw [images] at listed stands
    obtain ⟨i, fold, from', above, all⟩ := foldl_bestImage l a
    refine ⟨i, fold, ?_, stands i ?_⟩
    · rcases List.mem_cons.1 listed with rfl | later
      · exact above
      · exact all _ later
    · rcases from' with rfl | later
      · exact List.mem_cons_self
      · exact List.mem_cons_of_mem _ later

/-- A keep segment with a torn first page is STALE. -/
theorem scanKeepSeg_of_torn {view : List (Nat × Page)} {k : Fin 2} (partly : List Nat) (current : Option (Fin 2))
    (torn : getKey (pageKey k 0) view = some .torn) : (scanKeepSeg view partly current k).state = .stale := by
  have head := segPages_head torn
  have damaged : isDamaged partly (segPages view k.val) k.val = true := by
    rw [isDamaged, head]
    exact Bool.or_true _
  have written : segPages view k.val ≠ [] := fun empty => by rw [empty] at head; nomatch head
  rw [scanKeepSeg, damaged, if_neg (fun both => Bool.false_ne_true both.2), if_neg (fun both => written both.1)]

/-! ### Run origin and counters above what is found (R17, R89) -/

theorem le_foldl_max {x : Nat} {l : List Nat} (h : x ∈ l) : x ≤ l.foldl max 0 := by
  rw [List.foldl_eq_foldr]
  exact List.le_max_of_le' 0 h (le_refl x)

/-- A counter set above some sequences is above each, unless it is held at its width. -/
theorem lt_counterAbove {seq : Nat} {seqs : List Nat} (h : seq ∈ seqs) :
    seq < counterAbove seqs ∨ counterAbove seqs = 2 ^ 32 - 1 := by
  have := le_foldl_max h
  unfold counterAbove nextSeq
  omega

/-- The greatest end of a fold is its start or one of the list's, at or above all of them. -/
theorem foldl_greatestEnd (l : List (Nat × Nat)) (m : Nat × Nat) :
    ∃ e, l.foldl (fun m e => if m.1 ≤ e.1 then e else m) m = e ∧ (e = m ∨ e ∈ l) ∧ m.1 ≤ e.1 ∧ ∀ j ∈ l, j.1 ≤ e.1 := by
  induction l generalizing m with
  | nil => exact ⟨m, rfl, .inl rfl, le_refl _, nofun⟩
  | cons a l ih =>
    rw [List.foldl_cons]
    by_cases higher : m.1 ≤ a.1
    · rw [if_pos higher]
      obtain ⟨e, fold, from', above, all⟩ := ih a
      refine ⟨e, fold, .inr ?_, higher.trans above, List.forall_mem_cons.2 ⟨above, all⟩⟩
      rcases from' with rfl | later
      · exact List.mem_cons_self
      · exact List.mem_cons_of_mem _ later
    · rw [if_neg higher]
      obtain ⟨e, fold, from', above, all⟩ := ih m
      exact ⟨e, fold, from'.imp_right (List.mem_cons_of_mem _), above, List.forall_mem_cons.2 ⟨by omega, all⟩⟩

theorem mem_cellEnds {items : List (PageItem × Loc)} {e : Nat × Nat} :
    e ∈ cellEnds items ↔ ∃ i ∈ items, ∃ first block, i.1 = .cells e.2 first block ∧ e.1 = (first + block.length) * e.2 := by
  rw [cellEnds, List.mem_filterMap]
  constructor
  · rintro ⟨i, hi, he⟩
    split at he
    · rename_i pitch first block h
      obtain rfl := Option.some.inj he
      exact ⟨i, hi, first, block, h, rfl⟩
    · nomatch he
  · obtain ⟨upper, pitch⟩ := e
    rintro ⟨i, hi, first, block, h, ends⟩
    refine ⟨i, hi, ?_⟩
    rw [h, show upper = (first + block.length) * pitch from ends]

/-- Every pitch found is positive. -/
def PitchesPositive (items : List (PageItem × Loc)) : Prop := ∀ j ∈ items, ∀ p n b, j.1 = .cells p n b → 0 < p

/-- The multiple of a pitch taken above a place is not below it. -/
theorem le_multiple_above {p : Nat} (h : 0 < p) (x : Nat) : x ≤ (x + p - 1) / p * p := by
  have split := Nat.div_add_mod (x + p - 1) p
  have below := Nat.mod_lt (x + p - 1) h
  rw [Nat.mul_comm] at split
  omega

/-- The run origin is at or above the greatest end of the cells and the greatest end of the records. -/
theorem le_originOf {items : List (PageItem × Loc)} (positive : PitchesPositive items) (outs : List FoundOut) (ins : List FoundIn) :
    (greatestEnd (cellEnds items)).1 ≤ originOf items outs ins
      ∧ (outs.map (fun x => x.record.c1) ++ ins.map (fun x => x.record.w1)).foldl max 0 ≤ originOf items outs ins := by
  obtain ⟨e, fold, from', _, _⟩ := foldl_greatestEnd (cellEnds items) (0, 200)
  have pitch : 0 < e.2 := by
    rcases from' with rfl | found
    · decide
    · obtain ⟨i, hi, first, block, h, _⟩ := mem_cellEnds.1 found
      exact positive i hi _ _ _ h
  have above := le_multiple_above pitch (max e.1
    ((outs.map (fun x => x.record.c1) ++ ins.map (fun x => x.record.w1)).foldl max 0))
  rw [originOf, greatestEnd, fold]
  exact ⟨(le_max_left _ _).trans above, (le_max_right _ _).trans above⟩

/-- The run origin is at or above every end of cells found. -/
theorem cellEnd_le_originOf {items : List (PageItem × Loc)} (positive : PitchesPositive items) (outs : List FoundOut)
    (ins : List FoundIn) {i : PageItem × Loc} (hi : i ∈ items) {p n : Nat} {b : List (List CellEntry)} (h : i.1 = .cells p n b) :
    (n + b.length) * p ≤ originOf items outs ins := by
  obtain ⟨e, fold, _, _, all⟩ := foldl_greatestEnd (cellEnds items) (0, 200)
  have below := all ((n + b.length) * p, p) (mem_cellEnds.2 ⟨i, hi, n, b, h, rfl⟩)
  have top := (le_originOf positive outs ins).1
  rw [greatestEnd, fold] at top
  exact below.trans top

/-- An output record among the items is among the records found. -/
theorem mem_foundOuts {items : List (PageItem × Loc)} {i : PageItem × Loc} (hi : i ∈ items) {r : OutputRecord}
    (h : i.1 = .item (.output r)) : ∃ x ∈ foundOuts items, x.record = r := by
  obtain ⟨k, hk⟩ := List.getElem?_of_mem hi
  refine ⟨⟨r, i.2, k⟩, List.mem_filterMap.2 ⟨(i, k), List.mem_zipIdx_iff_getElem?.2 hk, ?_⟩, rfl⟩
  dsimp only
  rw [h]

/-- An input record among the items is among the records found. -/
theorem mem_foundIns {items : List (PageItem × Loc)} {i : PageItem × Loc} (hi : i ∈ items) {r : InputRecord}
    (h : i.1 = .item (.input r)) : ∃ x ∈ foundIns items, x.record = r := by
  obtain ⟨k, hk⟩ := List.getElem?_of_mem hi
  refine ⟨⟨r, i.2, k⟩, List.mem_filterMap.2 ⟨(i, k), List.mem_zipIdx_iff_getElem?.2 hk, ?_⟩, rfl⟩
  dsimp only
  rw [h]

/-! ### The scan's end (R89) -/

/-- The items that the scan finds. -/
def itemsFound (f : Flash) (failed : List Nat) : List (PageItem × Loc) :=
  scanItems (scanView f failed) (scanSegs (scanView f failed) f.partlyErased)

/-- What the scan's end sets up before it settles. -/
structure ScanReady (failed : List Nat) (s u : State) : Prop where
  station : u.pp.station = .config
  ready : flagSet .ready u = true
  scan : u.ar.scan = none
  stage : u.ar.stage = .normal
  flash : u.flash = s.flash
  cx : u.cx = s.cx
  looped : u.bi.looped = s.bi.looped
  queue : u.ar.writeQueue = s.ar.writeQueue
  origin : u.tiu.runOrigin
    = originOf (itemsFound s.flash failed) (foundOuts (itemsFound s.flash failed)) (foundIns (itemsFound s.flash failed))
  inSeq : u.ca.inSeq
    = counterAbove (inputSeqsNamed (foundOuts (itemsFound s.flash failed)) (foundIns (itemsFound s.flash failed)))
  outSeq : u.ca.outSeq = counterAbove ((foundOuts (itemsFound s.flash failed)).map (fun x => x.record.seq))
  keeps : u.ru.keeps = (newestImage (scanView s.flash failed)).elim [] (fun i => i.2.1)
  imageSeq : u.ar.imageSeq = (newestImage (scanView s.flash failed)).elim 1 (fun i => i.1 + 1)
  keepSegs : u.ar.keepSegs = Vector.ofFn (scanKeepSeg (scanView s.flash failed) s.flash.partlyErased
    ((newestImage (scanView s.flash failed)).map (fun i => i.2.2)))
  segs : u.ar.segs = activateHighest (scanSegs (scanView s.flash failed) s.flash.partlyErased)
  outs : foundOuts (itemsFound s.flash failed) = [] → u.ar.outs = []
  ins : foundIns (itemsFound s.flash failed) = [] → u.ar.ins = []

/-- Without records found no entry is built. -/
theorem buildTables_entries (view : List (Nat × Page)) (s : State) :
    (foundOuts (scanItems view (scanSegs view s.flash.partlyErased)) = [] → (buildTables view s).ar.outs = [])
      ∧ (foundIns (scanItems view (scanSegs view s.flash.partlyErased)) = [] → (buildTables view s).ar.ins = []) := by
  constructor <;> intro nothing <;> simp only [buildTables, refreshSets, nothing] <;> rfl

/-- What the tables built hold that the scan's end speaks of. -/
theorem buildTables_tables (view : List (Nat × Page)) (s : State) :
    (buildTables view s).ca.inSeq
        = counterAbove (inputSeqsNamed (foundOuts (scanItems view (scanSegs view s.flash.partlyErased)))
            (foundIns (scanItems view (scanSegs view s.flash.partlyErased))))
      ∧ (buildTables view s).ca.outSeq
        = counterAbove ((foundOuts (scanItems view (scanSegs view s.flash.partlyErased))).map (fun x => x.record.seq))
      ∧ (buildTables view s).ru.keeps = (newestImage view).elim [] (fun i => i.2.1)
      ∧ (buildTables view s).ar.imageSeq = (newestImage view).elim 1 (fun i => i.1 + 1)
      ∧ (buildTables view s).ar.keepSegs
        = Vector.ofFn (scanKeepSeg view s.flash.partlyErased ((newestImage view).map (fun i => i.2.2)))
      ∧ (buildTables view s).ar.segs = activateHighest (scanSegs view s.flash.partlyErased) := by
  simp only [buildTables, refreshSets, and_self]

/-- While a scan stands its end sets up the station and settles it. -/
theorem exec_scanEnd_of {s : State} {c : Scan} (hc : s.ar.scan = some c) :
    ∃ u, exec .scanEnd s = .next (settle u) ∧ ScanReady c.failed s u := by
  obtain ⟨v, hv⟩ : ∃ v, v = advanceTo (c.began + pageReadTime * scanReadsLeft (scanView s.flash c.failed) s.flash.partlyErased c) s :=
    ⟨_, rfl⟩
  have flash : v.flash = s.flash := by rw [hv]; rfl
  have cx : v.cx = s.cx := by rw [hv]; rfl
  have bi : v.bi = s.bi := by rw [hv]; rfl
  have ar : v.ar = s.ar := by rw [hv]; rfl
  obtain ⟨_, _, cxStands, biStands, _, flashStands, _, queueStands⟩ := buildTables_leaves (scanView s.flash c.failed) v
  obtain ⟨inSeq, outSeq, keeps, imageSeq, keepSegs, segs⟩ := buildTables_tables (scanView s.flash c.failed) v
  obtain ⟨outs, ins⟩ := buildTables_entries (scanView s.flash c.failed) v
  rw [flash] at inSeq outSeq keepSegs segs outs ins
  rw [exec_scanEnd, execScanEnd, hc]
  dsimp only
  rw [← hv]
  generalize buildTables (scanView s.flash c.failed) v = w at *
  refine ⟨_, rfl, ?_⟩
  exact {
    station := rfl
    ready := flagSet_raise_same _ _
    scan := rfl
    stage := rfl
    flash := flashStands.trans flash
    cx := cxStands.trans cx
    looped := congrArg Bi.looped (biStands.trans bi)
    queue := queueStands.trans (congrArg Ar.writeQueue ar)
    origin := rfl
    inSeq := inSeq
    outSeq := outSeq
    keeps := keeps
    imageSeq := imageSeq
    keepSegs := keepSegs
    segs := segs
    outs := outs
    ins := ins }

/-- With nothing queued a settling of the archive leaves its tables. -/
theorem settleArchive_ar {s : State} (h : s.ar.writeQueue = []) : (settleArchive s).ar = s.ar := by
  have noMoment : placeMoment s = s := by rw [placeMoment, h]
  have noDrop : (dropPlaceless s).ar = s.ar := by
    unfold dropPlaceless
    split
    · rw [h]
      exact congrArg (fun q => { s.ar with writeQueue := q }) h.symm
    · rfl
  rw [settleArchive, (raiseConditions_rest _).1, noMoment, noDrop]

/-- A scan that finds no page and no partly erased segment builds empty tables. -/
theorem ScanReady.erased {s u : State} {failed : List Nat} (h : ScanReady failed s u) (erased : s.flash = ⟨[], []⟩)
    (whole : failed = []) :
    u.tiu.runOrigin = 0 ∧ u.ca.inSeq = 1 ∧ u.ca.outSeq = 1 ∧ u.ar.segs = [] ∧ u.ar.outs = [] ∧ u.ar.ins = [] ∧ u.ru.keeps = []
      ∧ u.ar.keepSegs = Vector.replicate 2 ⟨.spare, 0⟩ := by
  have nothing : itemsFound s.flash failed = [] := by rw [erased, whole]; rfl
  obtain ⟨_, _, _, _, _, _, _, _, origin, inSeq, outSeq, keeps, _, keepSegs, segs, outs, ins⟩ := h
  rw [nothing] at origin inSeq outSeq outs ins
  rw [erased, whole] at keeps keepSegs segs
  exact ⟨origin, inSeq, outSeq, segs, outs rfl, ins rfl, keeps, keepSegs.trans (by decide)⟩

/-- Settles O37. A page read is `exec_scanPageRead_of`, its place `scanMoved_ends` and `scanMoved_within`. The scan's end sets up what
`ScanReady` says, and the settling leaves all of it but the archive's tables and the keep list, which it leaves too with nothing looped
back and nothing queued. -/
theorem scanReadsThePagesAndEndsInConfig : Obligations.ScanReadsThePagesAndEndsInConfig := by
  unfold Obligations.ScanReadsThePagesAndEndsInConfig
  refine ⟨fun failed s c hc going => ?_, fun s c items hc found => ?_⟩
  · obtain ⟨view, ran⟩ := exec_scanPageRead_of failed hc going
    obtain ⟨now, tiu, cx, bi, pe, flash, scan, _⟩ :=
      buildTables_leaves view (advanceTo (c.began + 100) { s with ar.scan := some (scanMoved failed s.flash c) })
    refine ⟨_, scanMoved failed s.flash c, ran, scan, rfl, now, buildTables_pp _ _, tiu, cx, bi, pe, .ofFlash flash,
      Scan.advance_failed _ _, fun last => scanMoved_ends going ((endsSegment_iff _ _ _).2 last), fun goesOn below => ?_⟩
    refine scanMoved_within going (Bool.eq_false_iff.2 fun last => ?_)
    rcases (endsSegment_iff _ _ _).1 last with ⟨whole, unfailed, erased⟩ | last
    · rcases goesOn with now | before | written
      · exact absurd (whole.symm.trans now) Bool.false_ne_true
      · exact unfailed before
      · exact written erased
    · omega
  · obtain ⟨u, ran, ready⟩ := exec_scanEnd_of hc
    obtain rfl : items = itemsFound s.flash c.failed := found
    have m := settle_move u
    have tiu := m.tiu
    have ca := m.ca
    refine ⟨settle u, ran, m.station.trans ready.station, m.flags _ ready.ready, m.scan.trans ready.scan, m.stage.trans ready.stage,
      .ofFlash (m.flash.trans ready.flash), m.cx.trans ready.cx, fun i hi r h positive => ?_, fun i hi r h positive => ?_,
      fun i hi p n b h positive => ?_, fun erased whole => ?_, fun k page n entries whole noLoop _ written image => ?_,
      fun k whole torn => ?_⟩
    · obtain ⟨x, hx, rfl⟩ := mem_foundOuts hi h
      rw [tiu, ca, ready.origin, ready.outSeq]
      refine ⟨(le_foldl_max (List.mem_append_left _ ?_)).trans (le_originOf positive _ _).2, lt_counterAbove ?_⟩
      · exact List.mem_map_of_mem (f := fun x : FoundOut => x.record.c1) hx
      · exact List.mem_map_of_mem (f := fun x : FoundOut => x.record.seq) hx
    · obtain ⟨x, hx, rfl⟩ := mem_foundIns hi h
      rw [tiu, ca, ready.origin, ready.inSeq]
      refine ⟨(le_foldl_max (List.mem_append_right _ ?_)).trans (le_originOf positive _ _).2, lt_counterAbove ?_⟩
      · exact List.mem_map_of_mem (f := fun x : FoundIn => x.record.w1) hx
      · exact List.mem_append_left _ (List.mem_map_of_mem (f := fun x : FoundIn => x.record.seq) hx)
    · rw [tiu, ready.origin]
      exact cellEnd_le_originOf positive _ _ hi h
    · obtain ⟨origin, inSeq, outSeq, segs, outs, ins, keeps, keepSegs⟩ := ready.erased erased whole
      rw [tiu, ca]
      refine ⟨origin, inSeq, outSeq, fun noLoop noQueue => ?_⟩
      rw [settle_eq (ready.looped.trans noLoop), settleArchive_ar (ready.queue.trans noQueue), (settleArchive_move u).keeps]
      exact ⟨segs, outs, ins, keeps, keepSegs⟩
    · have held : Page.keep n entries ∈ segPages (scanView s.flash c.failed) k.val := by
        rw [whole]
        refine writtenRun_mem (n := 0) page (by omega) (fun j hj => ?_) ?_
        · rw [Nat.zero_add]
          exact written j hj
        · rw [Nat.zero_add]
          exact image
      obtain ⟨i, newest, above, stands⟩ := newestImage_of_mem held
      obtain ⟨page', place⟩ := getKey_of_mem_writtenRun stands
      rw [whole] at place
      have imageSeq := congrArg (fun v : State => v.ar.imageSeq) m.rest
      have keeps : (settle u).ru.keeps = u.ru.keeps := by
        rw [settle_eq (ready.looped.trans noLoop)]
        exact (settleArchive_move u).keeps
      refine ⟨i.2.2, page', i.1, above, ?_, ?_⟩
      · exact imageSeq.trans (ready.imageSeq.trans (by rw [newest]; rfl))
      · rw [keeps, ready.keeps, newest]
        exact place
    · have keepSegs : (settle u).ar.keepSegs = u.ar.keepSegs := by
        have rest := congrArg (fun v : State => v.ar.keepSegs) m.rest
        exact rest
      rw [keepSegs, ready.keepSegs, Vector.get_eq_getElem, Vector.getElem_ofFn]
      refine scanKeepSeg_of_torn _ _ ?_
      rw [whole]
      exact torn

end Sys2Proof.Machine
end
